-- ==== Sys2Proof/Word.lean ====
section
/-! DEFINITION. The word types of the device (R4) and the shape of its sparse tables. -/

namespace Sys2Proof

/-- 8 bits (R4). -/
abbrev Byte := BitVec 8
/-- 32 bits, a *word* in the manual's sense (R4); also one instruction word (R33). -/
abbrev Word32 := BitVec 32
/-- 64 bits: an integer register, a CSR, a handle. -/
abbrev Word := BitVec 64

/-- A sparse table: entries by number, numbers strictly rising. An unlisted number has the table's own default. -/
abbrev Tbl (α : Type) := List (Nat × α)

/-- An integer, floating-point or vector register number (R35). -/
abbrev Reg := Fin 32
/-- A circular buffer number (R35, class C). -/
abbrev CbN := Fin 16

end Sys2Proof
end

