-- ==== Sys2Proof/Syntax/Operands.lean ====
section
/-! DEFINITION. Operand forms and small codes that instruction words and events carry (R35, R41, R43). -/

namespace Sys2Proof

/-- Formats of MDRAIN (R41, codes 0 to 7). -/
inductive DrainFmt where
  | fp4 | e4m3 | e5m2 | bf16 | fp16 | fp32 | int8 | bpi8
  deriving DecidableEq, Repr

/-- Formats of VCVTN, VCVTW, VBSCALE and of converting copies (R41, codes 0 to 6). -/
inductive NarrowFmt where
  | fp4 | e4m3 | e5m2 | bf16 | fp16 | int8 | int4
  deriving DecidableEq, Repr

/-- Rounding codes of MDRAIN and VCVTN (R41, codes 0 to 4). -/
inductive Rnd where
  | rne | rtz | rdn | rup | sr
  deriving DecidableEq, Repr

/-- Block-scale formats (R59). -/
inductive ScaleFmt where
  | e8m0 | e5m2
  deriving DecidableEq, Repr

/-- An MMA operand source (R40, R195): a circular buffer, or the handle in an x register. -/
inductive MatSrc where
  | cb (n : CbN)
  | handle (r : Reg)
  deriving DecidableEq, Repr

/-- Widths of scalar loads; `flw` and `fld` write an f register (R28). -/
inductive LoadOp where
  | lb | lh | lw | ld | lbu | lhu | lwu | flw | fld
  deriving DecidableEq, Repr

/-- Widths of scalar stores. -/
inductive StoreOp where
  | sb | sh | sw | sd | fsw | fsd
  deriving DecidableEq, Repr

/-- Operations of the A extension other than LR and SC. -/
inductive AmoOp where
  | swap | add | xor | and | or | min | max | minu | maxu
  deriving DecidableEq, Repr

/-- Word or doubleword access of the A extension. -/
inductive AmoW where
  | w | d
  deriving DecidableEq, Repr

/-- Addressing mode of a vector load or store (V 1.0). -/
inductive VMop where
  /-- Unit-stride. -/
  | unit
  /-- Fault-only-first unit-stride (loads only). -/
  | ff
  /-- Whole-register. -/
  | whole
  /-- Mask load or store (EEW 8, EMUL 1). -/
  | mask
  /-- Strided by x[rs2]. -/
  | strided (rs2 : Reg)
  /-- Indexed by vector vs2, unordered or ordered. -/
  | indexed (ordered : Bool) (vs2 : Reg)
  deriving DecidableEq, Repr

/-- One vector load or store word: addressing mode, field count, element width code, mask bit, base, data register. -/
structure VMem where
  mop : VMop
  /-- Fields per segment minus 1 (`nf`). -/
  nf : Fin 8
  /-- Width code: EEW is 8 shifted left by it. -/
  ew : Fin 4
  /-- `vm`: 1 means unmasked. -/
  vm : Bool
  rs1 : Reg
  vd : Reg
  deriving DecidableEq, Repr

/-- The Zicsr operations. -/
inductive CsrOp where
  | rw | rs | rc
  deriving DecidableEq, Repr

/-- Source of a Zicsr operation. -/
inductive CsrSrc where
  | reg (r : Reg)
  | imm (z : Fin 32)
  deriving DecidableEq, Repr

/-- One Zicsr word but for the CSR number. -/
structure CsrArg where
  op : CsrOp
  src : CsrSrc
  rd : Reg
  deriving DecidableEq, Repr

/-- Counts of the CW word (R34). -/
structure WaitArg where
  ld : Fin 8
  st : Fin 8
  cp : Fin 64
  mx : Fin 8
  dp : Fin 8
  sd : Fin 8
  deriving DecidableEq, Repr

end Sys2Proof
end

