-- ==== Sys2Proof/Syntax/Base.lean ====
section
/-! DEFINITION. The base instructions that R28 takes from RISC-V by reference and that have no row of their own in the
opcode table: RV64IM, F, D, the trap returns and V 1.0. `step` runs them beside the instructions of `Instr`. -/

namespace Sys2Proof

/-- Integer operations of RV64I and M. -/
inductive AluOp where
  | add | sub | sll | slt | sltu | xor | srl | sra | or | and
  | mul | mulh | mulhsu | mulhu | div | divu | rem | remu
  deriving DecidableEq, Repr

/-- Conditional branches. -/
inductive BrOp where
  | beq | bne | blt | bge | bltu | bgeu
  deriving DecidableEq, Repr

/-- Scalar floating-point formats. -/
inductive FpFmt where
  | s | d
  deriving DecidableEq, Repr

/-- Two-operand floating-point arithmetic. -/
inductive FpOp where
  | add | sub | mul | div
  deriving DecidableEq, Repr

/-- Fused multiply-add forms. -/
inductive FmaOp where
  | madd | msub | nmsub | nmadd
  deriving DecidableEq, Repr

/-- Sign injection forms. -/
inductive SgnOp where
  | j | jn | jx
  deriving DecidableEq, Repr

/-- Floating-point comparisons. -/
inductive FcmpOp where
  | eq | lt | le
  deriving DecidableEq, Repr

/-- Integer formats of floating-point conversions. -/
inductive IntFmt where
  | w | wu | l | lu
  deriving DecidableEq, Repr

/-- The second source of a vector arithmetic word. -/
inductive VSrc where
  | v (r : Reg)
  | x (r : Reg)
  | f (r : Reg)
  /-- The 5-bit immediate field, not yet extended. -/
  | i (imm : Fin 32)
  deriving DecidableEq, Repr

/-- Vector arithmetic operations of V 1.0, by name. -/
inductive VOp where
  | vadd | vsub | vrsub | vminu | vmin | vmaxu | vmax | vand | vor | vxor
  | vrgather | vrgatherei16 | vslideup | vslidedown
  | vadc | vmadc | vsbc | vmsbc | vmerge
  | vmseq | vmsne | vmsltu | vmslt | vmsleu | vmsle | vmsgtu | vmsgt
  | vsaddu | vsadd | vssubu | vssub | vsll | vsmul | vmvr | vsrl | vsra | vssrl | vssra
  | vnsrl | vnsra | vnclipu | vnclip | vwredsumu | vwredsum
  | vredsum | vredand | vredor | vredxor | vredminu | vredmin | vredmaxu | vredmax
  | vaaddu | vaadd | vasubu | vasub | vslide1up | vslide1down
  | vmvxs | vcpop | vfirst | vmvsx
  | vzext2 | vzext4 | vzext8 | vsext2 | vsext4 | vsext8
  | vmsbf | vmsof | vmsif | viota | vid | vcompress
  | vmandn | vmand | vmor | vmxor | vmorn | vmnand | vmnor | vmxnor
  | vdivu | vdiv | vremu | vrem | vmulhu | vmul | vmulhsu | vmulh
  | vmadd | vnmsub | vmacc | vnmsac
  | vwaddu | vwadd | vwsubu | vwsub | vwadduw | vwaddw | vwsubuw | vwsubw
  | vwmulu | vwmulsu | vwmul | vwmaccu | vwmacc | vwmaccus | vwmaccsu
  | vfadd | vfsub | vfrsub | vfmul | vfdiv | vfrdiv | vfmin | vfmax
  | vfsgnj | vfsgnjn | vfsgnjx | vfslide1up | vfslide1down
  | vfmvfs | vfmvsf | vfmerge
  | vmfeq | vmfle | vmflt | vmfne | vmfgt | vmfge
  | vfmadd | vfnmadd | vfmsub | vfnmsub | vfmacc | vfnmacc | vfmsac | vfnmsac
  | vfredusum | vfredosum | vfredmin | vfredmax | vfwredusum | vfwredosum
  | vfwadd | vfwsub | vfwaddw | vfwsubw | vfwmul | vfwmacc | vfwnmacc | vfwmsac | vfwnmsac
  | vfsqrt | vfrsqrt7 | vfrec7 | vfclass
  | vfcvtxuf | vfcvtxf | vfcvtfxu | vfcvtfx | vfcvtrtzxuf | vfcvtrtzxf
  | vfwcvtxuf | vfwcvtxf | vfwcvtfxu | vfwcvtfx | vfwcvtff | vfwcvtrtzxuf | vfwcvtrtzxf
  | vfncvtxuf | vfncvtxf | vfncvtfxu | vfncvtfx | vfncvtff | vfncvtrodff | vfncvtrtzxuf | vfncvtrtzxf
  deriving DecidableEq, Repr

/-- One vector arithmetic word. -/
structure VArith where
  op : VOp
  /-- `vm`: 1 means unmasked (for the carry and merge forms, that v0 is not read). -/
  vm : Bool
  vs2 : Reg
  src : VSrc
  vd : Reg
  deriving DecidableEq, Repr

/-- The base instructions without a row of their own (R28). Immediates stand as the word's fields give them. -/
inductive Base where
  | lui (rd : Reg) (imm : BitVec 20)
  | auipc (rd : Reg) (imm : BitVec 20)
  | jal (rd : Reg) (imm : BitVec 21)
  | jalr (rd rs1 : Reg) (imm : BitVec 12)
  | branch (op : BrOp) (rs1 rs2 : Reg) (imm : BitVec 13)
  | alu (op : AluOp) (w32 : Bool) (rd rs1 rs2 : Reg)
  | aluImm (op : AluOp) (w32 : Bool) (rd rs1 : Reg) (imm : BitVec 12)
  | ecall
  | ebreak
  | sret
  | mret
  | fma (op : FmaOp) (fmt : FpFmt) (rd rs1 rs2 rs3 : Reg) (rm : Fin 8)
  | farith (op : FpOp) (fmt : FpFmt) (rd rs1 rs2 : Reg) (rm : Fin 8)
  | fsqrt (fmt : FpFmt) (rd rs1 : Reg) (rm : Fin 8)
  | fsgnj (op : SgnOp) (fmt : FpFmt) (rd rs1 rs2 : Reg)
  | fminmax (max : Bool) (fmt : FpFmt) (rd rs1 rs2 : Reg)
  | fcmp (op : FcmpOp) (fmt : FpFmt) (rd rs1 rs2 : Reg)
  | fclass (fmt : FpFmt) (rd rs1 : Reg)
  | fcvtToInt (fmt : FpFmt) (i : IntFmt) (rd rs1 : Reg) (rm : Fin 8)
  | fcvtFromInt (fmt : FpFmt) (i : IntFmt) (rd rs1 : Reg) (rm : Fin 8)
  /-- Conversion into `fmt` from the other format. -/
  | fcvtFmt (fmt : FpFmt) (rd rs1 : Reg) (rm : Fin 8)
  | fmvToX (fmt : FpFmt) (rd rs1 : Reg)
  | fmvFromX (fmt : FpFmt) (rd rs1 : Reg)
  | vsetvli (rd rs1 : Reg) (vtype : BitVec 11)
  | vsetivli (rd : Reg) (avl : Fin 32) (vtype : BitVec 10)
  | vsetvl (rd rs1 rs2 : Reg)
  | varith (a : VArith)
  deriving DecidableEq, Repr

end Sys2Proof
end

