-- ==== Sys2Proof/Syntax/Events.lean ====
section
/-! DEFINITION. What the events of the opcode table carry: the acting agent, the object and the input's own data
(a mailbox register's value, a firmware record, a peer's message). -/

namespace Sys2Proof

/-- What an error in the line cache, or in a line of memory, hits (R172). -/
inductive LineErr where
  /-- Uncorrectable, the data entry that caches the line of this physical address. -/
  | entry (pa : Nat)
  /-- Uncorrectable, the tag of a way of a slice. -/
  | tag (slice set way : Nat)
  /-- A single bit of that data entry, which the slice corrects. -/
  | entryFixed (pa : Nat)
  /-- A single bit of that tag, which the slice corrects. -/
  | tagFixed (slice set way : Nat)
  /-- Uncorrectable, the line in memory: its next read finds it. -/
  | memory (pa : Nat)
  deriving DecidableEq, Repr

/-- What an uncorrectable error in an Aspen hits (R261). -/
inductive AspenErr where
  | acc (cluster a : Nat)
  | wheel (cluster k : Nat)
  deriving DecidableEq, Repr

/-- Why a read of a remote operand panel fails (R201). -/
inductive PanelFail where
  | page | link | ecc | revoked
  deriving DecidableEq, Repr

/-- A line that a read has missed, by an address in it, with the reader's partition identifier (R161, R163). -/
structure FillOf where
  pa : Nat
  pid : Nat
  deriving DecidableEq, Repr

/-- A function of the package with a readiness bit: window and bit of R375. -/
structure FnBit where
  window : Fin 38
  bit : Fin 32
  deriving DecidableEq, Repr

/-- A context record as Larch's install request gives it (R318), with the DEVICE pool ranges (R342: base, bytes), the FREE frames that
become its TABLE frames and its world's DATA frames (R338; log 32), and the values that firmware and the context's S-mode runtime leave
in the trap CSRs of its harts. -/
structure CtxInit where
  world : Fin 64
  root : BitVec 45
  asid : BitVec 16
  pid : Fin 16
  cceil : BitVec 8
  prio : Fin 8
  pool : List (Nat × Nat)
  tables : List Nat
  frames : List Nat
  medeleg : BitVec 64
  mideleg : BitVec 64
  mtvec : BitVec 64
  stvec : BitVec 64
  mie : BitVec 64
  deriving DecidableEq, Repr

/-- A queue assignment (R294). `qkind` 0 FIFO, 1 MINKEY, 2 launch. -/
structure QueueInit where
  qkind : Fin 3
  win : Nat
  cap : Nat
  ctx : Fin 64
  tmpl : BitVec 64
  deriving DecidableEq, Repr

/-- A gate entry (R323) with whether both owners endorsed it. -/
structure GateInit where
  dw0 : BitVec 64
  dw1 : BitVec 64
  dest : BitVec 64
  dw3 : BitVec 64
  endorsed : Bool
  deriving DecidableEq, Repr

/-- A move request from a peer device (R103, R365, R367). `kind` is the handle kind, `ref` marks a remote reference. -/
structure MoveReq where
  port : Fin 16
  /-- Sending device. -/
  src : BitVec 8
  world : Fin 64
  audit : BitVec 48
  /-- Entry index and generation at the sending device. -/
  index : BitVec 24
  gen : BitVec 16
  kind : Fin 3
  units : BitVec 12
  ref : Bool
  length : Nat
  layout : Fin 16
  lparam : BitVec 24
  comp : Fin 8
  /-- Destination laid out as R94. -/
  dest : BitVec 64
  tag : BitVec 60
  /-- Scope the route gives (R25): PEER or POD. -/
  scope : Fin 16
  /-- Export address at the storing device (R367), for a remote reference. -/
  expAddr : Nat
  /-- State of the storing entry, for units: COLLECTING rather than SHARED. -/
  collecting : Bool
  /-- Units that come home to the device that stores the buffer (R367). -/
  home : Bool
  deriving DecidableEq, Repr

/-- An event or an event reply from a peer (R256, R365). `poster` is the device and the logical hart that posted the event; none for a
fan-out. -/
inductive EvtMsg where
  | event (poster : Option (BitVec 8 × BitVec 32)) (world : Fin 64) (addr : BitVec 32) (delay : Nat) (weight : BitVec 32) (returning : Bool)
  | reply (hartloc : BitVec 32) (status : BitVec 64)
  deriving DecidableEq, Repr

/-- A link-class barrier message from a peer (R278), with its world (R365). -/
inductive BarMsg where
  | done (world : Fin 64) (device : BitVec 8) (phase : BitVec 32) (flag : Bool)
  deriving DecidableEq, Repr

/-- Who a drain request or response concerns (R155). -/
inductive DrainAt where
  | cluster (c : Fin 64)
  | port (p : Fin 16)
  deriving DecidableEq, Repr

/-- How a host access comes in: BAR 2 and CXL.mem name DEVICE memory (R363), BAR 0 the mailbox pages and the readiness bits (R359,
R376). -/
inductive HostVia where
  | pcie | cxl | bar0
  deriving DecidableEq, Repr

/-- Which sharer of bandwidth a weight is for, or the context that is assigned to a class (R371). -/
inductive BwUnit where
  | hbm (stack : Fin 8)
  | peer (port : Fin 16)
  | host (port : Fin 2)
  | ctx (n : Fin 64)
  deriving DecidableEq, Repr

/-- A link: a peer port or a host port (R356). -/
inductive PortId where
  | peer (n : Fin 16)
  | host (h : Fin 2)
  deriving DecidableEq, Repr

end Sys2Proof
end

