-- ==== Sys2Proof/Syntax.lean ====
section
/-! DEFINITION. The instructions and events of the opcode table, one constructor per row. The docstring of each names the
rule of the spec that gives its meaning. -/

namespace Sys2Proof

/-- One row of the opcode table with its operands. A register operand is the number its field holds, in the roles of R33.
The rows without operands stand last. -/
inductive Instr where
  /-- BALLOC: Allocates a buffer of the given size and attributes and returns a WHOLE handle or a status (R85). -/
  | balloc (rd rs1 rs2 : Reg)
  /-- BFREE: Gives up a WHOLE, SHARE or NOTICE holding and frees the buffer or returns its units (R86). -/
  | bfree (rs1 : Reg)
  /-- BSPLIT: Divides an OWNED buffer into share units and makes it SHARED with a pending-whole holding (R91). -/
  | bsplit (rd rs1 rs2 : Reg)
  /-- BJOIN: Returns share units at the pending-whole holder and yields the WHOLE handle or PARTIAL (R93). -/
  | bjoin (rd rs1 rs2 : Reg)
  /-- BBASE: Writes the base address of a held buffer (R87). -/
  | bbase (rd rs1 : Reg)
  /-- BLEN: Writes the length of a held buffer (R87). -/
  | blen (rd rs1 : Reg)
  /-- BPROBE: Reports state, level, layout and units of any value without faulting (R88). -/
  | bprobe (rd rs1 : Reg)
  /-- BLAYOUT: Sets the layout of an OWNED buffer and returns the former layout code (R89). -/
  | blayout (rd rs1 rs2 : Reg)
  /-- BMOVE: Moves the storage of an OWNED buffer to another level, keeping index and generation (R90). -/
  | bmove (rd rs1 rs2 : Reg)
  /-- BOPEN: Opens an OWNED buffer as a deposit window of the given units, making it COLLECTING (R106). -/
  | bopen (rd rs1 rs2 : Reg)
  /-- BCLOSE: Closes a deposit window in WAIT or FORCE mode, drains it and returns the final sequence count (R107). -/
  | bclose (rd rs1 rs2 : Reg)
  /-- BGATE: Sends an OWNED buffer through an installed gate, changing its compartment (R105). -/
  | bgate (rd rs1 rs2 : Reg)
  /-- BRECV: Takes the oldest port arrival, installs its holding and writes rcvtag, stalling while empty (R99). -/
  | brecv (rd : Reg)
  /-- BRECV_NB: Takes the oldest port arrival or returns EMPTY without stalling (R99). -/
  | brecvNb (rd : Reg)
  /-- BREVOKE: S-mode revocation of any buffer of the context, making it OWNED by the caller with a new generation (R110). -/
  | brevoke (rd rs1 : Reg)
  /-- BSEND: Releases the rights named by a handle to a hart, queue or host agent destination (R96). -/
  | bsend (rd rs1 rs2 rs3 : Reg)
  /-- BSEND_LOCAL: Sends rights with a byte copy into storage near the receiver (R97). -/
  | bsendLocal (rd rs1 rs2 rs3 : Reg)
  /-- BSEND_REF: Sends rights as a remote reference without moving bytes to another device (R97). -/
  | bsendRef (rd rs1 rs2 rs3 : Reg)
  /-- DSB: Posted byte deposit into a window (R138). -/
  | dsb (rs2 rs1 : Reg) (imm : BitVec 12)
  /-- DSH: Posted half deposit into a window (R138). -/
  | dsh (rs2 rs1 : Reg) (imm : BitVec 12)
  /-- DSW: Posted word deposit into a window (R138). -/
  | dsw (rs2 rs1 : Reg) (imm : BitVec 12)
  /-- DSD: Posted doubleword deposit into a window (R138). -/
  | dsd (rs2 rs1 : Reg) (imm : BitVec 12)
  /-- DSN: Posted nibble deposit into the high or low nibble of a byte (R138). -/
  | dsn (rs2 rs1 : Reg) (imm : BitVec 12)
  /-- DA_ADD_W: Deposited atomic word add (R139). -/
  | daAddW (rd rs1 rs2 : Reg)
  /-- DA_MIN_W: Deposited atomic word signed minimum (R139). -/
  | daMinW (rd rs1 rs2 : Reg)
  /-- DA_MAX_W: Deposited atomic word signed maximum (R139). -/
  | daMaxW (rd rs1 rs2 : Reg)
  /-- DA_MINU_W: Deposited atomic word unsigned minimum (R139). -/
  | daMinuW (rd rs1 rs2 : Reg)
  /-- DA_MAXU_W: Deposited atomic word unsigned maximum (R139). -/
  | daMaxuW (rd rs1 rs2 : Reg)
  /-- DA_AND_W: Deposited atomic word AND (R139). -/
  | daAndW (rd rs1 rs2 : Reg)
  /-- DA_OR_W: Deposited atomic word OR (R139). -/
  | daOrW (rd rs1 rs2 : Reg)
  /-- DA_XOR_W: Deposited atomic word XOR (R139). -/
  | daXorW (rd rs1 rs2 : Reg)
  /-- DA_XCHG_W: Deposited atomic word exchange (R139). -/
  | daXchgW (rd rs1 rs2 : Reg)
  /-- DA_CAS_W: Deposited atomic word compare-and-swap (R139). -/
  | daCasW (rd rs1 rs2 : Reg)
  /-- DA_FADD_W: Deposited atomic FP32 add (R139). -/
  | daFaddW (rd rs1 rs2 : Reg)
  /-- DA_ADD_D: Deposited atomic doubleword add (R139). -/
  | daAddD (rd rs1 rs2 : Reg)
  /-- DA_MIN_D: Deposited atomic doubleword signed minimum (R139). -/
  | daMinD (rd rs1 rs2 : Reg)
  /-- DA_MAX_D: Deposited atomic doubleword signed maximum (R139). -/
  | daMaxD (rd rs1 rs2 : Reg)
  /-- DA_MINU_D: Deposited atomic doubleword unsigned minimum (R139). -/
  | daMinuD (rd rs1 rs2 : Reg)
  /-- DA_MAXU_D: Deposited atomic doubleword unsigned maximum (R139). -/
  | daMaxuD (rd rs1 rs2 : Reg)
  /-- DA_AND_D: Deposited atomic doubleword AND (R139). -/
  | daAndD (rd rs1 rs2 : Reg)
  /-- DA_OR_D: Deposited atomic doubleword OR (R139). -/
  | daOrD (rd rs1 rs2 : Reg)
  /-- DA_XOR_D: Deposited atomic doubleword XOR (R139). -/
  | daXorD (rd rs1 rs2 : Reg)
  /-- DA_XCHG_D: Deposited atomic doubleword exchange (R139). -/
  | daXchgD (rd rs1 rs2 : Reg)
  /-- DA_CAS_D: Deposited atomic doubleword compare-and-swap (R139). -/
  | daCasD (rd rs1 rs2 : Reg)
  /-- DFLUSH: Flushes the hart's deposits to a window, waits for them and returns the rejection count (R154). -/
  | dflush (rd rs1 : Reg)
  /-- MMA_F4F4: Matrix multiply-accumulate of FP4 by FP4 with block scales (R197). -/
  | mmaF4f4 (m : Fin 2) (a b : MatSrc) (fs3 : Reg)
  /-- MMA_F4E4: Matrix multiply-accumulate of FP4 by E4M3 (R197). -/
  | mmaF4e4 (m : Fin 2) (a b : MatSrc) (fs3 : Reg)
  /-- MMA_E4E4: Matrix multiply-accumulate of E4M3 by E4M3 (R197). -/
  | mmaE4e4 (m : Fin 2) (a b : MatSrc) (fs3 : Reg)
  /-- MMA_E4E5: Matrix multiply-accumulate of E4M3 by E5M2 (R197). -/
  | mmaE4e5 (m : Fin 2) (a b : MatSrc) (fs3 : Reg)
  /-- MMA_E5E4: Matrix multiply-accumulate of E5M2 by E4M3 (R197). -/
  | mmaE5e4 (m : Fin 2) (a b : MatSrc) (fs3 : Reg)
  /-- MMA_E5E5: Matrix multiply-accumulate of E5M2 by E5M2 (R197). -/
  | mmaE5e5 (m : Fin 2) (a b : MatSrc) (fs3 : Reg)
  /-- MMA_BFBF: Matrix multiply-accumulate of BF16 by BF16 (R197). -/
  | mmaBfbf (m : Fin 2) (a b : MatSrc) (fs3 : Reg)
  /-- MMA_HFHF: Matrix multiply-accumulate of FP16 by FP16 (R197). -/
  | mmaHfhf (m : Fin 2) (a b : MatSrc) (fs3 : Reg)
  /-- MMA_I8I8: Matrix multiply-accumulate of INT8 by INT8 (R197). -/
  | mmaI8i8 (m : Fin 2) (a b : MatSrc) (fs3 : Reg)
  /-- MMA_I8I4: Matrix multiply-accumulate of INT8 by INT4 (R197). -/
  | mmaI8i4 (m : Fin 2) (a b : MatSrc) (fs3 : Reg)
  /-- MMA_BPI8: Matrix multiply-accumulate of bit-plane A by INT8 B (R197). -/
  | mmaBpi8 (m : Fin 2) (a b : MatSrc) (fs3 : Reg)
  /-- MMA_BPBP: Matrix multiply-accumulate of bit-plane A by bit-plane B (R197). -/
  | mmaBpbp (m : Fin 2) (a b : MatSrc) (fs3 : Reg)
  /-- MZERO: Engine command that sets every accumulator element to +0 (R203). -/
  | mzero (m : Fin 2)
  /-- MCFG: Writes mcfg after checking reserved bits and plane codes (R192). -/
  | mcfg (rs1 : Reg)
  /-- MLDACC: Loads an accumulator image from circular-buffer slots (R203). -/
  | mldacc (m : Fin 2) (cb : CbN)
  /-- MSTACC: Stores an accumulator image into circular-buffer slots (R203). -/
  | mstacc (m : Fin 2) (cb : CbN)
  /-- MDRAIN: Drains an accumulator with residual, dropout, amax and conversion into an output circular buffer (R206). -/
  | mdrain (m : Fin 2) (fmt : DrainFmt) (rnd : Rnd) (out : CbN) (scale : Option CbN)
  /-- VDOTB_FP4: Block-scaled FP4 dot product into an FP32 element (R215). -/
  | vdotbFp4 (vd vs1 vs2 fs3 : Reg)
  /-- VDOTB_E4M3: Block-scaled E4M3 dot product (R215). -/
  | vdotbE4m3 (vd vs1 vs2 fs3 : Reg)
  /-- VDOTB_E5M2: Block-scaled E5M2 dot product (R215). -/
  | vdotbE5m2 (vd vs1 vs2 fs3 : Reg)
  /-- VDOTB_INT8: Block-scaled INT8 dot product (R215). -/
  | vdotbInt8 (vd vs1 vs2 fs3 : Reg)
  /-- VCVTN: Divides FP32 elements by block scales and narrows them to a format with a rounding mode (R217). -/
  | vcvtn (fmt : NarrowFmt) (rnd : Rnd) (vd vs1 vs2 : Reg)
  /-- VCVTW: Widens narrow elements to FP32 multiplied by their block scales (R218). -/
  | vcvtw (fmt : NarrowFmt) (vd vs1 vs2 : Reg)
  /-- VBSCALE: Chooses one block scale per block of 8 FP32 elements for the target format (R216). -/
  | vbscale (sf : ScaleFmt) (vd vs1 : Reg)
  /-- VPLN_PACK: Packs 128 INT8 elements into a bit-plane group of n planes (R219). -/
  | vplnPack (vd vs1 : Reg) (n : Fin 32)
  /-- VPLN_GET: Unpacks a bit-plane group into INT8 elements from n planes (R219). -/
  | vplnGet (vd vs1 : Reg) (n : Fin 32)
  /-- VRNG: Fills a vector register with 16 Philox words from a hart-space stream (R220). -/
  | vrng (vd rs1 : Reg)
  /-- VAMAX: Writes the largest magnitude of n FP32 elements to an f register (R221). -/
  | vamax (fd vs1 : Reg)
  /-- CBCFG: Binds or unbinds a circular buffer over a TILE buffer region (R179). -/
  | cbcfg (cb : CbN) (rs1 rs2 : Reg)
  /-- CBACQ: Waits until the hart's window on a circular buffer reaches n slots (R180). -/
  | cbacq (cb : CbN) (rs1 : Reg)
  /-- CBREL: Hands n slots of the hart's window across to the engines (R180). -/
  | cbrel (cb : CbN) (rs1 : Reg)
  /-- CBQRY: Returns a snapshot of a circular buffer's counts (R182). -/
  | cbqry (rd : Reg) (cb : CbN)
  /-- COPY: Copies elements along a shape record, optionally converting format or layout (R232). -/
  | copy (rd rs1 rs2 rs3 : Reg)
  /-- RED: Reduces source elements into destination elements (R233). -/
  | red (rd rs1 rs2 rs3 : Reg)
  /-- GATH: Gathers source rows named by an index list (R234). -/
  | gath (rd rs1 rs2 rs3 : Reg)
  /-- SCAT: Scatters rows to destination rows named by an index list (R234). -/
  | scat (rd rs1 rs2 rs3 : Reg)
  /-- FILL: Writes a fill value to every destination element (R235). -/
  | fill (rd rs1 rs2 rs3 : Reg)
  /-- CMP: Compares two ranges bit by bit and records the unequal positions (R235). -/
  | cmp (rd rs1 rs2 rs3 : Reg)
  /-- ECFG: Writes an Aspen profile from a record (R254). -/
  | ecfg (p : Fin 16) (rs1 : Reg)
  /-- EBIND: Binds or unbinds a range of accumulators to a profile (R255). -/
  | ebind (rs1 rs2 : Reg)
  /-- EPOST: Posts an event with weight and delay to an accumulator, optionally returning status (R256). -/
  | epost (rd rs1 rs2 : Reg)
  /-- ERECV: Pops the oldest fire record of the hart's world, stalling while none (R257). -/
  | erecv (rd : Reg)
  /-- ERECV_NB: Pops a fire record or returns all ones without stalling (R257). -/
  | erecvNb (rd : Reg)
  /-- ETICK: Ends n ticks of a cluster or shortens an accumulator's refractory count (R258). -/
  | etick (rs1 : Reg)
  /-- ERD: Reads one field of an accumulator (R259). -/
  | erd (rd rs1 : Reg)
  /-- EWR: Writes one field of an accumulator (R259). -/
  | ewr (rs1 rs2 : Reg)
  /-- QPUSH: Pushes an element to a queue or returns FULL (R300). -/
  | qpush (rd rs1 rs2 rs3 : Reg)
  /-- QPUSH_W: Pushes an element, sleeping for room up to a timeout (R300). -/
  | qpushW (rd rs1 rs2 rs3 : Reg)
  /-- QPOP: Pops an element or capability from a queue, stalling while empty (R301). -/
  | qpop (rd rs1 : Reg)
  /-- QPOP_NB: Pops an element or reports empty without stalling (R301). -/
  | qpopNb (rd rs1 : Reg)
  /-- KLAUNCH: Launches a kernel from a descriptor onto its launch queue and returns a ticket (R307). -/
  | klaunch (rd rs1 rs2 : Reg)
  /-- KJOIN: Waits for a child kernel to end, writes its report and frees its slot (R317). -/
  | kjoin (rd rs1 : Reg)
  /-- GJOIN: Joins a group, or picks a free group, and returns its identifier (R266). -/
  | gjoin (rd rs1 : Reg)
  /-- GLEAVE: Leaves a group, counting as an arrival in an open phase (R267). -/
  | gleave (rs1 : Reg)
  /-- GSIZE: Returns a group's member count (R268). -/
  | gsize (rd rs1 : Reg)
  /-- GFUSE: Fuses the harts of a tile mask into a lockstep gang and returns the rank (R269). -/
  | gfuse (rd rs1 : Reg)
  /-- GRANK: Returns the gang rank and size (R273). -/
  | grank (rd : Reg)
  /-- BARR: Arrives at a barrier channel with a flag (R282). -/
  | barr (rs1 rs2 : Reg)
  /-- BARW: Waits for the phase of the hart's arrival and returns phase and flag (R283). -/
  | barw (rd rs1 : Reg)
  /-- BART: Tests a barrier phase without stalling (R284). -/
  | bart (rd rs1 : Reg)
  /-- BARC: S-mode bind or unbind of a barrier channel to a group (R285). -/
  | barc (rs1 rs2 : Reg)
  /-- SV_ADD: Adds to a synchronisation variable (R288). -/
  | svAdd (rd rs1 rs2 : Reg)
  /-- SV_MIN: Signed minimum on a variable (R288). -/
  | svMin (rd rs1 rs2 : Reg)
  /-- SV_MAX: Signed maximum on a variable (R288). -/
  | svMax (rd rs1 rs2 : Reg)
  /-- SV_MINU: Unsigned minimum on a variable (R288). -/
  | svMinu (rd rs1 rs2 : Reg)
  /-- SV_MAXU: Unsigned maximum on a variable (R288). -/
  | svMaxu (rd rs1 rs2 : Reg)
  /-- SV_AND: Bitwise AND on a variable (R288). -/
  | svAnd (rd rs1 rs2 : Reg)
  /-- SV_OR: Bitwise OR on a variable (R288). -/
  | svOr (rd rs1 rs2 : Reg)
  /-- SV_XCHG: Exchange on a variable (R288). -/
  | svXchg (rd rs1 rs2 : Reg)
  /-- SV_CAS: Compare-and-swap on a variable (R288). -/
  | svCas (rd rs1 rs2 : Reg)
  /-- SV_MAXRST: Reads and resets a variable and its error count in one step (R288). -/
  | svMaxrst (rd rs1 rs2 : Reg)
  /-- SV_WAITGE: Waits until a variable is at least a value and returns it (R288). -/
  | svWaitge (rd rs1 rs2 : Reg)
  /-- CMO_CLEAN_HART: Cleans a range in the tile's data L1, optionally dropping instruction L1 (R127). -/
  | cmoCleanHart (rs1 rs2 : Reg)
  /-- CMO_CLEAN_CLUSTER: Cleans a range in the cluster's staging and host-line buffers (R127). -/
  | cmoCleanCluster (rs1 rs2 : Reg)
  /-- CMO_CLEAN_LCACHE: Cleans DEVICE lines of a range in their home slices to HBM (R127). -/
  | cmoCleanLcache (rs1 rs2 : Reg)
  /-- CMO_CLEAN_ALL: Cleans a range at every level to backing memory (R127). -/
  | cmoCleanAll (rs1 rs2 : Reg)
  /-- CMO_CLEAN_REMOTE: Cleans REMOTE lines of a range to the storing device (R127). -/
  | cmoCleanRemote (rs1 rs2 : Reg)
  /-- CMO_INV_HART: Discards a range from the tile's L1 caches (R127). -/
  | cmoInvHart (rs1 rs2 : Reg)
  /-- CMO_INV_CLUSTER: Discards a range from cluster staging buffers (R127). -/
  | cmoInvCluster (rs1 rs2 : Reg)
  /-- CMO_INV_LCACHE: Discards DEVICE lines of a range from the line cache (R127). -/
  | cmoInvLcache (rs1 rs2 : Reg)
  /-- CMO_INV_ALL: Discards a range at every level (R127). -/
  | cmoInvAll (rs1 rs2 : Reg)
  /-- CMO_INV_REMOTE: Discards REMOTE lines of a range from the remote partition (R127). -/
  | cmoInvRemote (rs1 rs2 : Reg)
  /-- CMO_CLINV_HART: Cleans then discards a range in the tile's L1 (R127). -/
  | cmoClinvHart (rs1 rs2 : Reg)
  /-- CMO_CLINV_CLUSTER: Cleans then discards a range in cluster buffers (R127). -/
  | cmoClinvCluster (rs1 rs2 : Reg)
  /-- CMO_CLINV_LCACHE: Cleans then discards DEVICE lines of a range in the line cache (R127). -/
  | cmoClinvLcache (rs1 rs2 : Reg)
  /-- CMO_CLINV_ALL: Cleans then discards a range at every level (R127). -/
  | cmoClinvAll (rs1 rs2 : Reg)
  /-- CMO_CLINV_REMOTE: Cleans then discards REMOTE lines of a range (R127). -/
  | cmoClinvRemote (rs1 rs2 : Reg)
  /-- INVPG: S-mode invalidation of translations of named pages and ASIDs across the device (R343). -/
  | invpg (rs1 rs2 : Reg)
  /-- CTXSAVE: Writes a full or incremental software image of the hart's U-mode state (R334). -/
  | ctxsave (rs1 rs2 : Reg)
  /-- CTXLOAD: Applies a software image to the logical hart (R335). -/
  | ctxload (rs1 : Reg)
  /-- SCRUB: M-mode start of a scrub of a frame range on a stack's channel (R352). -/
  | scrub (rs1 : Reg)
  /-- WAIT: Stalls until each outstanding-operation counter is at or below its field (R132). -/
  | wait (n : WaitArg)
  /-- FENCE: Executes as no operation and orders nothing (R29). -/
  | fence (w : Word32)
  /-- FENCE_I: Raises illegal instruction in every mode (R29). -/
  | fenceI (w : Word32)
  /-- SFENCE_VMA: Raises illegal instruction in every mode, as do SINVAL.VMA and its companions (R29). -/
  | sfenceVma (w : Word32)
  /-- LR: Load-reserved under the load right, reserving the doubleword (R30). -/
  | lr (sz : AmoW) (aq rl : Bool) (rd rs1 : Reg)
  /-- SC: Store-conditional on an OWNED whole buffer with a valid reservation (R30). -/
  | sc (sz : AmoW) (aq rl : Bool) (rd rs1 rs2 : Reg)
  /-- AMO: Atomic memory operation on bytes held WHOLE in OWNED (R30). -/
  | amo (op : AmoOp) (sz : AmoW) (aq rl : Bool) (rd rs1 rs2 : Reg)
  /-- SCALAR_LOAD: Scalar load checked against the hart's capabilities, stalling on LENT bytes (R19). -/
  | scalarLoad (op : LoadOp) (rd rs1 : Reg) (imm : BitVec 12)
  /-- SCALAR_STORE: Scalar store needing a whole OWNED handle, stalling on LENT bytes (R19). -/
  | scalarStore (op : StoreOp) (rs2 rs1 : Reg) (imm : BitVec 12)
  /-- VECTOR_LOAD: Vector load checked element by element against holdings (R209). -/
  | vectorLoad (v : VMem)
  /-- VECTOR_STORE: Vector store checked element by element against holdings (R209). -/
  | vectorStore (v : VMem)
  /-- RESERVED_ENCODING: An unassigned or unsupported encoding raises illegal instruction (R44). -/
  | reservedEncoding (w : Word32)
  /-- MPROG_WRITE: A write of 0 to mprog abandons a suspended direct MMA; other values are ignored (R200). -/
  | mprogWrite (c : CsrArg)
  /-- CTXPID_WRITE: Writing ctxpid stalls while every slice cleans and invalidates the context's tags of the old partition (R162). -/
  | ctxpidWrite (c : CsrArg)
  /-- ETICK_CSR_WRITE: Writing the cluster's tick period resets the timing of later boundaries (R245). -/
  | etickCsrWrite (c : CsrArg)
  /-- CTXCOMP_WRITE: Writing ctxcomp keeps only allocation bits within the ceiling (R320). -/
  | ctxcompWrite (c : CsrArg)
  /-- SATP_WRITE: Writing satp empties the tile's TLB; non-Sv57 modes are ignored (R341). -/
  | satpWrite (c : CsrArg)
  /-- CSR_WRITE: A write to a register that has no behaviour of its own (R45). -/
  | csrWrite (csr : BitVec 12) (c : CsrArg)
  /-- SQTAIL_WRITE: Host write of sqtail makes the device start reading mailbox commands (R359). -/
  | sqtailWrite (agent : Fin 16) (value : BitVec 64)
  /-- CQHEAD_WRITE: Host advance of cqhead frees completion ring space and lets held completions go (R360). -/
  | cqheadWrite (agent : Fin 16) (value : BitVec 64)
  /-- MB_LAUNCH: Mailbox command that launches a kernel for the host agent (R360). -/
  | mbLaunch (agent : Fin 16)
  /-- MB_PUBLISH: Mailbox command that publishes host or pool memory as an OWNED buffer (R361). -/
  | mbPublish (agent : Fin 16)
  /-- MB_UNPUBLISH: Mailbox command that frees a publication (R361). -/
  | mbUnpublish (agent : Fin 16)
  /-- MB_SEND: Mailbox command that sends a held capability (R360). -/
  | mbSend (agent : Fin 16)
  /-- MB_FREE: Mailbox command that frees a holding (R360). -/
  | mbFree (agent : Fin 16)
  /-- MB_SPLIT: Mailbox command that splits a buffer into share units (R360). -/
  | mbSplit (agent : Fin 16)
  /-- MB_JOIN: Mailbox command that joins share units (R360). -/
  | mbJoin (agent : Fin 16)
  /-- HOST_MEM_READ: Host read of DEVICE memory through CXL.mem or BAR 2, checked against agent holdings (R363). -/
  | hostMemRead (port : Fin 2) (pa len : Nat) (via : HostVia)
  /-- HOST_MEM_WRITE: Host write of DEVICE memory, refused without a whole OWNED holding (R363). -/
  | hostMemWrite (port : Fin 2) (pa : Nat) (bytes : List Byte) (via : HostVia)
  /-- ATS_INVALIDATION: Host invalidation of a cached translation, completing after the requests that used it (R364). -/
  | atsInvalidation (port : Fin 2) (addr size : Nat)
  /-- HOST_RESET: Host reset or surprise removal quarantines the agents' HOST buffers and disables rings (R372). -/
  | hostReset (port : Fin 2)
  /-- ENGINE_COMMAND_FIRE: A queued command whose slots are available fires and claims its need (R184). -/
  | engineCommandFire (hartloc id : Nat)
  /-- ENGINE_COMMAND_COMPLETE: A command completes, releasing input slots, committing output slots and returning lends (R185). -/
  | engineCommandComplete (hartloc id : Nat)
  /-- MMA_PANEL_FAULT: A failed read of a remote operand panel traps a direct MMA with progress in mprog (R201). -/
  | mmaPanelFault (hartloc blk : Nat) (why : PanelFail)
  /-- COPY_SEGMENT: The copy engine performs one 64 KiB segment of a copy command (R230). -/
  | copySegment (hartloc ticket : Nat)
  /-- COPY_COMPLETE: A copy ends, writes its completion record, returns buffers and lowers CP (R237). -/
  | copyComplete (hartloc ticket : Nat)
  /-- AGE_LIMIT_REACHED: An aggregation buffer whose oldest slot reaches dagemax leaves as a packet (R143). -/
  | ageLimitReached (cluster buf : Nat)
  /-- DEPOSIT_PACKET: A line home slice receives a deposit packet, checks each slot and performs or rejects it (R147). -/
  | depositPacket (k : Nat)
  /-- DEPOSIT_ACK: An acknowledgement or returning reply reaches the depositor and DP falls (R149). -/
  | depositAck (k : Nat)
  /-- DEPOSIT_REJECTION: A rejection reaches the depositor's tile, which writes a fault record and raises DEPOSIT_FAULT (R151). -/
  | depositRejection (k : Nat)
  /-- DRAIN_REQUEST: A cluster or link receives a window drain request, voids holdings and sends its buffers (R155). -/
  | drainRequest (index : Nat) (dest : DrainAt)
  /-- DRAIN_RESPONSE: The last drain response freezes seq and returns the window to OWNED (R155). -/
  | drainResponse (index : Nat) (dest : DrainAt)
  /-- LINE_FILL: A read miss line returns from HBM and is hashed, shared or made ZERO (R163). -/
  | lineFill (l : FillOf)
  /-- SLICE_WRITE: A write-back, engine write, deposit or host write reaches a slice and is placed or un-shared (R165). -/
  | sliceWrite (tile line : Nat)
  /-- PASS_LINE: An encryption pass re-encrypts one line under its target version and advances its pointer (R349). -/
  | passLine (index : Nat)
  /-- SCRUB_FRAME: A scrub channel drops tags, zeroes one frame and advances ptr (R352). -/
  | scrubFrame (stack : Fin 8)
  /-- TICK_BOUNDARY: A cluster's tick period expires and ends the current tick (R246). -/
  | tickBoundary (cluster : Fin 64)
  /-- EVENT_DELIVER: An event arriving with delay 0 is delivered to its accumulator (R247). -/
  | eventDeliver (k : Nat)
  /-- WHEEL_DELIVER: A delayed event in the timing wheel is delivered in its tick (R247). -/
  | wheelDeliver (cluster : Fin 64) (k : Nat)
  /-- FIRE_ACTION: The fire action records, fans out, pushes to a queue or sends a notice (R250). -/
  | fireAction (cluster : Fin 64)
  /-- LAUNCH_PLACEMENT: Placement logic takes a launch record and places harts on idle tiles (R309). -/
  | launchPlacement (queue : Nat)
  /-- KERNEL_DONE: An EXITING kernel whose sends have committed becomes DONE and returns argument units (R314). -/
  | kernelDone (slot : Nat)
  /-- PREEMPT: The scheduler pre-empts a logical hart, suspends its commands and writes its image (R328). -/
  | preempt (hartloc : Nat)
  /-- RESUME: A pre-empted hart is placed again, its image restored and execution resumed (R328). -/
  | resume (hartloc tile : Nat)
  /-- ARRIVAL_WRITE: An arrival is written to the receiver's port or overflow ring (R101). -/
  | arrivalWrite (k : Nat)
  /-- NOTICE_WRITE: A waiting hardware notice is written once a reserve entry and port room exist (R102). -/
  | noticeWrite (k : Nat)
  /-- BYTE_COPY_COMMIT: A same-device byte copy finishes, frees old storage and posts the arrival (R97). -/
  | byteCopyCommit (index : Nat) (ok : Bool)
  /-- MOVE_REQUEST: A receiving link takes a move request, allocates an ARRIVING entry and acknowledges (R103). -/
  | moveRequest (r : MoveReq)
  /-- MOVE_ACK: The sender link receives the acknowledgement, sends data and commit (R103). -/
  | moveAck (id : Nat)
  /-- MOVE_REFUSAL: A refusal restores the sender's holding and sets BSEND's status (R365). -/
  | moveRefusal (id : Nat) (status : BitVec 64)
  /-- MOVE_DATA: Data of a moved buffer reaches the receiving device (R103). -/
  | moveData (id off : Nat) (bytes : List Byte)
  /-- MOVE_COMMIT: The receiver takes the commit, makes its entry OWNED and writes the arrival (R103). -/
  | moveCommit (id : Nat)
  /-- COMMIT_ACK: The sender link's commit is acknowledged and its entry leaves MOVING (R370). -/
  | commitAck (id : Nat)
  /-- XRD: The storing device resolves a read of an exported range and replies (R367). -/
  | xrd (port : Fin 16) (world : Fin 64) (addr len : Nat)
  /-- XWR: The storing device resolves a write of an exported range (R367). -/
  | xwr (port : Fin 16) (world : Fin 64) (addr : Nat) (bytes : List Byte)
  /-- EVT_MESSAGE: An event or event reply crosses a peer link (R365). -/
  | evtMessage (port : Fin 16) (m : EvtMsg)
  /-- BAR_MESSAGE: A link-class barrier arrival or completion crosses a peer link (R278). -/
  | barMessage (channel : Nat) (m : BarMsg)
  /-- RELAY_PACKET: A relaying device buffers a packet and sends it on its outgoing port (R368). -/
  | relayPacket (port : Fin 16) (dest : BitVec 8) (size : Nat)
  /-- FLIT_RECEIVE: A receiver accepts an authenticated flit with the expected counter or sends the link to RETRAIN (R369). -/
  | flitReceive (port : PortId) (counter : BitVec 64) (auth : Bool)
  /-- LINK_REPLAY: A link-level replay resends stored ciphertext without advancing the counter (R369). -/
  | linkReplay (port : Fin 16)
  /-- TRAINING_START: Larch starts training a link (R356). -/
  | trainingStart (p : PortId)
  /-- LANES_LOCKED: Lanes lock and the peer is identified (R356). -/
  | lanesLocked (p : PortId)
  /-- LINK_KEYS_INSTALLED: Yew installs link keys, making the link KEYED (R356). -/
  | linkKeysInstalled (p : PortId)
  /-- LANE_FAIL: A lane fails or the rate is lowered, making the link DEGRADED (R356). -/
  | laneFail (p : PortId) (lanes : Nat)
  /-- LANES_RECOVERED: Recovered lanes return the link to UP (R356). -/
  | lanesRecovered (p : PortId)
  /-- LINK_FAILURE: Replay exhaustion, authentication failure or counter mismatch sends the link to RETRAIN, failing outstanding requests (R356). -/
  | linkFailure (p : PortId)
  /-- TRAINING_TIMEOUT: Training failing for 100 ms takes the link DOWN (R356). -/
  | trainingTimeout (p : PortId)
  /-- PORT_DISABLE: Larch disables a port, taking it DOWN (R356). -/
  | portDisable (p : PortId)
  /-- PHASE_COMPLETE: A barrier phase completes once every counted member has arrived or left (R278). -/
  | phaseComplete (channel : Nat)
  /-- INDOUBT_RESOLVE: Yew resolves an in-doubt move from the two move-log records (R370). -/
  | indoubtResolve (id : Nat) (committed : Bool)
  /-- CONTEXT_INSTALL: Yew installs a context at Larch's request (R319). -/
  | contextInstall (ctx : Fin 64) (r : CtxInit)
  /-- WORLD_TEARDOWN: Larch requests teardown of a world, which drains, scrubs and frees its contexts (R319). -/
  | worldTeardown (world : Fin 64)
  /-- QUEUE_ASSIGN: Yew installs a queue assignment, emptying the queue (R294). -/
  | queueAssign (n : Nat) (r : QueueInit)
  /-- VARIABLE_ASSIGN: Larch assigns a range of 256 variables to a context, zeroing them (R287). -/
  | variableAssign (ctx : Fin 64) (first count : Nat)
  /-- GATE_INSTALL: Yew installs a gate entry after endorsement (R323). -/
  | gateInstall (n : Fin 1024) (g : GateInit)
  /-- GATE_REMOVE: Yew clears a gate's valid bit (R323). -/
  | gateRemove (n : Fin 1024)
  /-- KEY_SLOT_WRITE: Yew writes a compartment key slot (R322). -/
  | keySlotWrite (slot : Fin 512) (key : BitVec 256)
  /-- ROUTE_PROGRAM: Larch programs a route table entry (R368). -/
  | routeProgram (dest : BitVec 8) (route : BitVec 8)
  /-- WORLD_MAP_INSTALL: Yew installs a peer port world map entry (R366). -/
  | worldMapInstall (port : Fin 16) (src dst : Fin 64)
  /-- HOST_AGENT_ASSIGN: Larch assigns a host agent to a context (R358). -/
  | hostAgentAssign (agent : Fin 16) (ctx : Fin 64)
  /-- POOL_REGION_ASSIGN: Larch assigns a pool region to a context (R362). -/
  | poolRegionAssign (ctx : Fin 64) (base len : Nat)
  /-- LINK_CHANNEL_RESERVE: Larch reserves link-class barrier channels and installs their device set (R277). -/
  | linkChannelReserve (num : Nat) (ctx : Fin 64) (devices : List (BitVec 8))
  /-- PAGE_TABLE_WRITE: Larch writes page tables through its management aperture to TABLE frames (R340). -/
  | pageTableWrite (pa : Nat) (value : BitVec 64)
  /-- PAGE_MIGRATE: Larch and Yew copy a DEVICE page raw to new frames and remap it (R345). -/
  | pageMigrate (ctx : Fin 64) (va newpa : Nat)
  /-- BANDWIDTH_WEIGHT_SET: Larch sets class weights and assigns contexts to classes (R371). -/
  | bandwidthWeightSet (u : BwUnit) (cls : Fin 8) (weight : BitVec 8)
  /-- POWER_CAP_SET: Larch sets the package power cap (R378). -/
  | powerCapSet (watts : Nat)
  /-- OUT_OF_SERVICE: Larch takes a function out of service after an uncorrectable error and clears its readiness bit (R377). -/
  | outOfService (f : FnBit)
  /-- MONITOR_SAMPLE: Every 100 us the monitors sample and may throttle or trip the package (R378). -/
  | monitorSample (cluster : Fin 64) (temp power : Nat) (railOk : Bool)
  /-- TILE_FAULT: An unrecoverable tile error faults its hart and quarantines its buffers (R108). -/
  | tileFault (tile : Nat)
  /-- LINE_ECC_ERROR: An uncorrectable error in a line-cache entry or tag drops, marks or quarantines (R172). -/
  | lineEccError (e : LineErr)
  /-- ACCUMULATOR_ECC: An uncorrectable accumulator or wheel error retires the accumulator or drops the event (R261). -/
  | accumulatorEcc (e : AspenErr)
  /-- VARIABLE_ECC: An uncorrectable error retires a synchronisation variable (R292). -/
  | variableEcc (n : Nat)
  /-- QUEUE_ELEMENT_ECC: An uncorrectable error removes a queue element and quarantines its capability (R303). -/
  | queueElementEcc (n k : Nat)
  /-- FRAME_TABLE_ECC: An uncorrectable frame-table error quarantines covered buffers and retires the frame (R355). -/
  | frameTableEcc (frame : Nat)
  /-- LOAD_DATA_RETURN: The data of an outstanding vector load, or of a scalar load to HOST, POOL or REMOTE bytes, is written to its register and LD falls (R130). -/
  | loadDataReturn (hartloc : Nat)
  /-- STORE_PERFORMED: A store to TILE, CLUSTER, HOST, POOL or REMOTE bytes, or a CMO write-back, is performed at its read point and ST falls (R130). -/
  | storePerformed (hartloc : Nat)
  /-- POSTED_SV_OPERATION: A posted SV.op, or the SV.MAX of an MDRAIN, reaches the synchronisation engine, which performs it or drops and counts it (R289). -/
  | postedSvOperation (k : Nat)
  /-- RINGS_RESTORED: Larch restores the mailbox rings of a host port after a host reset or surprise removal (R372). -/
  | ringsRestored (port : Fin 2)
  /-- SELF_TEST_COMPLETE: A function's self-test ends and sets or leaves its readiness bit (R377). -/
  | selfTestComplete (f : FnBit) (pass : Bool)
  /-- KEXIT: Ends the logical hart after draining its counters and reclaims what it holds (R315). -/
  | kexit
  /-- GSPLIT: Dissolves the gang after its MMAs complete (R272). -/
  | gsplit
  /-- WFI: Waits until an enabled interrupt is pending, as a pre-emption point (R29). -/
  | wfi
  /-- SLOT_ROTATION: Every 4,096 cycles the queue unit unmaps and maps queues onto slots (R296). -/
  | slotRotation
  /-- QPUSH_W_TIMEOUT: A sleeping QPUSH.W reaches 65,536 cycles and returns TIMEOUT or pushes (R300). -/
  | qpushWTimeout
  /-- TAKE_INTERRUPT: An admitted pending interrupt, including local 16 to 18, is taken at a boundary (R326). -/
  | takeInterrupt
  /-- COLD_RESET: Cold reset starts self-tests and Yew starts all scrub channels (R377). -/
  | coldReset
  /-- WARM_RESET: Warm reset restarts functions while scrub channels continue (R354). -/
  | warmReset
  /-- SETTLE_TIMEOUT: 50 ms after reset every function is settled and settled becomes 1 (R377). -/
  | settleTimeout
  /-- LARCH_RESTART: Larch restarts while running state is kept (R374). -/
  | larchRestart
  /-- YEW_RESTART: Yew restarts with a warm reset of the management harts (R374). -/
  | yewRestart
  /-- SAVE_AREA_ECC: An uncorrectable error in a save area faults the logical hart (R336). -/
  | saveAreaEcc
  /-- UNANSWERED_READ: A remote operand read that is never answered ends the direct MMA with a LINK trap (R201). -/
  | unansweredRead
  deriving DecidableEq, Repr

end Sys2Proof
end

