-- ==== Sys2Proof/WellFormed.lean ====
section
/-! DEFINITION. Which terms of `Instr` stand for an instruction word that the maps R39 to R43 and the base set admit. -/

namespace Sys2Proof

/-- A word whose major opcode and funct3 are those given. -/
def wordIs (w : Word32) (op f3 : Nat) : Bool :=
  w.toNat % 128 == op && w.toNat / 4096 % 8 == f3

/-- The static rules of a vector load or store word (V 1.0): whole-register forms have 1, 2, 4 or 8 registers and no mask,
mask forms have one field, element width 8 and no mask. -/
def VMem.wf (v : VMem) (load : Bool) : Bool :=
  match v.mop with
  | .whole => v.vm && (v.nf.val == 0 || v.nf.val == 1 || v.nf.val == 3 || v.nf.val == 7) && (load || v.ew.val == 0)
  | .mask => v.vm && v.nf.val == 0 && v.ew.val == 0
  | .ff => load
  | .unit | .strided _ | .indexed _ _ => true

/-- The CSR numbers whose writes have a row of their own: mprog, ctxpid, etick, ctxcomp and satp. -/
def ownCsr (n : Nat) : Bool :=
  n == 0x808 || n == 0x5C0 || n == 0x807 || n == 0x5C1 || n == 0x180

/-- SFENCE.VMA, SINVAL.VMA, SFENCE.W.INVAL or SFENCE.INVAL.IR (R29). -/
def isSfence (w : Nat) : Bool :=
  w / 2 ^ 25 == 0x09 && w % 2 ^ 15 == 0x73 || w / 2 ^ 25 == 0x0B && w % 2 ^ 15 == 0x73 ||
  w == 0x18000073 || w == 0x18100073

/-- Whether the term is one that the maps admit. R37 gives the forms that need a destination other than x0, R35 the operand
classes. An event carries no word and is always well-formed. -/
def Instr.wf : Instr → Bool
  | .balloc rd _ _ | .bsplit rd _ _ | .bjoin rd _ _ | .bmove rd _ _ | .bopen rd _ _
  | .brecv rd | .brecvNb rd | .brevoke rd _ | .qpop rd _ | .qpopNb rd _ => rd != 0
  | .vdotbFp4 _ a b _ | .vdotbE4m3 _ a b _ | .vdotbE5m2 _ a b _ | .vdotbInt8 _ a b _ =>
    a.val % 2 == 0 && b.val % 2 == 0
  | .vplnPack _ _ n | .vplnGet _ _ n => 2 ≤ n.val && n.val ≤ 8
  | .fence w => wordIs w 0x0F 0
  | .fenceI w => wordIs w 0x0F 1
  | .sfenceVma w => isSfence w.toNat
  | .vectorLoad v => v.wf true
  | .vectorStore v => v.wf false
  | .csrWrite n _ => !ownCsr n.toNat
  | _ => true

end Sys2Proof
end

