-- ==== Sys2Proof/Decode.lean ====
section
/-! DEFINITION. Instruction words (R28, R33 to R44): `decode32`, total on every word, and the encoder of the words that
`Instr` stands for. -/

namespace Sys2Proof

/-- The fields of a word in the formats of R33 and of RISC-V. -/
structure Fields where
  op : Nat
  rd : Reg
  f3 : Nat
  rs1 : Reg
  rs2 : Reg
  rs3 : Reg
  f2 : Nat
  f7 : Nat
  /-- Bits 31 to 20. -/
  immI : BitVec 12
  /-- Bits 31 to 25 above bits 11 to 7. -/
  immS : BitVec 12
  deriving DecidableEq, Repr

/-- `n` bits of `w` from bit `lo` up. -/
def fieldAt (w lo n : Nat) : Nat := w / 2 ^ lo % 2 ^ n

/-- A 5-bit register field from bit `lo` up. -/
def regAt (w lo : Nat) : Reg := ⟨w / 2 ^ lo % 32, Nat.mod_lt _ (by decide)⟩

/-- The fields of a word. -/
def fieldsOf (w : Nat) : Fields where
  op := fieldAt w 0 7
  rd := regAt w 7
  f3 := fieldAt w 12 3
  rs1 := regAt w 15
  rs2 := regAt w 20
  rs3 := regAt w 27
  f2 := fieldAt w 25 2
  f7 := fieldAt w 25 7
  immI := BitVec.ofNat 12 (w / 2 ^ 20)
  immS := BitVec.ofNat 12 (w / 2 ^ 25 * 32 + w / 2 ^ 7 % 32)

/-- `i` where its operand conditions hold. -/
def guardI (c : Bool) (i : Instr) : Option Instr := if c then some i else none

/-- Class C (R35): circular buffer N is encoded 16 + N. -/
def isCb (r : Reg) : Bool := 16 ≤ r.val
/-- The buffer of a class C field. -/
def cbOf (r : Reg) : CbN := ⟨r.val % 16, Nat.mod_lt _ (by decide)⟩
/-- Class A (R35). -/
def isAcc (r : Reg) : Bool := r.val < 2
/-- The accumulator of a class A field. -/
def accOf (r : Reg) : Fin 2 := ⟨r.val % 2, Nat.mod_lt _ (by decide)⟩
/-- Class P (R35). -/
def isProfile (r : Reg) : Bool := r.val < 16
/-- The profile of a class P field. -/
def profileOf (r : Reg) : Fin 16 := ⟨r.val % 16, Nat.mod_lt _ (by decide)⟩
/-- The plane counts of VPLN (R40). -/
def isPlanes (r : Reg) : Bool := 2 ≤ r.val && r.val ≤ 8

/-- custom-0 words of format CR (R39). -/
def decodeCr0 (f : Fields) : Option Instr :=
  match f.f3, f.f7 with
  | 0, 0x00 => guardI (f.rd != 0) (.balloc f.rd f.rs1 f.rs2)
  | 0, 0x01 => guardI (f.rd == 0 && f.rs2 == 0) (.bfree f.rs1)
  | 0, 0x02 => guardI (f.rd != 0) (.bsplit f.rd f.rs1 f.rs2)
  | 0, 0x03 => guardI (f.rd != 0) (.bjoin f.rd f.rs1 f.rs2)
  | 0, 0x04 => guardI (f.rs2 == 0) (.bbase f.rd f.rs1)
  | 0, 0x05 => guardI (f.rs2 == 0) (.blen f.rd f.rs1)
  | 0, 0x06 => guardI (f.rs2 == 0) (.bprobe f.rd f.rs1)
  | 0, 0x07 => some (.blayout f.rd f.rs1 f.rs2)
  | 0, 0x08 => guardI (f.rd != 0) (.bmove f.rd f.rs1 f.rs2)
  | 0, 0x09 => guardI (f.rd != 0) (.bopen f.rd f.rs1 f.rs2)
  | 0, 0x0A => some (.bclose f.rd f.rs1 f.rs2)
  | 0, 0x0B => some (.bgate f.rd f.rs1 f.rs2)
  | 0, 0x0C => guardI (f.rd != 0 && f.rs1 == 0 && f.rs2 == 0) (.brecv f.rd)
  | 0, 0x0D => guardI (f.rd != 0 && f.rs1 == 0 && f.rs2 == 0) (.brecvNb f.rd)
  | 0, 0x0F => guardI (f.rd != 0 && f.rs2 == 0) (.brevoke f.rd f.rs1)
  | 7, 0x00 => some (.daAddW f.rd f.rs1 f.rs2)
  | 7, 0x01 => some (.daMinW f.rd f.rs1 f.rs2)
  | 7, 0x02 => some (.daMaxW f.rd f.rs1 f.rs2)
  | 7, 0x03 => some (.daMinuW f.rd f.rs1 f.rs2)
  | 7, 0x04 => some (.daMaxuW f.rd f.rs1 f.rs2)
  | 7, 0x05 => some (.daAndW f.rd f.rs1 f.rs2)
  | 7, 0x06 => some (.daOrW f.rd f.rs1 f.rs2)
  | 7, 0x07 => some (.daXorW f.rd f.rs1 f.rs2)
  | 7, 0x08 => some (.daXchgW f.rd f.rs1 f.rs2)
  | 7, 0x09 => some (.daCasW f.rd f.rs1 f.rs2)
  | 7, 0x0A => some (.daFaddW f.rd f.rs1 f.rs2)
  | 7, 0x20 => some (.daAddD f.rd f.rs1 f.rs2)
  | 7, 0x21 => some (.daMinD f.rd f.rs1 f.rs2)
  | 7, 0x22 => some (.daMaxD f.rd f.rs1 f.rs2)
  | 7, 0x23 => some (.daMinuD f.rd f.rs1 f.rs2)
  | 7, 0x24 => some (.daMaxuD f.rd f.rs1 f.rs2)
  | 7, 0x25 => some (.daAndD f.rd f.rs1 f.rs2)
  | 7, 0x26 => some (.daOrD f.rd f.rs1 f.rs2)
  | 7, 0x27 => some (.daXorD f.rd f.rs1 f.rs2)
  | 7, 0x28 => some (.daXchgD f.rd f.rs1 f.rs2)
  | 7, 0x29 => some (.daCasD f.rd f.rs1 f.rs2)
  | 7, 0x40 => guardI (f.rs2 == 0) (.dflush f.rd f.rs1)
  | _, _ => none

/-- custom-0 words of format CQ (R39). -/
def decodeCq0 (f : Fields) : Option Instr :=
  match f.f3, f.f2 with
  | 1, 0 => some (.bsend f.rd f.rs1 f.rs2 f.rs3)
  | 1, 1 => some (.bsendLocal f.rd f.rs1 f.rs2 f.rs3)
  | 1, 2 => some (.bsendRef f.rd f.rs1 f.rs2 f.rs3)
  | _, _ => none

/-- custom-0 words of format CS (R39). -/
def decodeCs0 (f : Fields) : Option Instr :=
  match f.f3 with
  | 2 => some (.dsb f.rs2 f.rs1 f.immS)
  | 3 => some (.dsh f.rs2 f.rs1 f.immS)
  | 4 => some (.dsw f.rs2 f.rs1 f.immS)
  | 5 => some (.dsd f.rs2 f.rs1 f.immS)
  | 6 => some (.dsn f.rs2 f.rs1 f.immS)
  | _ => none

/-- custom-0 (R39). -/
def decodeCustom0 (f : Fields) : Option Instr :=
  if f.f3 == 0 || f.f3 == 7 then decodeCr0 f else if f.f3 == 1 then decodeCq0 f else decodeCs0 f

/-- An operand of MMA: a handle register where its f2 bit is set, else class C (R40). -/
def matSrc (handle : Bool) (r : Reg) : Option MatSrc :=
  if handle then some (.handle r) else if isCb r then some (.cb (cbOf r)) else none

/-- MMA pair codes (R41). -/
def mmaPair (code : Nat) (m : Fin 2) (a b : MatSrc) (f : Fields) : Option Instr :=
  match code with
  | 0 => some (.mmaF4f4 m a b f.rs3)
  | 1 => some (.mmaF4e4 m a b f.rs3)
  | 2 => some (.mmaE4e4 m a b f.rs3)
  | 3 => some (.mmaE4e5 m a b f.rs3)
  | 4 => some (.mmaE5e4 m a b f.rs3)
  | 5 => some (.mmaE5e5 m a b f.rs3)
  | 6 => some (.mmaBfbf m a b f.rs3)
  | 7 => some (.mmaHfhf m a b f.rs3)
  | 8 => some (.mmaI8i8 m a b f.rs3)
  | 9 => some (.mmaI8i4 m a b f.rs3)
  | 10 => some (.mmaBpi8 m a b f.rs3)
  | 11 => some (.mmaBpbp m a b f.rs3)
  | _ => none

/-- MMA: the pair code in bits 11 to 8, the accumulator in bit 7 (R40). -/
def decodeMma (f : Fields) : Option Instr :=
  match matSrc (f.f2 % 2 == 1) f.rs1, matSrc (f.f2 / 2 == 1) f.rs2 with
  | some a, some b => mmaPair (f.rd.val / 2) (accOf f.rd) a b f
  | _, _ => none

/-- MDRAIN format codes (R41). -/
def drainFmt : Nat → Option DrainFmt
  | 0 => some .fp4 | 1 => some .e4m3 | 2 => some .e5m2 | 3 => some .bf16 | 4 => some .fp16 | 5 => some .fp32
  | 6 => some .int8 | 7 => some .bpi8 | _ => none
/-- VCVTN and VCVTW format codes (R41). -/
def narrowFmt : Nat → Option NarrowFmt
  | 0 => some .fp4 | 1 => some .e4m3 | 2 => some .e5m2 | 3 => some .bf16 | 4 => some .fp16 | 5 => some .int8
  | 6 => some .int4 | _ => none
/-- Rounding codes (R41). -/
def rndOf : Nat → Option Rnd
  | 0 => some .rne | 1 => some .rtz | 2 => some .rdn | 3 => some .rup | 4 => some .sr | _ => none

/-- MDRAIN: format in funct7 bits 6 to 3, rounding in bits 2 to 0 (R40). -/
def decodeMdrain (f : Fields) : Option Instr :=
  if isAcc f.rd && isCb f.rs1 && (f.rs2 == 0 || isCb f.rs2) then
    match drainFmt (f.f7 / 8), rndOf (f.f7 % 8) with
    | some fmt, some rnd =>
      some (.mdrain (accOf f.rd) fmt rnd (cbOf f.rs1) (if f.rs2 == 0 then none else some (cbOf f.rs2)))
    | _, _ => none
  else none

/-- VCVTN: format in funct7 bits 6 to 4, rounding in bits 3 to 1, bit 0 zero (R40). -/
def decodeVcvtn (f : Fields) : Option Instr :=
  if f.f7 % 2 == 0 then
    match narrowFmt (f.f7 / 16), rndOf (f.f7 / 2 % 8) with
    | some fmt, some rnd => some (.vcvtn fmt rnd f.rd f.rs1 f.rs2)
    | _, _ => none
  else none

/-- VCVTW: format in funct7 bits 6 to 4, the others zero (R40). -/
def decodeVcvtw (f : Fields) : Option Instr :=
  if f.f7 % 16 == 0 then (narrowFmt (f.f7 / 16)).map fun fmt => .vcvtw fmt f.rd f.rs1 f.rs2 else none

/-- VDOTB (R40): even vs1 and vs2. -/
def decodeVdotb (f : Fields) : Option Instr :=
  if f.rs1.val % 2 == 0 && f.rs2.val % 2 == 0 then
    match f.f2 with
    | 0 => some (.vdotbFp4 f.rd f.rs1 f.rs2 f.rs3)
    | 1 => some (.vdotbE4m3 f.rd f.rs1 f.rs2 f.rs3)
    | 2 => some (.vdotbE5m2 f.rd f.rs1 f.rs2 f.rs3)
    | _ => some (.vdotbInt8 f.rd f.rs1 f.rs2 f.rs3)
  else none

/-- VBSCALE: rs2 is 0 for E8M0 and 1 for E5M2 (R40). -/
def decodeVbscale (f : Fields) : Option Instr :=
  match f.rs2.val with
  | 0 => some (.vbscale .e8m0 f.rd f.rs1)
  | 1 => some (.vbscale .e5m2 f.rd f.rs1)
  | _ => none

/-- custom-1 words of format CR (R40). -/
def decodeCr1 (f : Fields) : Option Instr :=
  match f.f3, f.f7 with
  | 1, 0x00 => guardI (isAcc f.rd && f.rs1 == 0 && f.rs2 == 0) (.mzero (accOf f.rd))
  | 1, 0x01 => guardI (f.rd == 0 && f.rs2 == 0) (.mcfg f.rs1)
  | 1, 0x02 => guardI (isAcc f.rd && isCb f.rs1 && f.rs2 == 0) (.mldacc (accOf f.rd) (cbOf f.rs1))
  | 1, 0x03 => guardI (isAcc f.rd && isCb f.rs1 && f.rs2 == 0) (.mstacc (accOf f.rd) (cbOf f.rs1))
  | 7, 0x01 => guardI (isPlanes f.rs2) (.vplnPack f.rd f.rs1 f.rs2)
  | 7, 0x02 => guardI (isPlanes f.rs2) (.vplnGet f.rd f.rs1 f.rs2)
  | 7, 0x03 => guardI (f.rs2 == 0) (.vrng f.rd f.rs1)
  | 7, 0x04 => guardI (f.rs2 == 0) (.vamax f.rd f.rs1)
  | _, _ => none

/-- custom-1 (R40). -/
def decodeCustom1 (f : Fields) : Option Instr :=
  match f.f3 with
  | 0 => decodeMma f
  | 2 => decodeMdrain f
  | 4 => decodeVdotb f
  | 5 => decodeVcvtn f
  | 6 => decodeVcvtw f
  | _ => if f.f3 == 7 && f.f7 == 0 then decodeVbscale f else decodeCr1 f

/-- custom-2 words of format CR (R42). -/
def decodeCr2 (f : Fields) : Option Instr :=
  match f.f3, f.f7 with
  | 0, 0x00 => guardI (isCb f.rd) (.cbcfg (cbOf f.rd) f.rs1 f.rs2)
  | 0, 0x01 => guardI (isCb f.rd && f.rs2 == 0) (.cbacq (cbOf f.rd) f.rs1)
  | 0, 0x02 => guardI (isCb f.rd && f.rs2 == 0) (.cbrel (cbOf f.rd) f.rs1)
  | 0, 0x05 => guardI (isCb f.rs1 && f.rs2 == 0) (.cbqry f.rd (cbOf f.rs1))
  | 3, 0x00 => guardI (isProfile f.rd && f.rs2 == 0) (.ecfg (profileOf f.rd) f.rs1)
  | 3, 0x01 => guardI (f.rd == 0) (.ebind f.rs1 f.rs2)
  | 3, 0x02 => some (.epost f.rd f.rs1 f.rs2)
  | 3, 0x03 => guardI (f.rs1 == 0 && f.rs2 == 0) (.erecv f.rd)
  | 3, 0x04 => guardI (f.rs1 == 0 && f.rs2 == 0) (.erecvNb f.rd)
  | 3, 0x05 => guardI (f.rd == 0 && f.rs2 == 0) (.etick f.rs1)
  | 3, 0x06 => guardI (f.rs2 == 0) (.erd f.rd f.rs1)
  | 3, 0x07 => guardI (f.rd == 0) (.ewr f.rs1 f.rs2)
  | 5, 0x00 => guardI (f.rd != 0 && f.rs2 == 0) (.qpop f.rd f.rs1)
  | 5, 0x01 => guardI (f.rd != 0 && f.rs2 == 0) (.qpopNb f.rd f.rs1)
  | 5, 0x08 => some (.klaunch f.rd f.rs1 f.rs2)
  | 5, 0x09 => guardI (f.rs2 == 0) (.kjoin f.rd f.rs1)
  | 5, 0x0A => guardI (f.rd == 0 && f.rs1 == 0 && f.rs2 == 0) (.kexit)
  | _, _ => none

/-- custom-2 words of format CQ (R42). -/
def decodeCq2 (f : Fields) : Option Instr :=
  match f.f3, f.f2 with
  | 1, 0 => some (.copy f.rd f.rs1 f.rs2 f.rs3)
  | 1, 1 => some (.red f.rd f.rs1 f.rs2 f.rs3)
  | 1, 2 => some (.gath f.rd f.rs1 f.rs2 f.rs3)
  | 1, 3 => some (.scat f.rd f.rs1 f.rs2 f.rs3)
  | 2, 0 => some (.fill f.rd f.rs1 f.rs2 f.rs3)
  | 2, 1 => some (.cmp f.rd f.rs1 f.rs2 f.rs3)
  | 4, 0 => some (.qpush f.rd f.rs1 f.rs2 f.rs3)
  | 4, 1 => some (.qpushW f.rd f.rs1 f.rs2 f.rs3)
  | _, _ => none

/-- custom-2 (R42). -/
def decodeCustom2 (f : Fields) : Option Instr :=
  if f.f3 == 1 || f.f3 == 2 || f.f3 == 4 then decodeCq2 f else decodeCr2 f

/-- custom-3 words of format CR (R43). -/
def decodeCr3 (f : Fields) : Option Instr :=
  match f.f3, f.f7 with
  | 0, 0x00 => guardI (f.rs2 == 0) (.gjoin f.rd f.rs1)
  | 0, 0x01 => guardI (f.rd == 0 && f.rs2 == 0) (.gleave f.rs1)
  | 0, 0x02 => guardI (f.rs2 == 0) (.gsize f.rd f.rs1)
  | 0, 0x03 => guardI (f.rs2 == 0) (.gfuse f.rd f.rs1)
  | 0, 0x04 => guardI (f.rd == 0 && f.rs1 == 0 && f.rs2 == 0) (.gsplit)
  | 0, 0x05 => guardI (f.rs1 == 0 && f.rs2 == 0) (.grank f.rd)
  | 1, 0x00 => guardI (f.rd == 0) (.barr f.rs1 f.rs2)
  | 1, 0x01 => guardI (f.rs2 == 0) (.barw f.rd f.rs1)
  | 1, 0x02 => guardI (f.rs2 == 0) (.bart f.rd f.rs1)
  | 1, 0x03 => guardI (f.rd == 0) (.barc f.rs1 f.rs2)
  | 2, 0x00 => some (.svAdd f.rd f.rs1 f.rs2)
  | 2, 0x01 => some (.svMin f.rd f.rs1 f.rs2)
  | 2, 0x02 => some (.svMax f.rd f.rs1 f.rs2)
  | 2, 0x03 => some (.svMinu f.rd f.rs1 f.rs2)
  | 2, 0x04 => some (.svMaxu f.rd f.rs1 f.rs2)
  | 2, 0x05 => some (.svAnd f.rd f.rs1 f.rs2)
  | 2, 0x06 => some (.svOr f.rd f.rs1 f.rs2)
  | 2, 0x07 => some (.svXchg f.rd f.rs1 f.rs2)
  | 2, 0x08 => some (.svCas f.rd f.rs1 f.rs2)
  | 2, 0x09 => some (.svMaxrst f.rd f.rs1 f.rs2)
  | 2, 0x0A => some (.svWaitge f.rd f.rs1 f.rs2)
  | 4, 0x00 => guardI (f.rd == 0) (.cmoCleanHart f.rs1 f.rs2)
  | 4, 0x01 => guardI (f.rd == 0) (.cmoCleanCluster f.rs1 f.rs2)
  | 4, 0x02 => guardI (f.rd == 0) (.cmoCleanLcache f.rs1 f.rs2)
  | 4, 0x03 => guardI (f.rd == 0) (.cmoCleanAll f.rs1 f.rs2)
  | 4, 0x04 => guardI (f.rd == 0) (.cmoCleanRemote f.rs1 f.rs2)
  | 4, 0x10 => guardI (f.rd == 0) (.cmoInvHart f.rs1 f.rs2)
  | 4, 0x11 => guardI (f.rd == 0) (.cmoInvCluster f.rs1 f.rs2)
  | 4, 0x12 => guardI (f.rd == 0) (.cmoInvLcache f.rs1 f.rs2)
  | 4, 0x13 => guardI (f.rd == 0) (.cmoInvAll f.rs1 f.rs2)
  | 4, 0x14 => guardI (f.rd == 0) (.cmoInvRemote f.rs1 f.rs2)
  | 4, 0x20 => guardI (f.rd == 0) (.cmoClinvHart f.rs1 f.rs2)
  | 4, 0x21 => guardI (f.rd == 0) (.cmoClinvCluster f.rs1 f.rs2)
  | 4, 0x22 => guardI (f.rd == 0) (.cmoClinvLcache f.rs1 f.rs2)
  | 4, 0x23 => guardI (f.rd == 0) (.cmoClinvAll f.rs1 f.rs2)
  | 4, 0x24 => guardI (f.rd == 0) (.cmoClinvRemote f.rs1 f.rs2)
  | 5, 0x00 => guardI (f.rd == 0) (.invpg f.rs1 f.rs2)
  | 5, 0x01 => guardI (f.rd == 0) (.ctxsave f.rs1 f.rs2)
  | 5, 0x02 => guardI (f.rd == 0 && f.rs2 == 0) (.ctxload f.rs1)
  | 5, 0x03 => guardI (f.rd == 0 && f.rs2 == 0) (.scrub f.rs1)
  | _, _ => none

/-- WAIT (R34): bit 7 is a zero field. -/
def decodeWait (w : Nat) : Option Instr :=
  if fieldAt w 7 1 == 0 then
    some (.wait { ld := ⟨w / 2 ^ 8 % 8, Nat.mod_lt _ (by decide)⟩
                  st := ⟨(w / 2 ^ 15 % 4 * 2 + w / 2 ^ 11 % 2) % 8, Nat.mod_lt _ (by decide)⟩
                  cp := ⟨w / 2 ^ 26 % 64, Nat.mod_lt _ (by decide)⟩
                  mx := ⟨w / 2 ^ 23 % 8, Nat.mod_lt _ (by decide)⟩
                  dp := ⟨w / 2 ^ 20 % 8, Nat.mod_lt _ (by decide)⟩
                  sd := ⟨w / 2 ^ 17 % 8, Nat.mod_lt _ (by decide)⟩ })
  else none

/-- custom-3 (R43). -/
def decodeCustom3 (w : Nat) (f : Fields) : Option Instr :=
  if f.f3 == 7 then decodeWait w else decodeCr3 f

/-- Scalar loads (opcode LOAD). -/
def loadOpOf : Nat → Option LoadOp
  | 0 => some .lb | 1 => some .lh | 2 => some .lw | 3 => some .ld | 4 => some .lbu | 5 => some .lhu | 6 => some .lwu
  | _ => none
/-- Scalar stores (opcode STORE). -/
def storeOpOf : Nat → Option StoreOp
  | 0 => some .sb | 1 => some .sh | 2 => some .sw | 3 => some .sd | _ => none
/-- Vector element width codes of the width field. -/
def vewOf : Nat → Option (Fin 4)
  | 0 => some 0 | 5 => some 1 | 6 => some 2 | 7 => some 3 | _ => none

/-- The addressing mode of a vector access word. -/
def vmopOf (load : Bool) (f : Fields) : Option VMop :=
  match f.f7 / 2 % 4 with
  | 0 =>
    match f.rs2.val with
    | 0 => some .unit
    | 8 => some .whole
    | 11 => some .mask
    | 16 => if load then some .ff else none
    | _ => none
  | 1 => some (.indexed false f.rs2)
  | 2 => some (.strided f.rs2)
  | _ => some (.indexed true f.rs2)

/-- A vector load or store word; `mew` set and the forms outside `VMem.wf` are reserved. -/
def decodeVMem (load : Bool) (f : Fields) : Option VMem :=
  match vewOf f.f3, vmopOf load f with
  | some ew, some mop =>
    let v : VMem :=
      { mop := mop, nf := ⟨f.f7 / 16 % 8, Nat.mod_lt _ (by decide)⟩, ew := ew, vm := f.f7 % 2 == 1,
        rs1 := f.rs1, vd := f.rd }
    if f.f7 / 8 % 2 == 0 && v.wf load then some v else none
  | _, _ => none

/-- LOAD-FP: FLW, FLD and the vector loads. -/
def decodeLoadFp (f : Fields) : Option Instr :=
  match f.f3 with
  | 2 => some (.scalarLoad .flw f.rd f.rs1 f.immI)
  | 3 => some (.scalarLoad .fld f.rd f.rs1 f.immI)
  | _ => (decodeVMem true f).map .vectorLoad

/-- STORE-FP: FSW, FSD and the vector stores. -/
def decodeStoreFp (f : Fields) : Option Instr :=
  match f.f3 with
  | 2 => some (.scalarStore .fsw f.rs2 f.rs1 f.immS)
  | 3 => some (.scalarStore .fsd f.rs2 f.rs1 f.immS)
  | _ => (decodeVMem false f).map .vectorStore

/-- AMO operations by funct5. -/
def amoOpOf : Nat → Option AmoOp
  | 0 => some .add | 1 => some .swap | 4 => some .xor | 8 => some .or | 12 => some .and
  | 16 => some .min | 20 => some .max | 24 => some .minu | 28 => some .maxu | _ => none

/-- The A extension. -/
def decodeAmo (f : Fields) : Option Instr :=
  let aq := f.f7 / 2 % 2 == 1
  let rl := f.f7 % 2 == 1
  let sz : Option AmoW := match f.f3 with | 2 => some .w | 3 => some .d | _ => none
  match sz with
  | none => none
  | some sz =>
    match f.f7 / 4 with
    | 2 => guardI (f.rs2 == 0) (.lr sz aq rl f.rd f.rs1)
    | 3 => some (.sc sz aq rl f.rd f.rs1 f.rs2)
    | n => (amoOpOf n).map fun op => .amo op sz aq rl f.rd f.rs1 f.rs2

/-- The Zicsr operation of funct3. -/
def csrOpOf (f3 : Nat) : CsrOp :=
  match f3 % 4 with
  | 1 => .rw | 2 => .rs | _ => .rc

/-- Zicsr words, by the register they name. -/
def csrInstr (n : Nat) (c : CsrArg) : Instr :=
  if n == 0x808 then .mprogWrite c else if n == 0x5C0 then .ctxpidWrite c else if n == 0x807 then .etickCsrWrite c
  else if n == 0x5C1 then .ctxcompWrite c else if n == 0x180 then .satpWrite c else .csrWrite (BitVec.ofNat 12 n) c

/-- The Zicsr argument of a word. -/
def csrArgOf (f : Fields) : CsrArg :=
  { op := csrOpOf f.f3, src := if f.f3 / 4 == 1 then .imm f.rs1 else .reg f.rs1, rd := f.rd }

/-- SYSTEM and MISC-MEM words with a row of the table. -/
def decodeSystem (w : Nat) (f : Fields) : Option Instr :=
  if f.f3 == 0 then
    if w == 0x10500073 then some .wfi
    else if isSfence w then some (.sfenceVma (BitVec.ofNat 32 w))
    else none
  else if f.f3 == 4 then none
  else some (csrInstr (w / 2 ^ 20) (csrArgOf f))

/-- The instruction of the table that a word stands for, if one does. -/
def decodeInstr (w : Nat) : Option Instr :=
  let f := fieldsOf w
  match f.op with
  | 0x0B => decodeCustom0 f
  | 0x2B => decodeCustom1 f
  | 0x5B => decodeCustom2 f
  | 0x7B => decodeCustom3 w f
  | 0x03 => (loadOpOf f.f3).map fun op => .scalarLoad op f.rd f.rs1 f.immI
  | 0x07 => decodeLoadFp f
  | 0x0F => if f.f3 == 0 then some (.fence (BitVec.ofNat 32 w)) else guardI (f.f3 == 1) (.fenceI (BitVec.ofNat 32 w))
  | 0x23 => (storeOpOf f.f3).map fun op => .scalarStore op f.rs2 f.rs1 f.immS
  | 0x27 => decodeStoreFp f
  | 0x2F => decodeAmo f
  | 0x73 => decodeSystem w f
  | _ => none

/-! The base instructions without a row (R28). -/

/-- OP, funct7 0 and 0x20. -/
def aluOpOf (f3 : Nat) (alt : Bool) : Option AluOp :=
  match f3, alt with
  | 0, false => some .add | 0, true => some .sub | 1, false => some .sll | 2, false => some .slt
  | 3, false => some .sltu | 4, false => some .xor | 5, false => some .srl | 5, true => some .sra
  | 6, false => some .or | 7, false => some .and | _, _ => none
/-- OP, funct7 1 (M). -/
def mulOpOf : Nat → AluOp
  | 0 => .mul | 1 => .mulh | 2 => .mulhsu | 3 => .mulhu | 4 => .div | 5 => .divu | 6 => .rem | _ => .remu

/-- OP and OP-32. -/
def decodeOp (w32 : Bool) (f : Fields) : Option Base :=
  let r : Option AluOp :=
    if f.f7 == 0 then aluOpOf f.f3 false else if f.f7 == 0x20 then aluOpOf f.f3 true
    else if f.f7 == 1 then some (mulOpOf f.f3) else none
  match r with
  | none => none
  | some op =>
    let narrow := match op with
      | .add | .sub | .sll | .srl | .sra | .mul | .div | .divu | .rem | .remu => true
      | .slt | .sltu | .xor | .or | .and | .mulh | .mulhsu | .mulhu => false
    if w32 && !narrow then none else some (.alu op w32 f.rd f.rs1 f.rs2)

/-- OP-IMM and OP-IMM-32. ORI to x0, with which Zicbop spells its prefetches, is RV64I's HINT (log 75). -/
def decodeOpImm (w32 : Bool) (f : Fields) : Option Base :=
  let hi := if w32 then f.f7 else f.f7 / 2 * 2
  let op : Option AluOp :=
    match f.f3 with
    | 0 => some .add
    | 1 => if hi == 0 then some .sll else none
    | 5 => if hi == 0 then some .srl else if hi == 0x20 then some .sra else none
    | 2 => if w32 then none else some .slt
    | 3 => if w32 then none else some .sltu
    | 4 => if w32 then none else some .xor
    | 6 => if w32 then none else some .or
    | _ => if w32 then none else some .and
  op.map fun op => .aluImm op w32 f.rd f.rs1 f.immI

/-- Branch conditions by funct3. -/
def brOpOf : Nat → Option BrOp
  | 0 => some .beq | 1 => some .bne | 4 => some .blt | 5 => some .bge | 6 => some .bltu | 7 => some .bgeu | _ => none

/-- The branch offset of a word. -/
def immB (w : Nat) : BitVec 13 :=
  BitVec.ofNat 13 (fieldAt w 31 1 * 2 ^ 12 + fieldAt w 7 1 * 2 ^ 11 + fieldAt w 25 6 * 2 ^ 5 + fieldAt w 8 4 * 2)
/-- The JAL offset of a word. -/
def immJ (w : Nat) : BitVec 21 :=
  BitVec.ofNat 21 (fieldAt w 31 1 * 2 ^ 20 + fieldAt w 12 8 * 2 ^ 12 + fieldAt w 20 1 * 2 ^ 11 + fieldAt w 21 10 * 2)

/-- The scalar floating-point format of a 2-bit field. -/
def fpFmtOf : Nat → Option FpFmt
  | 0 => some .s | 1 => some .d | _ => none
/-- Integer formats of conversions by rs2. -/
def intFmtOf : Nat → Option IntFmt
  | 0 => some .w | 1 => some .wu | 2 => some .l | 3 => some .lu | _ => none

/-- A rounding-mode field. -/
def rmOf (n : Nat) : Fin 8 := ⟨n % 8, Nat.mod_lt _ (by decide)⟩

/-- `b` where its conditions hold. -/
def guardB (c : Bool) (b : Base) : Option Base := if c then some b else none

/-- OP-FP. -/
def decodeOpFp (f : Fields) : Option Base :=
  match fpFmtOf (f.f7 % 4) with
  | none => none
  | some t =>
    let rm := rmOf f.f3
    match f.f7 / 4 with
    | 0 => some (.farith .add t f.rd f.rs1 f.rs2 rm)
    | 1 => some (.farith .sub t f.rd f.rs1 f.rs2 rm)
    | 2 => some (.farith .mul t f.rd f.rs1 f.rs2 rm)
    | 3 => some (.farith .div t f.rd f.rs1 f.rs2 rm)
    | 11 => guardB (f.rs2 == 0) (.fsqrt t f.rd f.rs1 rm)
    | 4 =>
      match f.f3 with
      | 0 => some (.fsgnj .j t f.rd f.rs1 f.rs2)
      | 1 => some (.fsgnj .jn t f.rd f.rs1 f.rs2)
      | 2 => some (.fsgnj .jx t f.rd f.rs1 f.rs2)
      | _ => none
    | 5 => guardB (f.f3 ≤ 1) (.fminmax (f.f3 == 1) t f.rd f.rs1 f.rs2)
    | 8 => guardB (match t with | .s => f.rs2.val == 1 | .d => f.rs2.val == 0) (.fcvtFmt t f.rd f.rs1 rm)
    | 20 =>
      match f.f3 with
      | 0 => some (.fcmp .le t f.rd f.rs1 f.rs2)
      | 1 => some (.fcmp .lt t f.rd f.rs1 f.rs2)
      | 2 => some (.fcmp .eq t f.rd f.rs1 f.rs2)
      | _ => none
    | 24 => (intFmtOf f.rs2.val).map fun i => .fcvtToInt t i f.rd f.rs1 rm
    | 26 => (intFmtOf f.rs2.val).map fun i => .fcvtFromInt t i f.rd f.rs1 rm
    | 28 =>
      if f.rs2 == 0 then
        (match f.f3 with
         | 0 => some (.fmvToX t f.rd f.rs1)
         | 1 => some (.fclass t f.rd f.rs1)
         | _ => none)
      else none
    | 30 => guardB (f.rs2 == 0 && f.f3 == 0) (.fmvFromX t f.rd f.rs1)
    | _ => none

/-- Operations of OPIVV, OPIVX and OPIVI by funct6, with the forms each has. -/
def opiTable : List (Nat × Bool × Bool × Bool × VOp) :=
  [ (0x00, true, true, true, .vadd), (0x02, true, true, false, .vsub), (0x03, false, true, true, .vrsub),
    (0x04, true, true, false, .vminu), (0x05, true, true, false, .vmin), (0x06, true, true, false, .vmaxu),
    (0x07, true, true, false, .vmax), (0x09, true, true, true, .vand), (0x0A, true, true, true, .vor),
    (0x0B, true, true, true, .vxor), (0x0C, true, true, true, .vrgather), (0x0E, true, false, false, .vrgatherei16),
    (0x0E, false, true, true, .vslideup), (0x0F, false, true, true, .vslidedown), (0x10, true, true, true, .vadc),
    (0x11, true, true, true, .vmadc), (0x12, true, true, false, .vsbc), (0x13, true, true, false, .vmsbc),
    (0x17, true, true, true, .vmerge), (0x18, true, true, true, .vmseq), (0x19, true, true, true, .vmsne),
    (0x1A, true, true, false, .vmsltu), (0x1B, true, true, false, .vmslt), (0x1C, true, true, true, .vmsleu),
    (0x1D, true, true, true, .vmsle), (0x1E, false, true, true, .vmsgtu), (0x1F, false, true, true, .vmsgt) ] ++
  [ (0x20, true, true, true, .vsaddu), (0x21, true, true, true, .vsadd), (0x22, true, true, false, .vssubu),
    (0x23, true, true, false, .vssub), (0x25, true, true, true, .vsll), (0x27, true, true, false, .vsmul),
    (0x27, false, false, true, .vmvr), (0x28, true, true, true, .vsrl), (0x29, true, true, true, .vsra),
    (0x2A, true, true, true, .vssrl), (0x2B, true, true, true, .vssra), (0x2C, true, true, true, .vnsrl),
    (0x2D, true, true, true, .vnsra), (0x2E, true, true, true, .vnclipu), (0x2F, true, true, true, .vnclip),
    (0x30, true, false, false, .vwredsumu), (0x31, true, false, false, .vwredsum) ]

/-- Operations of OPMVV and OPMVX by funct6, with the forms each has (the unary groups apart). -/
def opmTable : List (Nat × Bool × Bool × VOp) :=
  [ (0x00, true, false, .vredsum), (0x01, true, false, .vredand), (0x02, true, false, .vredor),
    (0x03, true, false, .vredxor), (0x04, true, false, .vredminu), (0x05, true, false, .vredmin),
    (0x06, true, false, .vredmaxu), (0x07, true, false, .vredmax), (0x08, true, true, .vaaddu), (0x09, true, true, .vaadd),
    (0x0A, true, true, .vasubu), (0x0B, true, true, .vasub), (0x0E, false, true, .vslide1up),
    (0x0F, false, true, .vslide1down), (0x17, true, false, .vcompress), (0x18, true, false, .vmandn),
    (0x19, true, false, .vmand), (0x1A, true, false, .vmor), (0x1B, true, false, .vmxor), (0x1C, true, false, .vmorn),
    (0x1D, true, false, .vmnand), (0x1E, true, false, .vmnor), (0x1F, true, false, .vmxnor) ] ++
  [ (0x20, true, true, .vdivu), (0x21, true, true, .vdiv), (0x22, true, true, .vremu), (0x23, true, true, .vrem),
    (0x24, true, true, .vmulhu), (0x25, true, true, .vmul), (0x26, true, true, .vmulhsu), (0x27, true, true, .vmulh),
    (0x29, true, true, .vmadd), (0x2B, true, true, .vnmsub), (0x2D, true, true, .vmacc), (0x2F, true, true, .vnmsac),
    (0x30, true, true, .vwaddu), (0x31, true, true, .vwadd), (0x32, true, true, .vwsubu), (0x33, true, true, .vwsub),
    (0x34, true, true, .vwadduw), (0x35, true, true, .vwaddw), (0x36, true, true, .vwsubuw), (0x37, true, true, .vwsubw),
    (0x38, true, true, .vwmulu), (0x3A, true, true, .vwmulsu), (0x3B, true, true, .vwmul), (0x3C, true, true, .vwmaccu),
    (0x3D, true, true, .vwmacc), (0x3E, false, true, .vwmaccus), (0x3F, true, true, .vwmaccsu) ]

/-- Operations of OPFVV and OPFVF by funct6, with the forms each has (the unary groups apart). -/
def opfTable : List (Nat × Bool × Bool × VOp) :=
  [ (0x00, true, true, .vfadd), (0x01, true, false, .vfredusum), (0x02, true, true, .vfsub),
    (0x03, true, false, .vfredosum), (0x04, true, true, .vfmin), (0x05, true, false, .vfredmin), (0x06, true, true, .vfmax),
    (0x07, true, false, .vfredmax), (0x08, true, true, .vfsgnj), (0x09, true, true, .vfsgnjn), (0x0A, true, true, .vfsgnjx),
    (0x0E, false, true, .vfslide1up), (0x0F, false, true, .vfslide1down), (0x17, false, true, .vfmerge),
    (0x18, true, true, .vmfeq), (0x19, true, true, .vmfle), (0x1B, true, true, .vmflt), (0x1C, true, true, .vmfne),
    (0x1D, false, true, .vmfgt), (0x1F, false, true, .vmfge) ] ++
  [ (0x20, true, true, .vfdiv), (0x21, false, true, .vfrdiv), (0x24, true, true, .vfmul), (0x27, false, true, .vfrsub),
    (0x28, true, true, .vfmadd), (0x29, true, true, .vfnmadd), (0x2A, true, true, .vfmsub), (0x2B, true, true, .vfnmsub),
    (0x2C, true, true, .vfmacc), (0x2D, true, true, .vfnmacc), (0x2E, true, true, .vfmsac), (0x2F, true, true, .vfnmsac),
    (0x30, true, true, .vfwadd), (0x31, true, false, .vfwredusum), (0x32, true, true, .vfwsub),
    (0x33, true, false, .vfwredosum), (0x34, true, true, .vfwaddw), (0x36, true, true, .vfwsubw), (0x38, true, true, .vfwmul),
    (0x3C, true, true, .vfwmacc), (0x3D, true, true, .vfwnmacc), (0x3E, true, true, .vfwmsac), (0x3F, true, true, .vfwnmsac) ]

/-- The unary groups of OPMVV: VWXUNARY0, VXUNARY0 and VMUNARY0. -/
def opmUnary (f6 vs1 : Nat) : Option VOp :=
  match f6, vs1 with
  | 0x10, 0 => some .vmvxs | 0x10, 16 => some .vcpop | 0x10, 17 => some .vfirst
  | 0x12, 2 => some .vzext8 | 0x12, 3 => some .vsext8 | 0x12, 4 => some .vzext4 | 0x12, 5 => some .vsext4
  | 0x12, 6 => some .vzext2 | 0x12, 7 => some .vsext2
  | 0x14, 1 => some .vmsbf | 0x14, 2 => some .vmsof | 0x14, 3 => some .vmsif | 0x14, 16 => some .viota | 0x14, 17 => some .vid
  | _, _ => none

/-- The unary groups of OPFVV: VWFUNARY0, VFUNARY0 and VFUNARY1. -/
def opfUnary (f6 vs1 : Nat) : Option VOp :=
  match f6, vs1 with
  | 0x10, 0 => some .vfmvfs
  | 0x12, 0 => some .vfcvtxuf | 0x12, 1 => some .vfcvtxf | 0x12, 2 => some .vfcvtfxu | 0x12, 3 => some .vfcvtfx
  | 0x12, 6 => some .vfcvtrtzxuf | 0x12, 7 => some .vfcvtrtzxf
  | 0x12, 8 => some .vfwcvtxuf | 0x12, 9 => some .vfwcvtxf | 0x12, 10 => some .vfwcvtfxu | 0x12, 11 => some .vfwcvtfx
  | 0x12, 12 => some .vfwcvtff | 0x12, 14 => some .vfwcvtrtzxuf | 0x12, 15 => some .vfwcvtrtzxf
  | 0x12, 16 => some .vfncvtxuf | 0x12, 17 => some .vfncvtxf | 0x12, 18 => some .vfncvtfxu | 0x12, 19 => some .vfncvtfx
  | 0x12, 20 => some .vfncvtff | 0x12, 21 => some .vfncvtrodff | 0x12, 22 => some .vfncvtrtzxuf
  | 0x12, 23 => some .vfncvtrtzxf
  | 0x13, 0 => some .vfsqrt | 0x13, 4 => some .vfrsqrt7 | 0x13, 5 => some .vfrec7 | 0x13, 16 => some .vfclass
  | _, _ => none

/-- Whether an operation admits the mask bit and the unused fields that its word has. -/
def varithOk (a : VArith) : Bool :=
  match a.op with
  | .vadc | .vsbc => !a.vm
  | .vmerge | .vfmerge => !a.vm || a.vs2 == 0
  | .vmvr =>
    a.vm && (match a.src with
      | .i n => n.val == 0 || n.val == 1 || n.val == 3 || n.val == 7
      | _ => false)
  | .vmvxs | .vfmvfs | .vcompress | .vmandn | .vmand | .vmor | .vmxor | .vmorn | .vmnand | .vmnor | .vmxnor => a.vm
  | .vmvsx | .vfmvsf => a.vm && a.vs2 == 0
  | .vid => a.vs2 == 0
  | _ => true

/-- The operation of an OP-V arithmetic word. -/
def vopOf (f6 f3 : Nat) (f : Fields) : Option VOp :=
  match f3 with
  | 0 => (opiTable.find? fun t => t.1 == f6 && t.2.1).map (·.2.2.2.2)
  | 3 => (opiTable.find? fun t => t.1 == f6 && t.2.2.2.1).map (·.2.2.2.2)
  | 4 => (opiTable.find? fun t => t.1 == f6 && t.2.2.1).map (·.2.2.2.2)
  | 2 =>
    if f6 == 0x10 || f6 == 0x12 || f6 == 0x14 then opmUnary f6 f.rs1.val
    else (opmTable.find? fun t => t.1 == f6 && t.2.1).map (·.2.2.2)
  | 6 => if f6 == 0x10 then some .vmvsx else (opmTable.find? fun t => t.1 == f6 && t.2.2.1).map (·.2.2.2)
  | 1 =>
    if f6 == 0x10 || f6 == 0x12 || f6 == 0x13 then opfUnary f6 f.rs1.val
    else (opfTable.find? fun t => t.1 == f6 && t.2.1).map (·.2.2.2)
  | _ => if f6 == 0x10 then some .vfmvsf else (opfTable.find? fun t => t.1 == f6 && t.2.2.1).map (·.2.2.2)

/-- The second source of an OP-V arithmetic word. -/
def vsrcOf (f : Fields) : VSrc :=
  match f.f3 with
  | 3 => .i f.rs1
  | 4 | 6 => .x f.rs1
  | 5 => .f f.rs1
  | _ => .v f.rs1

/-- OP-V. -/
def decodeOpV (w : Nat) (f : Fields) : Option Base :=
  if f.f3 == 7 then
    if f.f7 / 64 == 0 then some (.vsetvli f.rd f.rs1 (BitVec.ofNat 11 (w / 2 ^ 20)))
    else if f.f7 / 32 == 3 then some (.vsetivli f.rd f.rs1 (BitVec.ofNat 10 (w / 2 ^ 20)))
    else guardB (f.f7 == 0x40) (.vsetvl f.rd f.rs1 f.rs2)
  else
    match vopOf (f.f7 / 2) f.f3 f with
    | none => none
    | some op =>
      let a : VArith := { op := op, vm := f.f7 % 2 == 1, vs2 := f.rs2, src := vsrcOf f, vd := f.rd }
      guardB (varithOk a) (.varith a)

/-- A fused multiply-add word. -/
def decodeFma (op : FmaOp) (f : Fields) : Option Base :=
  (fpFmtOf f.f2).map fun t => .fma op t f.rd f.rs1 f.rs2 f.rs3 (rmOf f.f3)

/-- The base instruction without a row that a word stands for, if one does. -/
def decodeBase (w : Nat) : Option Base :=
  let f := fieldsOf w
  match f.op with
  | 0x13 => decodeOpImm false f
  | 0x1B => decodeOpImm true f
  | 0x33 => decodeOp false f
  | 0x3B => decodeOp true f
  | 0x17 => some (.auipc f.rd (BitVec.ofNat 20 (w / 2 ^ 12)))
  | 0x37 => some (.lui f.rd (BitVec.ofNat 20 (w / 2 ^ 12)))
  | 0x43 => decodeFma .madd f
  | 0x47 => decodeFma .msub f
  | 0x4B => decodeFma .nmsub f
  | 0x4F => decodeFma .nmadd f
  | 0x53 => decodeOpFp f
  | 0x57 => decodeOpV w f
  | 0x63 => (brOpOf f.f3).map fun op => .branch op f.rs1 f.rs2 (immB w)
  | 0x67 => guardB (f.f3 == 0) (.jalr f.rd f.rs1 f.immI)
  | 0x6F => some (.jal f.rd (immJ w))
  | 0x73 =>
    if w == 0x00000073 then some .ecall else if w == 0x00100073 then some .ebreak
    else if w == 0x10200073 then some .sret else guardB (w == 0x30200073) .mret
  | _ => none

/-- What a word decodes to. -/
inductive Decoded where
  /-- An instruction of the table. -/
  | instr (i : Instr)
  /-- A base instruction without a row. -/
  | base (b : Base)
  /-- A reserved or unsupported encoding (R35, R44); `step` then runs `Instr.reservedEncoding`. -/
  | reserved
  deriving DecidableEq, Repr

/-- The decoder: total on every word. -/
def decode32 (w : Word32) : Decoded :=
  match decodeInstr w.toNat with
  | some i => .instr i
  | none =>
    match decodeBase w.toNat with
    | some b => .base b
    | none => .reserved

/-- The instruction of a word whose bits are numbered as the opcode table numbers them; every word has 32 bits (R33). -/
def decodeTableWord (nbits w : Nat) : Option Instr :=
  if nbits ≤ 32 then
    match decode32 (BitVec.ofNat 32 w) with
    | .instr i => some i
    | .base _ => none
    | .reserved => none
  else none

/-! The encoder, from the same maps. -/

/-- A CR word (R33). -/
def crWord (op f3 f7 rd rs1 rs2 : Nat) : Word32 :=
  BitVec.ofNat 32 (op + rd * 2 ^ 7 + f3 * 2 ^ 12 + rs1 * 2 ^ 15 + rs2 * 2 ^ 20 + f7 * 2 ^ 25)
/-- A CQ word (R33). -/
def cqWord (op f3 f2 rd rs1 rs2 rs3 : Nat) : Word32 :=
  BitVec.ofNat 32 (op + rd * 2 ^ 7 + f3 * 2 ^ 12 + rs1 * 2 ^ 15 + rs2 * 2 ^ 20 + f2 * 2 ^ 25 + rs3 * 2 ^ 27)
/-- A CS word (R33). -/
def csWord (op f3 rs2 rs1 imm : Nat) : Word32 :=
  BitVec.ofNat 32 (op + imm % 32 * 2 ^ 7 + f3 * 2 ^ 12 + rs1 * 2 ^ 15 + rs2 * 2 ^ 20 + imm / 32 * 2 ^ 25)
/-- An I-type word. -/
def iWord (op f3 rd rs1 imm : Nat) : Word32 :=
  BitVec.ofNat 32 (op + rd * 2 ^ 7 + f3 * 2 ^ 12 + rs1 * 2 ^ 15 + imm * 2 ^ 20)

/-- The f2 bit of an MMA operand (R40). -/
def MatSrc.isHandle : MatSrc → Nat
  | .cb _ => 0
  | .handle _ => 1
/-- The register field of an MMA operand (R40). -/
def MatSrc.field : MatSrc → Nat
  | .cb n => 16 + n.val
  | .handle r => r.val
/-- An MMA word (R40). -/
def mmaWord (pair : Nat) (m : Fin 2) (a b : MatSrc) (f : Reg) : Word32 :=
  cqWord 0x2B 0 (a.isHandle + 2 * b.isHandle) (pair * 2 + m.val) a.field b.field f.val

/-- The code of an MDRAIN format (R41). -/
def DrainFmt.code : DrainFmt → Nat
  | .fp4 => 0 | .e4m3 => 1 | .e5m2 => 2 | .bf16 => 3 | .fp16 => 4 | .fp32 => 5 | .int8 => 6 | .bpi8 => 7
/-- The code of a narrow format (R41). -/
def NarrowFmt.code : NarrowFmt → Nat
  | .fp4 => 0 | .e4m3 => 1 | .e5m2 => 2 | .bf16 => 3 | .fp16 => 4 | .int8 => 5 | .int4 => 6
/-- The code of a rounding (R41). -/
def Rnd.code : Rnd → Nat
  | .rne => 0 | .rtz => 1 | .rdn => 2 | .rup => 3 | .sr => 4
/-- The code of a scale format (R40). -/
def ScaleFmt.code : ScaleFmt → Nat
  | .e8m0 => 0 | .e5m2 => 1

/-- The major opcode of a scalar load. -/
def LoadOp.opcode : LoadOp → Nat
  | .flw | .fld => 0x07
  | .lb | .lh | .lw | .ld | .lbu | .lhu | .lwu => 0x03
/-- funct3 of a scalar load. -/
def LoadOp.f3 : LoadOp → Nat
  | .lb => 0 | .lh => 1 | .lw => 2 | .ld => 3 | .lbu => 4 | .lhu => 5 | .lwu => 6 | .flw => 2 | .fld => 3
/-- The major opcode of a scalar store. -/
def StoreOp.opcode : StoreOp → Nat
  | .fsw | .fsd => 0x27
  | .sb | .sh | .sw | .sd => 0x23
/-- funct3 of a scalar store. -/
def StoreOp.f3 : StoreOp → Nat
  | .sb => 0 | .sh => 1 | .sw => 2 | .sd => 3 | .fsw => 2 | .fsd => 3
/-- funct5 of an AMO. -/
def AmoOp.f5 : AmoOp → Nat
  | .add => 0 | .swap => 1 | .xor => 4 | .or => 8 | .and => 12 | .min => 16 | .max => 20 | .minu => 24 | .maxu => 28
/-- funct3 of an A-extension word. -/
def AmoW.f3 : AmoW → Nat
  | .w => 2 | .d => 3
/-- 1 for true. -/
def bitOf (b : Bool) : Nat := if b then 1 else 0
/-- An A-extension word. -/
def amoWord (f5 : Nat) (sz : AmoW) (aq rl : Bool) (rd rs1 rs2 : Nat) : Word32 :=
  crWord 0x2F sz.f3 (f5 * 4 + bitOf aq * 2 + bitOf rl) rd rs1 rs2

/-- The width field of a vector element width code. -/
def vewField : Fin 4 → Nat
  | 0 => 0 | 1 => 5 | 2 => 6 | 3 => 7
/-- The mop field of an addressing mode. -/
def VMop.mopField : VMop → Nat
  | .unit | .ff | .whole | .mask => 0
  | .indexed false _ => 1
  | .strided _ => 2
  | .indexed true _ => 3
/-- The rs2 field of an addressing mode. -/
def VMop.rs2Field : VMop → Nat
  | .unit => 0 | .whole => 8 | .mask => 11 | .ff => 16 | .strided r => r.val | .indexed _ r => r.val
/-- A vector load or store word. -/
def vmemWord (op : Nat) (v : VMem) : Word32 :=
  crWord op (vewField v.ew) (v.nf.val * 16 + v.mop.mopField * 2 + bitOf v.vm) v.vd.val v.rs1.val v.mop.rs2Field

/-- funct3 of a Zicsr word. -/
def CsrArg.f3 (c : CsrArg) : Nat :=
  (match c.op with | .rw => 1 | .rs => 2 | .rc => 3) + (match c.src with | .reg _ => 0 | .imm _ => 4)
/-- The rs1 field of a Zicsr word. -/
def CsrArg.field (c : CsrArg) : Nat :=
  match c.src with | .reg r => r.val | .imm z => z.val
/-- A Zicsr word. -/
def csrWord (n : Nat) (c : CsrArg) : Word32 := iWord 0x73 c.f3 c.rd.val c.field n

/-- A WAIT word (R34). -/
def waitWord (n : WaitArg) : Word32 :=
  BitVec.ofNat 32 (0x7B + n.ld.val * 2 ^ 8 + n.st.val % 2 * 2 ^ 11 + 7 * 2 ^ 12 + n.st.val / 2 * 2 ^ 15 + n.sd.val * 2 ^ 17 +
    n.dp.val * 2 ^ 20 + n.mx.val * 2 ^ 23 + n.cp.val * 2 ^ 26)

/-- The word of an instruction; `none` for an event, which has no word, and for a reserved encoding, whose word is not made
from fields. -/
def encode : Instr → Option Word32
  | .balloc rd rs1 rs2 => some (crWord 0x0B 0 0x00 rd.val rs1.val rs2.val)
  | .bfree rs1 => some (crWord 0x0B 0 0x01 0 rs1.val 0)
  | .bsplit rd rs1 rs2 => some (crWord 0x0B 0 0x02 rd.val rs1.val rs2.val)
  | .bjoin rd rs1 rs2 => some (crWord 0x0B 0 0x03 rd.val rs1.val rs2.val)
  | .bbase rd rs1 => some (crWord 0x0B 0 0x04 rd.val rs1.val 0)
  | .blen rd rs1 => some (crWord 0x0B 0 0x05 rd.val rs1.val 0)
  | .bprobe rd rs1 => some (crWord 0x0B 0 0x06 rd.val rs1.val 0)
  | .blayout rd rs1 rs2 => some (crWord 0x0B 0 0x07 rd.val rs1.val rs2.val)
  | .bmove rd rs1 rs2 => some (crWord 0x0B 0 0x08 rd.val rs1.val rs2.val)
  | .bopen rd rs1 rs2 => some (crWord 0x0B 0 0x09 rd.val rs1.val rs2.val)
  | .bclose rd rs1 rs2 => some (crWord 0x0B 0 0x0A rd.val rs1.val rs2.val)
  | .bgate rd rs1 rs2 => some (crWord 0x0B 0 0x0B rd.val rs1.val rs2.val)
  | .brecv rd => some (crWord 0x0B 0 0x0C rd.val 0 0)
  | .brecvNb rd => some (crWord 0x0B 0 0x0D rd.val 0 0)
  | .brevoke rd rs1 => some (crWord 0x0B 0 0x0F rd.val rs1.val 0)
  | .daAddW rd rs1 rs2 => some (crWord 0x0B 7 0x00 rd.val rs1.val rs2.val)
  | .daMinW rd rs1 rs2 => some (crWord 0x0B 7 0x01 rd.val rs1.val rs2.val)
  | .daMaxW rd rs1 rs2 => some (crWord 0x0B 7 0x02 rd.val rs1.val rs2.val)
  | .daMinuW rd rs1 rs2 => some (crWord 0x0B 7 0x03 rd.val rs1.val rs2.val)
  | .daMaxuW rd rs1 rs2 => some (crWord 0x0B 7 0x04 rd.val rs1.val rs2.val)
  | .daAndW rd rs1 rs2 => some (crWord 0x0B 7 0x05 rd.val rs1.val rs2.val)
  | .daOrW rd rs1 rs2 => some (crWord 0x0B 7 0x06 rd.val rs1.val rs2.val)
  | .daXorW rd rs1 rs2 => some (crWord 0x0B 7 0x07 rd.val rs1.val rs2.val)
  | .daXchgW rd rs1 rs2 => some (crWord 0x0B 7 0x08 rd.val rs1.val rs2.val)
  | .daCasW rd rs1 rs2 => some (crWord 0x0B 7 0x09 rd.val rs1.val rs2.val)
  | .daFaddW rd rs1 rs2 => some (crWord 0x0B 7 0x0A rd.val rs1.val rs2.val)
  | .daAddD rd rs1 rs2 => some (crWord 0x0B 7 0x20 rd.val rs1.val rs2.val)
  | .daMinD rd rs1 rs2 => some (crWord 0x0B 7 0x21 rd.val rs1.val rs2.val)
  | .daMaxD rd rs1 rs2 => some (crWord 0x0B 7 0x22 rd.val rs1.val rs2.val)
  | .daMinuD rd rs1 rs2 => some (crWord 0x0B 7 0x23 rd.val rs1.val rs2.val)
  | .daMaxuD rd rs1 rs2 => some (crWord 0x0B 7 0x24 rd.val rs1.val rs2.val)
  | .daAndD rd rs1 rs2 => some (crWord 0x0B 7 0x25 rd.val rs1.val rs2.val)
  | .daOrD rd rs1 rs2 => some (crWord 0x0B 7 0x26 rd.val rs1.val rs2.val)
  | .daXorD rd rs1 rs2 => some (crWord 0x0B 7 0x27 rd.val rs1.val rs2.val)
  | .daXchgD rd rs1 rs2 => some (crWord 0x0B 7 0x28 rd.val rs1.val rs2.val)
  | .daCasD rd rs1 rs2 => some (crWord 0x0B 7 0x29 rd.val rs1.val rs2.val)
  | .dflush rd rs1 => some (crWord 0x0B 7 0x40 rd.val rs1.val 0)
  | .bsend rd rs1 rs2 rs3 => some (cqWord 0x0B 1 0 rd.val rs1.val rs2.val rs3.val)
  | .bsendLocal rd rs1 rs2 rs3 => some (cqWord 0x0B 1 1 rd.val rs1.val rs2.val rs3.val)
  | .bsendRef rd rs1 rs2 rs3 => some (cqWord 0x0B 1 2 rd.val rs1.val rs2.val rs3.val)
  | .dsb rs2 rs1 imm => some (csWord 0x0B 2 rs2.val rs1.val imm.toNat)
  | .dsh rs2 rs1 imm => some (csWord 0x0B 3 rs2.val rs1.val imm.toNat)
  | .dsw rs2 rs1 imm => some (csWord 0x0B 4 rs2.val rs1.val imm.toNat)
  | .dsd rs2 rs1 imm => some (csWord 0x0B 5 rs2.val rs1.val imm.toNat)
  | .dsn rs2 rs1 imm => some (csWord 0x0B 6 rs2.val rs1.val imm.toNat)
  | .mzero rd => some (crWord 0x2B 1 0x00 rd.val 0 0)
  | .mcfg rs1 => some (crWord 0x2B 1 0x01 0 rs1.val 0)
  | .mldacc rd rs1 => some (crWord 0x2B 1 0x02 rd.val (16 + rs1.val) 0)
  | .mstacc rd rs1 => some (crWord 0x2B 1 0x03 rd.val (16 + rs1.val) 0)
  | .vplnPack rd rs1 rs2 => some (crWord 0x2B 7 0x01 rd.val rs1.val rs2.val)
  | .vplnGet rd rs1 rs2 => some (crWord 0x2B 7 0x02 rd.val rs1.val rs2.val)
  | .vrng rd rs1 => some (crWord 0x2B 7 0x03 rd.val rs1.val 0)
  | .vamax rd rs1 => some (crWord 0x2B 7 0x04 rd.val rs1.val 0)
  | .mmaF4f4 m a b f => some (mmaWord 0 m a b f)
  | .mmaF4e4 m a b f => some (mmaWord 1 m a b f)
  | .mmaE4e4 m a b f => some (mmaWord 2 m a b f)
  | .mmaE4e5 m a b f => some (mmaWord 3 m a b f)
  | .mmaE5e4 m a b f => some (mmaWord 4 m a b f)
  | .mmaE5e5 m a b f => some (mmaWord 5 m a b f)
  | .mmaBfbf m a b f => some (mmaWord 6 m a b f)
  | .mmaHfhf m a b f => some (mmaWord 7 m a b f)
  | .mmaI8i8 m a b f => some (mmaWord 8 m a b f)
  | .mmaI8i4 m a b f => some (mmaWord 9 m a b f)
  | .mmaBpi8 m a b f => some (mmaWord 10 m a b f)
  | .mmaBpbp m a b f => some (mmaWord 11 m a b f)
  | .vdotbFp4 vd a b f => some (cqWord 0x2B 4 0 vd.val a.val b.val f.val)
  | .vdotbE4m3 vd a b f => some (cqWord 0x2B 4 1 vd.val a.val b.val f.val)
  | .vdotbE5m2 vd a b f => some (cqWord 0x2B 4 2 vd.val a.val b.val f.val)
  | .vdotbInt8 vd a b f => some (cqWord 0x2B 4 3 vd.val a.val b.val f.val)
  | .mdrain m fmt rnd out scale =>
    some (crWord 0x2B 2 (fmt.code * 8 + rnd.code) m.val (16 + out.val)
      (match scale with | none => 0 | some c => 16 + c.val))
  | .vcvtn fmt rnd vd vs1 vs2 => some (crWord 0x2B 5 (fmt.code * 16 + rnd.code * 2) vd.val vs1.val vs2.val)
  | .vcvtw fmt vd vs1 vs2 => some (crWord 0x2B 6 (fmt.code * 16) vd.val vs1.val vs2.val)
  | .vbscale sf vd vs1 => some (crWord 0x2B 7 0 vd.val vs1.val sf.code)
  | .cbcfg rd rs1 rs2 => some (crWord 0x5B 0 0x00 (16 + rd.val) rs1.val rs2.val)
  | .cbacq rd rs1 => some (crWord 0x5B 0 0x01 (16 + rd.val) rs1.val 0)
  | .cbrel rd rs1 => some (crWord 0x5B 0 0x02 (16 + rd.val) rs1.val 0)
  | .cbqry rd rs1 => some (crWord 0x5B 0 0x05 rd.val (16 + rs1.val) 0)
  | .ecfg rd rs1 => some (crWord 0x5B 3 0x00 rd.val rs1.val 0)
  | .ebind rs1 rs2 => some (crWord 0x5B 3 0x01 0 rs1.val rs2.val)
  | .epost rd rs1 rs2 => some (crWord 0x5B 3 0x02 rd.val rs1.val rs2.val)
  | .erecv rd => some (crWord 0x5B 3 0x03 rd.val 0 0)
  | .erecvNb rd => some (crWord 0x5B 3 0x04 rd.val 0 0)
  | .etick rs1 => some (crWord 0x5B 3 0x05 0 rs1.val 0)
  | .erd rd rs1 => some (crWord 0x5B 3 0x06 rd.val rs1.val 0)
  | .ewr rs1 rs2 => some (crWord 0x5B 3 0x07 0 rs1.val rs2.val)
  | .qpop rd rs1 => some (crWord 0x5B 5 0x00 rd.val rs1.val 0)
  | .qpopNb rd rs1 => some (crWord 0x5B 5 0x01 rd.val rs1.val 0)
  | .klaunch rd rs1 rs2 => some (crWord 0x5B 5 0x08 rd.val rs1.val rs2.val)
  | .kjoin rd rs1 => some (crWord 0x5B 5 0x09 rd.val rs1.val 0)
  | .kexit => some (crWord 0x5B 5 0x0A 0 0 0)
  | .copy rd rs1 rs2 rs3 => some (cqWord 0x5B 1 0 rd.val rs1.val rs2.val rs3.val)
  | .red rd rs1 rs2 rs3 => some (cqWord 0x5B 1 1 rd.val rs1.val rs2.val rs3.val)
  | .gath rd rs1 rs2 rs3 => some (cqWord 0x5B 1 2 rd.val rs1.val rs2.val rs3.val)
  | .scat rd rs1 rs2 rs3 => some (cqWord 0x5B 1 3 rd.val rs1.val rs2.val rs3.val)
  | .fill rd rs1 rs2 rs3 => some (cqWord 0x5B 2 0 rd.val rs1.val rs2.val rs3.val)
  | .cmp rd rs1 rs2 rs3 => some (cqWord 0x5B 2 1 rd.val rs1.val rs2.val rs3.val)
  | .qpush rd rs1 rs2 rs3 => some (cqWord 0x5B 4 0 rd.val rs1.val rs2.val rs3.val)
  | .qpushW rd rs1 rs2 rs3 => some (cqWord 0x5B 4 1 rd.val rs1.val rs2.val rs3.val)
  | .gjoin rd rs1 => some (crWord 0x7B 0 0x00 rd.val rs1.val 0)
  | .gleave rs1 => some (crWord 0x7B 0 0x01 0 rs1.val 0)
  | .gsize rd rs1 => some (crWord 0x7B 0 0x02 rd.val rs1.val 0)
  | .gfuse rd rs1 => some (crWord 0x7B 0 0x03 rd.val rs1.val 0)
  | .gsplit => some (crWord 0x7B 0 0x04 0 0 0)
  | .grank rd => some (crWord 0x7B 0 0x05 rd.val 0 0)
  | .barr rs1 rs2 => some (crWord 0x7B 1 0x00 0 rs1.val rs2.val)
  | .barw rd rs1 => some (crWord 0x7B 1 0x01 rd.val rs1.val 0)
  | .bart rd rs1 => some (crWord 0x7B 1 0x02 rd.val rs1.val 0)
  | .barc rs1 rs2 => some (crWord 0x7B 1 0x03 0 rs1.val rs2.val)
  | .svAdd rd rs1 rs2 => some (crWord 0x7B 2 0x00 rd.val rs1.val rs2.val)
  | .svMin rd rs1 rs2 => some (crWord 0x7B 2 0x01 rd.val rs1.val rs2.val)
  | .svMax rd rs1 rs2 => some (crWord 0x7B 2 0x02 rd.val rs1.val rs2.val)
  | .svMinu rd rs1 rs2 => some (crWord 0x7B 2 0x03 rd.val rs1.val rs2.val)
  | .svMaxu rd rs1 rs2 => some (crWord 0x7B 2 0x04 rd.val rs1.val rs2.val)
  | .svAnd rd rs1 rs2 => some (crWord 0x7B 2 0x05 rd.val rs1.val rs2.val)
  | .svOr rd rs1 rs2 => some (crWord 0x7B 2 0x06 rd.val rs1.val rs2.val)
  | .svXchg rd rs1 rs2 => some (crWord 0x7B 2 0x07 rd.val rs1.val rs2.val)
  | .svCas rd rs1 rs2 => some (crWord 0x7B 2 0x08 rd.val rs1.val rs2.val)
  | .svMaxrst rd rs1 rs2 => some (crWord 0x7B 2 0x09 rd.val rs1.val rs2.val)
  | .svWaitge rd rs1 rs2 => some (crWord 0x7B 2 0x0A rd.val rs1.val rs2.val)
  | .cmoCleanHart rs1 rs2 => some (crWord 0x7B 4 0x00 0 rs1.val rs2.val)
  | .cmoCleanCluster rs1 rs2 => some (crWord 0x7B 4 0x01 0 rs1.val rs2.val)
  | .cmoCleanLcache rs1 rs2 => some (crWord 0x7B 4 0x02 0 rs1.val rs2.val)
  | .cmoCleanAll rs1 rs2 => some (crWord 0x7B 4 0x03 0 rs1.val rs2.val)
  | .cmoCleanRemote rs1 rs2 => some (crWord 0x7B 4 0x04 0 rs1.val rs2.val)
  | .cmoInvHart rs1 rs2 => some (crWord 0x7B 4 0x10 0 rs1.val rs2.val)
  | .cmoInvCluster rs1 rs2 => some (crWord 0x7B 4 0x11 0 rs1.val rs2.val)
  | .cmoInvLcache rs1 rs2 => some (crWord 0x7B 4 0x12 0 rs1.val rs2.val)
  | .cmoInvAll rs1 rs2 => some (crWord 0x7B 4 0x13 0 rs1.val rs2.val)
  | .cmoInvRemote rs1 rs2 => some (crWord 0x7B 4 0x14 0 rs1.val rs2.val)
  | .cmoClinvHart rs1 rs2 => some (crWord 0x7B 4 0x20 0 rs1.val rs2.val)
  | .cmoClinvCluster rs1 rs2 => some (crWord 0x7B 4 0x21 0 rs1.val rs2.val)
  | .cmoClinvLcache rs1 rs2 => some (crWord 0x7B 4 0x22 0 rs1.val rs2.val)
  | .cmoClinvAll rs1 rs2 => some (crWord 0x7B 4 0x23 0 rs1.val rs2.val)
  | .cmoClinvRemote rs1 rs2 => some (crWord 0x7B 4 0x24 0 rs1.val rs2.val)
  | .invpg rs1 rs2 => some (crWord 0x7B 5 0x00 0 rs1.val rs2.val)
  | .ctxsave rs1 rs2 => some (crWord 0x7B 5 0x01 0 rs1.val rs2.val)
  | .ctxload rs1 => some (crWord 0x7B 5 0x02 0 rs1.val 0)
  | .scrub rs1 => some (crWord 0x7B 5 0x03 0 rs1.val 0)
  | .wait n => some (waitWord n)
  | .fence w => some w
  | .fenceI w => some w
  | .sfenceVma w => some w
  | .wfi => some 0x10500073#32
  | .lr sz aq rl rd rs1 => some (amoWord 2 sz aq rl rd.val rs1.val 0)
  | .sc sz aq rl rd rs1 rs2 => some (amoWord 3 sz aq rl rd.val rs1.val rs2.val)
  | .amo op sz aq rl rd rs1 rs2 => some (amoWord op.f5 sz aq rl rd.val rs1.val rs2.val)
  | .scalarLoad op rd rs1 imm => some (iWord op.opcode op.f3 rd.val rs1.val imm.toNat)
  | .scalarStore op rs2 rs1 imm => some (csWord op.opcode op.f3 rs2.val rs1.val imm.toNat)
  | .vectorLoad v => some (vmemWord 0x07 v)
  | .vectorStore v => some (vmemWord 0x27 v)
  | .mprogWrite c => some (csrWord 0x808 c)
  | .ctxpidWrite c => some (csrWord 0x5C0 c)
  | .etickCsrWrite c => some (csrWord 0x807 c)
  | .ctxcompWrite c => some (csrWord 0x5C1 c)
  | .satpWrite c => some (csrWord 0x180 c)
  | .csrWrite n c => some (csrWord n.toNat c)
  | .reservedEncoding _ => none
  | .sqtailWrite .. | .cqheadWrite .. | .mbLaunch .. | .mbPublish .. | .mbUnpublish .. | .mbSend ..
  | .mbFree .. | .mbSplit .. | .mbJoin .. | .hostMemRead .. | .hostMemWrite .. | .atsInvalidation ..
  | .hostReset .. | .engineCommandFire .. | .engineCommandComplete .. | .mmaPanelFault .. | .copySegment .. | .copyComplete ..
  | .ageLimitReached .. | .depositPacket .. | .depositAck .. | .depositRejection .. | .drainRequest .. | .drainResponse ..
  | .lineFill .. | .sliceWrite .. | .passLine .. | .scrubFrame .. | .tickBoundary .. | .eventDeliver ..
  | .wheelDeliver .. | .fireAction .. | .slotRotation .. | .qpushWTimeout .. | .launchPlacement .. | .kernelDone ..
  | .preempt .. | .resume .. | .takeInterrupt .. | .arrivalWrite .. | .noticeWrite .. | .byteCopyCommit ..
  | .moveRequest .. | .moveAck .. | .moveRefusal .. | .moveData .. | .moveCommit .. | .commitAck ..
  | .xrd .. | .xwr .. | .evtMessage .. | .barMessage .. | .relayPacket .. | .flitReceive ..
  | .linkReplay .. | .trainingStart .. | .lanesLocked .. | .linkKeysInstalled .. | .laneFail .. | .lanesRecovered ..
  | .linkFailure .. | .trainingTimeout .. | .portDisable .. | .phaseComplete .. | .indoubtResolve .. | .contextInstall ..
  | .worldTeardown .. | .queueAssign .. | .variableAssign .. | .gateInstall .. | .gateRemove .. | .keySlotWrite ..
  | .routeProgram .. | .worldMapInstall .. | .hostAgentAssign .. | .poolRegionAssign .. | .linkChannelReserve .. | .pageTableWrite ..
  | .pageMigrate .. | .bandwidthWeightSet .. | .powerCapSet .. | .coldReset .. | .warmReset .. | .selfTestComplete ..
  | .settleTimeout .. | .monitorSample .. | .larchRestart .. | .yewRestart .. | .tileFault .. | .lineEccError ..
  | .accumulatorEcc .. | .variableEcc .. | .queueElementEcc .. | .frameTableEcc .. | .saveAreaEcc .. | .loadDataReturn ..
  | .storePerformed .. | .postedSvOperation .. | .unansweredRead .. | .outOfService .. | .ringsRestored ..
    => none

end Sys2Proof
end

