-- ==== Sys2Proof/Config.lean ====
section
/-! DEFINITION. What an implementation fixes, and the free values: constants without a body, so that nothing proved about the
model rests on a value of theirs. Each free value is read with a number that the step then advances (log 9). -/

namespace Sys2Proof.Config

/-- `misa` (R32). -/
def misa : Word := 0x8000000000B41129#64
/-- `marchid` (R32). -/
def marchid : Word := 0x5C03#64
/-- `mimpid` of the first production stepping (R32). -/
def mimpid : Word := 0x10#64

/-- Free value: main-clock cycles that one step takes (log 7). -/
opaque stepCycles : Nat → Nat
/-- Free value: whether a tail-agnostic or mask-agnostic byte is overwritten with ones (R209, V 1.0; log 14). -/
opaque agnosticOnes : Nat → Bool
/-- Free value: whether storage allocated without zero-fill keeps the bytes of an earlier buffer of the context (R84; log 15). -/
opaque keepsBytes : Nat → Bool
/-- Free value: which of the W least elements a MINKEY pop returns (R298; log 16). -/
opaque minkeyChoice : Nat → Nat
/-- Free value: the K-block boundary at which an interrupt or a pre-emption meets a direct MMA (R202; log 17). -/
opaque mmaBoundary : Nat → Nat
/-- Free value: the 128-bit hash key that Yew draws for a slice at a cold boot (R163; log 18). -/
opaque hashKey : Nat → BitVec 128
/-- Free value: the check bits of the slices' SECDED code over 8 bytes, whose matrix the spec does not give (R159; log 71). -/
opaque secded : Word → Byte
/-- Free value: which line leaves a full L1 (R2; log 11). -/
opaque l1Victim : Nat → Nat
/-- Free value: a key of a link, drawn by Yew (R369; log 18). -/
opaque linkKey : Nat → BitVec 256
/-- Free value: the rounds of the permutation in which an image holds the words of P, which is opaque (R329; log 20). -/
opaque pRound : Nat → BitVec 128 → BitVec 128
/-- Free value: mantissa and exponent of a partial sum that an image cannot hold, by the load and the output (log 20). -/
opaque lostSum : Nat → Nat → Int × Int
/-- Free value: `vl` for an AVL between VLMAX and twice VLMAX, as an excess over the least that V 1.0 admits; a function of AVL and
VLMAX (log 27). -/
opaque vlExcess : Nat → Nat → Nat
/-- Free value: which operands an unordered floating-point reduction adds next (V 1.0; log 28). -/
opaque sumOrder : Nat → Nat
/-- Free value: what an answer from beyond a port says (log 19), and an element that a trimmed fault-only-first load leaves unspecified
(log 21). -/
opaque freeWord : Nat → Word

/-- Free value: the flits of a message beyond its first (R369; log 33). -/
opaque moreFlits : Nat → Nat
/-- Free value: whether the acknowledgement of a move had reached the sender when the link failed (R104; log 34). -/
opaque ackReached : Nat → Bool

end Sys2Proof.Config
end

