-- ==== Sys2Proof/Machine/State.lean ====
section
/-! DEFINITION. The state of one Grenend device: every logical hart on it, its capability table, its engines, caches, queues,
links and management state, as plain data; and the state after a cold reset. -/

namespace Sys2Proof.Machine

/-- Why the machine stops. Only `step` raises one; no meaning does, because every failure the spec names is a trap, a status
or an event. -/
inductive Fault where
  /-- The schedule (log 2) names a logical hart that runs on no tile. Raised by `step`; safe, since the schedule is the model's
  own input and such a turn stands for nothing that the device does. -/
  | noSuchHart (hartloc : Nat)
  deriving DecidableEq, Repr

/-- Why a step has no meaning. -/
inductive Refusal where
  /-- An arm of `exec` without a meaning. Raised by `exec` only; safe. -/
  | notModelled (mnemonic : String)
  deriving DecidableEq, Repr

/-- Privilege modes (R22, R28). -/
inductive Mode where
  | u | s | m
  deriving DecidableEq, Repr

/-- States of a capability-table entry (R78, R79). -/
inductive CapState where
  | free | owned | shared | collecting | moving | lent | quarantined | arriving
  deriving DecidableEq, Repr

/-- Owner kinds (R78). -/
inductive OKind where
  | hart | engine | slice | hostAgent | link | queue
  deriving DecidableEq, Repr

/-- Handle kinds (R75). An ENGINE handle is no operand of any instruction and no holding. -/
inductive HKind where
  | whole | share | deposit | notice
  deriving DecidableEq, Repr

/-- Storage levels (R17). -/
inductive Level where
  | tile | cluster | device | host | pool | remote
  deriving DecidableEq, Repr

/-- A drain of a window in progress (R155): the agents that have not yet had their request, and those that have not responded. -/
structure Drain where
  unasked : List DrainAt
  waiting : List DrainAt
  deriving DecidableEq, Repr

/-- An encryption pass (R348, R349): target version, progress pointer (next line), whether it is a roll, the compartment whose
key lines not yet passed are under (BGATE), the lines whose write-backs are held until it ends, by physical address, and whether a
close pass follows. -/
structure Pass where
  target : Nat
  ptr : Nat
  roll : Bool
  fromComp : Nat
  held : List Nat
  /-- A close pass is to follow a roll. -/
  thenClose : Bool
  deriving DecidableEq, Repr

/-- A capability-table entry (R78) with what the hardware keeps beside it (R147, R155, R349). -/
structure Cap where
  state : CapState
  level : Level
  layout : Nat
  comp : Nat
  world : Nat
  indoubt : Bool
  lendcb : Bool
  lends : Nat
  gen : BitVec 16
  orph : Bool
  okind : OKind
  owner : Nat
  base : Nat
  length : Nat
  total : Nat
  outst : Nat
  seq : Nat
  encver : Nat
  encOpen : Bool
  encRoll : Bool
  lparam : Nat
  ctx : Nat
  audit : Nat
  /-- Peer ports over which DEPOSIT units of the window have left the device (R155). -/
  ports : List Nat
  /-- Lines of the window that hold an uncorrectable error (R147), by line number in the buffer. -/
  marked : List Nat
  drain : Option Drain
  pass : Option Pass
  /-- Generations under which BREVOKE has taken this buffer from its holders, whose void holdings still cover it (R110, R135). -/
  revoked : List (BitVec 16)
  /-- Units of the entry that no unit holding or arrival of a FORCE-closed window may count any more (R107). -/
  closing : Bool
  deriving DecidableEq, Repr

/-- A holding (R76, R135). `susp` counts units set apart by a move (R103); for WHOLE, 1 means suspended. -/
structure Holding where
  device : Nat
  index : Nat
  gen : BitVec 16
  kind : HKind
  units : Nat
  void : Bool
  susp : Nat
  deriving DecidableEq, Repr

/-- An arrival in a port (R100, R101). -/
structure Arrival where
  device : Nat
  index : Nat
  gen : BitVec 16
  kind : HKind
  units : Nat
  void : Bool
  scope : Nat
  tag : BitVec 60
  deriving DecidableEq, Repr

/-- A claim of an engine command on a circular buffer (R184, R185), in claim order. -/
structure Claim where
  id : Nat
  slots : Nat
  done : Bool
  deriving DecidableEq, Repr

/-- A circular buffer (R175, R176). -/
structure Cb where
  bound : Bool
  handle : Word
  geom : Word
  pushed : BitVec 32
  popped : BitVec 32
  resv : Nat
  held : Nat
  inClaims : List Claim
  outClaims : List Claim
  deriving DecidableEq, Repr

/-- A dyadic rational `m * 2^e`: an exact partial sum (R62, R197). -/
structure Dyad where
  m : Int
  e : Int
  deriving DecidableEq, Repr

/-- The partial state of one output of an MMA (R197). -/
structure PCell where
  sum : Dyad
  nan : Bool
  pinf : Bool
  ninf : Bool
  deriving DecidableEq, Repr

/-- An operand of an MMA at issue (R195): slots of a circular buffer, or an image at an address of the buffer of a handle. -/
inductive Opnd where
  | cb (n : CbN) (need : Nat)
  | image (handle : Word) (va : Nat)
  /-- The B operand of a gang member other than the leader (R199). -/
  | leader
  deriving DecidableEq, Repr

/-- An MMA as issued (R196, R197). -/
structure MmaCmd where
  pair : Fin 12
  acc : Fin 2
  a : Opnd
  b : Opnd
  f2 : Nat
  ts : BitVec 32
  kc : Nat
  uscale : Bool
  bsf : Bool
  pla : Nat
  plb : Nat
  gsz : Nat
  leader : Nat
  /-- Its number among the MMAs that its gang has issued: the members' parts of one MMA have the same (R199). -/
  nth : Nat
  deriving DecidableEq, Repr

/-- An MDRAIN as issued (R206). -/
structure DrainCmd where
  acc : Fin 2
  fmt : DrainFmt
  rnd : Rnd
  out : CbN
  outNeed : Nat
  res : Option CbN
  resNeed : Nat
  sat : Bool
  mdrop : Word
  mamaxv : Word
  mcoord : Word
  jobseed : Word
  deriving DecidableEq, Repr

/-- A shape record (R223). -/
structure Shape where
  ndim : Nat
  esize : Nat
  slay : Nat
  dlay : Nat
  lconv : Bool
  crec : Bool
  fcvt : Nat
  ffmt : Nat
  frnd : Nat
  fsat : Bool
  scb : Nat
  dcb : Nat
  rop : Nat
  rtyp : Nat
  soff : Nat
  doff : Nat
  ring : Word
  ixh : Word
  ioff : Nat
  ext : List Nat
  sstr : List Int
  dstr : List Int
  deriving DecidableEq, Repr

/-- The six copy commands (R222). -/
inductive CopyKind where
  | copy | red | gath | scat | fill | cmp
  deriving DecidableEq, Repr

/-- A copy as issued, with its progress (R230, R237). -/
structure CopyCmd where
  kind : CopyKind
  shape : Shape
  dst : Word
  src : Word
  fill : Word
  ticket : BitVec 32
  /-- What translates and admits its addresses: `satp`, `mstatus`, the privilege mode and the PMP registers at issue (R38). -/
  satp : Word
  mstatus : Word
  mode : Mode
  pmpcfg : Vector Byte 16
  pmpaddr : Vector Word 16
  sneed : Nat
  dneed : Nat
  pos : Nat
  unequal : Nat
  least : Option Nat
  /-- Status of R237, and whether no position is left to perform. -/
  status : Nat
  ended : Bool
  deriving DecidableEq, Repr

/-- What an engine command does. -/
inductive EngOp where
  | mma (c : MmaCmd)
  | mzero (acc : Fin 2)
  | mldacc (acc : Fin 2) (cb : CbN) (need : Nat)
  | mstacc (acc : Fin 2) (cb : CbN) (need : Nat)
  | mdrain (c : DrainCmd)
  | copy (c : CopyCmd)
  deriving DecidableEq, Repr

/-- An engine command in flight: in the tile's queue (R186) or detached (R227). -/
structure EngCmd where
  id : Nat
  op : EngOp
  queued : Bool
  fired : Bool
  /-- Suspended with progress (R200, R202, R239). -/
  susp : Bool
  /-- K-blocks done (R197); 64 for an MDRAIN whose maximum has been posted (R207). -/
  done : Nat
  part : Tbl PCell
  /-- Buffers lent to it, by index (R78, R226). -/
  lends : List Nat
  /-- SHARE units that it pins (R81). -/
  pins : List (Nat × Nat)
  /-- Pages that it pins: first virtual page number, and 4 KiB pages in it (R229, R344). -/
  pages : List (Nat × Nat)
  /-- Slots claimed at firing: circular buffer and first slot. -/
  starts : List (CbN × Nat)
  deriving DecidableEq, Repr

/-- An arrival record of a barrier channel (R279). `done` and `flag` are set when the phase completes. -/
structure BarRec where
  phase : BitVec 32
  done : Bool
  flag : Bool
  deriving DecidableEq, Repr

/-- Gang membership (R269). `members` are hartlocs in rank order; the first is the leader. -/
structure Gang where
  members : List Nat
  rank : Nat
  /-- MMAs that the gang has issued, this member's part of each included. -/
  mmas : Nat
  deriving DecidableEq, Repr

/-- The control and status registers that the privileged architecture and R45 give a logical hart. -/
structure Csrs where
  mstatus : Word
  medeleg : Word
  mideleg : Word
  mie : Word
  /-- The latched pending bits. -/
  mip : Word
  mtvec : Word
  mscratch : Word
  mepc : Word
  mcause : Word
  mtval : Word
  stvec : Word
  sscratch : Word
  sepc : Word
  scause : Word
  stval : Word
  mcounteren : Word
  scounteren : Word
  satp : Word
  pmpcfg : Vector Byte 16
  pmpaddr : Vector Word 16
  cycleOff : Word
  instret : Word
  fflags : BitVec 5
  frm : BitVec 3
  vill : Bool
  vtype : BitVec 8
  vl : Nat
  vstart : Nat
  vxrm : BitVec 2
  vxsat : Bool
  jobseed : Word
  mcfg : Word
  mdrop : Word
  mamaxv : Word
  vbscfg : Word
  dflog : Word
  dagemax : Nat
  mprog : Word
  mcoord : Word
  dfcnt : Word
  rejCount : Nat
  dseq : Word
  qkey : Word
  rcvtag : Word
  compAlloc : BitVec 8
  scrubSel : Fin 8
  rdySel : Fin 64
  deriving DecidableEq, Repr

/-- A store or a write-back that counts in ST (R129, R130): its virtual address; the lines that are still to be written to their backing memory
before it is performed (REMOTE lines of a store, the lines of a CMO's write-back); the host pages whose translation it has used (R364); and
whether the copies go then (CLINV). -/
structure OutStore where
  va : Nat
  lines : List Nat
  hosts : List Nat
  drop : Bool
  deriving DecidableEq, Repr

/-- How a hart stands at BARR or BARW: it waits, or its channel has been unbound (R285) or has become BROKEN (R292) under it. -/
inductive BarStall where
  | waits | unbound | broken
  deriving DecidableEq, Repr

/-- A logical hart (R22) with what belongs to it (R76, R101, R130, R176, R189, R264, R279). -/
structure Hart where
  live : Bool
  /-- `hartloc` (R22). -/
  loc : Nat
  /-- The tile that hosts it; none while it is pre-empted. -/
  tile : Option Nat
  lastTile : Nat
  ctx : Nat
  mode : Mode
  pc : Word
  /-- The instruction word being executed (R36, `stval` of an illegal instruction). -/
  ir : Word32
  x : Vector Word 32
  f : Vector Word 32
  v : Vector (BitVec 512) 32
  csr : Csrs
  /-- Reserved doubleword (R30). -/
  resv : Option Nat
  wfi : Bool
  holdings : List Holding
  port : List Arrival
  ring : List Arrival
  ringCap : Nat
  acc0 : Tbl (BitVec 32)
  acc1 : Tbl (BitVec 32)
  /-- P of a suspended direct MMA that CTXLOAD restored, while no command holds it (R200, R335). -/
  mpart : Tbl PCell
  cbs : Vector Cb 16
  cbufs : Nat
  cmds : List EngCmd
  nextCmd : Nat
  ticket : BitVec 32
  draws : Nat
  /-- Outstanding stores and write-backs (R130, ST), oldest first. -/
  stOut : List OutStore
  ldOut : Nat
  dpOut : Nat
  sdOut : Nat
  groups : List Nat
  barRecs : Tbl BarRec
  gang : Option Gang
  /-- The mask with which the hart has arrived at GFUSE; bit 16 is set when another member has made it fail (R269). -/
  fuse : Option Nat
  /-- The tile heap run that placement carved out for it: offset and bytes (R309). -/
  run : Option (Nat × Nat)
  schedDirty : BitVec 16
  softDirty : BitVec 16
  softBanks : BitVec 512
  saveCount : Nat
  /-- The chain of its latest full save or load, and its position (R332 to R335). -/
  chain : Option (Word × Nat)
  /-- Cycle of the first FULL finding of the QPUSH.W at which it sleeps, and whether it has slept out its period (R300). -/
  sleepFrom : Nat
  timedOut : Bool
  /-- It stands in an instruction that runs to its end before an interrupt or a pre-emption is taken (R129, R343). -/
  mid : Bool
  /-- It stalls at BARR or BARW on this channel (R285, R292). -/
  barAt : Option (Nat × BarStall)
  /-- It stalls at SV.WAITGE on this variable with this operand; the value at the first point of the variable's order that reaches it
  (R288). -/
  svAt : Option (Nat × Word × Option Word)
  /-- A returning EPOST to a peer device: the port that it left by, and the reply once it has come (R256). -/
  evWait : Option (Nat × Option Word)
  deriving DecidableEq, Repr

/-- A translation held by a TLB (R341). -/
structure TlbEntry where
  ctx : Nat
  asid : Nat
  /-- Virtual page number of the first 4 KiB page, and the size in 4 KiB pages. -/
  vpn : Nat
  pages : Nat
  ppn : Nat
  /-- The low byte of the leaf: D A G U X W R V. -/
  flags : Byte
  deriving DecidableEq, Repr

/-- What a tile holds beside its logical hart: L1 caches and TLB. -/
structure Tile where
  /-- The bytes of the data L1 that differ from their read point, by physical address (log 11). -/
  l1d : List Host.Cell
  /-- Lines of the instruction L1 (log 12). -/
  l1i : Tbl (List Byte)
  tlb : List TlbEntry
  deriving DecidableEq, Repr

/-- A deposit element in an aggregation buffer or a packet (R142). -/
structure Slot where
  mult : Nat
  /-- Elements that the slot carries, merged stores among them: what DP falls by (R130). -/
  elems : Nat
  size : Nat
  returning : Bool
  void : Bool
  /-- An uncorrectable error has met its payload on its way (R157). -/
  lost : Bool
  op : Nat
  offset : Nat
  value : Word
  expect : Word
  hart : Nat
  device : Nat
  /-- Cycle in which the slot was filled (R143). -/
  born : Nat
  deriving DecidableEq, Repr

/-- An aggregation buffer (R142). Slots stand oldest first. -/
structure AggBuf where
  index : Nat
  gen : BitVec 16
  device : Nat
  home : Nat
  slots : List Slot
  deriving DecidableEq, Repr

/-- A deposit packet on its way (R146). -/
structure Packet where
  /-- The window's world, as this device numbers it; none for a world that the port's map does not hold (R366). -/
  world : Option Nat
  cluster : Nat
  /-- Set for a packet that came in over this peer port (R150). -/
  fromPort : Option Nat
  /-- Its number in its cluster's series to its slice, and for a packet that goes out over a link its number among the device's (R146). -/
  num : BitVec 16
  link : Option (BitVec 16)
  index : Nat
  gen : BitVec 16
  device : Nat
  home : Nat
  slots : List Slot
  deriving DecidableEq, Repr

/-- The answer of a slice to one slot (R149). `old` is a returning element's value. -/
structure Reply where
  cluster : Nat
  fromPort : Option Nat
  index : Nat
  gen : BitVec 16
  slot : Slot
  /-- 0 when performed. -/
  reason : Nat
  seq : Nat
  old : Word
  deriving DecidableEq, Repr

/-- An accumulator of Aspen (R240). -/
structure Acc where
  state : Int
  sum : Int
  prof : Nat
  bound : Bool
  world : Nat
  cnt : Nat
  age : Nat
  refr : Nat
  fired : Bool
  retired : Bool
  deriving DecidableEq, Repr

/-- A profile of Aspen (R242), with the hart that configured it, the generation of its kernel slot, and the
SHARE unit it holds (R254). -/
structure Profile where
  thr : Int
  rst : Int
  leak : Nat
  rfr : Nat
  agel : Nat
  wfmt : Nat
  act : Nat
  nlk : Bool
  eager : Bool
  arg : Word
  foff : Nat
  world : Nat
  ctx : Nat
  owner : Nat
  ownerGen : BitVec 16
  hasUnit : Bool
  voided : Bool
  deriving DecidableEq, Repr

/-- An event on its way to an Aspen (R256): destination cluster and accumulator. -/
structure Event where
  cluster : Nat
  acc : Nat
  weight : BitVec 32
  delay : Nat
  world : Nat
  /-- The hart that posted it, by device and hartloc; none for an Aspen's fan-out. -/
  poster : Option (Nat × Nat)
  /-- The poster's cluster, in which a loss of a posted event counts; none for an event of a peer device. -/
  home : Option Nat
  /-- A returning event of a peer device: the port that awaits the reply. -/
  replyTo : Option Nat
  deriving DecidableEq, Repr

/-- An event in the timing wheel (R247), with the tick of its delivery. -/
structure WheelEvent where
  due : Nat
  acc : Nat
  weight : BitVec 32
  world : Nat
  deriving DecidableEq, Repr

/-- A fire whose action is still to be performed (R249, R250). -/
structure Fire where
  acc : Nat
  prof : Nat
  record : Word
  tick : Nat
  world : Nat
  cnt : Nat
  deriving DecidableEq, Repr

/-- One Aspen (R240 to R262). -/
structure Aspen where
  accs : Tbl Acc
  profiles : Tbl Profile
  tick : Nat
  period : Nat
  /-- Cycle of the current tick's boundary, if it has one (R245, R246). -/
  boundary : Option Nat
  wheel : List WheelEvent
  /-- Fire records with the world of each (R252). -/
  fireQ : List (Word × Nat)
  fires : List Fire
  posted : Nat
  refused : Nat
  faults : Nat
  firedCnt : Nat
  lost : Nat
  deriving DecidableEq, Repr

/-- Kinds of a line-cache tag (R158). -/
inductive TagKind where
  | data | zero | marker
  deriving DecidableEq, Repr

/-- A valid tag (R158). -/
structure Tag where
  kind : TagKind
  remote : Bool
  dirty : Bool
  pin : Bool
  line : Nat
  rdev : Nat
  pid : Nat
  world : Nat
  comp : Nat
  entry : Nat
  tensor : Nat
  deriving DecidableEq, Repr

/-- A data entry in use (R159), with the SECDED check bits of each 8 bytes. `busy` is set while an operation of the slice uses it (R167). -/
structure DataEntry where
  bytes : List Byte
  check : List Byte
  count : Nat
  ref : Bool
  busy : Bool
  listed : Bool
  rment : Bool
  deriving DecidableEq, Repr

/-- A way of the content table (R164). -/
structure ContentWay where
  hash : Word
  pid : Nat
  world : Nat
  comp : Nat
  entry : Nat
  deriving DecidableEq, Repr

/-- One line-cache slice, with its partition width (R160). Tags and `rank` fields by set * 16 + way, content ways by bucket * 4 + way, counters by
name * 16 + pid. -/
structure Slice where
  tags : Tbl Tag
  /-- Recency rank of each way of a set, whether it holds a tag or not (R158, R168). -/
  ranks : Tbl Nat
  entries : Tbl DataEntry
  content : Tbl ContentWay
  hand : Nat
  rhand : Nat
  counters : Tbl Nat
  retiredWays : List Nat
  retiredEntries : List Nat
  width : Nat
  hashKey : BitVec 128
  deriving DecidableEq, Repr

/-- Metadata of a line in memory (R346): zero code, or a MAC over a ciphertext. -/
structure LineMeta where
  zero : Bool
  mac : BitVec 56
  bad : Bool
  deriving DecidableEq, Repr

/-- Frame types (R338). -/
inductive FType where
  | free | data | table | reserved
  deriving DecidableEq, Repr

/-- A frame-table entry (R338). -/
structure Frame where
  ftype : FType
  world : Nat
  ctx : Nat
  comp : Nat
  tensor : Nat
  fnum : Nat
  /-- Retired after an uncorrectable error (R355). -/
  retired : Bool
  deriving DecidableEq, Repr

/-- A pool frame-table entry (R362). -/
structure PoolFrame where
  comp : Nat
  tensor : Nat
  fnum : Nat
  deriving DecidableEq, Repr

/-- Life of a context (R319). -/
inductive CtxLife where
  | free | installed | draining | scrubbing
  deriving DecidableEq, Repr

/-- A context record (R318) with its pool regions (R362) and bandwidth class (R371). -/
structure Ctx where
  life : CtxLife
  world : Nat
  root : BitVec 45
  asid : BitVec 16
  pid : Nat
  cceil : BitVec 8
  prio : Nat
  pool : List (Nat × Nat)
  regions : List (Nat × Nat)
  cls : Nat
  medeleg : Word
  mideleg : Word
  mtvec : Word
  stvec : Word
  mie : Word
  deriving DecidableEq, Repr

/-- Life of a kernel (R314). -/
inductive KState where
  | queued | placing | running | preempted | exiting | done | faulted
  deriving DecidableEq, Repr

/-- Who launched a kernel. -/
inductive Launcher where
  /-- A logical hart, with the generation of its kernel slot. -/
  | hart (loc : Nat) (sgen : BitVec 16)
  | agent (a : Nat)
  | template (queue : Nat)
  deriving DecidableEq, Repr

/-- A launch record (R308) with its launcher. -/
structure LaunchRec where
  desc : List Word
  arg : Word
  kind : Nat
  slot : Nat
  launcher : Launcher
  deriving DecidableEq, Repr

/-- A kernel in its slot (R304 to R317). -/
structure Kernel where
  state : KState
  sgen : BitVec 16
  desc : List Word
  arg : Word
  argKind : Nat
  ctx : Nat
  homeDie : Nat
  queue : Nat
  launcher : Launcher
  /-- Slot and generation of the kernel that joins it. -/
  parent : Option (Nat × BitVec 16)
  /-- Order of its launch among the device's launches (R309, R312). -/
  order : Nat
  /-- The hart or agent whose code unit it pins has ended, and the unit is now the kernel's to give back (R307, R316). -/
  codeHeld : Bool
  /-- Next index to place, and indices that ended. -/
  placed : Nat
  ended : Nat
  hartFaulted : Bool
  reclaimed : Nat
  /-- The declaration block's handle and the handles given to hart 0 (R307, R310). -/
  block : Word
  own : List Holding
  /-- Windows that its harts left behind as they ended, still to be drained (R314, R315). -/
  windows : List (Nat × BitVec 16)
  /-- Member counts of groups (R264). -/
  groups : Tbl Nat
  /-- Reserved channels: die-class as die * 64 + number, device-class numbers (R277). -/
  dieChans : List Nat
  devChans : List Nat
  /-- DONE or FAULTED, not yet joined. -/
  reported : Bool
  deriving DecidableEq, Repr

/-- Channel states (R277). -/
inductive ChanState where
  | unbound | idle | open | broken
  deriving DecidableEq, Repr

/-- A barrier channel (R275 to R279). Keyed cls * 1024 + die * 64 + num. -/
structure Chan where
  state : ChanState
  phase : BitVec 32
  slot : Nat
  group : Nat
  flag : Bool
  /-- Counted harts that have neither arrived nor left. -/
  counted : List Nat
  /-- Link class: reserved for this context, device set, devices that are done, local part done. -/
  ctx : Option Nat
  devices : List Nat
  doneDevices : List Nat
  localDone : Bool
  deriving DecidableEq, Repr

/-- A synchronisation variable (R286). -/
structure Var where
  value : Word
  err : Nat
  retired : Bool
  deriving DecidableEq, Repr

/-- A posted SV.op on its way (R289). -/
structure SvPost where
  hart : Nat
  var : Nat
  op : Nat
  operand : Word
  expect : Word
  world : Nat
  /-- The SV.MAX of a drain (R207). -/
  drain : Bool
  deriving DecidableEq, Repr

/-- A queue element (R294). -/
structure QElem where
  /-- Its place in the queue's order (R298). -/
  pos : Nat
  payload : Word
  key : BitVec 32
  cap : Option Arrival
  deriving DecidableEq, Repr

/-- A queue of the table (R294, R295). -/
structure Queue where
  qkind : Nat
  win : Nat
  cap : Nat
  world : Nat
  ctx : Nat
  tmpl : Word
  /-- Elements in rising order of their places, and the number of places given out. -/
  elems : List QElem
  pushes : Nat
  launches : List LaunchRec
  mapped : Bool
  /-- Rotations for which it has held its slot. -/
  age : Nat
  /-- Order in which it gained work, while it waits. -/
  since : Option Nat
  /-- Harts whose operation waits for the mapping (R297). -/
  waits : List Nat
  /-- Stalled poppers in the order of arrival, and those whose pop has taken effect and whose reply waits for them: with its element, or with none for
  NOCAP (R298, R301). -/
  poppers : List Nat
  served : List (Nat × Option QElem)
  /-- Sleeping QPUSH.W with their elements in the order of arrival, and the harts whose element has since gone in (R298, R300). -/
  pushers : List (Nat × QElem)
  granted : List Nat
  deriving DecidableEq, Repr

/-- A send whose rest completes without the hart (R96, R97): the arrival still to be written, and the buffer whose bytes the copy
path has still to move. -/
structure Send where
  sender : Nat
  dest : Word
  arrival : Arrival
  /-- For a byte copy: the new base, level and context. -/
  copy : Option (Nat × Level × Nat)
  /-- Copy written (or failed) and committed. -/
  ready : Bool
  deriving DecidableEq, Repr

/-- A notice that waits to be written (R102), for a logical hart by hartloc, or for host agent `a` as 2^40 + a. -/
structure Notice where
  dest : Nat
  ntype : Nat
  detail : Nat
  scope : Nat
  deriving DecidableEq, Repr

/-- A pending local read or write of a peer is answered at once; this is a move in flight at either end (R103, R370). -/
structure Move where
  /-- True at the sending device. -/
  sending : Bool
  port : Nat
  peer : Nat
  audit : Nat
  index : Nat
  gen : BitVec 16
  kind : HKind
  units : Nat
  /-- Its units have been voided on their way (R135). -/
  void : Bool
  ref : Bool
  sender : Nat
  dest : Word
  tag : BitVec 60
  scope : Nat
  /-- Steps of the record (R370). -/
  steps : BitVec 5
  /-- Bytes received. -/
  got : Nat
  exportBase : Option Nat
  /-- The compartment that BGATE took the buffer from (R105). -/
  gate : Option Nat
  indoubt : Bool
  /-- What BSEND is to write when the request has been answered (R103, R104, R365). -/
  answer : Option Word
  /-- BSEND has written the answer. -/
  told : Bool
  /-- At its end: committed, refused, reverted or resolved. -/
  closed : Bool
  /-- Length of the moved buffer. -/
  length : Nat
  deriving DecidableEq, Repr

/-- Link states (R356). -/
inductive LinkState where
  | down | training | keyed | up | degraded | retrain
  deriving DecidableEq, Repr

/-- A port: peer ports 0 to 15, host ports 16 and 17. -/
structure Port where
  state : LinkState
  /-- The keys of the sending and of the receiving direction (R369). -/
  key : Option (BitVec 256 × BitVec 256)
  /-- The keys of a host port's selective IDE streams, 0 to 3 (R357). -/
  selective : Tbl (BitVec 256 × BitVec 256)
  tx : BitVec 64
  rx : BitVec 64
  lanes : Nat
  /-- Relay buffer: destination and size of each packet (R368). -/
  relay : List (Nat × Nat)
  worldMap : Tbl Nat
  /-- ATS translations cached, by host page (R364). -/
  ats : List Nat
  deriving DecidableEq, Repr

/-- An export-table entry (R367). -/
structure Export where
  base : Nat
  len : Nat
  index : Nat
  gen : BitVec 16
  device : Nat
  world : Nat
  units : Nat
  deriving DecidableEq, Repr

/-- A host agent (R358 to R360). -/
structure Agent where
  ctx : Option Nat
  holdings : List Holding
  arrivals : List Arrival
  reports : List (Word × Word)
  sqbase : Word
  sqsize : Word
  sqtail : Nat
  sqhead : Nat
  cqbase : Word
  cqsize : Word
  cqhead : Nat
  cqtail : Nat
  phase : Bool
  enabled : Bool
  overflowed : Bool
  malformed : Bool
  /-- A host reset has disabled the rings until Larch restores them (R372). -/
  barred : Bool
  deriving DecidableEq, Repr

/-- How a read or a write of a peer or of a host is answered (R363, R366, R367); `poisoned` is the poisoned data of a refused CXL.mem read. -/
inductive Answer where
  | done | pageFault | ecc | aborted | poisoned
  deriving DecidableEq, Repr

/-- What the device sends out of its ports, in order: the record of its outgoing messages (log 1). -/
inductive OutMsg where
  | move (port : Nat) (what : Nat) (audit : Nat) (handle : Word) (dest : Word)
  | moveData (port : Nat) (audit : Nat) (bytes : List Byte)
  | read (port : Nat) (addr len : Nat)
  | write (port : Nat) (addr : Nat) (bytes : List Byte)
  | deposit (p : Packet) (port : Nat)
  | depositReply (r : Reply) (port : Nat)
  | event (port : Nat) (e : Event) (device : Nat)
  | eventReply (port : Nat) (status : Word)
  | barrier (channel : Nat) (device : Nat) (phase : BitVec 32) (flag : Bool)
  | drain (port : Nat) (index : Nat) (response : Bool)
  | relay (port : Nat) (device : Nat) (size : Nat)
  | readReply (port : Nat) (a : Answer) (bytes : List Byte)
  | writeReply (port : Nat) (a : Answer)
  | flit (port : Nat) (counter : BitVec 64) (replay : Bool)
  deriving DecidableEq, Repr

/-- A scrub channel (R351); `boot` while it makes the pass over its whole stack that Yew starts at a cold boot (R354). -/
structure Scrub where
  boot : Bool
  /-- The world whose teardown has started it (R319). -/
  world : Option Nat
  act : Bool
  ptr : Nat
  last : Nat
  deriving DecidableEq, Repr

/-- What the hardware tells Larch (R172, R173, R355), in order: a record of the model's, like that of outgoing messages. -/
inductive Told where
  /-- An uncorrectable error in a tag: the slice and the set (R172). -/
  | tagError (slice set : Nat)
  /-- A walker's read of a TABLE frame failed (R355). -/
  | tableError (pa : Nat)
  /-- The value of a counter or a gauge that Larch has read (R173, R262). -/
  | counter (value : Nat)
  /-- An INVPG of Larch has completed (R343). -/
  | invpgDone
  /-- What Larch has read of a cluster's monitors and its die's power estimator (R378). -/
  | monitor (temp power : Nat) (railOk : Bool)
  deriving DecidableEq, Repr

/-- An occupancy gauge of a slice (R173). -/
inductive LcGauge where
  | entries | tags | ztags | rtags | markers
  deriving DecidableEq, Repr

/-- What Yew, Larch and the hardware around the machine do that the opcode table has no row for (log 73). -/
inductive DevInput where
  /-- Larch assigns the device identifier (R13). -/
  | assignDevice (n : BitVec 8)
  /-- Yew sets a slice's partition width at a cold boot (R160). -/
  | setWidth (slice : Fin 64) (p : Fin 5)
  /-- Larch issues INVPG on a management hart with these operands (R343). -/
  | invpg (rs1 rs2 : Word)
  /-- Yew reserves a free frame for its own tables (R338). -/
  | reserveFrame (frame : Nat)
  /-- Larch reads an event counter of a slice (R173). -/
  | readCounter (slice : Fin 64) (name : Fin 7) (pid : Fin 16)
  /-- Larch reads a gauge of a slice. -/
  | readGauge (slice : Fin 64) (g : LcGauge)
  /-- A stack is held in reset, or let go (R355). -/
  | holdStack (stack : Fin 8) (held : Bool)
  /-- The link acknowledges the oldest posted event that left over a peer port (R256, R369). -/
  | eventAck (port : Fin 16)
  /-- Yew installs the keys of a selective IDE stream of a host port (R357). -/
  | ideStream (port : Fin 2) (n : Fin 4)
  /-- The payload of a slot of the packet at a place is lost to an uncorrectable error on its way (R157). -/
  | payloadError (k slot : Nat)
  /-- The payload of the next returning element of a hart is lost so. -/
  | returningError (hartloc : Nat)
  /-- Yew starts a scrub of `count` frames of a stack from frame `first` on (R351, R373). -/
  | startScrub (stack : Fin 8) (first count : Nat)
  /-- Larch and Yew copy a frame raw to a free one, by frame number (R389). -/
  | copyFrame (old new : Nat)
  /-- Larch retires a frame (R389). -/
  | retireFrame (frame : Nat)
  /-- Larch reads a counter of a cluster's Aspen (R262). -/
  | readEvents (cluster : Fin 64) (name : Fin 5)
  /-- Larch reads a cluster's monitors as of the last sample (R378). -/
  | readMonitor (cluster : Fin 64)
  /-- Larch reads what a die's synchronisation engine has dropped (R292), the errors that its queue unit has met (R303), or the writes of hosts that
  were dropped (R363). -/
  | readDrops (what : Fin 3) (die : Fin 4)
  deriving DecidableEq, Repr

/-- A page migration between its two invalidations (R345): the page's context and address, the new frames, and whether the leaf admitted
stores. -/
structure Migration where
  ctx : Nat
  va : Nat
  new : Nat
  w : Bool
  deriving DecidableEq, Repr

/-- Who moves next (log 2). -/
inductive Turn where
  /-- The logical hart of this hartloc executes its next instruction. -/
  | hart (hartloc : Nat)
  /-- The pending hardware event at this place happens. -/
  | event (k : Nat)
  /-- An input: the event given. -/
  | input (i : Instr)
  /-- The outside world writes bytes of its own HOST, POOL or REMOTE memory (R113, R125). -/
  | outside (writes : List (Nat × Byte))
  /-- A deposit packet of a peer device comes in over a peer port (R150). -/
  | packet (port : Nat) (p : Packet)
  /-- An input without a row of its own. -/
  | device (i : DevInput)
  deriving DecidableEq, Repr

/-- What the last body did, for the lockstep of a gang (R271; log 10). -/
inductive Note where
  | clear
  /-- A pending event could not happen yet and waits again. -/
  | blocked
  | trapped (cause : Word) (tval : Word)
  | stalled
  deriving DecidableEq, Repr

/-- Clusters' shared parts beside Aspen. -/
structure Cluster where
  aspen : Aspen
  bufs : List AggBuf
  tlb : List TlbEntry
  /-- Next packet number for each slice (R146). -/
  series : Tbl (BitVec 16)
  throttled : Bool
  deriving DecidableEq, Repr

/-- The device. -/
structure State where
  /-- The logical hart now executing, if live. -/
  h : Hart
  /-- Every other logical hart that has been placed and has not ended. -/
  others : List Hart
  mem : List Host.Cell
  lmeta : Tbl LineMeta
  tiles : Tbl Tile
  clusters : Tbl Cluster
  slices : Tbl Slice
  caps : Tbl Cap
  /-- The context that last used each 256-byte granule of tile and cluster SRAM (R84). -/
  granuleCtx : Tbl Nat
  packets : List Packet
  /-- Next number of the packets that go out over links (R146). -/
  linkSeries : BitVec 16
  /-- The number that a slice expects next of the packets of a cluster of a peer, by (device * 64 + cluster) * 64 + slice (R146). -/
  expected : Tbl (BitVec 16)
  /-- Peers whose link has failed: their series without an expected number go on at any (log 102). -/
  relinked : List Nat
  /-- Harts whose next returning element meets an uncorrectable error on its way (R157). -/
  payloadLost : List Nat
  /-- `dfcnt` of the harts that have faulted, by hartloc, while rejections for them may still come (R157). -/
  faultedDfcnt : Tbl Word
  acks : List Reply
  rejections : List Reply
  events : List Event
  /-- Posted events that have left over a peer port and are not yet acknowledged: the port and the poster's cluster, in order (R256). -/
  postedOut : List (Nat × Nat)
  chans : Tbl Chan
  varWorld : Tbl Nat
  vars : Tbl Var
  svPosts : List SvPost
  svDrops : Tbl Nat
  queues : Tbl Queue
  workCount : Nat
  /-- Periods of 4,096 cycles after which slots have been rotated (R296). -/
  rotations : Nat
  /-- Elements lost to uncorrectable errors, by die, counted for Larch (R303). -/
  queueErrs : Tbl Nat
  kernels : Tbl Kernel
  /-- Slots freed after use, longest free first, and the number of slots ever used (R305). -/
  freeSlots : List Nat
  usedSlots : Nat
  sgens : Tbl (BitVec 16)
  /-- The save areas, by hartloc: the image of a logical hart as the scheduler last wrote it, group by group (R328). -/
  saveArea : Tbl Hart
  /-- The pre-empted hart whose save area an error has met, while the fault waits for records of its copies (R336; log 47). -/
  saveEcc : Option Nat
  /-- Sums of P that the words of an image cannot hold, by the number that the image holds for them (R329, R335; log 20). -/
  sums : Tbl Dyad
  sends : List Send
  notices : List Notice
  ctxs : Tbl Ctx
  frames : Tbl Frame
  poolFrames : Tbl PoolFrame
  keys : Tbl (BitVec 256)
  gates : Tbl (List Word)
  scrubs : Vector Scrub 8
  ports : Tbl Port
  routes : Tbl Byte
  exports : List Export
  moves : Tbl Move
  moveLog : Tbl Move
  audit : Nat
  agents : Tbl Agent
  /-- Each with the world that it carries; none for a relayed packet, a flit and an answer to a host (R365). -/
  linkOut : List (Option Nat × OutMsg)
  /-- Messages that wait for their port to carry traffic, in order (log 103). -/
  linkWaits : List (Option Nat × OutMsg)
  hostDrops : Nat
  bw : List (BwUnit × Nat × Byte)
  powerCap : Nat
  overCap : Bool
  /-- The last sample of a cluster's monitors: temperature, power and whether its rails are in range (R378). -/
  monitors : Tbl (Nat × Nat × Bool)
  tripped : Bool
  ready : Tbl (BitVec 32)
  tested : Tbl (BitVec 32)
  settled : Bool
  yew : Bool
  larch : Bool
  device : Nat
  /-- The identifier is fixed until the next cold reset: Larch has assigned it, or a peer link has reached UP (R13). -/
  deviceFixed : Bool
  /-- The device is in its cold boot: no function's tests have yet been settled since the cold reset (R160, R377). -/
  booting : Bool
  /-- Stacks held in reset (R355). -/
  stacksHeld : BitVec 8
  migrations : List Migration
  told : List Told
  cycle : Nat
  schedule : List Turn
  pending : List Instr
  note : Note
  fresh : Nat
  deriving DecidableEq, Repr

/-- An unbound circular buffer. -/
def Cb.unbound : Cb :=
  { bound := false, handle := 0, geom := 0, pushed := 0, popped := 0, resv := 0, held := 0, inClaims := [], outClaims := [] }

/-- The CSRs as a logical hart finds them (R313 and the chapters it names); a register for which no rule gives a value is 0
(log 5). `mstatus`: FS and VS Initial, UXL and SXL 2 (log 6). PMP entry 0 admits every address, as M-mode firmware leaves it
(log 22). -/
def Csrs.start : Csrs :=
  { mstatus := 0x0000000A00002200#64, medeleg := 0, mideleg := 0, mie := 0, mip := 0, mtvec := 0, mscratch := 0, mepc := 0,
    mcause := 0, mtval := 0, stvec := 0, sscratch := 0, sepc := 0, scause := 0, stval := 0, mcounteren := 7, scounteren := 7,
    satp := 0, pmpcfg := (Vector.replicate 16 0).set 0 0x1F#8,
    pmpaddr := (Vector.replicate 16 0).set 0 0x003FFFFFFFFFFFFF#64, cycleOff := 0, instret := 0, fflags := 0,
    frm := 0, vill := true, vtype := 0, vl := 0, vstart := 0, vxrm := 0, vxsat := false, jobseed := 0, mcfg := 0, mdrop := 0,
    mamaxv := 0, vbscfg := 0, dflog := 0, dagemax := 256, mprog := 0, mcoord := 0, dfcnt := 0, rejCount := 0, dseq := 0,
    qkey := 0, rcvtag := 0, compAlloc := 0, scrubSel := 0, rdySel := 0 }

/-- A hart register file with no logical hart in it (log 5). -/
def Hart.idle : Hart :=
  { live := false, loc := 0, tile := none, lastTile := 0, ctx := 0, mode := .u, pc := 0, ir := 0, x := Vector.replicate 32 0,
    f := Vector.replicate 32 0, v := Vector.replicate 32 0, csr := Csrs.start, resv := none, wfi := false, holdings := [],
    port := [], ring := [], ringCap := 4096, acc0 := [], acc1 := [], mpart := [], cbs := Vector.replicate 16 Cb.unbound, cbufs := 16,
    cmds := [], nextCmd := 0, ticket := 0, draws := 0, stOut := [], ldOut := 0, dpOut := 0, sdOut := 0, groups := [],
    barRecs := [], gang := none, fuse := none, run := none, schedDirty := 1, softDirty := 1, softBanks := 0, saveCount := 0,
    chain := none, sleepFrom := 0, timedOut := false, mid := false, barAt := none, svAt := none,
    evWait := none }

/-- The device after a cold reset, with Yew's scrub of every stack started (R354): nothing assigned, every link DOWN, every
self-test still to run (R377), no logical hart. -/
def State.reset : State :=
  { h := Hart.idle, others := [], mem := [], lmeta := [], tiles := [], clusters := [], slices := [], caps := [],
    granuleCtx := [], packets := [], linkSeries := 0, expected := [], relinked := [], payloadLost := [], faultedDfcnt := [], acks := [], rejections := [], events := [], postedOut := [], chans := [], varWorld := [], vars := [],
    svPosts := [], svDrops := [], queues := [], workCount := 0, rotations := 0, queueErrs := [], kernels := [], freeSlots := [], usedSlots := 0, sgens := [], saveArea := [], saveEcc := none, sums := [],
    sends := [], notices := [], ctxs := [], frames := [], poolFrames := [], keys := [], gates := [],
    scrubs := Vector.replicate 8 { boot := true, world := none, act := true, ptr := 0, last := 0xFFFFFF }, ports := [], routes := [], exports := [],
    moves := [], moveLog := [], audit := 0, agents := [], linkOut := [], linkWaits := [], hostDrops := 0, bw := [], powerCap := 2400,
    overCap := false, monitors := [], tripped := false, ready := [], tested := [], settled := false, yew := true, larch := true, device := 0,
    deviceFixed := false, booting := true, stacksHeld := 0, migrations := [], told := [],
    cycle := 0, schedule := [],
    pending := [.scrubFrame 0, .scrubFrame 1, .scrubFrame 2, .scrubFrame 3, .scrubFrame 4, .scrubFrame 5, .scrubFrame 6, .scrubFrame 7,
      .settleTimeout],
    note := .clear, fresh := 0 }

end Sys2Proof.Machine
end

