-- ==== Sys2Proof/Machine/Bits.lean ====
section
/-! DEFINITION. Bit fields, byte order, sign extension, and the sparse tables: what every other file of the machine uses. -/

namespace Sys2Proof.Machine

/-- Field `[lo+n-1:lo]` of a word, as a number (R5). -/
def fld (w : Word) (lo n : Nat) : Nat := w.toNat / 2 ^ lo % 2 ^ n

/-- Bit `n` of a word (R5). -/
def bitAt (w : Word) (n : Nat) : Bool := w.getLsbD n

/-- `w` with field `[lo+n-1:lo]` replaced. -/
def setFld (w : Word) (lo n v : Nat) : Word :=
  let t := w.toNat
  BitVec.ofNat 64 (t - t / 2 ^ lo % 2 ^ n * 2 ^ lo + v % 2 ^ n * 2 ^ lo)

/-- `w` with bit `n` replaced. -/
def setBit (w : Word) (n : Nat) (b : Bool) : Word := setFld w n 1 (if b then 1 else 0)

/-- A number as a word. -/
def word (n : Nat) : Word := BitVec.ofNat 64 n

/-- 1 for true. -/
def boolNat (b : Bool) : Nat := if b then 1 else 0

/-- Sign extension of the low `n` bits of a number to an integer. -/
def signed (n v : Nat) : Int := if v % 2 ^ n < 2 ^ (n - 1) then (v % 2 ^ n : Nat) else (v % 2 ^ n : Nat) - (2 : Int) ^ n

/-- An integer modulo 2^n. -/
def wrap (n : Nat) (i : Int) : Nat := (i % (2 : Int) ^ n).toNat

/-- Sign extension of the low `n` bits of a number to a word. -/
def sextWord (n v : Nat) : Word := word (wrap 64 (signed n v))

/-- Little-endian value of bytes (R4). -/
def leNat : List Byte → Nat
  | [] => 0
  | b :: r => b.toNat + 256 * leNat r

/-- The `n` little-endian bytes of a number (R4). -/
def leBytes : Nat → Nat → List Byte
  | 0, _ => []
  | n + 1, v => BitVec.ofNat 8 v :: leBytes n (v / 256)

/-- Round up to a multiple of `k`. -/
def alignUp (n k : Nat) : Nat := (n + k - 1) / k * k

/-- The entry of a number in a sparse table. -/
def tget {α : Type} : Tbl α → Nat → Option α
  | [], _ => none
  | (a, v) :: r, k => if a = k then some v else if k < a then none else tget r k

/-- The entry of a number, or the default. -/
def tgetD {α : Type} (t : Tbl α) (k : Nat) (d : α) : α := (tget t k).getD d

/-- Set the entry of a number; the numbers stay rising. -/
def tput {α : Type} : Tbl α → Nat → α → Tbl α
  | [], k, v => [(k, v)]
  | (a, w) :: r, k, v =>
    if a = k then (k, v) :: r else if k < a then (k, v) :: (a, w) :: r else (a, w) :: tput r k v

/-- Remove the entry of a number. -/
def terase {α : Type} : Tbl α → Nat → Tbl α
  | [], _ => []
  | (a, w) :: r, k => if a = k then r else if k < a then (a, w) :: r else (a, w) :: terase r k

/-- Set an entry of a table whose unlisted entries are `d`: the value `d` is not listed. -/
def tset {α : Type} [DecidableEq α] (d : α) (t : Tbl α) (k : Nat) (v : α) : Tbl α :=
  if v = d then terase t k else tput t k v

/-- Set several. -/
def tsetMany {α : Type} [DecidableEq α] (d : α) (t : Tbl α) : List (Nat × α) → Tbl α
  | [] => t
  | (k, v) :: r => tsetMany d (tset d t k v) r

/-- Whether the numbers of a table rise strictly, above `lo`. -/
def risesFrom {α : Type} : Nat → Tbl α → Bool
  | _, [] => true
  | lo, (a, _) :: r => lo ≤ a && risesFrom (a + 1) r

/-- The canonical form of memory: addresses strictly rising, and no listed byte equal to what an unlisted address reads as. -/
def Memory.wf (m : List Host.Cell) : Bool := risesFrom 0 m && m.all fun c => c.2 != 0

/-- What memory holds at an address; an unlisted byte is 0x00 (log 8). -/
def Memory.get (m : List Host.Cell) (a : Nat) : Byte := tgetD m a 0
/-- Write a byte, keeping the canonical form. -/
def Memory.put (m : List Host.Cell) (a : Nat) (b : Byte) : List Host.Cell := tset 0 m a b

/-- `n` bytes from an address up. -/
def Memory.getN (m : List Host.Cell) : Nat → Nat → List Byte
  | _, 0 => []
  | a, n + 1 => Memory.get m a :: Memory.getN m (a + 1) n

/-- Write bytes from an address up. -/
def Memory.putN (m : List Host.Cell) : Nat → List Byte → List Host.Cell
  | _, [] => m
  | a, b :: r => Memory.putN (Memory.put m a b) (a + 1) r

/-- The first element of a list that satisfies `p`, with its place. -/
def findIdx {α : Type} (p : α → Bool) : List α → Nat → Option (Nat × α)
  | [], _ => none
  | a :: r, k => if p a then some (k, a) else findIdx p r (k + 1)

/-- Replace the element at a place. -/
def setAt {α : Type} : List α → Nat → α → List α
  | [], _, _ => []
  | _ :: r, 0, v => v :: r
  | a :: r, k + 1, v => a :: setAt r k v

/-- Remove the element at a place. -/
def removeAt {α : Type} : List α → Nat → List α
  | [], _ => []
  | _ :: r, 0 => r
  | a :: r, k + 1 => a :: removeAt r k

/-- The numbers `lo, …, lo + n - 1`. -/
def rangeFrom (lo : Nat) : Nat → List Nat
  | 0 => []
  | n + 1 => lo :: rangeFrom (lo + 1) n

/-- A list without repeats, first occurrences kept. -/
def uniq : List Nat → List Nat
  | [] => []
  | a :: r => a :: (uniq r).filter (· != a)

/-- Bytes as one number of 8 bits each, and the bits of a `BitVec` as bytes. -/
def bytesOfBv {n : Nat} (v : BitVec n) : List Byte := leBytes (n / 8) v.toNat

/-- The first value that `f` gives on a list. -/
def firstSome {α β : Type} (f : α → Option β) : List α → Option β
  | [] => none
  | a :: r => match f a with
    | some b => some b
    | none => firstSome f r

end Sys2Proof.Machine
end

