-- ==== Sys2Proof/Machine/Crypt.lean ====
section
/-! DEFINITION. AES-256 and GHASH of per-tensor encryption (R346) and SipHash-2-4 of the line cache (R163). A 128-bit word is
given to AES with its most significant byte first (log 23). -/

namespace Sys2Proof.Machine

/-- Rows of the AES S-box, 16 bytes each, first byte most significant. -/
def sboxRows : List Nat :=
  [ 0x637C777BF26B6FC53001672BFED7AB76, 0xCA82C97DFA5947F0ADD4A2AF9CA472C0,
    0xB7FD9326363FF7CC34A5E5F171D83115, 0x04C723C31896059A071280E2EB27B275,
    0x09832C1A1B6E5AA0523BD6B329E32F84, 0x53D100ED20FCB15B6ACBBE394A4C58CF,
    0xD0EFAAFB434D338545F9027F503C9FA8, 0x51A3408F929D38F5BCB6DA2110FFF3D2,
    0xCD0C13EC5F974417C4A77E3D645D1973, 0x60814FDC222A908846EEB814DE5E0BDB,
    0xE0323A0A4906245CC2D3AC629195E479, 0xE7C8376D8DD54EA96C56F4EA657AAE08,
    0xBA78252E1CA6B4C6E8DD741F4BBD8B8A, 0x703EB5664803F60E613557B986C11D9E,
    0xE1F8981169D98E949B1E87E9CE5528DF, 0x8CA1890DBFE6426841992D0FB054BB16 ]

/-- The AES S-box. -/
def sbox (b : Nat) : Nat := sboxRows.getD (b / 16) 0 / 256 ^ (15 - b % 16) % 256

/-- Multiplication by x in the field of AES. -/
def xtime (b : Nat) : Nat := if b < 128 then 2 * b else (2 * b - 256) ^^^ 0x1B

/-- The bytes of a number, most significant first. -/
def beBytes (n v : Nat) : List Nat := ((leBytes n v).map BitVec.toNat).reverse
/-- The number of bytes, most significant first. -/
def ofBe (l : List Nat) : Nat := l.foldl (fun a b => a * 256 + b) 0

/-- XOR of byte lists. -/
def xorBytes (a b : List Nat) : List Nat := List.zipWith (· ^^^ ·) a b

/-- The next key-schedule word of AES-256. `w` holds the words made so far, latest first; `i` is the number made. -/
def keyWord (w : List (List Nat)) (i : Nat) : List Nat :=
  let prev := w.headD []
  let t :=
    if i % 8 == 0 then
      match (prev.drop 1 ++ prev.take 1).map sbox with
      | a :: r => (a ^^^ 2 ^ (i / 8 - 1)) :: r
      | [] => []
    else if i % 8 == 4 then prev.map sbox else prev
  xorBytes (w.getD 7 []) t

/-- Extend the key schedule by `n` words. -/
def keyExpand : Nat → Nat → List (List Nat) → List (List Nat)
  | 0, _, w => w
  | n + 1, i, w => keyExpand n (i + 1) (keyWord w i :: w)

/-- A list in pieces of 4. -/
def quads : Nat → List Nat → List (List Nat)
  | 0, _ => []
  | n + 1, l => l.take 4 :: quads n (l.drop 4)

/-- The round keys of AES-256, 16 bytes each. -/
def roundKeys (key : BitVec 256) : List (List Nat) :=
  let w := (keyExpand 52 8 (quads 8 (beBytes 32 key.toNat)).reverse).reverse
  (rangeFrom 0 15).map fun r => ((w.drop (4 * r)).take 4).flatten

/-- SubBytes and ShiftRows: byte r of column c comes from column c + r. -/
def subShift (st : List Nat) : List Nat :=
  (rangeFrom 0 16).map fun k => sbox (st.getD ((k / 4 + k % 4) % 4 * 4 + k % 4) 0)

/-- MixColumns of one column. -/
def mixColumn (c : List Nat) : List Nat :=
  match c with
  | [a, b, d, e] =>
    [xtime a ^^^ xtime b ^^^ b ^^^ d ^^^ e, a ^^^ xtime b ^^^ xtime d ^^^ d ^^^ e, a ^^^ b ^^^ xtime d ^^^ xtime e ^^^ e,
     xtime a ^^^ a ^^^ b ^^^ d ^^^ xtime e]
  | _ => c

/-- The rounds of AES on a state, with the round keys that are left. -/
def aesRounds : List (List Nat) → List Nat → List Nat
  | [], st => st
  | [k], st => xorBytes (subShift st) k
  | k :: r, st => aesRounds r (xorBytes ((quads 4 (subShift st)).map mixColumn).flatten k)

/-- AES-256 of a 128-bit block. -/
def aes256 (key : BitVec 256) (block : BitVec 128) : BitVec 128 :=
  match roundKeys key with
  | k :: r => BitVec.ofNat 128 (ofBe (aesRounds r (xorBytes (beBytes 16 block.toNat) k)))
  | [] => block

/-- One bit of the product in the field of GHASH: `z`, `v` and the bits of `x` that are left, from its bit `n - 1` down. -/
def ghashStep (x : Nat) : Nat → Nat → Nat → Nat
  | 0, z, _ => z
  | n + 1, z, v =>
    let z := if x / 2 ^ n % 2 == 1 then z ^^^ v else z
    let v := if v % 2 == 1 then (v / 2) ^^^ (0xE1 * 2 ^ 120) else v / 2
    ghashStep x n z v

/-- The product in the field of GHASH. -/
def ghashMul (x y : Nat) : Nat := ghashStep x 128 0 y

/-- GHASH of blocks under hash key `h`. -/
def ghash (h : Nat) (blocks : List Nat) : Nat := blocks.foldl (fun y b => ghashMul (y ^^^ b) h) 0

/-- word(v, b) of R346. -/
def padWord (tensor version line block : Nat) : BitVec 128 :=
  BitVec.ofNat 128 (tensor % 2 ^ 24 * 2 ^ 104 + version % 2 ^ 32 * 2 ^ 72 + line % 2 ^ 40 * 2 ^ 32 + block * 2 ^ 29)

/-- Block `b` of a line's bytes as a number, most significant byte first. -/
def lineBlock (bytes : List Byte) (b : Nat) : Nat := ofBe (((bytes.drop (16 * b)).take 16).map BitVec.toNat)

/-- The cipher of R346, which is its own inverse. -/
def lineCipher (key : BitVec 256) (tensor version line : Nat) (bytes : List Byte) : List Byte :=
  ((rangeFrom 0 8).map fun b =>
    (beBytes 16 ((aes256 key (padWord tensor version line b)).toNat ^^^ lineBlock bytes b)).map (BitVec.ofNat 8)).flatten

/-- The MAC of R346 over a ciphertext. -/
def lineMac (key : BitVec 256) (tensor version line : Nat) (cipher : List Byte) : BitVec 56 :=
  let h := (aes256 key 0).toNat
  let t := (aes256 key (padWord tensor version line 0 ||| BitVec.ofNat 128 (2 ^ 28))).toNat
  BitVec.ofNat 56 (ghash h ((rangeFrom 0 8).map (lineBlock cipher)) ^^^ t)

/-- The state of SipHash. -/
structure Sip where
  v0 : Word
  v1 : Word
  v2 : Word
  v3 : Word
  deriving DecidableEq, Repr

/-- SipRound. -/
def sipRound (s : Sip) : Sip :=
  let a0 := s.v0 + s.v1
  let a1 := s.v1.rotateLeft 13 ^^^ a0
  let b0 := a0.rotateLeft 32
  let a2 := s.v2 + s.v3
  let a3 := s.v3.rotateLeft 16 ^^^ a2
  let c0 := b0 + a3
  let c3 := a3.rotateLeft 21 ^^^ c0
  let c2 := a2 + a1
  let c1 := a1.rotateLeft 17 ^^^ c2
  { v0 := c0, v1 := c1, v2 := c2.rotateLeft 32, v3 := c3 }

/-- One message word. -/
def sipWord (s : Sip) (m : Word) : Sip :=
  let s := sipRound (sipRound { s with v3 := s.v3 ^^^ m })
  { s with v0 := s.v0 ^^^ m }

/-- The message words of whole doublewords. -/
def sipBlocks : Nat → List Byte → Sip → Sip
  | 0, _, s => s
  | n + 1, l, s => sipBlocks n (l.drop 8) (sipWord s (word (leNat (l.take 8))))

/-- SipHash-2-4 of a line (R163): 128 bytes, so the last word holds only the length. -/
def sipHash (key : BitVec 128) (bytes : List Byte) : Word :=
  let k0 : Word := key.setWidth 64
  let k1 : Word := (key >>> 64).setWidth 64
  let s : Sip := { v0 := k0 ^^^ 0x736F6D6570736575#64, v1 := k1 ^^^ 0x646F72616E646F6D#64,
                   v2 := k0 ^^^ 0x6C7967656E657261#64, v3 := k1 ^^^ 0x7465646279746573#64 }
  let s := sipWord (sipBlocks 16 bytes s) (word (128 * 2 ^ 56))
  let s := { s with v2 := s.v2 ^^^ 0xFF#64 }
  let s := sipRound (sipRound (sipRound (sipRound s)))
  s.v0 ^^^ s.v1 ^^^ s.v2 ^^^ s.v3

end Sys2Proof.Machine
end

