-- ==== Sys2Proof/Machine/Ops.lean ====
section
/-! DEFINITION. The named operations of the machine: registers, harts, how a body ends, taking an exception or an interrupt and
returning from one, free values, statuses and handles. -/

namespace Sys2Proof.Machine

/-- How a body ends other than by a next state. -/
inductive Exc where
  /-- A precise exception: nothing else happens (R8). -/
  | trap (cause : Nat) (tval : Word)
  /-- An exception after part of the instruction is performed: a vector access at an element above 0 (R112), a suspended MMA
  (R201). -/
  | trapAt (s : State) (cause : Nat) (tval : Word)
  /-- The instruction stalls, and runs to its end before an interrupt or a pre-emption is taken (R327); `s` records what it has done. -/
  | stall (s : State)
  /-- The instruction stalls at a pre-emption point (R327): it executes again after an interrupt or a pre-emption; `s` records only that
  it waits. -/
  | point (s : State)
  deriving DecidableEq, Repr

/-- A computation that may end in an exception or a stall. -/
abbrev Res (α : Type) := Except Exc α

/-! Registers -/

/-- x[r]; x0 reads 0. -/
def rx (s : State) (r : Reg) : Word := if r = 0 then 0 else s.h.x.get r

/-- Change the executing hart. -/
def modH (s : State) (f : Hart → Hart) : State := { s with h := f s.h }

/-- Change the CSRs of the executing hart. -/
def modC (s : State) (f : Csrs → Csrs) : State := modH s fun h => { h with csr := f h.csr }

/-- x[r] := v; a write of x0 is discarded. -/
def wx (s : State) (r : Reg) (v : Word) : State :=
  if r = 0 then s else modH s fun h => { h with x := h.x.set r.val v }

/-- A hart with the dirty bits of an image group set in both sets (R331). -/
def Hart.touch (h : Hart) (g : Fin 16) : Hart :=
  { h with schedDirty := h.schedDirty ||| (1#16 <<< g.val), softDirty := h.softDirty ||| (1#16 <<< g.val) }

/-- Set the dirty bits of an image group of the executing hart. -/
def mark (s : State) (g : Fin 16) : State := modH s fun h => h.touch g

/-- f[r]. -/
def rf (s : State) (r : Reg) : Word := s.h.f.get r

/-- f[r] := v; sets FS to Dirty (R36). -/
def wf (s : State) (r : Reg) (v : Word) : State :=
  let s := modH s fun h => { h with f := h.f.set r.val v }
  mark (modC s fun c => { c with mstatus := setFld c.mstatus 13 2 3 }) 1

/-- v[r]. -/
def rv (s : State) (r : Reg) : BitVec 512 := s.h.v.get r

/-- v[r] := v; sets VS to Dirty (R36). -/
def wv (s : State) (r : Reg) (v : BitVec 512) : State :=
  let s := modH s fun h => { h with v := h.v.set r.val v }
  mark (modC s fun c => { c with mstatus := setFld c.mstatus 9 2 3 }) 2

/-- Next value of the counter that free values are read with (log 9). -/
def draw (s : State) : Nat × State := (s.fresh, { s with fresh := s.fresh + 1 })

/-! Modes -/

/-- Order of the privilege modes. -/
def Mode.rank : Mode → Nat
  | .u => 0 | .s => 1 | .m => 3

/-- The mode of a 2-bit code; 2 is not a mode and reads as U. -/
def Mode.ofCode : Nat → Mode
  | 1 => .s | 3 => .m | _ => .u

/-- Illegal instruction, with the word in `stval` (R36). -/
def illegal {α : Type} (s : State) : Res α := .error (.trap 2 (word s.h.ir.toNat))

/-- Check 2 of R36. -/
def needMode (s : State) (md : Mode) : Res Unit := if md.rank ≤ s.h.mode.rank then .ok () else illegal s

/-- Check 3 of R36 for f registers. -/
def needF (s : State) : Res Unit := if fld s.h.csr.mstatus 13 2 = 0 then illegal s else .ok ()

/-- Check 3 of R36 for v registers. -/
def needV (s : State) : Res Unit := if fld s.h.csr.mstatus 9 2 = 0 then illegal s else .ok ()

/-- Check 3 of R36 for an instruction that uses `vl`. -/
def needVl (s : State) : Res Unit := do
  needV s
  if s.h.csr.vill then illegal s else .ok ()

/-- `.ok` when `c` holds, else the exception. -/
def check (c : Bool) (cause : Nat) (tval : Word) : Res Unit := if c then .ok () else .error (.trap cause tval)

/-! Taking and returning from exceptions -/

/-- Device causes (R324). -/
def causeOwnership : Nat := 24
def causeCapability : Nat := 25
def causeLayout : Nat := 26
def causeDeadlock : Nat := 27
def causeEngine : Nat := 28
def causeLink : Nat := 29
def causeScrub : Nat := 30
def causeQuarantined : Nat := 31

/-- The address that a trap vector gives: vectored mode adds 4 times the code of an interrupt. -/
def vectorPc (tvec : Word) (intr : Bool) (code : Nat) : Word :=
  let base := word (tvec.toNat / 4 * 4)
  if intr && tvec.toNat % 4 == 1 then base + word (4 * code) else base

/-- The cause register's value. -/
def causeWord (intr : Bool) (code : Nat) : Word := word (code + if intr then 2 ^ 63 else 0)

/-- Whether a trap goes to S-mode: from U or S with its delegation bit set (R325). -/
def delegated (s : State) (intr : Bool) (code : Nat) : Bool :=
  s.h.mode != .m && bitAt (if intr then s.h.csr.mideleg else s.h.csr.medeleg) code

/-- Entry of a trap in S-mode: `sepc`, `scause`, `stval`, SPIE, SIE, SPP, mode and pc. -/
def enterS (s : State) (intr : Bool) (code : Nat) (tval : Word) : State :=
  let c := s.h.csr
  let st := setBit (setBit (setBit c.mstatus 5 (bitAt c.mstatus 1)) 1 false) 8 (s.h.mode == .s)
  modH s fun h => { h with
    csr := { c with sepc := h.pc, scause := causeWord intr code, stval := tval, mstatus := st }
    mode := .s
    pc := vectorPc c.stvec intr code }

/-- Entry of a trap in M-mode: `mepc`, `mcause`, `mtval`, MPIE, MIE, MPP, mode and pc. -/
def enterM (s : State) (intr : Bool) (code : Nat) (tval : Word) : State :=
  let c := s.h.csr
  let st := setFld (setBit (setBit c.mstatus 7 (bitAt c.mstatus 3)) 3 false) 11 2 s.h.mode.rank
  modH s fun h => { h with
    csr := { c with mepc := h.pc, mcause := causeWord intr code, mtval := tval, mstatus := st }
    mode := .m
    pc := vectorPc c.mtvec intr code }

/-- A hart leaves the instruction that it stalled at: WFI, GFUSE (R269), a barrier or SV.WAITGE (R292). -/
def Hart.leaveStall (h : Hart) : Hart := { h with wfi := false, fuse := none, barAt := none, svAt := none, mid := false }

/-- Take a trap: clear the reservation (R30), leave what the hart stalled at, and enter the handler of the mode that the delegation gives. -/
def enterTrap (s : State) (intr : Bool) (code : Nat) (tval : Word) : State :=
  let s' := modH s fun h => { h.leaveStall with resv := none }
  let s' := if delegated s intr code then enterS s' intr code tval else enterM s' intr code tval
  mark s' 14

/-- Take an exception (R324, R325). The note tells a gang's lockstep what was raised. -/
def takeTrap (s : State) (code : Nat) (tval : Word) : State :=
  { enterTrap s false code tval with note := .trapped (word code) tval }

/-- SRET: mode := SPP, SIE := SPIE, SPIE := 1, SPP := U, MPRV := 0, pc := sepc. -/
def returnS (s : State) : State :=
  let c := s.h.csr
  let st := setBit (setBit (setBit (setBit c.mstatus 1 (bitAt c.mstatus 5)) 5 true) 8 false) 17 false
  mark (modH s fun h => { h with
    mode := if bitAt c.mstatus 8 then .s else .u
    csr := { c with mstatus := st }
    pc := c.sepc }) 14

/-- MRET: mode := MPP, MIE := MPIE, MPIE := 1, MPP := U, MPRV := 0 unless the new mode is M, pc := mepc. -/
def returnM (s : State) : State :=
  let c := s.h.csr
  let md := Mode.ofCode (fld c.mstatus 11 2)
  let st := setFld (setBit (setBit c.mstatus 3 (bitAt c.mstatus 7)) 7 true) 11 2 0
  let st := if md == .m then st else setBit st 17 false
  mark (modH s fun h => { h with mode := md, csr := { c with mstatus := st }, pc := c.mepc }) 14

/-- The pc after a retired instruction, and the retired count (R28). -/
def advance (s : State) : State :=
  modH s fun h => { h with pc := h.pc + 4, csr := { h.csr with instret := h.csr.instret + 1 } }

/-- A retired instruction that sets its own pc. -/
def jumpTo (s : State) (pc : Word) : State :=
  modH s fun h => { h with pc := pc, csr := { h.csr with instret := h.csr.instret + 1 } }

/-- The executing hart stands in an instruction that runs to its end before an interrupt or a pre-emption is taken (R327), until `setIr` begins it
again. -/
def holdOff (s : State) : State := modH s fun h => { h with mid := true }

/-- The outcome of a body: a next state in every case (a trap and a stall are next states too). -/
def finish (s : State) (r : Res State) : Host.Outcome State Fault Refusal :=
  match r with
  | .ok t => .next { t with note := .clear }
  | .error (.trap c v) => .next (takeTrap s c v)
  | .error (.trapAt t c v) => .next (takeTrap t c v)
  | .error (.stall t) => .next { holdOff t with note := .stalled }
  | .error (.point t) => .next { t with note := .stalled }

/-- The outcome of the body of an instruction that goes on to the next word. -/
def seq (s : State) (r : Res State) : Host.Outcome State Fault Refusal := finish s (r.map advance)

/-- The outcome of an event. -/
def happen (s : State) : Host.Outcome State Fault Refusal := .next { s with note := .clear }

/-- A pending event that cannot happen yet: it waits again, behind the others. -/
def block (s : State) (i : Instr) : Host.Outcome State Fault Refusal :=
  .next { s with pending := s.pending ++ [i], note := .blocked }

/-- An action of Yew or of Larch waits while the firmware that takes it does not run (R374). -/
def whenRuns (runs : Bool) (s : State) (ev : Instr) (o : Host.Outcome State Fault Refusal) : Host.Outcome State Fault Refusal :=
  if runs then o else block s ev

/-! Harts -/

/-- Every logical hart that has been placed and has not ended. -/
def harts (s : State) : List Hart := if s.h.live then s.h :: s.others else s.others

/-- The logical hart of a hartloc. -/
def findHart (s : State) (loc : Nat) : Option Hart := (harts s).find? fun h => h.loc == loc

/-- Change the logical hart of a hartloc, if there is one. -/
def updHart (s : State) (loc : Nat) (f : Hart → Hart) : State :=
  if s.h.live && s.h.loc == loc then modH s f
  else { s with others := s.others.map fun h => if h.loc == loc then f h else h }

/-- Remove the logical hart of a hartloc. -/
def dropHart (s : State) (loc : Nat) : State :=
  if s.h.live && s.h.loc == loc then { s with h := { s.h with live := false, tile := none } }
  else { s with others := s.others.filter fun h => h.loc != loc }

/-- Make the logical hart of a hartloc the executing one, if it exists. -/
def switchTo (s : State) (loc : Nat) : Option State :=
  if s.h.live && s.h.loc == loc then some s
  else match s.others.find? fun h => h.loc == loc with
    | none => none
    | some g =>
      let rest := s.others.filter fun h => h.loc != loc
      some { s with h := g, others := if s.h.live then rest ++ [s.h] else rest }

/-- The logical hart that a tile hosts. -/
def hartOn (s : State) (tile : Nat) : Option Hart := (harts s).find? fun h => h.tile == some tile

/-- Kernel slot of a hartloc (R22). -/
def slotOf (loc : Nat) : Nat := loc / 2 ^ 20 % 4096
/-- Cluster of a tile (R12). -/
def clusterOf (tile : Nat) : Nat := tile / 16
/-- Die of a tile (R12). -/
def dieOf (tile : Nat) : Nat := tile / 256
/-- The tile that the executing hart occupies. -/
def myTile (s : State) : Nat := s.h.tile.getD s.h.lastTile
/-- The executing hart's cluster. -/
def myCluster (s : State) : Nat := clusterOf (myTile s)

/-- The context record of a number, if the context is live. -/
def ctxOf (s : State) (n : Nat) : Option Ctx := tget s.ctxs n
/-- The world of a context. -/
def worldOf (s : State) (n : Nat) : Nat := match tget s.ctxs n with | some c => c.world | none => 0
/-- The executing hart's world. -/
def myWorld (s : State) : Nat := worldOf s s.h.ctx

/-- What a tile holds when nothing has been cached. -/
def Tile.empty : Tile := { l1d := [], l1i := [], tlb := [] }
/-- A tile's caches. -/
def tileOf (s : State) (t : Nat) : Tile := tgetD s.tiles t Tile.empty
/-- Change a tile's caches. -/
def updTile (s : State) (t : Nat) (f : Tile → Tile) : State := { s with tiles := tset Tile.empty s.tiles t (f (tileOf s t)) }

/-- An accumulator that is not bound. -/
def Acc.unbound : Acc :=
  { state := 0, sum := 0, prof := 0, bound := false, world := 0, cnt := 0, age := 0, refr := 0, fired := false, retired := false }
/-- Aspen after bring-up (R245, R246). -/
def Aspen.start : Aspen :=
  { accs := [], profiles := [], tick := 0, period := 0, boundary := none, wheel := [], fireQ := [], fires := [], posted := 0,
    refused := 0, faults := 0, firedCnt := 0, lost := 0 }
/-- Cycles of a tick under a period: 1 to 4,095 act as 4,096 (R245). -/
def tickCycles (period : Nat) : Nat := max period 4096
/-- A cluster after bring-up. -/
def Cluster.start : Cluster := { aspen := Aspen.start, bufs := [], tlb := [], series := [], throttled := false }
/-- A cluster. -/
def clusterAt (s : State) (c : Nat) : Cluster := tgetD s.clusters c Cluster.start
/-- Change a cluster. -/
def updCluster (s : State) (c : Nat) (f : Cluster → Cluster) : State :=
  { s with clusters := tset Cluster.start s.clusters c (f (clusterAt s c)) }
/-- Change a cluster's Aspen. -/
def updAspen (s : State) (c : Nat) (f : Aspen → Aspen) : State := updCluster s c fun k => { k with aspen := f k.aspen }

/-- A port that is down. -/
def Port.down : Port := { state := .down, key := none, selective := [], tx := 0, rx := 0, lanes := 4, relay := [], worldMap := [], ats := [] }
/-- A port: peer ports 0 to 15, host ports 16 and 17. -/
def portAt (s : State) (p : Nat) : Port := tgetD s.ports p Port.down
/-- Change a port. -/
def updPort (s : State) (p : Nat) (f : Port → Port) : State := { s with ports := tset Port.down s.ports p (f (portAt s p)) }
/-- A link that carries traffic (R356). -/
def Port.carries (p : Port) : Bool := p.state == .up || p.state == .degraded
/-- Outgoing port of the route to a device (R368): bits [3:0] of its entry; bit [7] is the relay flag. -/
def routePort (s : State) (dev : Nat) : Nat := (tgetD s.routes dev 0#8).toNat % 16
/-- Scope of a transfer over the route to a device: PEER, or POD over a relay (R25, R368). -/
def routeScope (s : State) (dev : Nat) : Nat := if (tgetD s.routes dev 0#8).getLsbD 7 then 7 else 6
/-- The port number of a link. -/
def portNo : PortId → Nat
  | .peer n => n.val | .host h => 16 + h.val

/-- Add a hardware event that is now due (log 3). -/
def enqueue (s : State) (i : Instr) : State := { s with pending := s.pending ++ [i] }
/-- The boundary of a cluster's current tick is awaited, if it has one (R246). -/
def watchTick (s : State) (c : Nat) : State :=
  let i : Instr := .tickBoundary ⟨c % 64, Nat.mod_lt _ (by decide)⟩
  if (clusterAt s c).aspen.boundary.isNone || s.pending.contains i then s else enqueue s i
/-- The port by which a message leaves. -/
def OutMsg.port (s : State) (m : OutMsg) : Nat :=
  match m with
  | .move p _ _ _ _ | .moveData p _ _ | .read p _ _ | .write p _ _ | .deposit _ p | .depositReply _ p | .event p _ _ | .eventReply p _ |
    .drain p _ _ | .relay p _ _ | .readReply p _ _ | .writeReply p _ | .flit p _ _ => p
  | .barrier _ d _ _ => routePort s d

/-- Record an outgoing message, with its sender's world (R365). Its flits, one and a free number more, advance the counter of a peer port (R369; log 33). -/
def sendOut (s : State) (world : Option Nat) (m : OutMsg) : State :=
  let (n, s) := draw s
  let p := m.port s
  let s := if p < 16 then updPort s p fun k => { k with tx := k.tx + 1 + BitVec.ofNat 64 (Config.moreFlits n) } else s
  { s with linkOut := s.linkOut ++ [(world, m)] }

/-- Send a message now, or when its port carries traffic again (R356; log 103). -/
def sendWhenUp (s : State) (world : Option Nat) (m : OutMsg) : State :=
  if (portAt s (m.port s)).carries then sendOut s world m else { s with linkWaits := s.linkWaits ++ [(world, m)] }

/-- Send the messages that have waited for a port. -/
def sendWaiting (s : State) (p : Nat) : State :=
  let mine (m : Option Nat × OutMsg) : Bool := m.2.port s == p
  (s.linkWaits.filter mine).foldl (fun s m => sendOut s m.1 m.2) { s with linkWaits := s.linkWaits.filter fun m => !mine m }

/-! Functions of the package (R375, R377) -/

/-- Whether a function's readiness bit is set. -/
def isReady (s : State) (window bit : Nat) : Bool := (tgetD s.ready window 0#32).getLsbD bit
/-- Whether a function has passed or failed. -/
def isSettled (s : State) (window bit : Nat) : Bool := s.settled || (tgetD s.tested window 0#32).getLsbD bit
/-- A function of the package whose self-test has not ended: requests to it stall (R377). -/
def unsettled (s : State) (window bit : Nat) : Bool := !isReady s window bit && !isSettled s window bit

/-- A request to the capability-table cache that is home to an entry waits (R78, R377). -/
def capWaits (s : State) (i : Nat) : Bool := unsettled s 36 (16 + i / 2 ^ 22 % 4)
/-- A request to a cluster's shared functions waits. -/
def clusterWaits (s : State) (c : Nat) : Bool := unsettled s (32 + c / 32) (c % 32)
/-- A function that is out of service: settled, with its bit clear (R377). -/
def isOut (s : State) (window bit : Nat) : Bool := !isReady s window bit && isSettled s window bit
/-- A tile out of service: it is, or its cluster is (R377). -/
def tileOut (s : State) (t : Nat) : Bool := isOut s (t / 32) (t % 32) || isOut s (32 + clusterOf t / 32) (clusterOf t % 32)
/-- A tile that may be used: its bit is set, and its cluster is not out of service. It waits for no other function's bit (R377). -/
def tileReady (s : State) (t : Nat) : Bool := isReady s (t / 32) (t % 32) && !tileOut s t

/-! Statuses and handles -/

/-- A status value (R77). -/
def status (code detail : Nat) : Word := word (code + 256 * detail)
def stOk : Word := status 0 0
def stEmpty : Word := status 1 0

/-- The code of a handle kind (R75). -/
def HKind.code : HKind → Nat
  | .whole => 0 | .share => 1 | .deposit => 2 | .notice => 4
/-- The kind of a code; ENGINE and the reserved codes name no kind that a hart can hold. -/
def HKind.ofCode : Nat → Option HKind
  | 0 => some .whole | 1 => some .share | 2 => some .deposit | 4 => some .notice | _ => none

/-- A handle (R75). -/
def handle (device index : Nat) (gen : BitVec 16) (kind : HKind) (units : Nat) : Word :=
  word (device % 256 * 2 ^ 56 + index % 2 ^ 24 * 2 ^ 32 + gen.toNat * 2 ^ 16 + kind.code * 2 ^ 12 + units % 4096)
def hDevice (h : Word) : Nat := fld h 56 8
def hIndex (h : Word) : Nat := fld h 32 24
def hGen (h : Word) : BitVec 16 := BitVec.ofNat 16 (h.toNat / 2 ^ 16)
def hKindCode (h : Word) : Nat := fld h 12 4
def hUnits (h : Word) : Nat := fld h 0 12
/-- The kind a handle names, if it is one that a hart can hold. -/
def hKind (h : Word) : Option HKind := HKind.ofCode (hKindCode h)
/-- The handle of a holding. -/
def Holding.handle (g : Holding) : Word := Machine.handle g.device g.index g.gen g.kind (match g.kind with | .whole | .notice => 0 | _ => g.units)

/-- The entry of an index. -/
def capAt (s : State) (i : Nat) : Option Cap := tget s.caps i
/-- The world of an entry, for the messages about it. -/
def entryWorld (s : State) (i : Nat) : Option Nat := (capAt s i).map (·.world)
/-- Change an entry. -/
def updCap (s : State) (i : Nat) (f : Cap → Cap) : State :=
  match tget s.caps i with
  | some c => { s with caps := tput s.caps i (f c) }
  | none => s

/-- The code of a state (R78). -/
def CapState.code : CapState → Nat
  | .free => 0 | .owned => 1 | .shared => 2 | .collecting => 3 | .moving => 4 | .lent => 5 | .quarantined => 6 | .arriving => 7
/-- The code of a level (R17). -/
def Level.code : Level → Nat
  | .tile => 0 | .cluster => 1 | .device => 2 | .host => 3 | .pool => 4 | .remote => 5
/-- The level of a code. -/
def Level.ofCode : Nat → Option Level
  | 0 => some .tile | 1 => some .cluster | 2 => some .device | 3 => some .host | 4 => some .pool | 5 => some .remote | _ => none
/-- The largest buffer of a level (R17). -/
def Level.largest : Level → Nat
  | .tile => 2 ^ 20 | .cluster => 2 ^ 24 | .device | .host | .pool | .remote => 2 ^ 40

end Sys2Proof.Machine
end

