-- ==== Sys2Proof/Machine/Lcache.lean ====
section
/-! DEFINITION. DEVICE and REMOTE lines: the memory behind them with per-tensor encryption (R346 to R350), and the shared
line cache (R158 to R174). A line is named by its physical address (R337). -/

namespace Sys2Proof.Machine

/-! Physical addresses (R337) -/

def isDevicePa (pa : Nat) : Bool := pa < 2 ^ 39
def isHostPa (pa : Nat) : Bool := 2 ^ 52 ≤ pa && pa < 2 ^ 53
def isPoolPa (pa : Nat) : Bool := 2 ^ 53 ≤ pa && pa < 2 ^ 54
def isRemotePa (pa : Nat) : Bool := 2 ^ 55 ≤ pa && pa < 2 ^ 56
def inTileAperture (a : Nat) : Bool := 0x010000000000 ≤ a && a ≤ 0x01003FFFFFFF
def inClusterAperture (a : Nat) : Bool := 0x011000000000 ≤ a && a ≤ 0x01103FFFFFFF
/-- The line that holds an address. -/
def lineOf (pa : Nat) : Nat := pa / 128 * 128

/-- A frame that Yew has given to no one. -/
def Frame.none : Frame := { ftype := .free, world := 0, ctx := 0, comp := 0, tensor := 0, fnum := 0, retired := false }
/-- Frame-table entry of a DEVICE address (R338). -/
def frameOf (s : State) (pa : Nat) : Frame := tgetD s.frames (pa / 4096) Frame.none
/-- A frame that Yew keeps for its own tables: no access reaches it (R338). -/
def isReserved (s : State) (pa : Nat) : Bool := isDevicePa pa && (frameOf s pa).ftype == .reserved
/-- A pool frame without a buffer. -/
def PoolFrame.none : PoolFrame := { comp := 0, tensor := 0, fnum := 0 }

/-- Tensor, frame number and compartment that the frame tables give for a DEVICE or POOL address (R338, R362); tensor 0 when no buffer
occupies the frame, as in a published range, which is never encrypted (R361). -/
def tensorOf (s : State) (pa : Nat) : Nat × Nat × Nat :=
  if isDevicePa pa then let f := frameOf s pa; (f.tensor, f.fnum, f.comp)
  else if isPoolPa pa then let f := tgetD s.poolFrames (pa / 4096) PoolFrame.none; (f.tensor, f.fnum, f.comp)
  else (0, 0, 0)

/-- The frame in a scrub channel's range that is not yet cleared (R351, R353). -/
def scrubBlocked (s : State) (pa : Nat) : Bool :=
  isDevicePa pa &&
    (let c := s.scrubs.get ⟨pa / 2 ^ 36 % 8, Nat.mod_lt _ (by decide)⟩
     let f := pa % 2 ^ 36 / 4096
     c.act && c.ptr ≤ f && f ≤ c.last)

/-! Homes and sets -/

/-- XOR of the three 4-bit fields that choose a slice within a die (R21). -/
def sliceHash (pa : Nat) : Nat := (pa / 2 ^ 7 % 16) ^^^ (pa / 2 ^ 11 % 16) ^^^ (pa / 2 ^ 15 % 16)

/-- Home slice of a line: R21 for DEVICE, R170 for REMOTE. The markers of a POOL line lie in the slice that R21's bits give (log 24). -/
def homeSlice (pa : Nat) : Nat :=
  if isRemotePa pa then pa / 2 ^ 19 % 4 * 16 + sliceHash pa
  else pa / 2 ^ 37 % 4 * 16 + sliceHash pa

/-- The set of an address under a partition width and identifier (R160). -/
def setOf (p q pa : Nat) : Nat :=
  let setu := (pa / 2 ^ 11 % 2 ^ 13) ^^^ (pa / 2 ^ 24 % 2 ^ 13) ^^^ (if isRemotePa pa then pa / 2 ^ 37 % 2 ^ 10 else 0)
  if p = 0 then setu else q % 2 ^ p * 2 ^ (13 - p) + setu % 2 ^ (13 - p)

/-- The `line` field of a tag (R158). -/
def lineField (pa : Nat) : Nat := pa / 2 ^ 11 % 2 ^ 36

/-- Slice `n` after power-up, with the hash key that Yew has drawn for it (R163; log 18), before Yew has set a partition width. -/
def Slice.start (n : Nat) : Slice :=
  { tags := [], ranks := [], entries := [], content := [], hand := 0, rhand := 0, counters := [], retiredWays := [], retiredEntries := [],
    width := 0, hashKey := Config.hashKey n }
def sliceAt (s : State) (n : Nat) : Slice := tgetD s.slices n (Slice.start n)
def updSlice (s : State) (n : Nat) (f : Slice → Slice) : State := { s with slices := tput s.slices n (f (sliceAt s n)) }

/-- The physical address of a tag's line: bits [10:7] follow from the slice's number (R21, R160). -/
def tagPa (n : Nat) (t : Tag) : Nat :=
  let low := (n % 16) ^^^ (t.line % 16) ^^^ (t.line / 16 % 16)
  t.line * 2 ^ 11 + low * 2 ^ 7 + (if t.remote then 2 ^ 55 + t.rdev * 2 ^ 47 else 0)

/-- Partition identifier of a line (R161): the context of its buffer; for REMOTE, `q`. -/
def pidOf (s : State) (pa q : Nat) : Nat :=
  if isRemotePa pa then q
  else match capAt s (tensorOf s pa).1 with
    | some c => (match ctxOf s c.ctx with | some k => k.pid | none => 0)
    | none => 0

/-- Event counters (R173). -/
def cntShare : Nat := 0
def cntUnshare : Nat := 1
def cntCollide : Nat := 2
def cntSatur : Nat := 3
def cntZero : Nat := 4
def cntCorr : Nat := 5
def cntUncorr : Nat := 6
/-- Count an event of a partition. -/
def countLc (s : State) (n name pid : Nat) : State :=
  updSlice s n fun sl => { sl with counters := tput sl.counters (name * 16 + pid) ((tgetD sl.counters (name * 16 + pid) 0 + 1) % 2 ^ 48) }

/-- What Larch reads of an event counter (R173). -/
def lcCounter (s : State) (n name pid : Nat) : Nat := tgetD (sliceAt s n).counters (name * 16 + pid) 0

/-- `lc_entries`: data entries in use (R173). -/
def lcEntries (sl : Slice) : Nat := sl.entries.length % 2 ^ 48
/-- `lc_tags`: DATA tags. -/
def lcTags (sl : Slice) : Nat := (sl.tags.filter fun t => t.2.kind == .data).length % 2 ^ 48
/-- `lc_ztags`: ZERO tags. -/
def lcZtags (sl : Slice) : Nat := (sl.tags.filter fun t => t.2.kind == .zero).length % 2 ^ 48
/-- `lc_rtags`: REMOTE tags. -/
def lcRtags (sl : Slice) : Nat := (sl.tags.filter fun t => t.2.remote).length % 2 ^ 48

/-- The set of a line in its home slice (R160). -/
def lineSet (s : State) (pid pa : Nat) : Nat := setOf (sliceAt s (homeSlice pa)).width pid pa

/-- The tag that holds a DEVICE or REMOTE line, with its key (set * 16 + way). -/
def findTag (s : State) (pa q : Nat) : Option (Nat × Tag) :=
  let n := homeSlice pa
  let set := lineSet s (pidOf s pa q) pa
  let sl := sliceAt s n
  firstSome (fun w =>
    match tget sl.tags (set * 16 + w) with
    | some t => if t.kind != .marker && tagPa n t == lineOf pa then some (set * 16 + w, t) else none
    | none => none) (rangeFrom 0 16)

/-- The MARKER tag of a line of a tensor, with its key (R171). -/
def findMarker (s : State) (pa tensor : Nat) : Option Nat :=
  let set := lineSet s (pidOf s pa 0) pa
  let sl := sliceAt s (homeSlice pa)
  firstSome (fun w =>
    match tget sl.tags (set * 16 + w) with
    | some t => if t.kind == .marker && t.line == lineField pa && t.tensor == tensor then some (set * 16 + w) else none
    | none => none) (rangeFrom 0 16)

/-! Memory behind the cache -/

/-- Metadata of a line that the boot scrub has left at the zero code (R354). -/
def LineMeta.zeroCode : LineMeta := { zero := true, mac := 0, bad := false }
def metaOf (s : State) (pa : Nat) : LineMeta := tgetD s.lmeta (pa / 128) LineMeta.zeroCode
def setMeta (s : State) (pa : Nat) (k : LineMeta) : State := { s with lmeta := tset LineMeta.zeroCode s.lmeta (pa / 128) k }

/-- Index of a line in its tensor (R346). -/
def tensorLine (s : State) (pa : Nat) : Nat := 32 * (tensorOf s pa).2.1 + pa % 4096 / 128

/-- Version of a line (R348). -/
def lineVersion (s : State) (c : Cap) (pa tensor : Nat) : Nat :=
  let marked := (findMarker s pa tensor).isSome
  match c.pass with
  | some p => if tensorLine s pa < p.ptr then p.target else if marked then c.encver + 1 else c.encver
  | none => if marked then c.encver + 1 else c.encver

/-- Key of a line: the compartment's slot (R322), the source compartment's for a line that BGATE's pass has not reached. -/
def lineKey (s : State) (c : Cap) (pa : Nat) : BitVec 256 :=
  let comp := match c.pass with
    | some p => if tensorLine s pa < p.ptr then c.comp else p.fromComp
    | none => c.comp
  tgetD s.keys (8 * c.world + comp) 0

/-- The raw bytes of a line. -/
def rawLine (s : State) (pa : Nat) : List Byte := Memory.getN s.mem (lineOf pa) 128

/-- A line as its controller reads it; none for an uncorrectable error. Lines of no tensor, TABLE frames, and HOST and REMOTE memory are
plain. -/
def memLine (s : State) (pa : Nat) : Option (List Byte) :=
  let pa := lineOf pa
  let t := (tensorOf s pa).1
  let k := metaOf s pa
  if k.bad then none else
  match (if t = 0 then none else capAt s t) with
  | none => some (rawLine s pa)
  | some c =>
    if k.zero then some (List.replicate 128 0)
    else
      let v := lineVersion s c pa t
      let key := lineKey s c pa
      let l := tensorLine s pa
      if lineMac key t v l (rawLine s pa) == k.mac then some (lineCipher key t v l (rawLine s pa)) else none

/-- Write a line's plaintext to memory under a version and a key. -/
def putLine (s : State) (key : BitVec 256) (t v : Nat) (pa : Nat) (bytes : List Byte) : State :=
  let l := tensorLine s pa
  let cipher := lineCipher key t v l bytes
  setMeta { s with mem := Memory.putN s.mem pa cipher } pa { zero := false, mac := lineMac key t v l cipher, bad := false }

/-- Markers of a slice, and of a set. -/
def markerCount (sl : Slice) : Nat := (sl.tags.filter fun t => t.2.kind == .marker).length
def setMarkers (sl : Slice) (set : Nat) : Nat := (sl.tags.filter fun t => t.1 / 16 == set && t.2.kind == .marker).length

/-- A way of a set that is invalid and in service, the lowest. -/
def freeWay (sl : Slice) (set : Nat) : Option Nat :=
  (rangeFrom 0 16).find? fun w => (tget sl.tags (set * 16 + w)).isNone && !sl.retiredWays.contains (set * 16 + w)

/-- Rank of a way; it stays with the way when a tag goes. A way that has not been accessed has the last rank 15 (log 70). -/
def wayRank (sl : Slice) (key : Nat) : Nat := tgetD sl.ranks key 15

/-- An access makes its way the most recent: rank 0, and each way of the set of lower rank one more (R168). -/
def touchWay (sl : Slice) (key : Nat) : Slice :=
  let raised := (rangeFrom (key / 16 * 16) 16).foldl (fun r k =>
    if wayRank sl k < wayRank sl key then tset 15 r k (wayRank sl k + 1) else r) sl.ranks
  { sl with ranks := tset 15 raised key 0 }

/-- Set an entry's fields. -/
def updEntry (sl : Slice) (e : Nat) (f : DataEntry → DataEntry) : Slice :=
  match tget sl.entries e with
  | some d => { sl with entries := tput sl.entries e (f d) }
  | none => sl

/-- Remove the content-table way of an entry (R164). -/
def unlist (sl : Slice) (e : Nat) : Slice :=
  { updEntry sl e (fun d => { d with listed := false }) with content := sl.content.filter fun w => w.2.entry != e }

/-- Lower an entry's count; at 0 it is freed and its way removed (R164, R166). -/
def dropCount (sl : Slice) (e : Nat) : Slice :=
  match tget sl.entries e with
  | some d =>
    if d.count ≤ 1 then let sl := unlist sl e; { sl with entries := terase sl.entries e }
    else updEntry sl e fun d => { d with count := d.count - 1 }
  | none => sl

/-- Remove a tag without a write (R127, R166). -/
def dropTag (s : State) (n key : Nat) : State :=
  match tget (sliceAt s n).tags key with
  | none => s
  | some t => updSlice s n fun sl =>
    let sl := { sl with tags := terase sl.tags key }
    if t.kind == .data then dropCount sl t.entry else sl

/-- The bytes of a tag. -/
def tagBytes (sl : Slice) (t : Tag) : List Byte :=
  match t.kind with
  | .data => (match tget sl.entries t.entry with | some d => d.bytes | none => [])
  | _ => List.replicate 128 0

/-- Check bits of a line, one byte for each 8 (R159). -/
def checkBits (bytes : List Byte) : List Byte := (rangeFrom 0 16).map fun k => Config.secded (word (leNat ((bytes.drop (8 * k)).take 8)))

/-- A data entry just taken, in use by the operation that takes it. -/
def DataEntry.fresh (bytes : List Byte) (remote : Bool) : DataEntry :=
  { bytes := bytes, check := checkBits bytes, count := 1, ref := true, busy := true, listed := false, rment := remote }

/-- A data entry written in place. -/
def DataEntry.write (d : DataEntry) (bytes : List Byte) : DataEntry := { d with bytes := bytes, check := checkBits bytes, ref := true }

/-- An operation uses an entry (R167): no replacement takes it. -/
def setBusy (s : State) (n e : Nat) : State := updSlice s n fun sl => updEntry sl e fun d => { d with busy := true }

/-- The slice's operation ends. -/
def endOp (s : State) (n : Nat) : State :=
  updSlice s n fun sl => { sl with entries := sl.entries.map fun e => (e.1, { e.2 with busy := false }) }

/-- Run operations in order while they are done; the flag is false when one is not, and what the others did stays. -/
def doAll {α : Type} (f : State → α → State × Bool) : List α → State → State × Bool
  | [], s => (s, true)
  | a :: r, s => match f s a with
    | (s, true) => doAll f r s
    | (s, false) => (s, false)

/-- Start a roll of a tensor: a pass to v + 2 (R347). `held` are the write-backs that it holds. -/
def startRoll (s : State) (t : Nat) (held : List Nat) : State :=
  let s := updCap s t fun c => { c with
    encRoll := true
    pass := some (Pass.mk (c.encver + 2) 0 true c.comp held false) }
  enqueue s (.passLine t)

/-- What the clock of R169 has done in a slice: the hands, and the `ref` bits that it has cleared. -/
def carryClock (sl : Slice) (ran : Slice) : Slice :=
  { sl with
    hand := ran.hand
    rhand := ran.rhand
    entries := sl.entries.map fun e => (e.1, { e.2 with ref := e.2.ref && (tget ran.entries e.1).all (·.ref) }) }

/-- What stays of an operation that a slice has stalled and that is to be performed again: the turns of the clock, and the rolls that its
write-backs have started. -/
def carryRolls (s t : State) : State :=
  let s := { s with slices := s.slices.map fun sl => (sl.1, match tget t.slices sl.1 with | some r => carryClock sl.2 r | none => sl.2) }
  t.caps.foldl (fun s e => match e.2.pass, capAt s e.1 with
    | some p, some c =>
      if c.pass.isNone && p.roll && e.2.gen == c.gen then
        enqueue (updCap s e.1 fun c => { c with encRoll := true, pass := some p }) (.passLine e.1)
      else s
    | _, _ => s) s

/-- Hold a write-back until the running pass ends (R348). -/
def holdBack (s : State) (t pa : Nat) : State :=
  updCap s t fun c => { c with pass := c.pass.map fun p => { p with held := if p.held.contains pa then p.held else p.held ++ [pa] } }

/-- Whether the marker budget leaves room for a marker in a set (R171). -/
def markerRoom (sl : Slice) (set : Nat) : Bool := markerCount sl < 4096 && setMarkers sl set < 8

/-- The MARKER tag of a line of a tensor. -/
def markerTag (s : State) (pa t : Nat) : Tag :=
  let c := capAt s t
  { kind := .marker, remote := false, dirty := false, pin := true, line := lineField pa, rdev := 0, pid := pidOf s pa 0,
    world := (c.map (·.world)).getD 0, comp := (c.map (·.comp)).getD 0, entry := 0, tensor := t }

/-- Put a tag into a way. -/
def putTag (s : State) (n key : Nat) (t : Tag) : State := updSlice s n fun sl => { sl with tags := tput sl.tags key t }

/-- Put a MARKER into a way. -/
def putMarker (s : State) (pa t key : Nat) : State :=
  let n := homeSlice pa
  updSlice (putTag s n key (markerTag s pa t)) n fun sl => touchWay sl key

/-- Write a line of a tensor under v + 1: its write period is open (R347). -/
def commitLine (s : State) (c : Cap) (t pa : Nat) (bytes : List Byte) : State :=
  putLine (updCap s t fun c => { c with encOpen := true }) (tgetD s.keys (8 * c.world + c.comp) 0) t (c.encver + 1) pa bytes

/-- What a write-back of a line of a tensor meets (R347, R348): it is held while a pass runs, and a roll starts when the line is marked
or the marker budget is exhausted; none when it may proceed, once marked. `hold` says that a home slice keeps the line until then. -/
def backBlocked (s : State) (c : Cap) (t pa : Nat) (hold : Bool) : Option State :=
  if c.pass.isSome then some (if hold then holdBack s t pa else s)
  else if (findMarker s pa t).isSome || !markerRoom (sliceAt s (homeSlice pa)) (lineSet s (pidOf s pa 0) pa) then
    some (startRoll s t (if hold then [pa] else []))
  else none

/-- Write a REMOTE line back over its link (R170); not done while the link carries nothing (R356). -/
def backRemote (s : State) (pa dev world : Nat) (bytes : List Byte) : State × Bool :=
  if (portAt s (routePort s dev)).carries then
    (sendOut { s with mem := Memory.putN s.mem pa bytes } (some world) (.write (routePort s dev) pa bytes), true)
  else (s, false)

/-- Evict a tag: write it back if it is dirty, then drop it (R166). Its marker takes the lowest invalid way, its own among them (log 68).
The flag is false when the write-back cannot proceed: the tag stays. -/
def evictTag (s : State) (n key : Nat) : State × Bool :=
  match tget (sliceAt s n).tags key with
  | none => (s, true)
  | some t =>
    if t.kind == .data && t.dirty then
      let pa := tagPa n t
      let bytes := tagBytes (sliceAt s n) t
      if t.remote then match backRemote s pa t.rdev t.world bytes with
        | (s, true) => (dropTag s n key, true)
        | (s, false) => (s, false)
      else
        let i := (tensorOf s pa).1
        match (if i = 0 then none else capAt s i) with
        | none => (dropTag { s with mem := Memory.putN s.mem pa bytes } n key, true)
        | some c =>
          match backBlocked s c i pa true with
          | some s => (s, false)
          | none =>
            let s := commitLine (dropTag s n key) c i pa bytes
            let set := lineSet s (pidOf s pa 0) pa
            match freeWay (sliceAt s n) set with
            | some w => (putMarker s pa i (set * 16 + w), true)
            | none => (s, true)
    else (dropTag s n key, true)

/-- Whether a tag may be a victim (R168, R348): neither pinned nor MARKER nor busy; and a dirty line whose write-back a pass holds, or whose
link carries nothing, is passed over as if pinned. -/
def mayEvict (s : State) (n : Nat) (t : Tag) : Bool :=
  t.kind != .marker && !t.pin &&
    !(t.kind == .data && (tget (sliceAt s n).entries t.entry).any (·.busy)) &&
    !(t.dirty && if t.remote then !(portAt s (routePort s t.rdev)).carries
      else match capAt s (tensorOf s (tagPa n t)).1 with | some c => c.pass.isSome | none => false)

/-- The way of greatest rank among the ways that satisfy `p`. -/
def worstWay (sl : Slice) (set : Nat) (p : Tag → Bool) : Option Nat :=
  (sl.tags.foldl (fun (best : Option (Nat × Nat)) t =>
    if t.1 / 16 == set && p t.2 then
      match best with
      | some (_, r) => if wayRank sl t.1 > r then some (t.1, wayRank sl t.1) else best
      | none => some (t.1, wayRank sl t.1)
    else best) none).map (·.1)

/-- Make a way of a set free for a new tag (R168, R170), in at most `fuel` evictions; none when the request stalls. -/
def takeWay (n set : Nat) (remote : Bool) : Nat → State → State × Option Nat
  | 0, s => (s, none)
  | fuel + 1, s =>
    let sl := sliceAt s n
    let remotes := (sl.tags.filter fun t => t.1 / 16 == set && t.2.remote).length
    let full := remote && 4 ≤ remotes
    match (if full then none else freeWay sl set) with
    | some w => (s, some (set * 16 + w))
    | none =>
      match worstWay sl set fun t => (!full || t.remote) && mayEvict s n t with
      | some k =>
        match evictTag s n k with
        | (s, true) => if full then (s, some k) else takeWay n set remote fuel s
        | (s, false) => takeWay n set remote fuel s
      | none => (s, none)

/-- A way of a set for a new tag. Each turn drops a tag or starts a roll, whose lines are passed over from then on. -/
def wayFor (s : State) (n set : Nat) (remote : Bool) : State × Option Nat := takeWay n set remote 33 s

/-- Place the MARKER of a line that stays in the cache; false when the request stalls, or when the evictions that make a way free have used up
the marker budget (R171) or started a roll. The line's own entry is in use meanwhile. -/
def placeMarker (s : State) (pa t : Nat) (hold : Bool) : State × Bool :=
  match wayFor s (homeSlice pa) (lineSet s (pidOf s pa 0) pa) false with
  | (s, some key) =>
    match (capAt s t).bind fun c => backBlocked s c t pa hold with
    | some s => (s, false)
    | none => (putMarker s pa t key, true)
  | (s, none) => (s, false)

/-- Write a line back that stays where it is (R347). The flag says that it is done. -/
def writeBack (s : State) (pa : Nat) (bytes : List Byte) (hold : Bool) : State × Bool :=
  let t := (tensorOf s pa).1
  match (if t = 0 then none else capAt s t) with
  | none => ({ s with mem := Memory.putN s.mem pa bytes }, true)
  | some c =>
    match backBlocked s c t pa hold with
    | some s => (s, false)
    | none => match placeMarker s pa t hold with
      | (s, true) => (commitLine s c t pa bytes, true)
      | (s, false) => (s, false)

/-- Write back a dirty tag; it stays valid and becomes clean. -/
def cleanTag (s : State) (n key : Nat) : State × Bool :=
  match tget (sliceAt s n).tags key with
  | none => (s, true)
  | some t =>
    if t.kind == .data && t.dirty then
      let pa := tagPa n t
      let bytes := tagBytes (sliceAt s n) t
      let (s, ok) := if t.remote then backRemote s pa t.rdev t.world bytes else writeBack (setBusy s n t.entry) pa bytes true
      let s := endOp s n
      if ok then (updSlice s n fun sl => match tget sl.tags key with
        | some t => { sl with tags := tput sl.tags key { t with dirty := false } }
        | none => sl, true) else (s, false)
    else (s, true)

/-- The lowest number below 65,536 that a table does not list and that is not retired: among as many numbers and one more, one is free. R169
does not say which free entry is taken (log 87). -/
def lowestFree {α : Type} (retired : List Nat) (used : Tbl α) : Option Nat :=
  (rangeFrom 0 (used.length + retired.length + 1)).find? fun e => (tget used e).isNone && !retired.contains e && e < 65536

/-- Run the clock of R169 over the entries for at most `fuel` steps; `remoteOnly` for the second clock of R170. The hand and the cleared
`ref` bits stay when it finds none. -/
def clockTake (n : Nat) (remoteOnly : Bool) : Nat → State → State × Option Nat
  | 0, s => (s, none)
  | fuel + 1, s =>
    let sl := sliceAt s n
    let e := if remoteOnly then sl.rhand else sl.hand
    let step (s : State) : State := updSlice s n fun sl =>
      if remoteOnly then { sl with rhand := (e + 1) % 65536 } else { sl with hand := (e + 1) % 65536 }
    match tget sl.entries e with
    | none => clockTake n remoteOnly fuel (step s)
    | some d =>
      let keys := (sl.tags.filter fun t => t.2.kind == .data && t.2.entry == e).map (·.1)
      let held := d.busy || sl.tags.any fun t => t.2.kind == .data && t.2.entry == e && !mayEvict s n t.2
      if held || (remoteOnly && !d.rment) then clockTake n remoteOnly fuel (step s)
      else if d.ref then clockTake n remoteOnly fuel (step (updSlice s n fun sl => updEntry sl e fun d => { d with ref := false }))
      else match doAll (fun s k => evictTag s n k) keys s with
        | (s, true) => (step s, some e)
        | (s, false) => clockTake n remoteOnly fuel (step s)

/-- A data entry for new bytes (R169, R170): two turns of the clock when none is free. -/
def takeEntry (s : State) (n : Nat) (remote : Bool) : State × Option Nat :=
  let sl := sliceAt s n
  let rents := (sl.entries.filter fun e => e.2.rment).length
  if remote && 16384 ≤ rents then clockTake n true 131072 s
  else match lowestFree sl.retiredEntries sl.entries with
    | some e => (s, some e)
    | none => clockTake n false 131072 s

/-- Take a data entry and put bytes into it. -/
def newEntry (s : State) (n : Nat) (remote : Bool) (bytes : List Byte) : State × Option Nat :=
  match takeEntry s n remote with
  | (s, some e) => (updSlice s n fun sl => { sl with entries := tput sl.entries e (DataEntry.fresh bytes remote) }, some e)
  | (s, none) => (s, none)

/-- Bucket of the content table (R163). -/
def bucketOf (p q : Nat) (h : Word) : Nat :=
  if p = 0 then h.toNat % 2 ^ 14 else q % 2 ^ p * 2 ^ (14 - p) + h.toNat % 2 ^ (14 - p)

/-- Insert a way into its bucket (R164). -/
def insertWay (sl : Slice) (b : Nat) (w : ContentWay) : Slice :=
  let keys := rangeFrom (b * 4) 4
  let cnt (k : Nat) : Nat :=
    match tget sl.content k with
    | some w => (match tget sl.entries w.entry with | some d => d.count | none => 0)
    | none => 0
  let k :=
    match keys.find? fun k => (tget sl.content k).isNone with
    | some k => k
    | none => keys.foldl (fun best k => if cnt k < cnt best then k else best) (b * 4)
  let sl := match tget sl.content k with
    | some old => updEntry sl old.entry fun d => { d with listed := false }
    | none => sl
  updEntry { sl with content := tput sl.content k w } w.entry fun d => { d with listed := true }

/-- What R163 does with bytes that the tag at `key` is to hold. `own` is the entry that the line has already, if any. False when the
request stalls for an entry. A way that names the line's own entry is a match like any other: its count rises by the share and falls as the
own entry is given back (log 69). -/
def shareBytes (s : State) (n key : Nat) (tag : Tag) (own : Option Nat) (bytes : List Byte) : State × Bool :=
  let freeOwn (s : State) : State := match own with | some e => updSlice s n fun sl => dropCount sl e | none => s
  let hold (e : Nat) : Tag := { tag with kind := .data, dirty := false, entry := e }
  let entryFor (s : State) : State × Option Nat := match own with | some e => (s, some e) | none => newEntry s n false bytes
  if bytes.all (· == 0) then
    (countLc (putTag (freeOwn s) n key { tag with kind := .zero, dirty := false, entry := 0 }) n cntZero tag.pid, true)
  else
    let sl := sliceAt s n
    let h := sipHash sl.hashKey bytes
    let b := bucketOf sl.width tag.pid h
    let isMatch (w : ContentWay) : Bool := w.hash == h && w.pid == tag.pid && w.world == tag.world && w.comp == tag.comp
    let ways := (rangeFrom (b * 4) 4).filterMap fun k => (tget sl.content k).map fun w => (k, w)
    let hits := ways.filter fun w => isMatch w.2
    let same (w : ContentWay) : Bool := (tget sl.entries w.entry).any fun d => d.bytes == bytes
    let collides := (hits.takeWhile fun w => !same w.2).length
    let s := (rangeFrom 0 collides).foldl (fun s _ => countLc s n cntCollide tag.pid) s
    match hits.find? fun w => same w.2 with
    | some (k, w) =>
      if (tget sl.entries w.entry).any fun d => d.count == 255 then
        match entryFor (setBusy s n w.entry) with
        | (s, some e) =>
          let s := updSlice s n fun sl =>
            let sl := updEntry sl w.entry fun d => { d with listed := false }
            updEntry { sl with content := tput sl.content k { w with entry := e } } e fun d => { d with listed := true }
          (countLc (putTag s n key (hold e)) n cntSatur tag.pid, true)
        | (s, none) => (s, false)
      else
        let s := updSlice s n fun sl => updEntry sl w.entry fun d => { d with count := d.count + 1, ref := true }
        (countLc (putTag (freeOwn s) n key (hold w.entry)) n cntShare tag.pid, true)
    | none =>
      match entryFor s with
      | (s, some e) =>
        (updSlice (putTag s n key (hold e)) n fun sl =>
          insertWay sl b { hash := h, pid := tag.pid, world := tag.world, comp := tag.comp, entry := e }, true)
      | (s, none) => (s, false)

/-- The buffer of a line: by the frame table for DEVICE, the remote reference of its range for REMOTE (R158). -/
def lineBuf (s : State) (pa : Nat) : Option Cap :=
  if isRemotePa pa then
    (s.caps.find? fun c => c.2.state != .free && c.2.level == .remote && c.2.base ≤ pa && pa < c.2.base + c.2.length).map (·.2)
  else capAt s (tensorOf s pa).1

/-- The tag that a line takes when it is placed. -/
def newTag (s : State) (pa q : Nat) : Tag :=
  let c := lineBuf s pa
  { kind := .data, remote := isRemotePa pa, dirty := false, pin := false, line := lineField pa,
    rdev := if isRemotePa pa then pa / 2 ^ 47 % 256 else 0, pid := pidOf s pa q, world := (c.map (·.world)).getD 0,
    comp := (c.map (·.comp)).getD 0, entry := 0, tensor := 0 }

/-- Make a buffer QUARANTINED (R79, R172). -/
def quarantine (s : State) (i : Nat) : State :=
  updCap s i fun c => if c.state == .free then c else { c with state := .quarantined }

/-- A line that cannot be read: a COLLECTING buffer has the line marked, any other becomes QUARANTINED (R172, R346). -/
def lineError (s : State) (pa : Nat) : State :=
  let t := (tensorOf s pa).1
  match capAt s t with
  | some c =>
    if c.state == .collecting then updCap s t fun c => { c with marked := tensorLine s pa :: c.marked }
    else quarantine s t
  | none => s

/-- Take a way for a line's tag, and keep it from every replacement until the operation has filled it. -/
def reserveWay (s : State) (n : Nat) (tag : Tag) (pa : Nat) : State × Option Nat :=
  match wayFor s n (lineSet s tag.pid pa) tag.remote with
  | (s, some key) => (putTag s n key { tag with kind := .zero, pin := true }, some key)
  | (s, none) => (s, none)

/-- The end of an operation that was to fill a reserved way. -/
def settleWay (s : State) (n key : Nat) (ok : Bool) : State × Bool :=
  let s := updSlice s n fun sl => if ok then touchWay sl key else { sl with tags := terase sl.tags key }
  (endOp s n, ok)

/-- Fill a line that the slice does not hold (R163, R168, R170): a REMOTE line is read over its link (R367), and no fill comes of it while the
link carries nothing. False when the request stalls. -/
def fillLine (s : State) (pa q : Nat) : State × Bool :=
  let pa := lineOf pa
  let n := homeSlice pa
  let tag := newTag s pa q
  if (findTag s pa q).isSome || (tag.remote && !(portAt s (routePort s tag.rdev)).carries) then (s, true)
  else match memLine s pa with
    | none => (lineError s pa, true)
    | some bytes =>
      let s := if tag.remote then sendOut s (some tag.world) (.read (routePort s tag.rdev) pa 128) else s
      match reserveWay s n tag pa with
      | (s, none) => (s, false)
      | (s, some key) =>
        if tag.remote then
          match newEntry s n true bytes with
          | (s, some e) => settleWay (putTag s n key { tag with entry := e }) n key true
          | (s, none) => settleWay s n key false
        else
          let (s, ok) := shareBytes s n key tag none bytes
          settleWay s n key ok

/-- What a read of a line at its home returns; none for an uncorrectable error. What the read does to the cache is `noteRead`'s. -/
def lineView (s : State) (pa q : Nat) : Option (List Byte) :=
  match findTag s pa q with
  | some (_, t) => some (tagBytes (sliceAt s (homeSlice pa)) t)
  | none => memLine s pa

/-- A read of a line at its home: a hit is an access of its way and of its entry (R159, R168); on a miss the slice fetches the line, and its
fill is due (R163). -/
def readHit (s : State) (q pa : Nat) : State :=
  let n := homeSlice pa
  match findTag s pa q with
  | some (key, t) => updSlice s n fun sl =>
      touchWay (if t.kind == .data then updEntry sl t.entry fun d => { d with ref := true } else sl) key
  | none => if s.pending.contains (.lineFill ⟨pa, q⟩) then s else enqueue s (.lineFill ⟨pa, q⟩)

/-- Overwrite bytes of a line. -/
def patch (bytes : List Byte) (w : List (Nat × Byte)) : List Byte := w.foldl (fun b p => setAt b p.1 p.2) bytes

/-- Give the tag at `key` a private entry holding `bytes`, dirty. False when the request stalls for an entry. -/
def privateEntry (s : State) (n key : Nat) (tag : Tag) (bytes : List Byte) : State × Bool :=
  match newEntry s n tag.remote bytes with
  | (s, some e) => (putTag s n key { tag with kind := .data, dirty := true, entry := e }, true)
  | (s, none) => (s, false)

/-- Write bytes of one line at its home slice, in the cases of R165. `w` lists offsets in the line with bytes. False when the request stalls;
a line that cannot be read is treated as R172 says. -/
def sliceWrite (s : State) (pa q : Nat) (w : List (Nat × Byte)) : State × Bool :=
  let pa := lineOf pa
  let n := homeSlice pa
  match findTag s pa q with
  | some (key, t) =>
    let sl := sliceAt s n
    let bytes := patch (tagBytes sl t) w
    let touched (s : State) (ok : Bool) : State × Bool := (endOp (if ok then updSlice s n fun sl => touchWay sl key else s) n, ok)
    match t.kind, tget sl.entries t.entry with
    | .data, some d =>
      if 2 ≤ d.count then
        match privateEntry (setBusy s n t.entry) n key t bytes with
        | (s, true) => touched (countLc (updSlice s n fun sl => dropCount sl t.entry) n cntUnshare t.pid) true
        | (s, false) => touched s false
      else touched (putTag (updSlice s n fun sl => updEntry (unlist sl t.entry) t.entry (·.write bytes)) n key { t with dirty := true }) true
    | _, _ =>
      let (s, ok) := privateEntry s n key t bytes
      touched s ok
  | none =>
    match (if 128 ≤ w.length then some (List.replicate 128 0) else memLine s pa) with
    | none => (lineError s pa, true)
    | some old =>
      let tag := newTag s pa q
      match reserveWay s n tag pa with
      | (s, none) => (s, false)
      | (s, some key) =>
        let (s, ok) := privateEntry s n key tag (patch old w)
        settleWay s n key ok

/-- Write bytes of one POOL line: no slice holds it, so its controller reads, patches and encrypts it (R346), and the write waits while a pass
holds the tensor's write-backs (R348). -/
def poolWrite (s : State) (pa : Nat) (w : List (Nat × Byte)) : State × Bool :=
  let pa := lineOf pa
  match (if 128 ≤ w.length then some (List.replicate 128 0) else memLine s pa) with
  | none => (lineError s pa, true)
  | some old => writeBack s pa (patch old w) false

/-- CMO.CLEAN at the line cache: write a dirty line back and look for its bytes in the content table (R127, R163). False when the write-back
cannot proceed yet. -/
def sliceClean (s : State) (pa q : Nat) : State × Bool :=
  match findTag s pa q with
  | none => (s, true)
  | some (key, _) =>
    let n := homeSlice pa
    match cleanTag s n key with
    | (s, false) => (s, false)
    | (s, true) =>
      match tget (sliceAt s n).tags key with
      | some t =>
        if t.kind == .data && !t.remote then
          let (s, ok) := shareBytes (setBusy s n t.entry) n key t (some t.entry) (tagBytes (sliceAt s n) t)
          (endOp s n, ok)
        else (s, true)
      | none => (s, true)

/-- Discard a line of the line cache without a write (R127). -/
def sliceDrop (s : State) (pa q : Nat) : State :=
  match findTag s pa q with
  | some (key, _) => dropTag s (homeSlice pa) key
  | none => s

/-- The keys of the tags of a slice that satisfy `p`. -/
def tagKeys (sl : Slice) (p : Tag → Bool) : List Nat := (sl.tags.filter fun t => p t.2).map (·.1)

/-- Write back the dirty REMOTE lines of a range, under whichever partition identifier they lie (R115, R170). False when one cannot go. -/
def cleanRemotes (s : State) (p : Nat → Bool) : State × Bool :=
  doAll (fun s sl => doAll (fun s k => cleanTag s sl.1 k) (tagKeys sl.2 fun t => t.remote && t.dirty && p (tagPa sl.1 t)) s) s.slices s

/-- The DEVICE or POOL address of line `l` of a tensor, by the frame tables. -/
def tensorLinePa (s : State) (t l : Nat) : Option Nat :=
  match s.frames.find? fun f => f.2.tensor == t && f.2.fnum == l / 32 with
  | some f => some (f.1 * 4096 + l % 32 * 128)
  | none => (s.poolFrames.find? fun f => f.2.tensor == t && f.2.fnum == l / 32).map fun f => f.1 * 4096 + l % 32 * 128

/-- Release a line's marker. -/
def dropMarker (s : State) (pa t : Nat) : State :=
  match findMarker s pa t with
  | some key => dropTag s (homeSlice pa) key
  | none => s

/-- Begin a close pass of a tensor, to v + 1, when a write period is open or the key changes (R347). It follows
a roll that is running. -/
def closePass (s : State) (t fromComp : Nat) : State :=
  match capAt s t with
  | some c =>
    if (c.level == .device || c.level == .pool) && (c.encOpen || fromComp != c.comp) && c.pass.isNone && (tensorLinePa s t 0).isSome then
      enqueue (updCap s t fun c => { c with
        pass := some (Pass.mk (c.encver + 1) 0 false fromComp [] false) }) (.passLine t)
    else updCap s t fun c => { c with pass := c.pass.map fun p => { p with thenClose := p.thenClose || p.roll } }
  | none => s

/-- The cached lines of a DEVICE buffer, its markers among them, take its compartment (R158), to which BGATE has changed it (R105). -/
def retag (s : State) (i comp : Nat) : State :=
  { s with slices := s.slices.map fun p => (p.1, { p.2 with tags := p.2.tags.map fun t =>
      if if t.2.kind == .marker then t.2.tensor == i else !t.2.remote && (tensorOf s (tagPa p.1 t.2)).1 == i then
        (t.1, { t.2 with comp := comp })
      else t }) }

/-- Drop every marker of a tensor. -/
def dropMarkers (s : State) (t : Nat) : State :=
  { s with slices := s.slices.map fun p =>
      (p.1, { p.2 with tags := p.2.tags.filter fun g => !(g.2.kind == .marker && g.2.tensor == t) }) }

end Sys2Proof.Machine
end

