-- ==== Sys2Proof/Machine/Caps.lean ====
section
/-! DEFINITION. Capabilities: holdings, the handle check (R80, R81), entries and their storage (R82 to R86), rights of an access
(R19, R177), ports and notices (R100 to R102). -/

namespace Sys2Proof.Machine

/-! Kernels' own holdings (R313) -/

/-- Doubleword `n` of a descriptor (R304). -/
def dw (desc : List Word) (n : Nat) : Word := desc.getD n 0

/-- The kernel of a hartloc. -/
def kernelOf (s : State) (loc : Nat) : Option Kernel := tget s.kernels (slotOf loc)

/-- The holding that a SHARE handle describes. -/
def shareOf (h : Word) : Holding :=
  { device := hDevice h, index := hIndex h, gen := hGen h, kind := .share, units := hUnits h, void := false, susp := 0 }

/-- The code holding, and the argument holding if there is one, that every hart of a kernel may load under (R313). -/
def kernelHoldings (s : State) (loc : Nat) : List Holding :=
  match kernelOf s loc with
  | some k => shareOf (dw k.desc 0) :: (if k.argKind = 1 then [shareOf k.arg] else [])
  | none => []

/-! Finding and changing holdings -/

/-- Whether a holding is of an entry, by index and generation. -/
def Holding.of (g : Holding) (i : Nat) (gen : BitVec 16) : Bool := g.index == i && g.gen == gen

/-- The holding of a hart that a handle matches, units apart (R76). -/
def matching (l : List Holding) (hv : Word) : Option Holding :=
  match hKind hv with
  | some k => l.find? fun g => g.device == hDevice hv && g.index == hIndex hv && g.gen == hGen hv && g.kind == k
  | none => none

/-- Units of an entry that engine commands of a hart pin (R81). -/
def pinnedUnits (h : Hart) (i : Nat) : Nat :=
  ((h.cmds.map (·.pins)).flatten.filter fun p => p.1 == i).foldl (fun n p => n + p.2) 0

/-- A kernel that has not ended (R314). -/
def Kernel.running (k : Kernel) : Bool := k.state != .done && k.state != .faulted

/-- A kernel that pins its code unit: one whose last hart has not ended (R307, R316). -/
def Kernel.pinsCode (k : Kernel) : Bool := k.running && k.state != .exiting && !k.codeHeld

/-- A hart as the launcher of a kernel. -/
def launcherOf (s : State) (h : Hart) : Launcher := .hart h.loc (tgetD s.sgens (slotOf h.loc) 0)

/-- Code units that kernels of a launcher pin (R307). -/
def kernelPins (s : State) (by_ : Launcher) (i : Nat) : Nat :=
  (s.kernels.filter fun k => k.2.launcher == by_ && k.2.pinsCode && hIndex (dw k.2.desc 0) == i).length

/-- Replace, in a holding list, the holding of the same entry and kind; one with neither units nor suspended units is dropped. -/
def putHolding (l : List Holding) (g : Holding) : List Holding :=
  let l := l.filter fun k => !(k.index == g.index && k.kind == g.kind)
  match g.kind with
  | .whole | .notice => l ++ [g]
  | .share | .deposit => if g.units = 0 && g.susp = 0 && !g.void then l else l ++ [g]

/-- Remove the holding of an entry and a kind. -/
def removeHolding (l : List Holding) (i : Nat) (k : HKind) : List Holding := l.filter fun g => !(g.index == i && g.kind == k)

/-- Add units to a holding list: they join a live holding of the entry and kind, or replace a void one (R76, R135). -/
def addUnits (l : List Holding) (g : Holding) : List Holding :=
  match l.find? fun k => k.index == g.index && k.kind == g.kind with
  | some k =>
    if k.gen == g.gen && !k.void then putHolding l { k with units := k.units + g.units } else putHolding l g
  | none => l ++ [g]

/-- Change the holdings of the executing hart. -/
def modHoldings (s : State) (f : List Holding → List Holding) : State := modH s fun h => { h with holdings := f h.holdings }

/-- Whether a hart's holding set is full for a new (index, kind) pair (R76). -/
def holdingFull (h : Hart) (i : Nat) (k : HKind) : Bool :=
  4096 ≤ h.holdings.length && !(h.holdings.any fun g => g.index == i && g.kind == k)

/-! The handle check -/

/-- Steps 1 to 4 of R80 against a set of holdings; the entry's cache may still have to be settled (R377). -/
def checkIn (s : State) (l : List Holding) (hv : Word) : Res (Holding × Cap) :=
  match matching l hv with
  | none => .error (.trap causeCapability hv)
  | some g =>
    let unitsOk : Bool := match g.kind with
      | .whole | .notice => true
      | .share | .deposit => 1 ≤ hUnits hv && hUnits hv ≤ g.units
    if hIndex hv = 0 || !unitsOk then .error (.trap causeCapability hv)
    else if capWaits s (hIndex hv) then .error (.stall s)
    else match capAt s (hIndex hv) with
      | none => .error (.trap causeCapability hv)
      | some c =>
        if c.gen != hGen hv || c.state == .free then .error (.trap causeCapability hv)
        else if c.state == .quarantined then .error (.trap causeQuarantined hv)
        else if g.kind == .whole && g.susp != 0 then .error (.trap causeCapability hv)
        else .ok (g, c)

/-- Steps 1 to 4 for the executing hart. `kern` says whether the kernel's own holdings count (R313). -/
def checkHandle (s : State) (hv : Word) (kern : Bool) : Res (Holding × Cap) :=
  checkIn s (s.h.holdings ++ if kern then kernelHoldings s s.h.loc else []) hv

/-- Step 5 for an instruction that needs OWNED under a WHOLE handle, with the stall of R81. -/
def ownedIn (s : State) (l : List Holding) (hv : Word) : Res Cap := do
  let (g, c) ← checkIn s l hv
  if g.kind != .whole || g.susp != 0 then .error (.trap causeCapability hv)
  else if c.state == .owned then .ok c
  else if c.state == .lent && !c.lendcb then .error (.stall s)
  else .error (.trap causeCapability hv)

/-- The same for the executing hart. -/
def needOwned (s : State) (hv : Word) : Res Cap := ownedIn s s.h.holdings hv

/-! Entries -/

/-- First index of the reserve of notice records (R102; log 25). -/
def noticeBase : Nat := 0xFF0000

/-- An entry that has never been used. -/
def Cap.free : Cap :=
  { state := .free, level := .tile, layout := 0, comp := 0, world := 0, indoubt := false, lendcb := false, lends := 0, gen := 0,
    orph := false, okind := .hart, owner := 0, base := 0, length := 0, total := 0, outst := 0, seq := 0, encver := 0,
    encOpen := false, encRoll := false, lparam := 0, ctx := 0, audit := 0, ports := [], marked := [], drain := none, pass := none,
    revoked := [], closing := false }

/-- A generation of the buffer that an entry holds: the present one, or one that BREVOKE has ended. -/
def Cap.had (c : Cap) (gen : BitVec 16) : Bool := c.gen == gen || c.revoked.contains gen

/-- The device that stores a REMOTE buffer (R367). -/
def storingDevice (c : Cap) : Nat := c.base / 2 ^ 47 % 256

/-- An entry that BALLOC may take: FREE and not retired (R350). -/
def Cap.usable (c : Cap) : Bool := c.state == .free && c.encver ≤ 0xFFFFFFF0

/-- The lowest index from `k` up whose entry is usable, at most `lim`. -/
def freeFrom (lim : Nat) : Tbl Cap → Nat → Option Nat
  | [], k => if k ≤ lim then some k else none
  | (i, c) :: r, k =>
    if i < k then freeFrom lim r k
    else if k < i then (if k ≤ lim then some k else none)
    else if c.usable then (if k ≤ lim then some k else none)
    else freeFrom lim r (k + 1)

/-- A free entry for a buffer (R85; the lowest, log 25). -/
def freeIndex (s : State) : Option Nat := freeFrom (noticeBase - 1) s.caps 1
/-- A free entry of the notice reserve. -/
def freeNotice (s : State) : Option Nat := freeFrom (noticeBase + 0xFFFF) s.caps noticeBase

/-- What a new buffer is to have. -/
structure NewBuf where
  level : Level
  layout : Nat
  comp : Nat
  lparam : Nat
  zero : Bool
  length : Nat
  ctx : Nat
  deriving DecidableEq, Repr

/-! Heaps (R82, R309) -/

/-- Intervals (start, end) that do not overlap [a, b). -/
def clear (l : List (Nat × Nat)) (a b : Nat) : Bool := l.all fun i => b ≤ i.1 || i.2 ≤ a

/-- The lowest start in [lo, hi) of a free run of `len`, first fit (log 25). -/
def firstFit (l : List (Nat × Nat)) (lo hi len : Nat) : Option Nat :=
  let ok (a : Nat) : Bool := lo ≤ a && a + len ≤ hi && clear l a (a + len)
  ((lo :: l.map fun i => alignUp i.2 256).filter ok).foldl
    (fun best a => match best with | some b => if a < b then some a else best | none => some a) none

/-- Storage that byte copies on their way have reserved: base, level, context and length (R96). -/
def reserved (s : State) : List (Nat × Level × Nat × Nat) :=
  s.sends.filterMap fun d =>
    match d.copy, capAt s d.arrival.index with
    | some (b, l, x), some c => if d.ready then none else some (b, l, x, c.length)
    | _, _ => none

/-- Ranges that buffers take of a level, by base address, and that byte copies have reserved. -/
def taken (s : State) (l : Level) : List (Nat × Nat) :=
  ((s.caps.filter fun c => c.2.state != .free && c.2.level == l && c.2.length != 0).map fun c => (c.2.base, c.2.base + c.2.length)) ++
    ((reserved s).filter fun r => r.2.1 == l).map fun r => (r.1, r.1 + r.2.2.2)

/-- Tile-aperture address of offset 0 of a tile (R18). -/
def tileBase (t : Nat) : Nat := 0x010000000000 + t * 0x00100000
/-- Cluster-aperture address of offset 0 of a cluster (R18). -/
def clusterBase (c : Nat) : Nat := 0x011000000000 + c * 0x01000000

/-- The runs of the harts placed on a tile, by address (R309). -/
def tileRuns (s : State) (t : Nat) : List (Nat × Nat) :=
  ((harts s).filter fun h => h.tile == some t).filterMap fun h => h.run.map fun r => (tileBase t + r.1, tileBase t + r.1 + r.2)

/-- Storage in a tile's heap: within `own`, a run carved out for the hart, before the rest of the heap (R309). -/
def tileAlloc (s : State) (t len : Nat) (own : Option (Nat × Nat)) : Option Nat :=
  let used := taken s .tile
  let inRun := match own with
    | some r => firstFit used (tileBase t + r.1) (tileBase t + r.1 + r.2) len
    | none => none
  match inRun with
  | some a => some a
  | none => firstFit (used ++ tileRuns s t) (tileBase t) (tileBase t + 0x100000) len

/-- Storage in a cluster's heap. -/
def clusterAlloc (s : State) (c len : Nat) : Option Nat :=
  firstFit (taken s .cluster) (clusterBase c) (clusterBase c + 0x1000000) len

/-- The lowest start of `need` successive pages from `page` up for which `ok` holds, within `fuel` pages. -/
def scanRun (ok : Nat → Bool) (need : Nat) : Nat → Nat → Nat → Option Nat
  | 0, _, _ => none
  | fuel + 1, page, have_ =>
    if ok page then
      if have_ + 1 = need then some (page + 1 - need) else scanRun ok need fuel (page + 1) (have_ + 1)
    else scanRun ok need fuel (page + 1) 0

/-- The lowest run of `need` pages for which `ok` holds, within one of some ranges (base, bytes). -/
def lowestRun (ok : Nat → Bool) (need : Nat) (ranges : List (Nat × Nat)) : Option Nat :=
  (ranges.filterMap fun r => scanRun ok need (r.2 / 4096) (r.1 / 4096) 0).foldl
    (fun best a => match best with | some b => if a < b then some a else best | none => some a) none

/-! Translation without checks of rights, for the allocator and the engines: Sv57 as R339 and R340 restrict it. -/

/-- Why a walk fails. -/
inductive WalkErr where
  | page | scrub | access
  /-- An uncorrectable error in a table's line (R355). -/
  | table (pa : Nat)
  deriving DecidableEq, Repr

/-- A page-table entry (R340): the walker reads TABLE frames raw. -/
def readPte (s : State) (pa : Nat) : Word := word (leNat (Memory.getN s.mem pa 8))

/-- Reserved bits and PBMT of an entry are zero (R339). -/
def pteClean (p : Word) : Bool := fld p 54 7 = 0 && fld p 61 2 = 0

/-- The 4 KiB frame `ppn` is a TABLE frame of context `ctx` (R340). -/
def isTable (s : State) (ctx ppn : Nat) : Bool :=
  let f := frameOf s (ppn * 4096)
  ppn * 4096 < 2 ^ 39 && f.ftype == .table && f.ctx == ctx && !f.retired

/-- The range that `pages` frames from a physical address lie in admits a leaf (R337, R340). -/
def leafTarget (s : State) (world pa pages : Nat) : Option WalkErr :=
  if isDevicePa pa then
    if (s.frames.filter fun f => pa / 4096 ≤ f.1 && f.1 < pa / 4096 + pages && f.2.ftype == .data && f.2.world == world &&
        !f.2.retired).length == pages then none
    else some .page
  else if isHostPa pa || isPoolPa pa || isRemotePa pa then none
  else some .access

/-- One level of the walk (R339): `lvl` from 4 down, `table` the physical address of the table. `pmp` says which entries physical memory
protection lets the walker read; one that it refuses is an access fault (R28). -/
def walkFrom (s : State) (pmp : Nat → Bool) (ctx world asid va : Nat) : Nat → Nat → Except WalkErr TlbEntry
  | lvl, table =>
    let pteAddr := table + va / 2 ^ (12 + 9 * lvl) % 512 * 8
    if !pmp pteAddr then .error .access
    else if scrubBlocked s pteAddr then .error .scrub
    else if (metaOf s pteAddr).bad then .error (.table pteAddr)
    else
      let p := readPte s pteAddr
      let ppn := fld p 10 44
      if !bitAt p 0 || (!bitAt p 1 && bitAt p 2) || !pteClean p then .error .page
      else if !bitAt p 1 && !bitAt p 3 then
        match lvl with
        | 0 => .error .page
        | l + 1 =>
          if bitAt p 63 || bitAt p 4 || bitAt p 6 || bitAt p 7 || !isTable s ctx ppn then .error .page
          else walkFrom s pmp ctx world asid va l (ppn * 4096)
      else
        let napot := bitAt p 63
        let pages := if napot then 16 else 512 ^ lvl
        if lvl = 4 || (napot && (lvl != 0 || ppn % 16 != 8)) || (!napot && ppn % pages != 0) then .error .page
        else
          let base := if napot then ppn - 8 else ppn
          match leafTarget s world (base * 4096) pages with
          | some e => .error e
          | none =>
            .ok { ctx := ctx, asid := asid, vpn := va / 4096 / pages * pages, pages := pages, ppn := base,
                  flags := BitVec.ofNat 8 p.toNat }

/-- Walk the page tables of a context for a virtual address. An address that Sv57 cannot hold is a page fault. -/
def walk (s : State) (pmp : Nat → Bool) (ctx : Nat) (satp : Word) (va : Nat) : Except WalkErr TlbEntry :=
  let root := fld satp 0 44
  if va ≥ 2 ^ 57 && va < 2 ^ 64 - 2 ^ 56 then .error .page
  else if va % 2 ^ 57 ≥ 2 ^ 56 && va < 2 ^ 57 then .error .page
  else if !isTable s ctx root then .error .page
  else walkFrom s pmp ctx (worldOf s ctx) (fld satp 44 16) (va % 2 ^ 57) 4 (root * 4096)

/-- The `satp` that placement writes for a context (R318, R341). -/
def ctxSatp (c : Ctx) : Word := word (10 * 2 ^ 60 + c.asid.toNat * 2 ^ 44 + c.root.toNat % 2 ^ 44)

/-- The physical address that a translation gives. -/
def TlbEntry.pa (e : TlbEntry) (va : Nat) : Nat := (e.ppn + (va % 2 ^ 57 / 4096 - e.vpn)) * 4096 + va % 4096

/-- Physical address of a byte of a buffer at a virtual address: an aperture address is its own; a paged one goes through the page
tables of context `ctx`. -/
def bufPa (s : State) (ctx va : Nat) : Option Nat :=
  if inTileAperture va || inClusterAperture va then some va
  else match ctxOf s ctx with
    | none => none
    | some c => match walk s (fun _ => true) ctx (ctxSatp c) va with
      | .ok e => some (e.pa va)
      | .error _ => none

/-! Allocation -/

/-- Whether a page of a context's DEVICE pool is mapped to a frame that no buffer occupies (R342). -/
def pageFree (s : State) (ctx : Nat) (used : List (Nat × Nat)) (page : Nat) : Bool :=
  clear used (page * 4096) (page * 4096 + 4096) &&
    (match bufPa s ctx (page * 4096) with
     | some pa => isDevicePa pa && (frameOf s pa).tensor == 0
     | none => false)

/-- DEVICE storage of a context (R342). -/
def deviceAlloc (s : State) (ctx len : Nat) : Option Nat :=
  match ctxOf s ctx with
  | none => none
  | some c =>
    let used := (s.caps.filter fun e => e.2.state != .free && e.2.level == .device && e.2.ctx == ctx).map
      fun e => (e.2.base, e.2.base + alignUp e.2.length 4096)
    let used := used ++ ((reserved s).filter fun r => r.2.1 == .device && r.2.2.1 == ctx).map
      fun r => (r.1, r.1 + alignUp r.2.2.2 4096)
    let need := (len + 4095) / 4096
    (lowestRun (pageFree s ctx used) need c.pool).map (· * 4096)

/-- POOL storage of a context (R362): its base address is the physical address, at which the page must be mapped (R342). -/
def poolAlloc (s : State) (ctx len : Nat) : Option Nat :=
  match ctxOf s ctx with
  | none => none
  | some c =>
    let ok (page : Nat) : Bool :=
      bufPa s ctx (page * 4096) == some (page * 4096) && (tgetD s.poolFrames page PoolFrame.none).tensor == 0 &&
        (reserved s).all fun r => r.2.1 != .pool || page * 4096 + 4096 ≤ r.1 || r.1 + alignUp r.2.2.2 4096 ≤ page * 4096
    (lowestRun ok ((len + 4095) / 4096) c.regions).map (· * 4096)

/-- The pages of a range. -/
def pagesOf (base len : Nat) : List Nat := rangeFrom (base / 4096) ((base % 4096 + len + 4095) / 4096)
/-- The lines of a range. -/
def linesOf (base len : Nat) : List Nat := (rangeFrom (base / 128) ((base % 128 + len + 127) / 128)).map (· * 128)

/-- Drop every tag of a frame without a write (R352), MARKER tags among them, and its dirty bytes in every data L1. A MARKER names its line by
the low address bits, which a POOL line may share: the tensor's level tells them apart. -/
def dropFrame (s : State) (pa : Nat) : State :=
  let base := pa / 4096 * 4096
  let inFrame (a : Nat) : Bool := base ≤ a && a < base + 4096
  let s := { s with tiles := s.tiles.map fun t =>
    (t.1, { t.2 with l1d := t.2.l1d.filter fun c => !inFrame c.1, l1i := t.2.l1i.filter fun c => !inFrame c.1 }) }
  (linesOf base 4096).foldl (fun s l =>
    let n := homeSlice l
    let keys := tagKeys (sliceAt s n) fun t => tagPa n t == l &&
      (t.kind != .marker || (capAt s t.tensor).any fun c => (c.level == .pool) == isPoolPa pa)
    keys.foldl (fun s k => dropTag s n k) s) s

/-- Bytes of a tile's SRAM change: the software dirty bits of their banks are set for the hart there (R331). -/
def touchBanks (s : State) (a len : Nat) : State :=
  if inTileAperture a then
    match hartOn s ((a - 0x010000000000) / 0x100000) with
    | some h =>
      let first := (a - 0x010000000000) % 0x100000 / 2048
      let bits := (rangeFrom first ((a % 2048 + len + 2047) / 2048)).foldl (fun m b => m ||| (1#512 <<< b)) 0#512
      updHart s h.loc fun h => { h with softBanks := h.softBanks ||| bits }
    | none => s
  else s

/-- Zero `len` bytes of memory. -/
def zeroRange (s : State) (a len : Nat) : State :=
  touchBanks { s with mem := s.mem.filter fun c => !(a ≤ c.1 && c.1 < a + len) } a len

/-- Set the frame-table fields of a frame for a buffer, and its lines to the zero code (R342, R362). -/
def takeFrame (s : State) (pa i fnum comp : Nat) : State :=
  let s := dropFrame s pa
  let s := { s with lmeta := s.lmeta.filter fun k => !(pa / 4096 * 32 ≤ k.1 && k.1 < pa / 4096 * 32 + 32) }
  if isDevicePa pa then
    { s with frames := tput s.frames (pa / 4096) { frameOf s pa with tensor := i, fnum := fnum, comp := comp } }
  else { s with poolFrames := tput s.poolFrames (pa / 4096) { comp := comp, tensor := i, fnum := fnum } }

/-- Return a frame: tensor := 0 (R342). -/
def returnFrame (s : State) (pa : Nat) : State :=
  if isDevicePa pa then { s with frames := tput s.frames (pa / 4096) { frameOf s pa with tensor := 0 } }
  else { s with poolFrames := terase s.poolFrames (pa / 4096) }

/-- Give a paged buffer its frames, in order. -/
def takeFrames (s : State) (ctx base len i comp : Nat) : State :=
  ((pagesOf base len).foldl (fun (a : State × Nat) p =>
    match bufPa a.1 ctx (p * 4096) with
    | some pa => (takeFrame a.1 pa i a.2 comp, a.2 + 1)
    | none => (a.1, a.2 + 1)) (s, 0)).1

/-- Contents of newly allocated SRAM (R84): zeroed when asked or when another context used a granule last; otherwise a granule
keeps its bytes or reads zero as a free value says (log 15). -/
def freshSram (s : State) (base len ctx : Nat) (zero : Bool) : State :=
  (rangeFrom (base / 256) (len / 256)).foldl (fun s g =>
    let keep := !zero && tget s.granuleCtx g == some ctx
    let (k, s) := draw s
    if keep && Config.keepsBytes k then s else zeroRange s (g * 256) 256) s

/-- Storage for a new buffer at its level, by the hart or kernel placed on `tile`. -/
def storage (s : State) (tile : Nat) (own : Option (Nat × Nat)) (b : NewBuf) : Option Nat :=
  match b.level with
  | .tile => tileAlloc s tile b.length own
  | .cluster => clusterAlloc s (clusterOf tile) b.length
  | .device => deviceAlloc s b.ctx b.length
  | .pool => poolAlloc s b.ctx b.length
  | .host | .remote => none

/-- Make the new entry and prepare its storage (R84, R85, R342). -/
def makeBuf (s : State) (i base : Nat) (b : NewBuf) (owner : Nat) : State :=
  let old := tgetD s.caps i Cap.free
  let c := { Cap.free with
    state := .owned, level := b.level, layout := b.layout, comp := b.comp, world := worldOf s b.ctx, gen := old.gen + 1,
    owner := owner, base := base, length := b.length, lparam := b.lparam, ctx := b.ctx, encver := old.encver }
  let s := { s with caps := tput s.caps i c }
  match b.level with
  | .tile | .cluster => freshSram s base b.length b.ctx b.zero
  | .device | .pool => takeFrames s b.ctx base b.length i b.comp
  | .host | .remote => s

/-- Return the storage of an entry to its heap or pool (R86, R342). -/
def freeStorage (s : State) (i : Nat) : State :=
  match capAt s i with
  | none => s
  | some c =>
    match c.level with
    | .tile | .cluster =>
      { s with granuleCtx := (rangeFrom (c.base / 256) (c.length / 256)).foldl (fun t g => tput t g c.ctx) s.granuleCtx }
    | .device | .pool =>
      let pas := (s.frames.filter fun f => f.2.tensor == i).map (·.1 * 4096) ++
        (s.poolFrames.filter fun f => f.2.tensor == i).map (·.1 * 4096)
      let s := dropMarkers s i
      pas.foldl (fun s pa => returnFrame (dropFrame s pa) pa) s
    | .host | .remote => s

/-- The version that an entry goes on from when its storage goes: no version that a write period or a pass has used comes again (R347,
R350). -/
def Cap.nextVersion (c : Cap) : Nat :=
  match c.pass with
  | some p => max p.target (c.encver + 1)
  | none => if c.encOpen then c.encver + 1 else c.encver

/-- The entry becomes FREE and its storage returns (R79, R86). `encver` is kept (R350). A remote reference gives back its export
range at the storing device by its own message. -/
def freeEntry (s : State) (i : Nat) : State :=
  match capAt s i with
  | none => s
  | some c =>
    let s := freeStorage s i
    { s with caps := tput s.caps i { Cap.free with gen := c.gen, encver := c.nextVersion } }

/-- Units return: `outst` falls, and an orphaned entry with none left becomes FREE (R79, R86). Units of a window that FORCE closes count no
more (R107). -/
def returnUnits (s : State) (i n : Nat) : State :=
  match capAt s i with
  | none => s
  | some c =>
    if c.closing then s else
    let s := updCap s i fun c => { c with outst := c.outst - n }
    if c.orph && c.outst ≤ n then freeEntry s i else s

/-! Rights of an access (R19, R29, R109, R177) -/

/-- What a hart may do at an address. -/
inductive Right where
  | none | load | full | lent | quarantined
  deriving DecidableEq, Repr

/-- Fields of a geometry value (R175). -/
def gProd (g : Word) : Nat := fld g 48 3
def gCount (g : Word) : Nat := fld g 32 13
def gSize (g : Word) : Nat := 128 * fld g 16 12
def gOffset (g : Word) : Nat := 256 * fld g 0 12

/-- Slot `k` of a ring lies among `n` slots from slot `first`. -/
def inWindow (count first n k : Nat) : Bool := (k + count - first) % count < n

/-- The window rule of R177 for a byte offset of the buffer bound to a circular buffer: none when it lies outside the region. -/
def cbAdmits (c : Cb) (off : Nat) : Option Bool :=
  let g := c.geom
  if !c.bound || off < gOffset g || off ≥ gOffset g + gCount g * gSize g then none
  else
    let k := (off - gOffset g) / gSize g
    some (match gProd g with
      | 0 => inWindow (gCount g) (c.pushed.toNat % gCount g) c.resv k
      | 1 => inWindow (gCount g) (c.popped.toNat % gCount g) c.held k
      | _ => false)

/-- What one holding of a hart gives it at an address of its buffer. -/
def rightUnder (h : Hart) (g : Holding) (c : Cap) (va : Nat) : Right :=
  if c.state == .quarantined then .quarantined
  else match g.kind, c.state with
    | .whole, .owned => if g.susp = 0 then .full else .none
    | .whole, .lent =>
      if !c.lendcb then .lent
      else match (h.cbs.toList.filter fun b => b.bound && hIndex b.handle == g.index && hGen b.handle == g.gen).filterMap
          fun b => cbAdmits b (va - c.base) with
        | [] => .full
        | l => if l.all id then .full else .none
    | .share, .shared => if g.units = 0 then .none else .load
    | _, _ => .none

/-- The tile-aperture address that a local-window address stands for (R18, R19). -/
def capAddr (s : State) (va : Nat) : Nat :=
  if 0x00F000000000 ≤ va && va ≤ 0x00F0000FFFFF then tileBase (myTile s) + (va - 0x00F000000000) else va

/-- The better of two rights; a quarantined buffer decides. -/
def Right.or : Right → Right → Right
  | .quarantined, _ => .quarantined
  | _, .quarantined => .quarantined
  | .lent, _ => .lent
  | _, .lent => .lent
  | .full, _ => .full
  | _, .full => .full
  | .load, _ => .load
  | _, .load => .load
  | .none, .none => .none

/-- An address of a tile that is out of service (R19). -/
def outOfTile (s : State) (a : Nat) : Bool := inTileAperture a && tileOut s ((a - 0x010000000000) / 0x100000)

/-- What the executing hart may do at an address. No capability covers a tile out of service (R19). -/
def rightAt (s : State) (va : Nat) : Right :=
  let a := capAddr s va
  if outOfTile s a then .none else
  (s.h.holdings ++ kernelHoldings s s.h.loc).foldl (fun r g =>
    match capAt s g.index with
    | some c =>
      if c.gen == g.gen && c.state != .free && c.base ≤ a && a < c.base + c.length then r.or (rightUnder s.h g c a) else r
    | none => r) .none

/-- A right that covers a load, or a store. -/
def Right.allows : Right → Bool → Bool
  | .full, _ => true
  | .load, store => !store
  | _, _ => false

/-- The capability check of an access of `n` bytes (R19, R29, R31, R109); `tval` is what `stval` takes. -/
def checkRights (s : State) (va n : Nat) (store : Bool) (tval : Word) : Res Unit :=
  let rs := (linesOf va n).map fun l => rightAt s (if l < va then va else l)
  if rs.any (· == .quarantined) then .error (.trap causeQuarantined tval)
  else if rs.all fun r => r.allows store then .ok ()
  else if rs.all fun r => r.allows store || r == .lent then .error (.point s)
  else .error (.trap causeOwnership tval)

/-- The capability check of an element of a vector access, which names the first byte that fails (R209). -/
def checkElem (s : State) (va n : Nat) (store : Bool) : Res Unit :=
  (linesOf va n).foldlM (fun _ l =>
    let a := if l < va then va else l
    let r := rightAt s a
    if r.allows store then .ok ()
    else if r == .quarantined then .error (.trap causeQuarantined (word a))
    else if r == .lent then .error (.point s)
    else .error (.trap causeOwnership (word a))) ()

/-! Ports (R100, R101) -/

/-- Scope of a transfer between two harts' tiles, or a tile and a die (R25). -/
def scopeTiles (a b : Nat) : Nat := if clusterOf a == clusterOf b then 2 else if dieOf a == dieOf b then 3 else 4
def scopeTileDie (a die : Nat) : Nat := if dieOf a == die then 3 else 4

/-- Where a logical hart is (R25). -/
def Hart.place (h : Hart) : Nat := h.tile.getD h.lastTile

/-- Scope of a transfer between two harts (R25). -/
def scopeHarts (a b : Hart) : Nat :=
  if a.loc == b.loc then 0
  else if (match a.gang with | some g => g.members.contains b.loc | none => false) then 1
  else scopeTiles a.place b.place

/-- Arrivals that a port can still take (R101). While the ring holds arrivals, the on-chip places take none, since arrivals leave in order:
a full ring is then a full port (log 72). -/
def portFree (h : Hart) : Nat :=
  if h.tile.isSome && h.ring.isEmpty then (16 - h.port.length) + h.ringCap else h.ringCap - h.ring.length

/-- Write an arrival to a port: on chip while there is room and the ring is empty, else to the ring (R101). -/
def portPut (h : Hart) (a : Arrival) : Hart :=
  if h.tile.isSome && h.port.length < 16 && h.ring.isEmpty then { h with port := h.port ++ [a] }
  else { h with ring := h.ring ++ [a] }

/-- The port after its oldest arrival is taken: the oldest arrival of the ring moves in. -/
def portTake (h : Hart) : Option (Arrival × Hart) :=
  match h.port, h.ring with
  | a :: p, r :: q => some (a, { h with port := p ++ [r], ring := q })
  | a :: p, [] => some (a, { h with port := p })
  | [], r :: q => some (r, { h with ring := q })
  | [], [] => none

/-- Write an arrival for a logical hart if its port has room; otherwise it waits as a notice does. -/
def postArrival (s : State) (loc : Nat) (a : Arrival) : State := updHart s loc fun h => portPut h a

/-- A notice is due for a logical hart (R102): an event that writes it. -/
def postNotice (s : State) (n : Notice) : State :=
  enqueue { s with notices := s.notices ++ [n] } (.noticeWrite s.notices.length)

/-- Void the SHARE and DEPOSIT holdings that a hart has of an entry. -/
def voidDeposits (h : Hart) (i : Nat) : Hart :=
  { h with
    holdings := h.holdings.map fun g => if g.index == i && g.kind == .deposit then { g with void := true, units := 0, susp := 0 } else g
    port := h.port.map fun a => if a.index == i && a.kind == .deposit then { a with void := true } else a
    ring := h.ring.map fun a => if a.index == i && a.kind == .deposit then { a with void := true } else a }

end Sys2Proof.Machine
end

