-- ==== Sys2Proof/Machine/Access.lean ====
section
/-! DEFINITION. Accesses of a hart: translation and TLB (R337 to R341), PMP (R28), loads, stores and fetches at their read points
(R114, R115), release and acquire (R115, R116), and the outstanding-operation counters (R130). -/

namespace Sys2Proof.Machine

/-- Kind of access. -/
inductive Access where
  | fetch | load | store
  deriving DecidableEq, Repr

/-- Cause of an access fault, and of a page fault, of a kind. -/
def Access.fault : Access → Nat
  | .fetch => 1 | .load => 5 | .store => 7
def Access.page : Access → Nat
  | .fetch => 12 | .load => 13 | .store => 15

/-- Inside the apertures' span but outside every aperture (R18). -/
def inHole (va : Nat) : Bool :=
  0x00F000000000 ≤ va && va ≤ 0x0110FFFFFFFF && !(va ≤ 0x00F0000FFFFF) && !inTileAperture va && !inClusterAperture va

/-- The mode that an access is checked in, under a mode and a status word: MPP where MPRV applies. -/
def modeUnder (md : Mode) (mstatus : Word) (k : Access) : Mode :=
  if md == .m && k != .fetch && bitAt mstatus 17 then Mode.ofCode (fld mstatus 11 2) else md
/-- That of the executing hart. -/
def effMode (s : State) (k : Access) : Mode := modeUnder s.h.mode s.h.csr.mstatus k

/-- Whether an access in a mode goes through the page tables that `satp` names (R341). -/
def pagedUnder (md : Mode) (satp : Word) : Bool := !(md == .m || fld satp 60 4 != 10)

/-- Ones at the low end of a number, at most `n`. -/
def lowOnes : Nat → Nat → Nat
  | 0, _ => 0
  | n + 1, v => if v % 2 = 1 then 1 + lowOnes n (v / 2) else 0

/-- The byte range of a PMP entry, with the 4 KiB granule (R28). -/
def pmpRange (s : State) (i : Fin 16) : Option (Nat × Nat) :=
  let cfg := (s.h.csr.pmpcfg.get i).toNat
  let a := (s.h.csr.pmpaddr.get i).toNat
  match cfg / 8 % 4 with
  | 1 =>
    let lo := if h : i.val = 0 then 0 else (s.h.csr.pmpaddr.get ⟨i.val - 1, by omega⟩).toNat / 1024 * 4096
    some (lo, a / 1024 * 4096)
  | 3 =>
    let n := lowOnes 54 (a / 512 * 512 + 511)
    some (a / 2 ^ n * 2 ^ n * 4, (a / 2 ^ n * 2 ^ n + 2 ^ (n + 1)) * 4)
  | _ => none

/-- Whether PMP admits an access to a physical address. -/
def pmpAdmits (s : State) (md : Mode) (k : Access) (pa : Nat) : Bool :=
  match (List.finRange 16).find? fun i => match pmpRange s i with | some (lo, hi) => lo ≤ pa && pa < hi | none => false with
  | none => md == .m
  | some i =>
    let cfg := s.h.csr.pmpcfg.get i
    (md == .m && !cfg.getLsbD 7) || cfg.getLsbD (match k with | .load => 0 | .store => 1 | .fetch => 2)

/-- Permissions of a leaf (R339): A must be set, D on a store. -/
def leafAdmits (s : State) (md : Mode) (k : Access) (flags : Byte) : Bool :=
  let b (n : Nat) : Bool := flags.getLsbD n
  let user := match md with
    | .u => b 4
    | _ => !b 4 || (k != .fetch && bitAt s.h.csr.mstatus 18)
  let perm := match k with
    | .load => b 1 || (bitAt s.h.csr.mstatus 19 && b 3)
    | .store => b 2
    | .fetch => b 3
  user && perm && b 6 && (k != .store || b 7)

/-- The TLB entry of a page for a context and an ASID. -/
def tlbFind (l : List TlbEntry) (ctx asid va : Nat) : Option TlbEntry :=
  l.find? fun e => e.ctx == ctx && e.asid == asid && e.vpn ≤ va % 2 ^ 57 / 4096 && va % 2 ^ 57 / 4096 < e.vpn + e.pages

/-- Add an entry; the oldest leaves a full TLB (log 26). -/
def tlbAdd (l : List TlbEntry) (cap : Nat) (e : TlbEntry) : List TlbEntry := if cap ≤ l.length then l.drop 1 ++ [e] else l ++ [e]

/-- The cause of a failed walk. -/
def WalkErr.cause (k : Access) : WalkErr → Nat
  | .page | .table _ => k.page | .scrub => causeScrub | .access => k.fault

/-- Larch is told of a TABLE frame that the walker could not read (R355). -/
def tellWalk (s : State) : WalkErr → State
  | .table pa => { s with told := s.told ++ [.tableError pa] }
  | .page | .scrub | .access => s

/-- A line whose home slice, or whose stack's controller, is still to be settled (R377). -/
def lineWaits (s : State) (pa : Nat) : Bool :=
  (isDevicePa pa || isRemotePa pa) &&
    (unsettled s (34 + homeSlice pa / 32) (homeSlice pa % 32) || (isDevicePa pa && unsettled s 36 (pa / 2 ^ 36 % 8)))

/-- A slice that is out of service, or held in reset with its die (R157, R377). -/
def sliceHeld (s : State) (n : Nat) : Bool := !isReady s (34 + n / 32) (n % 32)

/-- A walk waits for a table entry's line (R377). -/
def walkWaits (s : State) (va : Nat) : Nat → Nat → Bool
  | lvl, table =>
    let a := table + va / 2 ^ (12 + 9 * lvl) % 512 * 8
    let p := readPte s a
    lineWaits s a || match lvl with
      | 0 => false
      | l + 1 => bitAt p 0 && !bitAt p 1 && !bitAt p 3 && walkWaits s va l (fld p 10 44 * 4096)

/-- A host port caches its translation of a host page, up to 2,048 of them, the oldest leaving first (R364). -/
def atsTouch (s : State) (pa : Nat) : State :=
  if isHostPa pa then
    updPort s (16 + (pa - 2 ^ 52) / 2 ^ 51) fun p =>
      if p.ats.contains (pa / 4096) then p else { p with ats := (p.ats ++ [pa / 4096]).drop (p.ats.length - 2047) }
  else s

/-- The TLB that an access uses (R341): the tile's, or for the copy engine (`eng`) its cluster's. -/
def tlbOf (s : State) (eng : Bool) : List TlbEntry := if eng then (clusterAt s (myCluster s)).tlb else (tileOf s (myTile s)).tlb
/-- A walk fills the TLB for which it was made. -/
def tlbFill (s : State) (eng : Bool) (e : TlbEntry) : State :=
  if eng then updCluster s (myCluster s) fun k => { k with tlb := tlbAdd k.tlb 4096 e }
  else updTile s (myTile s) fun t => { t with tlb := tlbAdd t.tlb 64 e }

/-- Whether the executing hart's accesses of a kind go through the page tables (R341). -/
def paged (s : State) (k : Access) : Bool := pagedUnder (effMode s k) s.h.csr.satp

/-- Physical address of a virtual address, with the TLB as the walk leaves it. An address of the apertures is its own. -/
def translateBy (eng : Bool) (s : State) (k : Access) (va : Nat) : Res (Nat × State) :=
  let a := capAddr s va
  if inTileAperture a || inClusterAperture a then .ok (a, s)
  else if inHole va then .error (.trap k.fault (word va))
  else
    let md := effMode s k
    let fin (pa : Nat) (s : State) : Res (Nat × State) :=
      if !(isDevicePa pa || isHostPa pa || isPoolPa pa || isRemotePa pa) || isReserved s pa || !pmpAdmits s md k pa then
        .error (.trap k.fault (word va))
      else if scrubBlocked s pa then .error (.trap causeScrub (word va))
      else if lineWaits s pa then .error (.stall s)
      else .ok (pa, s)
    if !paged s k then fin va s
    else
      match tlbFind (tlbOf s eng) s.h.ctx (fld s.h.csr.satp 44 16) va with
      | some e => if leafAdmits s md k e.flags then fin (e.pa va) s else .error (.trap k.page (word va))
      | none =>
        if walkWaits s (va % 2 ^ 57) 4 (fld s.h.csr.satp 0 44 * 4096) then .error (.stall s) else
        match walk s (pmpAdmits s .s .load) s.h.ctx s.h.csr.satp va with
        | .error w => .error (.trapAt (tellWalk s w) (w.cause k) (word va))
        | .ok e =>
          let s := tlbFill s eng e
          if leafAdmits s md k e.flags then fin (e.pa va) s else .error (.trap k.page (word va))

/-- The translation of the executing hart's own accesses. -/
def translate (s : State) (k : Access) (va : Nat) : Res (Nat × State) := translateBy false s k va

/-- The page that holds a virtual address just translated: its first 4 KiB page, and how many it has (R339). -/
def pageAt (s : State) (eng : Bool) (k : Access) (va : Nat) : Nat × Nat :=
  match (if paged s k then tlbFind (tlbOf s eng) s.h.ctx (fld s.h.csr.satp 44 16) va else none) with
  | some e => (e.vpn, e.pages)
  | none => (va % 2 ^ 57 / 4096, 1)

/-- The first address of a run of 4 KiB frames, after its first, that a scrub has still to clear (R353): `n` frames follow the one at `va`, whose
physical address is `pa`. -/
def firstBlocked (s : State) (va pa n : Nat) : Option Nat :=
  ((rangeFrom 1 n).find? fun k => scrubBlocked s (pa / 4096 * 4096 + 4096 * k)).map fun k => va / 4096 * 4096 + 4096 * k

/-- Probe the pages of the virtual addresses from `va` to below `hi` (R196 check 7, R228 check 8), each at its first address in the range,
and for scrubs at each of its frames; the pages. -/
def probeFrom (eng : Bool) (k : Access) (hi : Nat) : Nat → Nat → State → Res (List (Nat × Nat) × State)
  | 0, _, s => .ok ([], s)
  | fuel + 1, va, s =>
    if hi ≤ va then .ok ([], s)
    else do
      let (pa, s) ← translateBy eng s k va
      let p := pageAt s eng k va
      let next := va - va % 2 ^ 57 + (p.1 + p.2) * 4096
      match firstBlocked s va pa ((min next hi - 1) / 4096 - va / 4096) with
      | some a => .error (.trap causeScrub (word a))
      | none => do
        let (l, s) ← probeFrom eng k hi fuel next s
        .ok (p :: l, s)

/-- Probe a range of virtual addresses. -/
def probeRange (eng : Bool) (s : State) (k : Access) (lo n : Nat) : Res (List (Nat × Nat) × State) :=
  probeFrom eng k (lo + n) (n / 4096 + 2) lo s

/-- The executing hart's partition identifier (R161, R320). -/
def myPid (s : State) : Nat := match ctxOf s s.h.ctx with | some c => c.pid | none => 0

/-- A HOST, POOL or REMOTE address behind links that carry nothing (R356). -/
def linkDead (s : State) (pa : Nat) : Bool :=
  if isRemotePa pa then !(portAt s (routePort s (pa / 2 ^ 47 % 256))).carries
  else if isHostPa pa then !(portAt s (16 + (pa - 2 ^ 52) / 2 ^ 51)).carries
  else isPoolPa pa && !(portAt s 16).carries && !(portAt s 17).carries

/-- A host page that its port's cache does not hold (R364). -/
def hostUnknown (s : State) (pa : Nat) : Bool := isHostPa pa && !((portAt s (16 + (pa - 2 ^ 52) / 2 ^ 51)).ats.contains (pa / 4096))

/-- The host behind a port translates a page of its own that the port's cache does not hold (R364). Whether it refuses is a free value
(log 19). -/
def askHost (s : State) (pa : Nat) : State × Bool :=
  if hostUnknown s pa then
    let (n, s) := draw s
    if (Config.freeWord n).getLsbD 0 then (s, false) else (atsTouch s pa, true)
  else (s, true)

/-- What lies beyond a port answers a hart's access (R337, R356, R364, R367, R368). A link that carries nothing fails it with LINK; a REMOTE
line that the remote partition holds needs no link to be read. The storing device may answer with a page fault or an uncorrectable
error, and the host may refuse to translate a page of its own: free values (log 19). -/
def reach (s : State) (k : Access) (va pa : Nat) : Res State :=
  if isRemotePa pa then
    if k != .store && (findTag s pa (myPid s)).isSome then .ok s
    else if linkDead s pa then .error (.trap causeLink (word va))
    else
      let (n, s) := draw s
      match fld (Config.freeWord n) 0 2 with
      | 1 => .error (.trapAt s k.page (word va))
      | 2 => .error (.trapAt s causeQuarantined (word va))
      | _ => .ok s
  else if linkDead s pa then .error (.trap causeLink (word va))
  else match askHost s pa with
    | (s, true) => .ok s
    | (s, false) => .error (.trapAt s k.fault (word va))

/-- Physical addresses of the bytes of an access. -/
def translateRange (s : State) (k : Access) (va n : Nat) : Res (List Nat × State) :=
  if va % 4096 + n ≤ 4096 then do
    let (pa, s) ← translate s k va
    let s ← reach s k va pa
    .ok (rangeFrom pa n, s)
  else do
    let first := 4096 - va % 4096
    let (pa, s) ← translate s k va
    let (pb, s) ← translate s k (va + first)
    let s ← reach s k va pa
    let s ← reach s k (va + first) pb
    .ok (rangeFrom pa first ++ rangeFrom pb (n - first), s)

/-! Read points -/

/-- Whether bytes are read a line at a time: from a home slice, or through the controller that decrypts POOL lines (R346). -/
def linePa (pa : Nat) : Bool := isDevicePa pa || isRemotePa pa || isPoolPa pa

/-- A line at its read point (R115): the home slice for DEVICE and REMOTE lines, else the memory itself. -/
def linePlain (s : State) (q pa : Nat) : Option (List Byte) :=
  if isDevicePa pa || isRemotePa pa then lineView s (lineOf pa) q else memLine s (lineOf pa)

/-- The bytes at physical addresses as the hart on `tile` reads them: its data L1 first, then the read point. None when a line has
an uncorrectable error. -/
def readPas (s : State) (tile q : Nat) (pas : List Nat) : Option (List Byte) :=
  let l1d := (tileOf s tile).l1d
  let lines := (uniq ((pas.filter linePa).map lineOf)).map fun l => (l, linePlain s q l)
  pas.mapM fun p =>
    match tget l1d p with
    | some b => some b
    | none =>
      if linePa p then
        match lines.find? fun l => l.1 == lineOf p with
        | some (_, some bytes) => some (bytes.getD (p % 128) 0)
        | _ => none
      else some (Memory.get s.mem p)

/-- The bytes at physical addresses at their read points, as an engine reads them; none when a line has an uncorrectable error. -/
def homeBytes (s : State) (q : Nat) (pas : List Nat) : Option (List Byte) :=
  let lines := (uniq ((pas.filter linePa).map lineOf)).map fun l => (l, linePlain s q l)
  pas.mapM fun p =>
    if linePa p then
      match lines.find? fun l => l.1 == lineOf p with
      | some (_, some bytes) => some (bytes.getD (p % 128) 0)
      | _ => none
    else some (Memory.get s.mem p)

/-- What reads of bytes do to the home slices of their lines (R159, R163, R168). -/
def noteRead (s : State) (q : Nat) (pas : List Nat) : State :=
  (uniq ((pas.filter fun p => isDevicePa p || isRemotePa p).map lineOf)).foldl (fun s l => readHit s q l) s

/-- Write bytes of SRAM or HOST memory; a write to a tile's bank sets the bank's software dirty bit of the hart
there (R331). -/
def putMem (s : State) (pa : Nat) (b : Byte) : State := touchBanks { s with mem := Memory.put s.mem pa b } pa 1

/-- Group bytes by line, in order. -/
def byLine (cells : List Host.Cell) : List (Nat × List (Nat × Byte)) :=
  (uniq (cells.map fun c => lineOf c.1)).map fun l => (l, (cells.filter fun c => lineOf c.1 == l).map fun c => (c.1 % 128, c.2))

/-- Lines of a data L1 (R2): 64 KiB of 128-byte lines. -/
def l1Lines : Nat := 512

/-- Room in a tile's data L1 for the lines of a store: a line leaves a full cache by a write-back to its home, a free value says which
(log 11). False when a slice stalls. -/
def l1Room (tile : Nat) : Nat → State → State × Bool
  | 0, s => (s, true)
  | fuel + 1, s =>
    let lines := uniq ((tileOf s tile).l1d.map fun c => lineOf c.1)
    if lines.length < l1Lines then (s, true)
    else
      let (n, s) := draw s
      let l := lines.getD (Config.l1Victim n % lines.length) 0
      match sliceWrite s l 0 (((tileOf s tile).l1d.filter fun c => lineOf c.1 == l).map fun c => (c.1 % 128, c.2)) with
      | (s, true) => l1Room tile fuel (updTile s tile fun t => { t with l1d := t.l1d.filter fun c => lineOf c.1 != l })
      | (s, false) => (s, false)

/-- Put the bytes of one DEVICE line into a tile's data L1. -/
def l1Write (tile : Nat) (s : State) (l : Nat × List (Nat × Byte)) : State × Bool :=
  match (if (tileOf s tile).l1d.any fun c => lineOf c.1 == l.1 then (s, true) else l1Room tile 1 s) with
  | (s, true) => (updTile s tile fun t => { t with l1d := l.2.foldl (fun m p => tput m (l.1 + p.1) p.2) t.l1d }, true)
  | (s, false) => (s, false)

/-- Write the bytes of one line at its home, as an engine writes them: DEVICE and REMOTE in their slices (R165), POOL through its
controller, the rest in place. -/
def lineWrite (q : Nat) (s : State) (l : Nat × List (Nat × Byte)) : State × Bool :=
  if isDevicePa l.1 || isRemotePa l.1 then sliceWrite s l.1 q l.2
  else if isPoolPa l.1 then poolWrite s l.1 l.2
  else (l.2.foldl (fun s p => putMem s (l.1 + p.1) p.2) s, true)

/-- Perform a store of the hart on a tile: into the tile's data L1 for a DEVICE byte, at the home otherwise (R130). A REMOTE line lies in the
remote partition until the store is performed at the device that stores it. -/
def writeOn (s : State) (tile q : Nat) (pas : List Nat) (bytes : List Byte) : State × Bool :=
  doAll (fun s l => if isDevicePa l.1 then l1Write tile s l else lineWrite q s l) (byLine (pas.zip bytes)) s

/-- Write bytes at their homes; false when a slice stalls. -/
def writeHome (s : State) (q : Nat) (cells : List Host.Cell) : State × Bool := doAll (lineWrite q) (byLine cells) s

/-- Perform a store of the executing hart. -/
def writePas (s : State) (pas : List Nat) (bytes : List Byte) : State × Bool := writeOn s (myTile s) (myPid s) pas bytes

/-- Physical address of an offset of a buffer as its home knows it: the frame table for DEVICE; the base address elsewhere, which HOST,
POOL and REMOTE buffers have for their physical address too (R361, R362, R367). -/
def bufOff (s : State) (i : Nat) (c : Cap) (off : Nat) : Option Nat :=
  match c.level with
  | .device => (tensorLinePa s i (off / 128)).map (· + off % 128)
  | .tile | .cluster | .host | .pool | .remote => some (c.base + off)
/-- Physical addresses of `n` bytes of a buffer. -/
def bufPas (s : State) (i : Nat) (c : Cap) (off n : Nat) : Option (List Nat) := (rangeFrom off n).mapM (bufOff s i c)

/-- Whether a physical address belongs to a buffer: by frame table for DEVICE, by range otherwise. -/
def inBuf (s : State) (i : Nat) (c : Cap) (pa : Nat) : Bool :=
  if c.level == .device then isDevicePa pa && (frameOf s pa).tensor == i else c.base ≤ pa && pa < c.base + c.length

/-- Write back the dirty bytes of a tile's data L1 that satisfy `p`, and drop them (R115). False when a slice stalls. -/
def cleanL1 (s : State) (tile : Nat) (p : Nat → Bool) : State × Bool :=
  match writeHome s 0 ((tileOf s tile).l1d.filter fun c => p c.1) with
  | (s, true) => (updTile s tile fun t => { t with l1d := t.l1d.filter fun c => !p c.1 }, true)
  | (s, false) => (s, false)

/-- Write the private copies of a buffer to its read point (R115): the dirty bytes of a tile's data L1, and the dirty lines of a REMOTE
buffer. -/
def cleanCopies (s : State) (tile i : Nat) : State × Bool :=
  match capAt s i with
  | none => (s, true)
  | some c =>
    match cleanL1 s tile (inBuf s i c) with
    | (s, true) => if c.level == .remote then cleanRemotes s (inBuf s i c) else (s, true)
    | (s, false) => (s, false)

/-- What a release of a buffer leaves of a counted store (R115, R130): its lines in other buffers and the write-backs of a CMO; none when the
store was to this buffer and nothing of it is left. -/
def leftOf (s : State) (i : Nat) (c : Cap) (e : OutStore) : Option OutStore :=
  let lines := e.lines.filter fun l => isDevicePa l || !inBuf s i c l
  if lines.isEmpty && c.base ≤ e.va && e.va < c.base + c.length then none else some { e with lines := lines }

/-- A release of a buffer by the executing hart (R115). -/
def release (s : State) (i : Nat) : Res State :=
  match capAt s i with
  | none => .ok s
  | some c =>
    match cleanCopies s (myTile s) i with
    | (s, true) => .ok (modH s fun h => { h with stOut := h.stOut.filterMap (leftOf s i c) })
    | (s, false) => .error (.stall s)

/-- An acquire of a buffer by the hart on a tile (R116): its L1 copies go, and the remote partition's for a REMOTE buffer. -/
def acquireOn (s : State) (tile i : Nat) : State :=
  match capAt s i with
  | none => s
  | some c =>
    let s := updTile s tile fun t => { t with l1i := t.l1i.filter fun l => !inBuf s i c l.1, l1d := t.l1d.filter fun l => !inBuf s i c l.1 }
    if c.level == .remote then
      { s with slices := s.slices.map fun p =>
          (p.1, (p.2.tags.filter fun t => t.2.remote && c.base ≤ tagPa p.1 t.2 && tagPa p.1 t.2 < c.base + c.length).foldl
            (fun sl t => let sl' := { sl with tags := terase sl.tags t.1 }; dropCount sl' t.2.entry) p.2) }
    else s
def acquire (s : State) (i : Nat) : State := acquireOn s (myTile s) i

/-- Clear the executing hart's reservation when it lies in a buffer whose state changes (R30). -/
def dropResv (s : State) (c : Cap) : State :=
  match s.h.resv with
  | some a => if c.base ≤ a && a < c.base + c.length then modH s fun h => { h with resv := none } else s
  | none => s

/-! Counters (R130) -/

/-- Whether bytes count in LD when a scalar load reads them, or a store writes them counts in ST. -/
def slowPa (pa : Nat) : Bool := isHostPa pa || isPoolPa pa || isRemotePa pa

/-- The first byte of a store that is not DEVICE: such a store counts in ST, while one to DEVICE bytes is performed in the data L1. -/
def countedPa (pas : List Nat) : Option Nat := pas.find? fun p => !isDevicePa p

/-- A store that would raise ST beyond its bound. -/
def storeFull (s : State) (pas : List Nat) : Bool := (countedPa pas).isSome && 255 ≤ s.h.stOut.length

/-- The REMOTE lines of a store, which it is performed at the storing device. -/
def remoteLines (pas : List Nat) : List Nat := uniq ((pas.filter isRemotePa).map lineOf)

/-- The host pages of a store. -/
def hostPages (pas : List Nat) : List Nat := uniq ((pas.filter isHostPa).map (· / 4096))

/-- ST rises by one, due to be performed. -/
def raiseOut (s : State) (e : OutStore) : State :=
  enqueue (modH s fun h => { h with stOut := h.stOut ++ [e] }) (.storePerformed s.h.loc)

/-- Raise ST for a store to `pas`. -/
def raiseStore (s : State) (va : Nat) (pas : List Nat) : State :=
  match countedPa pas with
  | none => s
  | some _ => raiseOut s { va := va, lines := remoteLines pas, hosts := hostPages pas, drop := false }

/-- Further bytes of a store that has already raised ST: the elements of a vector store count as one (R130). -/
def widenStore (s : State) (pas : List Nat) : State :=
  modH s fun h => { h with stOut := h.stOut.dropLast ++ (h.stOut.drop (h.stOut.length - 1)).map fun e =>
    { e with lines := uniq (e.lines ++ remoteLines pas), hosts := uniq (e.hosts ++ hostPages pas) } }

/-- LD rises by one, due to fall when the data has come. -/
def raiseLoad (s : State) : State := enqueue (modH s fun h => { h with ldOut := h.ldOut + 1 }) (.loadDataReturn s.h.loc)

/-- Raise LD. -/
def countLoad (s : State) : Res State := if 255 ≤ s.h.ldOut then .error (.stall s) else .ok (raiseLoad s)

/-! Loads and stores -/

/-- A line that a hart cannot read: its buffer is quarantined or marked, and the hart traps (R109, R172). `tval` gives what `stval` takes from
the place of the first byte that fails. -/
def eccTrap {α : Type} (s : State) (pas : List Nat) (q : Nat) (tval : Nat → Word) : Res α :=
  let fails (p : Nat) : Bool := linePa p && (linePlain s q p).isNone
  let bad := (pas.filter fails).map lineOf
  .error (.trapAt ((uniq bad).foldl lineError s) causeQuarantined (tval (((findIdx fails pas 0).map (·.1)).getD 0)))

/-- Load `n` bytes at a virtual address. A refusal gives the address of the access (R31), or for an element of a vector (`vec`) that of the first
byte that fails (R209). -/
def loadBytes (s : State) (va n : Nat) (vec : Bool) : Res (List Byte × State) := do
  if inHole va then .error (.trap 5 (word va))
  if vec then checkElem s va n false else checkRights s va n false (word va)
  let (pas, s) ← translateRange s .load va n
  let q := myPid s
  match readPas s (myTile s) q pas with
  | none => eccTrap s pas q fun k => word (if vec then va + k else va)
  | some bytes =>
    let s := noteRead s q (pas.filter fun p => (tget (tileOf s (myTile s)).l1d p).isNone)
    .ok (bytes, s)

/-- Store bytes at a virtual address. -/
def storeBytes (s : State) (va : Nat) (bytes : List Byte) (tval : Word) : Res State := do
  if inHole va then .error (.trap 7 (word va))
  checkRights s va bytes.length true tval
  let (pas, s) ← translateRange s .store va bytes.length
  if storeFull s pas then .error (.stall s)
  match writePas s pas bytes with
  | (t, true) => .ok (raiseStore t va pas)
  | (t, false) => .error (.stall t)

/-- A scalar load: LD counts one to HOST, POOL or REMOTE bytes (R130). -/
def loadScalar (s : State) (va n : Nat) : Res (List Byte × State) := do
  let (bytes, s) ← loadBytes s va n false
  let (pa, s) ← translate s .load va
  if slowPa pa then do
    let s ← countLoad s
    .ok (bytes, s)
  else .ok (bytes, s)

/-- Put a line into a tile's instruction L1 (R2: 64 KiB); a free value says which line leaves a full one (log 11). -/
def l1iPut (s : State) (t line : Nat) (bytes : List Byte) : State :=
  let l := (tileOf s t).l1i
  if l.length < l1Lines then updTile s t fun k => { k with l1i := tput k.l1i line bytes }
  else
    let (n, s) := draw s
    updTile s t fun k => { k with l1i := tput (removeAt k.l1i (Config.l1Victim n % l.length)) line bytes }

/-- Fetch the instruction word at the pc: the checks of R19, then the tile's instruction L1 (log 12). -/
def fetchWord (s : State) : Res (Word32 × State) := do
  let va := s.h.pc.toNat
  if inHole va then .error (.trap 1 (word va))
  let r := rightAt s va
  if r == .quarantined then .error (.trap causeQuarantined (word va))
  else if r == .lent then .error (.point s)
  else if !r.allows false then .error (.trap causeOwnership (word va))
  else do
    let (pa, s) ← translate s .fetch va
    let t := myTile s
    let line := lineOf pa
    match tget (tileOf s t).l1i (line) with
    | some bytes => .ok (BitVec.ofNat 32 (leNat ((bytes.drop (pa % 128)).take 4)), s)
    | none =>
      let s ← reach s .fetch va pa
      match linePlain s (myPid s) pa with
      | none => .error (.trapAt (lineError s pa) causeQuarantined (word va))
      | some bytes =>
        .ok (BitVec.ofNat 32 (leNat ((bytes.drop (pa % 128)).take 4)), l1iPut (noteRead s (myPid s) [pa]) t line bytes)

end Sys2Proof.Machine
end

