-- ==== Sys2Proof/Machine/Csr.lean ====
section
/-! DEFINITION. Control and status registers (R28, R32, R45, R131, R320, R326, R351, R375) and the Zicsr instructions on them. -/

namespace Sys2Proof.Machine

/-! Counts (R130, R131) -/

/-- Whether a command counts in CP. -/
def EngCmd.isCopy (c : EngCmd) : Bool :=
  match c.op with
  | .copy _ => true
  | .mma _ | .mzero _ | .mldacc _ _ _ | .mstacc _ _ _ | .mdrain _ => false
/-- CP and MX. -/
def cpCount (h : Hart) : Nat := (h.cmds.filter (·.isCopy)).length
def mxCount (h : Hart) : Nat := (h.cmds.filter fun c => !c.isCopy).length

/-- `wcnt` (R131). -/
def wcnt (h : Hart) : Word :=
  let m (n : Nat) : Nat := min n 255
  word (m h.ldOut + m h.stOut.length * 2 ^ 8 + m (cpCount h) * 2 ^ 16 + m (mxCount h) * 2 ^ 24 + m h.dpOut * 2 ^ 32 + m h.sdOut * 2 ^ 40)

/-! Interrupts (R326) -/

/-- FIRE is pending: the cluster's fire queue holds a record of the hart's world (R252). -/
def firePending (s : State) (h : Hart) : Bool :=
  (clusterAt s (clusterOf h.place)).aspen.fireQ.any fun r => r.2 == worldOf s h.ctx

/-- `mip` as a hart reads it: the latched bits with FIRE and PORT_ARRIVAL (R326). -/
def mipOf (s : State) (h : Hart) : Word :=
  setBit (setBit h.csr.mip 17 (firePending s h)) 18 (!(h.port.isEmpty && h.ring.isEmpty))

/-- Interrupts in order of priority (R326). -/
def intrOrder : List Nat := [11, 3, 7, 9, 1, 5, 18, 17, 16]

/-- Whether the enables of `c` and a mode admit an interrupt (RISC-V privileged architecture). -/
def intrAdmitted (c : Csrs) (md : Mode) (i : Nat) : Bool :=
  if bitAt c.mideleg i then md == .u || (md == .s && bitAt c.mstatus 1) else md != .m || bitAt c.mstatus 3

/-- The highest-priority pending interrupt of a hart that enables `c` and a mode admit: those to M-mode come before those to
S-mode. -/
def pendingIntr (s : State) (h : Hart) (c : Csrs) (md : Mode) : Option Nat :=
  let p := mipOf s h &&& c.mie
  let ok (toM : Bool) (i : Nat) : Bool := bitAt p i && intrAdmitted c md i && (bitAt c.mideleg i != toM)
  match intrOrder.find? (ok true) with
  | some i => some i
  | none => intrOrder.find? (ok false)

/-- The harts that execute with a hart, leader first: its gang, or the hart alone (R269, R270). -/
def gangHarts (s : State) (h : Hart) : List Hart :=
  match h.gang with
  | some g => g.members.filterMap (findHart s)
  | none => [h]

/-- The hartlocs of the harts that execute with the executing hart, leader first. -/
def gangLocs (s : State) : List Nat := (gangHarts s s.h).map (·.loc)

/-- Some interrupt is pending and enabled in `mie`, whatever the global enables: what ends a WFI (R29). In a gang the leader's
enables count, and any member's pending interrupt (R270, R271). -/
def wakes (s : State) (h : Hart) : Bool :=
  let ms := gangHarts s h
  ms.any fun m => mipOf s m &&& (ms.headD h).csr.mie != 0

/-! Reading -/

/-- Cycles of the main clock as the hart reads them (R28). -/
def cycleOf (s : State) : Word := word s.cycle + s.h.csr.cycleOff
/-- `time`: 100 MHz against the main clock's 2 GHz (R2, R28). -/
def timeOf (s : State) : Word := word (s.cycle / 20)

/-- `mstatus` with SD. -/
def mstatusOf (c : Csrs) : Word := setBit c.mstatus 63 (fld c.mstatus 13 2 == 3 || fld c.mstatus 9 2 == 3)
/-- Bits of `mstatus` that `sstatus` shows. -/
def sstatusMask : Word := 0x80000003000C6722#64
/-- Writable bits of `mstatus` but for MPP. -/
def mstatusMask : Word := 0x00000000007E67AA#64
/-- Writable bits of `medeleg`: the standard causes but 10, 11 and 14, and 24 to 31 (R325). -/
def medelegMask : Word := 0x00000000FF00B3FF#64
/-- Writable bits of `mideleg`: SSI, STI, SEI and 16 to 18 (R325). -/
def midelegMask : Word := 0x0000000000070222#64
/-- Implemented bits of `mie`. -/
def mieMask : Word := 0x0000000000070AAA#64

/-- `a` where the mask is 0, `b` where it is 1. -/
def mix (mask a b : Word) : Word := (a &&& ~~~mask) ||| (b &&& mask)

/-- `fcsr`. -/
def fcsrOf (c : Csrs) : Word := word (c.fflags.toNat + 32 * c.frm.toNat)
/-- `vtype`. -/
def vtypeOf (c : Csrs) : Word := if c.vill then 0x8000000000000000#64 else word c.vtype.toNat

/-- `scrubptr` (R351). -/
def scrubptrOf (s : State) : Word :=
  let c := s.scrubs.get s.h.csr.scrubSel
  word (c.ptr * 2 ^ 12 + c.last * 2 ^ 36 + s.h.csr.scrubSel.val * 2 ^ 60 + boolNat c.act * 2 ^ 63)
/-- `rdyfn` (R375). -/
def rdyfnOf (s : State) : Word :=
  word ((tgetD s.ready s.h.csr.rdySel.val 0#32).toNat + s.h.csr.rdySel.val * 2 ^ 58)
/-- `ctxcomp` (R320). -/
def ctxcompOf (s : State) : Word :=
  word (s.h.csr.compAlloc.toNat + 256 * (match ctxOf s s.h.ctx with | some c => c.cceil.toNat | none => 0))
/-- `mhartid` (R14). -/
def mhartidOf (s : State) : Word := word (s.device % 256 * 2 ^ 10 + myTile s)

/-- Eight PMP configuration bytes from entry `lo`. -/
def pmpcfgOf (c : Csrs) (lo : Nat) : Word := word (leNat ((c.pmpcfg.toList.drop lo).take 8))

/-- A PMP address as it is read under the 4 KiB granule: the low bits read as ones in an entry of NAPOT, and as zeros in any other (R28). What was
written stays. -/
def pmpaddrOf (c : Csrs) (i : Fin 16) : Word :=
  let a := c.pmpaddr.get i
  if (c.pmpcfg.get i).toNat / 8 % 4 = 3 then setFld a 0 9 0x1FF else setFld a 0 10 0

/-- A Zicntr counter is readable in the mode (R45). -/
def counterOk (s : State) (bit : Nat) : Bool :=
  match s.h.mode with
  | .m => true
  | .s => bitAt s.h.csr.mcounteren bit
  | .u => bitAt s.h.csr.mcounteren bit && bitAt s.h.csr.scounteren bit

/-- `some v` under a condition. -/
def onlyIf (c : Bool) (v : Word) : Option Word := if c then some v else none

/-- The user CSRs of the base set; none for a number that is not one of them or is not accessible. -/
def readUser (s : State) (n : Nat) : Option Word :=
  let c := s.h.csr
  let fs := fld c.mstatus 13 2 != 0
  let vs := fld c.mstatus 9 2 != 0
  match n with
  | 0x001 => onlyIf fs (word c.fflags.toNat)
  | 0x002 => onlyIf fs (word c.frm.toNat)
  | 0x003 => onlyIf fs (fcsrOf c)
  | 0x008 => onlyIf vs (word c.vstart)
  | 0x009 => onlyIf vs (word (boolNat c.vxsat))
  | 0x00A => onlyIf vs (word c.vxrm.toNat)
  | 0x00F => onlyIf vs (word (boolNat c.vxsat + 2 * c.vxrm.toNat))
  | 0xC20 => onlyIf vs (word c.vl)
  | 0xC21 => onlyIf vs (vtypeOf c)
  | 0xC22 => onlyIf vs 64
  | 0xC00 => onlyIf (counterOk s 0) (cycleOf s)
  | 0xC01 => onlyIf (counterOk s 1) (timeOf s)
  | 0xC02 => onlyIf (counterOk s 2) c.instret
  | _ => onlyIf (0xC03 ≤ n && n ≤ 0xC1F) 0

/-- The custom CSRs (R45). -/
def readCustom (s : State) (n : Nat) : Option Word :=
  let c := s.h.csr
  match n with
  | 0x800 => some c.jobseed
  | 0x801 => some c.mcfg
  | 0x802 => some c.mdrop
  | 0x803 => some c.mamaxv
  | 0x804 => some c.vbscfg
  | 0x805 => some c.dflog
  | 0x806 => some (word c.dagemax)
  | 0x807 => some (word (clusterAt s (myCluster s)).aspen.period)
  | 0x808 => some c.mprog
  | 0x809 => some c.mcoord
  | 0xCC0 => some (word s.h.loc)
  | 0xCC1 => some c.dfcnt
  | 0xCC2 => some c.dseq
  | 0xCC3 => some c.qkey
  | 0xCC4 => some c.rcvtag
  | 0xCC5 => some (wcnt s.h)
  | 0x5C0 => some (word (myPid s))
  | 0x5C1 => some (ctxcompOf s)
  | 0x7C0 => some (scrubptrOf s)
  | 0x7C1 => some (rdyfnOf s)
  | _ => none

/-- The supervisor CSRs. -/
def readS (s : State) (n : Nat) : Option Word :=
  let c := s.h.csr
  match n with
  | 0x100 => some (mstatusOf c &&& sstatusMask)
  | 0x104 => some (c.mie &&& c.mideleg)
  | 0x105 => some c.stvec
  | 0x106 => some c.scounteren
  | 0x10A => some 0
  | 0x140 => some c.sscratch
  | 0x141 => some c.sepc
  | 0x142 => some c.scause
  | 0x143 => some c.stval
  | 0x144 => some (mipOf s s.h &&& c.mideleg)
  | 0x180 => onlyIf (!(s.h.mode == .s && bitAt c.mstatus 20)) c.satp
  | _ => none

/-- The machine CSRs. -/
def readM (s : State) (n : Nat) : Option Word :=
  let c := s.h.csr
  match n with
  | 0x300 => some (mstatusOf c)
  | 0x301 => some Config.misa
  | 0x302 => some c.medeleg
  | 0x303 => some c.mideleg
  | 0x304 => some c.mie
  | 0x305 => some c.mtvec
  | 0x306 => some c.mcounteren
  | 0x30A => some 0
  | 0x320 => some 0
  | 0x340 => some c.mscratch
  | 0x341 => some c.mepc
  | 0x342 => some c.mcause
  | 0x343 => some c.mtval
  | 0x344 => some (mipOf s s.h)
  | 0x3A0 => some (pmpcfgOf c 0)
  | 0x3A2 => some (pmpcfgOf c 8)
  | 0xB00 => some (cycleOf s)
  | 0xB02 => some c.instret
  | 0xF11 => some 0
  | 0xF12 => some Config.marchid
  | 0xF13 => some Config.mimpid
  | 0xF14 => some (mhartidOf s)
  | 0xF15 => some 0
  | _ =>
    if h : 0x3B0 ≤ n ∧ n < 0x3C0 then some (pmpaddrOf c ⟨n - 0x3B0, by omega⟩)
    else onlyIf ((0xB03 ≤ n && n ≤ 0xB1F) || (0x323 ≤ n && n ≤ 0x33F)) 0

/-- The least mode that may access a CSR number. -/
def csrMode (n : Nat) : Mode := Mode.ofCode (n / 256 % 4)

/-- Read a CSR in the present mode; none is an illegal instruction (R45, RISC-V). -/
def csrRead (s : State) (n : Nat) : Option Word :=
  if s.h.mode.rank < (csrMode n).rank || n / 256 % 4 = 2 then none
  else match readCustom s n with
    | some v => some v
    | none => match readUser s n with
      | some v => some v
      | none => match readS s n with
        | some v => some v
        | none => readM s n

/-! Writing -/

/-- The legal value of `mstatus` for a write under a mask. -/
def newMstatus (old v mask : Word) : Word :=
  let m := mix mask old v
  if fld v 11 2 = 2 || mask != mstatusMask then m else setFld m 11 2 (fld v 11 2)

/-- `mip` after a write that software may make under a mask: bit 16 is only cleared (R326). -/
def newMip (old v mask : Word) : Word :=
  setBit (mix (mask &&& 0x222#64) old v) 16 (bitAt old 16 && (bitAt v 16 || !bitAt mask 16))

/-- Trap vector: mode 0 or 1. -/
def newTvec (v : Word) : Word := v &&& 0xFFFFFFFFFFFFFFFD#64
/-- Exception pc: instructions are 4-byte aligned. -/
def newEpc (v : Word) : Word := v &&& 0xFFFFFFFFFFFFFFFC#64

/-- One PMP configuration byte: a locked entry keeps its value, W without R is not stored, NA4 is not selectable. -/
def newPmpcfg (old v : Byte) : Byte :=
  if old.getLsbD 7 then old
  else
    let v := v &&& 0x9F#8
    let v := if v.getLsbD 1 && !v.getLsbD 0 then v &&& 0xFD#8 else v
    if v.toNat / 8 % 4 = 2 then (v &&& 0xE7#8) ||| (old &&& 0x18#8) else v

/-- Write eight PMP configuration bytes from entry `lo`. -/
def putPmpcfg (c : Csrs) (lo : Nat) (v : Word) : Csrs :=
  { c with pmpcfg := Vector.ofFn fun i : Fin 16 =>
      if lo ≤ i.val && i.val < lo + 8 then newPmpcfg (c.pmpcfg.get i) (BitVec.ofNat 8 (fld v (8 * (i.val - lo)) 8)) else c.pmpcfg.get i }

/-- A PMP address is locked by its own entry, or by a locked TOR entry above it. -/
def pmpLocked (c : Csrs) (i : Fin 16) : Bool :=
  (c.pmpcfg.get i).getLsbD 7 ||
    (if h : i.val + 1 < 16 then
      let n := c.pmpcfg.get ⟨i.val + 1, h⟩
      n.getLsbD 7 && n.toNat / 8 % 4 == 1
     else false)

/-- Set FS to Dirty, for a write of `fcsr`. -/
def dirtyF (s : State) : State := mark (modC s fun c => { c with mstatus := setFld c.mstatus 13 2 3 }) 1
/-- Set VS to Dirty, for a write of a vector CSR. -/
def dirtyV (s : State) : State := mark (modC s fun c => { c with mstatus := setFld c.mstatus 9 2 3 }) 13

/-- User CSRs of the base set. -/
def writeUser (s : State) (n : Nat) (v : Word) : Option State :=
  let t := v.toNat
  match n with
  | 0x001 => some (dirtyF (modC s fun c => { c with fflags := BitVec.ofNat 5 t }))
  | 0x002 => some (dirtyF (modC s fun c => { c with frm := BitVec.ofNat 3 t }))
  | 0x003 => some (dirtyF (modC s fun c => { c with fflags := BitVec.ofNat 5 t, frm := BitVec.ofNat 3 (t / 32) }))
  | 0x008 => some (dirtyV (modC s fun c => { c with vstart := t % 512 }))
  | 0x009 => some (dirtyV (modC s fun c => { c with vxsat := bitAt v 0 }))
  | 0x00A => some (dirtyV (modC s fun c => { c with vxrm := BitVec.ofNat 2 t }))
  | 0x00F => some (dirtyV (modC s fun c => { c with vxsat := bitAt v 0, vxrm := BitVec.ofNat 2 (t / 2) }))
  | _ => none

/-- Custom CSRs whose writes have no behaviour of their own; reserved bits are not stored (R7). -/
def writeCustom (s : State) (n : Nat) (v : Word) : Option State :=
  let put (f : Csrs → Csrs) : Option State := some (mark (modC s f) 13)
  match n with
  | 0x800 => put fun c => { c with jobseed := v }
  | 0x801 => put fun c => { c with mcfg := v &&& 0xFFFFFFFFFF00F73F#64 }
  | 0x802 => put fun c => { c with mdrop := v &&& 0xFFFF7FFFFFFFFFFF#64 }
  | 0x803 => put fun c => { c with mamaxv := v &&& 0x80000000FFFFFFFF#64 }
  | 0x804 => put fun c => { c with vbscfg := v &&& 0xF1#64 }
  | 0x805 => put fun c => { c with dflog := v }
  | 0x806 => put fun c => { c with dagemax := fld v 0 16 }
  | 0x809 => put fun c => { c with mcoord := v }
  | 0x7C0 => some (modC s fun c => { c with scrubSel := ⟨fld v 60 3 % 8, Nat.mod_lt _ (by decide)⟩ })
  | 0x7C1 =>
    some (modC s fun c => if fld v 58 6 ≤ 37 then { c with rdySel := ⟨fld v 58 6 % 64, Nat.mod_lt _ (by decide)⟩ } else c)
  | _ => none

/-- Supervisor CSRs. -/
def writeS (s : State) (n : Nat) (v : Word) : Option State :=
  let put (f : Csrs → Csrs) : Option State := some (mark (modC s f) 14)
  match n with
  | 0x100 => put fun c => { c with mstatus := newMstatus c.mstatus v (sstatusMask &&& mstatusMask) }
  | 0x104 => put fun c => { c with mie := mix (c.mideleg &&& mieMask) c.mie v }
  | 0x105 => put fun c => { c with stvec := newTvec v }
  | 0x106 => put fun c => { c with scounteren := v &&& 7 }
  | 0x10A => some s
  | 0x140 => put fun c => { c with sscratch := v }
  | 0x141 => put fun c => { c with sepc := newEpc v }
  | 0x142 => put fun c => { c with scause := v }
  | 0x143 => put fun c => { c with stval := v }
  | 0x144 => put fun c => { c with mip := newMip c.mip v (c.mideleg &&& 0x10002#64) }
  | _ => none

/-- Machine CSRs. -/
def writeM (s : State) (n : Nat) (v : Word) : Option State :=
  let put (f : Csrs → Csrs) : Option State := some (mark (modC s f) 14)
  match n with
  | 0x300 => put fun c => { c with mstatus := newMstatus c.mstatus v mstatusMask }
  | 0x301 => some s
  | 0x302 => put fun c => { c with medeleg := v &&& medelegMask }
  | 0x303 => put fun c => { c with mideleg := v &&& midelegMask }
  | 0x304 => put fun c => { c with mie := v &&& mieMask }
  | 0x305 => put fun c => { c with mtvec := newTvec v }
  | 0x306 => put fun c => { c with mcounteren := v &&& 7 }
  | 0x30A => some s
  | 0x320 => some s
  | 0x340 => put fun c => { c with mscratch := v }
  | 0x341 => put fun c => { c with mepc := newEpc v }
  | 0x342 => put fun c => { c with mcause := v }
  | 0x343 => put fun c => { c with mtval := v }
  | 0x344 => put fun c => { c with mip := newMip c.mip v 0x10222#64 }
  | 0x3A0 => put fun c => putPmpcfg c 0 v
  | 0x3A2 => put fun c => putPmpcfg c 8 v
  | 0xB00 => put fun c => { c with cycleOff := v - word s.cycle }
  | 0xB02 => put fun c => { c with instret := v - 1 }
  | _ =>
    if h : 0x3B0 ≤ n ∧ n < 0x3C0 then
      let i : Fin 16 := ⟨n - 0x3B0, by omega⟩
      put fun c => if pmpLocked c i then c else { c with pmpaddr := c.pmpaddr.set i.val (v &&& 0x003FFFFFFFFFFFFF#64) }
    else if (0xB03 ≤ n && n ≤ 0xB1F) || (0x323 ≤ n && n ≤ 0x33F) then some s
    else none

/-- Write a CSR whose write has no behaviour of its own. The hpmcounters ignore writes (R28); other read-only numbers raise
illegal instruction (R45). -/
def csrPut (s : State) (n : Nat) (v : Word) : Res State :=
  if 0xC03 ≤ n && n ≤ 0xC1F then .ok s
  else if n / 1024 = 3 then illegal s
  else match writeCustom s n v with
    | some s => .ok s
    | none => match writeUser s n v with
      | some s => .ok s
      | none => match writeS s n v with
        | some s => .ok s
        | none => match writeM s n v with
          | some s => .ok s
          | none => illegal s

/-! The Zicsr instructions -/

/-- The source operand of a Zicsr word. -/
def csrSrc (s : State) (c : CsrArg) : Word :=
  match c.src with
  | .reg r => rx s r
  | .imm z => word z.val

/-- Whether a Zicsr word writes: CSRRS and CSRRC with a zero source field do not. -/
def csrWrites (c : CsrArg) : Bool :=
  c.op == .rw || (match c.src with | .reg r => r != 0 | .imm z => z != 0)

/-- The value that a Zicsr word writes. -/
def csrValue (op : CsrOp) (old src : Word) : Word :=
  match op with
  | .rw => src
  | .rs => old ||| src
  | .rc => old &&& ~~~src

/-- A Zicsr word on CSR `n`, whose write is `put`. -/
def csrBody (s : State) (n : Nat) (c : CsrArg) (put : State → Word → Res State) : Res State :=
  match csrRead s n with
  | none => illegal s
  | some old =>
    if csrWrites c then do
      let t ← put s (csrValue c.op old (csrSrc s c))
      .ok (wx t c.rd old)
    else .ok (wx s c.rd old)

/-- CSRRW, CSRRS, CSRRC and their immediate forms, on a CSR without a row of its own (R45). -/
def execCsrWrite (n : BitVec 12) (c : CsrArg) (s : State) : Host.Outcome State Fault Refusal :=
  seq s (csrBody s n.toNat c fun s v => csrPut s n.toNat v)

/-- ctxcomp: a write keeps only the allocation bits that the ceiling has (R320). -/
def ctxcompPut (s : State) (v : Word) : Res State :=
  .ok (mark (modC s fun c => { c with compAlloc := BitVec.ofNat 8 v.toNat &&&
    (match ctxOf s s.h.ctx with | some k => k.cceil | none => 0) }) 14)
def execCtxcompWrite (c : CsrArg) (s : State) : Host.Outcome State Fault Refusal := seq s (csrBody s 0x5C1 c ctxcompPut)

/-- satp: modes other than Sv57 are ignored; a write empties the tile's TLB (R28, R341). -/
def satpPut (s : State) (v : Word) : Res State :=
  if fld v 60 4 = 10 then
    .ok (mark (updTile (modC s fun c => { c with satp := v }) (myTile s) fun t => { t with tlb := [] }) 14)
  else .ok s
def execSatpWrite (c : CsrArg) (s : State) : Host.Outcome State Fault Refusal := seq s (csrBody s 0x180 c satpPut)

/-- The context whose buffer a tag's line belongs to (R162): by the tensor of a MARKER, the frame table of a DEVICE line, the range of a REMOTE
buffer. -/
def tagInCtx (s : State) (n : Nat) (t : Tag) (ctx : Nat) : Bool :=
  if t.kind == .marker then (capAt s t.tensor).any fun c => c.ctx == ctx
  else if t.remote then
    let pa := tagPa n t
    s.caps.any fun c => c.2.state != .free && c.2.level == .remote && c.2.ctx == ctx && c.2.base ≤ pa && pa < c.2.base + c.2.length
  else (capAt s (tensorOf s (tagPa n t)).1).any fun c => c.ctx == ctx

/-- Evict the tag of a line whose partition changes. A dirty line of a QUARANTINED buffer whose write-back no pass will ever let go is dropped
(log 89). -/
def leavePartition (s : State) (n key : Nat) (t : Tag) : State × Bool :=
  match evictTag s n key with
  | (u, true) => (u, true)
  | (u, false) =>
    let i := (tensorOf s (tagPa n t)).1
    if !t.remote && (capAt s i).any fun c => c.state == .quarantined && c.pass.isSome && !s.pending.contains (.passLine i) then
      (dropTag s n key, true)
    else (u, false)

/-- Clean and drop every tag of a partition identifier whose buffer belongs to a context (R162). False when a write-back cannot proceed yet. -/
def emptyPartition (s : State) (old ctx : Nat) : State × Bool :=
  doAll (fun s (p : Nat × Nat) => match tget (sliceAt s p.1).tags p.2 with
    | some t => if t.kind != .marker && t.pid == old && tagInCtx s p.1 t ctx then leavePartition s p.1 p.2 t else (s, true)
    | none => (s, true)) (s.slices.map fun sl => (tagKeys sl.2 fun t => t.kind != .marker && t.pid == old).map fun k => (sl.1, k)).flatten s

/-- A QUARANTINED buffer, whose pass may have stopped for good (R355). -/
def isQuarantined (s : State) (i : Nat) : Bool := (capAt s i).any fun c => c.state == .quarantined

/-- Tensors of a context that have markers under a partition identifier. -/
def markedTensors (s : State) (old ctx : Nat) : List Nat :=
  uniq (s.slices.map fun sl => (sl.2.tags.filter fun t => t.2.kind == .marker && t.2.pid == old && tagInCtx s sl.1 t.2 ctx).map (·.2.tensor)).flatten

/-- The lines of a tensor that have a MARKER under a partition identifier, with the keys of those. -/
def markersOf (s : State) (i pid : Nat) : List (Nat × Nat) :=
  match capAt s i with
  | none => []
  | some c => (rangeFrom 0 (c.length / 128)).filterMap fun l =>
      (tensorLinePa s i l).bind fun pa => (findMarker s pa i).bind fun key =>
        if (tget (sliceAt s (homeSlice pa)).tags key).any fun t => t.pid == pid then some (pa, key) else none

/-- The context's partition identifier is changed. Fills that reads under the old one still await come no more, and the markers of QUARANTINED
buffers, which no roll releases, go to their lines' sets under the new one (log 89); false when one finds no place there. -/
def changePid (s : State) (ctx old new : Nat) (stuck : List Nat) : State × Bool :=
  let moved := (stuck.map fun i => (markersOf s i old).map fun m => (i, m)).flatten
  let s := moved.foldl (fun s m => dropTag s (homeSlice m.2.1) m.2.2) s
  let s := { s with
    ctxs := match tget s.ctxs ctx with | some k => tput s.ctxs ctx { k with pid := new } | none => s.ctxs
    pending := s.pending.filter fun i => match i with
      | .lineFill l => !(isRemotePa l.pa && l.pid == old && (lineBuf s l.pa).any fun c => c.ctx == ctx)
      | _ => true }
  doAll (fun s m => match wayFor s (homeSlice m.2.1) (lineSet s new m.2.1) false with
    | (s, some key) => (putMarker s m.2.1 m.1 key, true)
    | (s, none) => (s, false)) moved s

/-- ctxpid: the hart stalls until no slice has a tag of the context under the old identifier (R162). Markers go only at a roll or at the close
of their period (R171), so their tensors roll. -/
def ctxpidPut (s : State) (v : Word) : Res State :=
  let old := myPid s
  let ctx := s.h.ctx
  match emptyPartition s old ctx with
  | (t, false) => .error (.stall t)
  | (t, true) =>
    match (markedTensors t old ctx).filter fun i => !isQuarantined t i with
    | [] =>
      match changePid t ctx old (fld v 0 4) (markedTensors t old ctx) with
      | (u, true) => .ok u
      | (_, false) => .error (.stall t)
    | ts => .error (.stall (ts.foldl (fun t i => if (capAt t i).any fun c => c.pass.isNone then startRoll t i [] else t) t))
def execCtxpidWrite (c : CsrArg) (s : State) : Host.Outcome State Fault Refusal := seq s (csrBody s 0x5C0 c ctxpidPut)

/-- etick: the period of the hosting cluster. While the old period is not 0 the current tick keeps the boundary that it set; from 0,
the current tick's boundary falls one new period later; a write of 0 takes the boundary away (R245). -/
def etickPut (s : State) (v : Word) : Res State :=
  let p := fld v 0 32
  .ok (watchTick (updAspen s (myCluster s) fun a => { a with
    period := p
    boundary := if p = 0 then none else if a.period = 0 then some (s.cycle + tickCycles p) else a.boundary }) (myCluster s))
def execEtickCsrWrite (c : CsrArg) (s : State) : Host.Outcome State Fault Refusal := seq s (csrBody s 0x807 c etickPut)

end Sys2Proof.Machine
end

