-- ==== Sys2Proof/Machine/Numbers.lean ====
section
/-! DEFINITION. Number formats and exact arithmetic (R53 to R74, and the F and D formats of R28): values of every format as exact
dyadic numbers, the one rounding function, IEEE 754 arithmetic, conversion to narrow formats and the generator. -/

namespace Sys2Proof.Machine

/-! Exact values -/

/-- The value of a code: NaN, infinity, or `m * 2^e` with a sign that zero keeps too. -/
inductive FV where
  | nan
  | inf (neg : Bool)
  | fin (neg : Bool) (m : Nat) (e : Int)
  deriving DecidableEq, Repr

/-- A binary floating format of the IEEE shape (R53): exponent and mantissa widths. -/
structure FFmt where
  eb : Nat
  mb : Nat
  deriving DecidableEq, Repr

def FFmt.fp32 : FFmt := { eb := 8, mb := 23 }
def FFmt.fp64 : FFmt := { eb := 11, mb := 52 }
def FFmt.bf16 : FFmt := { eb := 8, mb := 7 }
def FFmt.fp16 : FFmt := { eb := 5, mb := 10 }
def FFmt.e5m2 : FFmt := { eb := 5, mb := 2 }

def FFmt.bias (f : FFmt) : Nat := 2 ^ (f.eb - 1) - 1
/-- Exponent of the smallest normal value. -/
def FFmt.emin (f : FFmt) : Int := 1 - (f.bias : Int)
def FFmt.bits (f : FFmt) : Nat := 1 + f.eb + f.mb
/-- Code of +Inf. -/
def FFmt.infCode (f : FFmt) : Nat := (2 ^ f.eb - 1) * 2 ^ f.mb
/-- The canonical NaN (R54). -/
def FFmt.nanCode (f : FFmt) : Nat := f.infCode + 2 ^ (f.mb - 1)
/-- Code of the largest finite value. -/
def FFmt.maxCode (f : FFmt) : Nat := f.infCode - 1
/-- A code with its sign bit. -/
def FFmt.signed (f : FFmt) (neg : Bool) (code : Nat) : Nat := if neg then code + 2 ^ (f.eb + f.mb) else code

/-- A finite code without infinities (R53): sign, exponent field and mantissa field. -/
def plainValue (f : FFmt) (c : Nat) : FV :=
  let neg := c / 2 ^ (f.eb + f.mb) % 2 == 1
  let e := c / 2 ^ f.mb % 2 ^ f.eb
  let m := c % 2 ^ f.mb
  if e = 0 then .fin neg m (f.emin - f.mb) else .fin neg (2 ^ f.mb + m) ((e : Int) - f.bias - f.mb)

/-- The value of a code of an IEEE format. -/
def FFmt.value (f : FFmt) (c : Nat) : FV :=
  if c / 2 ^ f.mb % 2 ^ f.eb = 2 ^ f.eb - 1 then
    if c % 2 ^ f.mb = 0 then .inf (c / 2 ^ (f.eb + f.mb) % 2 == 1) else .nan
  else plainValue f c

/-- A signalling NaN. -/
def FFmt.isSnan (f : FFmt) (c : Nat) : Bool := f.value c == .nan && c / 2 ^ (f.mb - 1) % 2 == 0

/-- FP4 (R55). -/
def fp4Value (c : Nat) : FV := plainValue { eb := 2, mb := 1 } (c % 16)
/-- E4M3 (R53, R56): mantissa 111 under exponent 1111 is the only NaN. -/
def e4m3Value (c : Nat) : FV := if c % 128 = 127 then .nan else plainValue { eb := 4, mb := 3 } (c % 256)
/-- A two's-complement integer of `n` bits (R57). -/
def intValue (n c : Nat) : FV := let i := signed n c; .fin (i < 0) i.natAbs 0

end Sys2Proof.Machine

namespace Sys2Proof
open Sys2Proof.Machine

/-- Element values of the formats of VCVTN and VCVTW. -/
def NarrowFmt.value : NarrowFmt → Nat → FV
  | .fp4, c => fp4Value c
  | .e4m3, c => e4m3Value c
  | .e5m2, c => FFmt.e5m2.value (c % 256)
  | .bf16, c => FFmt.bf16.value (c % 65536)
  | .fp16, c => FFmt.fp16.value (c % 65536)
  | .int8, c => intValue 8 c
  | .int4, c => intValue 4 c

/-- Bits of an element. -/
def NarrowFmt.bits : NarrowFmt → Nat
  | .fp4 | .int4 => 4
  | .e4m3 | .e5m2 | .int8 => 8
  | .bf16 | .fp16 => 16

end Sys2Proof

namespace Sys2Proof.Machine

/-- Value of a block scale (R59): E8M0 for `e5` false. An E5M2 infinity is a NaN scale. -/
def scaleValue (e5 : Bool) (c : Nat) : FV :=
  if e5 then match FFmt.e5m2.value (c % 256) with
    | .fin n m e => .fin n m e
    | .inf _ | .nan => .nan
  else if c % 256 = 255 then .nan else .fin false 1 ((c % 256 : Nat) - 127)

def FV.isZero : FV → Bool
  | .fin _ m _ => m == 0
  | .inf _ | .nan => false
def FV.isInf : FV → Bool
  | .inf _ => true
  | .fin _ _ _ | .nan => false
def FV.isNeg : FV → Bool
  | .inf n | .fin n _ _ => n
  | .nan => false
def FV.negate : FV → FV
  | .nan => .nan
  | .inf n => .inf !n
  | .fin n m e => .fin (!n) m e

/-! Dyadic sums -/

/-- A finite value as a dyadic number. -/
def FV.dyad : FV → Dyad
  | .fin n m e => { m := if n then -(m : Int) else m, e := e }
  | .inf _ | .nan => { m := 0, e := 0 }

/-- Exact sum. -/
def Dyad.add (a b : Dyad) : Dyad :=
  if a.m = 0 then b
  else if b.m = 0 then a
  else
    let e := min a.e b.e
    { m := a.m * (2 : Int) ^ (a.e - e).toNat + b.m * (2 : Int) ^ (b.e - e).toNat, e := e }

/-- Exact product. -/
def Dyad.mul (a b : Dyad) : Dyad := { m := a.m * b.m, e := a.e + b.e }

/-- Whether `a < b`. -/
def Dyad.lt (a b : Dyad) : Bool :=
  let e := min a.e b.e
  a.m * (2 : Int) ^ (a.e - e).toNat < b.m * (2 : Int) ^ (b.e - e).toNat

/-! Rounding -/

/-- Rounding modes: those of RISC-V, round to odd (V 1.0, vfncvt.rod), and stochastic with its 16 bits (R67). -/
inductive RM where
  | rne | rtz | rdn | rup | rmm | rod
  | sr (r : Nat)
  deriving DecidableEq, Repr

/-- A positive exact magnitude `num / den * 2^e`. -/
structure Mag where
  num : Nat
  den : Nat
  e : Int
  deriving DecidableEq, Repr

/-- The largest `k` with `2^k` at most the magnitude. -/
def Mag.log2 (a : Mag) : Int :=
  let k : Int := (Nat.log2 a.num : Int) - Nat.log2 a.den
  let ge := a.den * 2 ^ k.toNat ≤ a.num * 2 ^ (-k).toNat
  a.e + if ge then k else k - 1

/-- Quotient by `2^u` as a numerator and a denominator. -/
def Mag.scaled (a : Mag) (u : Int) : Nat × Nat := (a.num * 2 ^ (a.e - u).toNat, a.den * 2 ^ (u - a.e).toNat)

/-- Round `n / d` to an integer. -/
def roundInt (rm : RM) (neg : Bool) (n d : Nat) : Nat :=
  let q := n / d
  let r := n % d
  match rm with
  | .rne => if 2 * r > d || (2 * r = d && q % 2 = 1) then q + 1 else q
  | .rmm => if 2 * r ≥ d then q + 1 else q
  | .rtz => q
  | .rdn => if neg && r != 0 then q + 1 else q
  | .rup => if !neg && r != 0 then q + 1 else q
  | .rod => if r != 0 && q % 2 = 0 then q + 1 else q
  | .sr k => (n * 65536 + k * d) / (d * 65536)

/-- A rounded magnitude `q * 2^u`, and whether it differs from the exact one. -/
structure Rounded where
  q : Nat
  u : Int
  inexact : Bool
  deriving DecidableEq, Repr

/-- Round to a spacing of `2^u`. -/
def Mag.roundAt (a : Mag) (rm : RM) (neg : Bool) (u : Int) : Rounded :=
  let (n, d) := a.scaled u
  { q := roundInt rm neg n d, u := u, inexact := n % d != 0 }

/-- Round to `mb` mantissa bits with smallest normal exponent `emin`; the range above is unbounded. -/
def Mag.round (a : Mag) (rm : RM) (neg : Bool) (mb : Nat) (emin : Int) : Rounded :=
  a.roundAt rm neg (max a.log2 emin - mb)

/-- Whether `q * 2^u < 2^k`. -/
def Rounded.below (r : Rounded) (k : Int) : Bool := r.q * 2 ^ (r.u - k).toNat < 2 ^ (k - r.u).toNat

/-- Exception flags. -/
structure FFlags where
  nv : Bool
  dz : Bool
  of : Bool
  uf : Bool
  nx : Bool
  deriving DecidableEq, Repr

def FFlags.none : FFlags := { nv := false, dz := false, of := false, uf := false, nx := false }
def FFlags.invalid : FFlags := { FFlags.none with nv := true }
def FFlags.or (a b : FFlags) : FFlags :=
  { nv := a.nv || b.nv, dz := a.dz || b.dz, of := a.of || b.of, uf := a.uf || b.uf, nx := a.nx || b.nx }
/-- The bits of `fflags`. -/
def FFlags.toBits (f : FFlags) : BitVec 5 :=
  BitVec.ofNat 5 (boolNat f.nx + 2 * boolNat f.uf + 4 * boolNat f.of + 8 * boolNat f.dz + 16 * boolNat f.nv)

/-- Whether an overflow under this mode gives the largest finite value. -/
def RM.saturates (rm : RM) (neg : Bool) : Bool :=
  match rm with
  | .rtz | .rod => true
  | .rdn => !neg
  | .rup => neg
  | .rne | .rmm | .sr _ => false

/-- A code and the flags that its computation raises. -/
abbrev Coded := Nat × FFlags

/-- Round a positive magnitude into an IEEE format, with tininess detected after rounding. -/
def FFmt.encode (f : FFmt) (rm : RM) (neg : Bool) (a : Mag) : Coded :=
  let r := a.round rm neg f.mb f.emin
  if !r.below (f.bias + 1) then
    (f.signed neg (if rm.saturates neg then f.maxCode else f.infCode), { FFlags.none with of := true, nx := true })
  else
    let tiny := (a.roundAt rm neg (a.log2 - f.mb)).below f.emin
    (f.signed neg ((r.u - (f.emin - f.mb)).toNat * 2 ^ f.mb + r.q), { FFlags.none with uf := tiny && r.inexact, nx := r.inexact })

/-- Round an exact dyadic value into a format; an exact zero takes the sign given. -/
def FFmt.ofDyad (f : FFmt) (rm : RM) (zeroNeg : Bool) (d : Dyad) : Coded :=
  if d.m = 0 then (f.signed zeroNeg 0, FFlags.none)
  else f.encode rm (d.m < 0) { num := d.m.natAbs, den := 1, e := d.e }

/-! IEEE 754 arithmetic on codes (F, D and V) -/

def quietNan (f : FFmt) (nv : Bool) : Coded := (f.nanCode, { FFlags.none with nv := nv })

/-- Sum of two values; `snan` says that some operand signals. -/
def FFmt.addV (f : FFmt) (rm : RM) (snan : Bool) (a b : FV) : Coded :=
  match a, b with
  | .nan, _ | _, .nan => quietNan f snan
  | .inf n, .inf m => if n == m then (f.signed n f.infCode, FFlags.none) else quietNan f true
  | .inf n, _ | _, .inf n => (f.signed n f.infCode, FFlags.none)
  | .fin n x _, .fin m y _ =>
    let zn := if x = 0 && y = 0 && n == m then n else rm == .rdn
    f.ofDyad rm zn (a.dyad.add b.dyad)

def FFmt.add (f : FFmt) (rm : RM) (a b : Nat) : Coded := f.addV rm (f.isSnan a || f.isSnan b) (f.value a) (f.value b)
def FFmt.sub (f : FFmt) (rm : RM) (a b : Nat) : Coded := f.addV rm (f.isSnan a || f.isSnan b) (f.value a) (f.value b).negate

def FFmt.mulV (f : FFmt) (rm : RM) (snan : Bool) (a b : FV) : Coded :=
  match a, b with
  | .nan, _ | _, .nan => quietNan f snan
  | .inf n, v | v, .inf n => if v.isZero then quietNan f true else (f.signed (n != v.isNeg) f.infCode, FFlags.none)
  | .fin n _ _, .fin m _ _ => f.ofDyad rm (n != m) (a.dyad.mul b.dyad)

def FFmt.mul (f : FFmt) (rm : RM) (a b : Nat) : Coded := f.mulV rm (f.isSnan a || f.isSnan b) (f.value a) (f.value b)

def FFmt.div (f : FFmt) (rm : RM) (a b : Nat) : Coded :=
  match f.value a, f.value b with
  | .nan, _ | _, .nan => quietNan f (f.isSnan a || f.isSnan b)
  | .inf _, .inf _ => quietNan f true
  | .inf n, .fin m _ _ => (f.signed (n != m) f.infCode, FFlags.none)
  | .fin n _ _, .inf m => (f.signed (n != m) 0, FFlags.none)
  | .fin n x ex, .fin m y ey =>
    if y = 0 then
      if x = 0 then quietNan f true else (f.signed (n != m) f.infCode, { FFlags.none with dz := true })
    else if x = 0 then (f.signed (n != m) 0, FFlags.none)
    else f.encode rm (n != m) { num := x, den := y, e := ex - ey }

/-- Integer square root by `n` binary digits. -/
def isqrt (v : Nat) : Nat → Nat → Nat
  | 0, r => r
  | n + 1, r => isqrt v n (if (r + 2 ^ n) * (r + 2 ^ n) ≤ v then r + 2 ^ n else r)

def FFmt.sqrt (f : FFmt) (rm : RM) (a : Nat) : Coded :=
  match f.value a with
  | .nan => quietNan f (f.isSnan a)
  | .inf true => quietNan f true
  | .inf false => (f.infCode, FFlags.none)
  | .fin n m e =>
    if m = 0 then (f.signed n 0, FFlags.none)
    else if n then quietNan f true
    else
      let k := 2 * (f.mb + 3) + (e % 2).toNat
      let v := m * 2 ^ k
      let r := isqrt v (2 * f.mb + 6) 0
      let sticky := if r * r = v then 0 else 1
      f.encode rm false { num := 2 * r + sticky, den := 1, e := (e - k) / 2 - 1 }

/-- Fused `a * b + c`, with the product and the addend negated where asked. -/
def FFmt.fma (f : FFmt) (rm : RM) (np nc : Bool) (a b c : Nat) : Coded :=
  let va := f.value a
  let vb := f.value b
  let vc := if nc then (f.value c).negate else f.value c
  let snan := f.isSnan a || f.isSnan b || f.isSnan c
  let bad := (va.isInf && vb.isZero) || (va.isZero && vb.isInf)
  match va, vb, vc with
  | .nan, _, _ | _, .nan, _ => quietNan f (snan || bad)
  | _, _, .nan => quietNan f (snan || bad)
  | .fin n x ex, .fin m y ey, .fin k z ez =>
    let ps := (n != m) != np
    let p : Dyad := FV.dyad (.fin ps (x * y) (ex + ey))
    let zn := if x * y = 0 && z = 0 && ps == k then ps else rm == .rdn
    f.ofDyad rm zn (p.add (FV.dyad (.fin k z ez)))
  | .fin _ _ _, .fin _ _ _, .inf k => (f.signed k f.infCode, FFlags.none)
  | _, _, _ =>
    if bad then quietNan f true
    else
      let ps := (va.isNeg != vb.isNeg) != np
      if vc.isInf && vc.isNeg != ps then quietNan f true else (f.signed ps f.infCode, FFlags.none)

/-- Order of two values that are not NaN. -/
def FV.lt : FV → FV → Bool
  | .inf n, .inf m => n && !m
  | .inf n, .fin _ _ _ => n
  | .fin _ _ _, .inf m => !m
  | .fin n x e, .fin m y k => (FV.dyad (.fin n x e)).lt (FV.dyad (.fin m y k))
  | .nan, _ | _, .nan => false

/-- Equality as numbers. -/
def FV.same (a b : FV) : Bool := a != .nan && b != .nan && !a.lt b && !b.lt a

/-- feq: quiet. -/
def FFmt.eq (f : FFmt) (a b : Nat) : Bool × FFlags :=
  ((f.value a).same (f.value b), { FFlags.none with nv := f.isSnan a || f.isSnan b })
/-- flt: signals on any NaN. -/
def FFmt.lt (f : FFmt) (a b : Nat) : Bool × FFlags :=
  ((f.value a).lt (f.value b), { FFlags.none with nv := f.value a == .nan || f.value b == .nan })
/-- fle: signals on any NaN. -/
def FFmt.le (f : FFmt) (a b : Nat) : Bool × FFlags :=
  ((f.value a).lt (f.value b) || (f.value a).same (f.value b),
    { FFlags.none with nv := f.value a == .nan || f.value b == .nan })

/-- fmin and fmax: minimumNumber and maximumNumber, with -0 below +0. -/
def FFmt.minmax (f : FFmt) (mx : Bool) (a b : Nat) : Coded :=
  let va := f.value a
  let vb := f.value b
  let fl := { FFlags.none with nv := f.isSnan a || f.isSnan b }
  match va, vb with
  | .nan, .nan => (f.nanCode, fl)
  | .nan, _ => (b, fl)
  | _, .nan => (a, fl)
  | _, _ =>
    let aFirst := va.lt vb || (va.same vb && va.isNeg)
    (if aFirst != mx then a else b, fl)

/-- fclass: one bit of ten. -/
def FFmt.classify (f : FFmt) (a : Nat) : Nat :=
  match f.value a with
  | .nan => if f.isSnan a then 2 ^ 8 else 2 ^ 9
  | .inf n => if n then 2 ^ 0 else 2 ^ 7
  | .fin n m _ =>
    if m = 0 then (if n then 2 ^ 3 else 2 ^ 4)
    else if a / 2 ^ f.mb % 2 ^ f.eb = 0 then (if n then 2 ^ 2 else 2 ^ 5)
    else (if n then 2 ^ 1 else 2 ^ 6)

/-- Sign injection on codes: the sign of `b`, its complement, or the exclusive or. -/
def FFmt.inject (f : FFmt) (op : SgnOp) (a b : Nat) : Nat :=
  let sa := a / 2 ^ (f.eb + f.mb) % 2 == 1
  let sb := b / 2 ^ (f.eb + f.mb) % 2 == 1
  f.signed (match op with | .j => sb | .jn => !sb | .jx => sa != sb) (a % 2 ^ (f.eb + f.mb))

/-- Conversion to an integer of `n` bits, with the saturation of RISC-V. The result stands modulo 2^n. -/
def FFmt.toInt (f : FFmt) (rm : RM) (sgn : Bool) (n a : Nat) : Coded :=
  let hi : Int := if sgn then (2 : Int) ^ (n - 1) - 1 else (2 : Int) ^ n - 1
  let lo : Int := if sgn then -(2 : Int) ^ (n - 1) else 0
  match f.value a with
  | .nan => (wrap n hi, FFlags.invalid)
  | .inf k => (wrap n (if k then lo else hi), FFlags.invalid)
  | .fin k m e =>
    if m = 0 then (0, FFlags.none)
    else
      let r := Mag.roundAt { num := m, den := 1, e := e } rm k 0
      let i : Int := if k then -(r.q : Int) else r.q
      if i < lo then (wrap n lo, FFlags.invalid)
      else if hi < i then (wrap n hi, FFlags.invalid)
      else (wrap n i, { FFlags.none with nx := r.inexact })

/-- Conversion from an integer. -/
def FFmt.ofInt (f : FFmt) (rm : RM) (i : Int) : Coded := f.ofDyad rm false { m := i, e := 0 }

/-- Conversion between IEEE formats. -/
def FFmt.convert (src dst : FFmt) (rm : RM) (a : Nat) : Coded :=
  match src.value a with
  | .nan => quietNan dst (src.isSnan a)
  | .inf n => (dst.signed n dst.infCode, FFlags.none)
  | .fin n m e => dst.ofDyad rm n (FV.dyad (.fin n m e))

/-! Conversion to narrow formats (R64 to R68) -/

end Sys2Proof.Machine

namespace Sys2Proof
open Sys2Proof.Machine

/-- Mantissa bits and exponent of the smallest normal value; none for the integer formats. -/
def NarrowFmt.shape : NarrowFmt → Option (Nat × Int)
  | .fp4 => some (1, 0)
  | .e4m3 => some (3, -6)
  | .e5m2 => some (2, -14)
  | .bf16 => some (7, -126)
  | .fp16 => some (10, -14)
  | .int8 | .int4 => none

/-- Code of the largest finite magnitude; for the integer formats the most negative value's magnitude differs. -/
def NarrowFmt.maxCode : NarrowFmt → Nat
  | .fp4 => 0x7 | .e4m3 => 0x7E | .e5m2 => 0x7B | .bf16 => 0x7F7F | .fp16 => 0x7BFF | .int8 => 127 | .int4 => 7

/-- Whether the format encodes infinities. -/
def NarrowFmt.hasInf : NarrowFmt → Bool
  | .e5m2 | .bf16 | .fp16 => true
  | .fp4 | .e4m3 | .int8 | .int4 => false

/-- Whether the format encodes NaN. -/
def NarrowFmt.hasNan : NarrowFmt → Bool
  | .e4m3 | .e5m2 | .bf16 | .fp16 => true
  | .fp4 | .int8 | .int4 => false

/-- A magnitude code with a sign. -/
def NarrowFmt.signed (f : NarrowFmt) (neg : Bool) (code : Nat) : Nat :=
  match f with
  | .int8 | .int4 => if neg then (2 ^ f.bits - code) % 2 ^ f.bits else code
  | .fp4 | .e4m3 | .e5m2 | .bf16 | .fp16 => if neg then code + 2 ^ (f.bits - 1) else code

/-- The most extreme finite code of a sign: for the integer formats the most negative one is one further out. -/
def NarrowFmt.extreme (f : NarrowFmt) (neg : Bool) : Nat :=
  match f with
  | .int8 | .int4 => if neg then 2 ^ (f.bits - 1) else f.maxCode
  | .fp4 | .e4m3 | .e5m2 | .bf16 | .fp16 => f.signed neg f.maxCode

/-- nan_out (R65). -/
def NarrowFmt.nanOut : NarrowFmt → Nat
  | .fp4 | .int8 | .int4 => 0 | .e4m3 => 0x7F | .e5m2 => 0x7E | .bf16 => 0x7FC0 | .fp16 => 0x7E00

/-- Code of +Inf in a format that has it. -/
def NarrowFmt.infCode : NarrowFmt → Nat
  | .e5m2 => 0x7C | .bf16 => 0x7F80 | .fp16 => 0x7C00 | .fp4 | .e4m3 | .int8 | .int4 => 0

/-- inf_out (R65). -/
def NarrowFmt.infOut (f : NarrowFmt) (neg : Bool) : Nat := if f.hasInf then f.signed neg f.infCode else f.extreme neg

/-- The rounding mode of a code, with the generator's 16 bits for SR (R67). -/
def Rnd.mode (r : Rnd) (w : Word32) : RM :=
  match r with
  | .rne => .rne | .rtz => .rtz | .rdn => .rdn | .rup => .rup | .sr => .sr (w.toNat / 65536)

/-- ovf_out (R66). -/
def NarrowFmt.overflow (f : NarrowFmt) (rm : RM) (neg sat : Bool) : Nat :=
  if f.hasInf && !sat && !rm.saturates neg then f.signed neg f.infCode else f.extreme neg

/-- The largest finite magnitude of a sign (R64, maxmag), as a dyadic number. -/
def NarrowFmt.maxmag (f : NarrowFmt) (neg : Bool) : Dyad :=
  match f with
  | .int8 => { m := if neg then 128 else 127, e := 0 }
  | .int4 => { m := if neg then 8 else 7, e := 0 }
  | .fp4 | .e4m3 | .e5m2 | .bf16 | .fp16 => (f.value f.maxCode).dyad

/-- cvt of a finite value of magnitude `a` (R64), with the flags of R68. -/
def NarrowFmt.cvtMag (f : NarrowFmt) (rm : RM) (sat neg : Bool) (a : Mag) : Coded :=
  let r := match f.shape with
    | some (mb, emin) => a.round rm neg mb emin
    | none => a.roundAt rm neg 0
  if (f.maxmag neg).lt { m := r.q, e := r.u } then (f.overflow rm neg sat, { FFlags.none with of := true, nx := true })
  else match f.shape with
    | none => (f.signed neg r.q, { FFlags.none with nx := r.inexact })
    | some (mb, emin) =>
      let isSr := match rm with | .sr _ => true | .rne | .rtz | .rdn | .rup | .rmm | .rod => false
      let tiny := if isSr then a.log2 < emin else (a.roundAt rm neg (a.log2 - mb)).below emin
      (f.signed neg ((r.u - (emin - mb)).toNat * 2 ^ mb + r.q), { FFlags.none with uf := tiny && r.inexact, nx := r.inexact })

/-- cvt of a value (R64, R65, R68). A signalling NaN sets NV as a quiet one does, only where the format has no NaN (log 82). -/
def NarrowFmt.cvt (f : NarrowFmt) (rm : RM) (sat : Bool) (v : FV) : Coded :=
  match v with
  | .nan => (f.nanOut, { FFlags.none with nv := !f.hasNan })
  | .inf n => (f.infOut n, { FFlags.none with nv := !f.hasInf })
  | .fin n m e => if m = 0 then (f.signed n 0, FFlags.none) else f.cvtMag rm sat n { num := m, den := 1, e := e }

end Sys2Proof

namespace Sys2Proof.Machine

/-! Block-scaled sums (R62) -/

/-- What the sum of an output has met so far. -/
def PCell.zero : PCell := { sum := { m := 0, e := 0 }, nan := false, pinf := false, ninf := false }

/-- Add one product of elements under the scale product of its block. -/
def PCell.addTerm (c : PCell) (p a b : FV) : PCell :=
  match p, a, b with
  | .nan, _, _ | _, .nan, _ | _, _, .nan => { c with nan := true }
  | _, _, _ =>
    if p.isInf || a.isInf || b.isInf then
      if p.isZero || a.isZero || b.isZero then { c with nan := true }
      else
        let neg := (p.isNeg != a.isNeg) != b.isNeg
        { c with pinf := c.pinf || !neg, ninf := c.ninf || neg }
    else { c with sum := c.sum.add (p.dyad.mul (a.dyad.mul b.dyad)) }

/-- Product of two scales. -/
def scaleProduct (a b : FV) : FV :=
  match a, b with
  | .fin n x e, .fin m y k => .fin (n != m) (x * y) (e + k)
  | _, _ => .nan

/-- The FP32 sum of the last rows of the table of R62: `acc + t` in IEEE addition. -/
def accumulate (acc t : Nat) : Nat := (FFmt.fp32.add .rne acc t).1

/-- The end of R62: the new accumulator, from the sum, the tensor scale and the old one. -/
def PCell.finish (c : PCell) (ts acc : Nat) : Nat :=
  let f := FFmt.fp32
  let vt := f.value ts
  let neg := vt.isNeg
  if c.nan || vt == .nan || f.value acc == .nan || (c.pinf && c.ninf) then f.nanCode
  else if c.pinf || c.ninf then
    if vt.isZero then f.nanCode else accumulate acc (f.signed (c.ninf != neg) f.infCode)
  else if vt.isInf then
    if c.sum.m = 0 then f.nanCode else accumulate acc (f.signed ((c.sum.m < 0) != neg) f.infCode)
  else
    let zeroNeg := if c.sum.m = 0 then neg else neg != (c.sum.m < 0)
    accumulate acc (f.ofDyad .rne zeroNeg (vt.dyad.mul c.sum)).1

/-! The generator (R69) -/

/-- Ten rounds of Philox4x32, on (c0, c1, c2, c3) with key (k0, k1). -/
def philoxRounds : Nat → Nat → Nat → Nat → Nat → Nat → Nat → List Nat
  | 0, c0, c1, c2, c3, _, _ => [c0, c1, c2, c3]
  | n + 1, c0, c1, c2, c3, k0, k1 =>
    let p0 := 0xD2511F53 * c0
    let p1 := 0xCD9E8D57 * c2
    philoxRounds n (p1 / 2 ^ 32 ^^^ c1 ^^^ k0) (p1 % 2 ^ 32) (p0 / 2 ^ 32 ^^^ c3 ^^^ k1) (p0 % 2 ^ 32)
      ((k0 + 0x9E3779B9) % 2 ^ 32) ((k1 + 0xBB67AE85) % 2 ^ 32)

/-- The four output words for a counter, under the key `jobseed`. -/
def philox (seed : Word) (c0 c1 c2 c3 : Nat) : List Nat := philoxRounds 10 c0 c1 c2 c3 (fld seed 0 32) (fld seed 32 32)

/-- Word `m` of the hart space (R70) at a stream and an 80-bit index. -/
def hartWord (seed : Word) (loc stream index m : Nat) : Word32 :=
  BitVec.ofNat 32 ((philox seed (index % 2 ^ 32) (index / 2 ^ 32 % 2 ^ 32) (stream * 2 ^ 16 + index / 2 ^ 64 % 2 ^ 16) loc).getD m 0)

/-! Bit planes (R58) -/

/-- Bit `7 - p` of element `e`, in a group of 128 bytes. -/
def planeBit (group : List Byte) (p e : Nat) : Bool := (group.getD (16 * p + e / 8) 0).getLsbD (e % 8)

/-- The value `q_n * 2^(8-n)` of element `e`, as its 8-bit code. -/
def planeCode (group : List Byte) (n e : Nat) : Nat :=
  (rangeFrom 0 n).foldl (fun v p => v + if planeBit group p e then 2 ^ (7 - p) else 0) 0

/-- The group of 128 codes with `n` planes kept. -/
def packPlanes (codes : List Byte) (n : Nat) : List Byte :=
  (rangeFrom 0 128).map fun k =>
    let p := k / 16
    if p < n then
      BitVec.ofNat 8 ((rangeFrom 0 8).foldl (fun v b =>
        v + if (codes.getD (k % 16 * 8 + b) 0).getLsbD (7 - p) then 2 ^ b else 0) 0)
    else 0

/-! Packed elements (R57) -/

/-- Element `k` of `bits` bits in a list of bytes. -/
def packedElem (bytes : List Byte) (bits k : Nat) : Nat :=
  if bits = 4 then (bytes.getD (k / 2) 0).toNat / 16 ^ (k % 2) % 16
  else leNat ((rangeFrom (k * (bits / 8)) (bits / 8)).map fun i => bytes.getD i 0)

/-- Pack elements of `bits` bits. -/
def packElems (bits : Nat) (l : List Nat) : List Byte :=
  if bits = 4 then
    (rangeFrom 0 ((l.length + 1) / 2)).map fun k => BitVec.ofNat 8 (l.getD (2 * k) 0 % 16 + 16 * (l.getD (2 * k + 1) 0 % 16))
  else (l.map fun v => leBytes (bits / 8) v).flatten

end Sys2Proof.Machine
end

