-- ==== Sys2Proof/Machine/Operands.lean ====
section
/-! DEFINITION. Operand forms: addresses, scalar floating-point registers under NaN boxing (R61), and groups of vector registers
(R213) and their elements. -/

namespace Sys2Proof.Machine

/-! Addresses and immediates -/

/-- An address: a register plus a sign-extended 12-bit offset. -/
def addrOf (s : State) (r : Reg) (imm : BitVec 12) : Nat := (rx s r + imm.signExtend 64).toNat

/-- The address of a register. -/
def addrReg (s : State) (r : Reg) : Nat := (rx s r).toNat

/-- The instruction after this one. -/
def nextPc (s : State) : Word := s.h.pc + 4

/-! Scalar floating point -/

/-- The format of a code letter. -/
def fmtOf : FpFmt → FFmt
  | .s => FFmt.fp32
  | .d => FFmt.fp64

/-- Read an f register in a format: a single that is not NaN-boxed reads as the canonical NaN (R61). -/
def readF (s : State) (fmt : FpFmt) (r : Reg) : Nat :=
  let v := (rf s r).toNat
  match fmt with
  | .d => v
  | .s => if v / 2 ^ 32 = 2 ^ 32 - 1 then v % 2 ^ 32 else FFmt.fp32.nanCode

/-- NaN-box a single. -/
def boxS (v : Nat) : Word := word ((2 ^ 32 - 1) * 2 ^ 32 + v % 2 ^ 32)

/-- Write an f register in a format. -/
def writeF (s : State) (fmt : FpFmt) (r : Reg) (v : Nat) : State :=
  wf s r (match fmt with | .d => word v | .s => boxS v)

/-! Vector register groups -/

/-- A register `k` places above another, modulo 32. -/
def regPlus (r : Reg) (k : Nat) : Reg := ⟨(r.val + k) % 32, Nat.mod_lt _ (by decide)⟩

/-- The bytes of `g` registers from `v`. -/
def groupBytes (s : State) (v : Reg) (g : Nat) : List Byte :=
  ((rangeFrom 0 g).map fun k => bytesOfBv (rv s (regPlus v k))).flatten

/-- Element `k` of `w` bytes in the group at `v`. -/
def vElem (s : State) (v : Reg) (w k : Nat) : Nat :=
  let b := k * w
  (rv s (regPlus v (b / 64))).toNat / 256 ^ (b % 64) % 256 ^ w

/-- Replace `w` bytes of a 512-bit register from byte `b` up. -/
def putField (r : BitVec 512) (b w v : Nat) : BitVec 512 :=
  let t := r.toNat
  BitVec.ofNat 512 (t - t / 256 ^ b % 256 ^ w * 256 ^ b + v % 256 ^ w * 256 ^ b)

/-- Write element `k` of `w` bytes in the group at `v`. -/
def setElem (s : State) (v : Reg) (w k x : Nat) : State :=
  let b := k * w
  let r := regPlus v (b / 64)
  wv s r (putField (rv s r) (b % 64) w x)

/-- Write bytes from the start of the group at `v`; the other bytes keep their values (R214). -/
def setGroup (s : State) (v : Reg) (bytes : List Byte) : State :=
  (rangeFrom 0 ((bytes.length + 63) / 64)).foldl (fun s k =>
    let part := (bytes.drop (64 * k)).take 64
    let r := regPlus v k
    wv s r (putField (rv s r) 0 part.length (leNat part))) s

/-- Mask bit `i` of v0. -/
def maskBit (s : State) (i : Nat) : Bool := (rv s 0).getLsbD i

/-- Bit `i` of a mask register. -/
def vBit (s : State) (r : Reg) (i : Nat) : Bool := (rv s r).getLsbD i

end Sys2Proof.Machine
end

