-- ==== Sys2Proof/Machine/Flags.lean ====
section
/-! DEFINITION. Flag computations: `fflags`, dynamic rounding and `vxsat`. -/

namespace Sys2Proof.Machine

/-- Accumulate exception flags into `fflags`; a raise makes FS Dirty unless it is Off. -/
def raise (s : State) (f : FFlags) : State :=
  if f = FFlags.none then s
  else
    let t := modC s fun c => { c with fflags := c.fflags ||| f.toBits }
    if fld s.h.csr.mstatus 13 2 = 0 then mark t 1 else dirtyF t

/-- A rounding mode by its code in `rm` or `frm`; none for a reserved code. -/
def rmOfCode : Nat → Option RM
  | 0 => some .rne | 1 => some .rtz | 2 => some .rdn | 3 => some .rup | 4 => some .rmm | _ => none

/-- The rounding mode of an instruction: 7 is dynamic. A reserved value is an illegal instruction (R28). -/
def rounding (s : State) (rm : Nat) : Res RM :=
  match rmOfCode (if rm = 7 then s.h.csr.frm.toNat else rm) with
  | some m => .ok m
  | none => illegal s

/-- The dynamic rounding mode, for vector instructions. -/
def dynRounding (s : State) : Res RM := rounding s 7

/-- Set `vxsat` after a saturation. -/
def saturated (s : State) (b : Bool) : State := if b then dirtyV (modC s fun c => { c with vxsat := true }) else s

/-- Fixed-point rounding of `v / 2^d` under `vxrm`: the increment is added to the truncated quotient. -/
def roundShift (vxrm : Nat) (v : Int) (d : Nat) : Int :=
  let q := v / (2 : Int) ^ d
  if d = 0 then v
  else
    let half := (v / (2 : Int) ^ (d - 1)) % 2 = 1
    let rest := v % (2 : Int) ^ (d - 1) != 0
    let inc : Bool := match vxrm with
      | 0 => half
      | 1 => half && (rest || q % 2 = 1)
      | 2 => false
      | _ => q % 2 = 0 && (half || rest)
    if inc then q + 1 else q

/-- Saturate to a signed range of `n` bits; the flag says that it did. -/
def satSigned (n : Nat) (v : Int) : Nat × Bool :=
  let hi := (2 : Int) ^ (n - 1) - 1
  let lo := -(2 : Int) ^ (n - 1)
  if hi < v then (wrap n hi, true) else if v < lo then (wrap n lo, true) else (wrap n v, false)

/-- Saturate to an unsigned range of `n` bits. -/
def satUnsigned (n : Nat) (v : Int) : Nat × Bool :=
  if (2 : Int) ^ n - 1 < v then (2 ^ n - 1, true) else if v < 0 then (0, true) else (v.toNat, false)

end Sys2Proof.Machine
end

