-- ==== Sys2Proof/Machine/Scalar.lean ====
section
/-! DEFINITION. The scalar base set (R28 to R31): RV64IM, the trap returns, F and D, and the rows of the table that the base
encodings have: scalar loads and stores, LR, SC and AMO, FENCE, WFI and what R44 refuses. -/

namespace Sys2Proof.Machine

/-! Integer -/

/-- Signed value of a word. -/
def sint (w : Word) : Int := w.toInt

/-- RV64IM on 64 bits: division by zero and overflow give the results that M states. -/
def alu64 (op : AluOp) (a b : Word) : Word :=
  match op with
  | .add => a + b
  | .sub => a - b
  | .sll => a <<< (b.toNat % 64)
  | .slt => word (boolNat (a.slt b))
  | .sltu => word (boolNat (a.ult b))
  | .xor => a ^^^ b
  | .srl => a >>> (b.toNat % 64)
  | .sra => a.sshiftRight (b.toNat % 64)
  | .or => a ||| b
  | .and => a &&& b
  | .mul => a * b
  | .mulh => word (wrap 64 (sint a * sint b / (2 : Int) ^ 64))
  | .mulhsu => word (wrap 64 (sint a * (b.toNat : Int) / (2 : Int) ^ 64))
  | .mulhu => word (a.toNat * b.toNat / 2 ^ 64)
  | .div => if b = 0 then word (2 ^ 64 - 1) else word (wrap 64 ((sint a).tdiv (sint b)))
  | .divu => if b = 0 then word (2 ^ 64 - 1) else a / b
  | .rem => if b = 0 then a else word (wrap 64 ((sint a).tmod (sint b)))
  | .remu => if b = 0 then a else a % b

/-- The W forms: on the low 32 bits, sign-extended. Operations without a W form are not decoded to it. -/
def alu32 (op : AluOp) (a b : Word) : Word :=
  let x := a.toNat % 2 ^ 32
  let y := b.toNat % 2 ^ 32
  let sx := signed 32 x
  let sy := signed 32 y
  let r : Nat := match op with
    | .sll => x * 2 ^ (y % 32)
    | .srl => x / 2 ^ (y % 32)
    | .sra => wrap 32 (sx / (2 : Int) ^ (y % 32))
    | .div => if y = 0 then 2 ^ 32 - 1 else wrap 32 (sx.tdiv sy)
    | .divu => if y = 0 then 2 ^ 32 - 1 else x / y
    | .rem => if y = 0 then x else wrap 32 (sx.tmod sy)
    | .remu => if y = 0 then x else x % y
    | .add | .sub | .slt | .sltu | .xor | .or | .and | .mul | .mulh | .mulhsu | .mulhu => (alu64 op a b).toNat
  sextWord 32 r

/-- An integer operation in its width. -/
def alu (op : AluOp) (w32 : Bool) (a b : Word) : Word := if w32 then alu32 op a b else alu64 op a b

/-- Whether a branch is taken. -/
def branchTaken (op : BrOp) (a b : Word) : Bool :=
  match op with
  | .beq => a == b
  | .bne => a != b
  | .blt => a.slt b
  | .bge => !a.slt b
  | .bltu => a.ult b
  | .bgeu => !a.ult b

/-- Jump to a target, which must be 4-byte aligned. -/
def goTo (s : State) (target : Word) : Res State :=
  if target.toNat % 4 = 0 then .ok (jumpTo s target) else .error (.trap 0 target)

/-- SRET: illegal in U-mode, and in S-mode with TSR set. -/
def sretBody (s : State) : Res State :=
  if s.h.mode == .u || (s.h.mode == .s && bitAt s.h.csr.mstatus 22) then illegal s
  else let t := returnS s; .ok (jumpTo t t.h.pc)

/-- MRET: illegal below M-mode. -/
def mretBody (s : State) : Res State :=
  if s.h.mode == .m then let t := returnM s; .ok (jumpTo t t.h.pc) else illegal s

/-! Scalar floating point -/

/-- Write a floating result and its flags. -/
def putF (s : State) (fmt : FpFmt) (rd : Reg) (c : Coded) : State := raise (writeF s fmt rd c.1) c.2

/-- Write an integer result and its flags. -/
def putX (s : State) (rd : Reg) (v : Word) (f : FFlags) : State := raise (wx s rd v) f

def fpArith (f : FFmt) (op : FpOp) (rm : RM) (a b : Nat) : Coded :=
  match op with
  | .add => f.add rm a b
  | .sub => f.sub rm a b
  | .mul => f.mul rm a b
  | .div => f.div rm a b

def fpFma (f : FFmt) (op : FmaOp) (rm : RM) (a b c : Nat) : Coded :=
  match op with
  | .madd => f.fma rm false false a b c
  | .msub => f.fma rm false true a b c
  | .nmsub => f.fma rm true false a b c
  | .nmadd => f.fma rm true true a b c

def fpCmp (f : FFmt) (op : FcmpOp) (a b : Nat) : Bool × FFlags :=
  match op with
  | .eq => f.eq a b
  | .lt => f.lt a b
  | .le => f.le a b

/-- The integer that a conversion reads from a register. -/
def intOfReg (i : IntFmt) (v : Word) : Int :=
  match i with
  | .w => signed 32 v.toNat
  | .wu => (v.toNat % 2 ^ 32 : Nat)
  | .l => sint v
  | .lu => (v.toNat : Int)

/-- Conversion of a code to an integer register value: 32-bit results are sign-extended. -/
def fpToInt (f : FFmt) (rm : RM) (i : IntFmt) (a : Nat) : Word × FFlags :=
  match i with
  | .w => let r := f.toInt rm true 32 a; (sextWord 32 r.1, r.2)
  | .wu => let r := f.toInt rm false 32 a; (sextWord 32 r.1, r.2)
  | .l => let r := f.toInt rm true 64 a; (word r.1, r.2)
  | .lu => let r := f.toInt rm false 64 a; (word r.1, r.2)

/-- The other scalar format. -/
def otherFmt : FpFmt → FpFmt
  | .s => .d
  | .d => .s

/-! Scalar base instructions without a row -/

/-- The bodies of the scalar base instructions; each sets its own pc. Vector words are run by their own file. -/
def scalarBody (b : Base) (s : State) : Res State :=
  match b with
  | .lui rd imm => .ok (advance (wx s rd (sextWord 32 (imm.toNat * 4096))))
  | .auipc rd imm => .ok (advance (wx s rd (s.h.pc + sextWord 32 (imm.toNat * 4096))))
  | .jal rd imm => goTo (wx s rd (nextPc s)) (s.h.pc + imm.signExtend 64)
  | .jalr rd rs1 imm =>
    goTo (wx s rd (nextPc s)) ((rx s rs1 + imm.signExtend 64) &&& 0xFFFFFFFFFFFFFFFE#64)
  | .branch op rs1 rs2 imm =>
    if branchTaken op (rx s rs1) (rx s rs2) then goTo s (s.h.pc + imm.signExtend 64) else .ok (advance s)
  | .alu op w rd rs1 rs2 => .ok (advance (wx s rd (alu op w (rx s rs1) (rx s rs2))))
  | .aluImm op w rd rs1 imm => .ok (advance (wx s rd (alu op w (rx s rs1) (imm.signExtend 64))))
  | .ecall => .error (.trap (match s.h.mode with | .u => 8 | .s => 9 | .m => 11) 0)
  | .ebreak => .error (.trap 3 s.h.pc)
  | .sret => sretBody s
  | .mret => mretBody s
  | .fma op fmt rd rs1 rs2 rs3 rm => do
    needF s
    let m ← rounding s rm.val
    .ok (advance (putF s fmt rd (fpFma (fmtOf fmt) op m (readF s fmt rs1) (readF s fmt rs2) (readF s fmt rs3))))
  | .farith op fmt rd rs1 rs2 rm => do
    needF s
    let m ← rounding s rm.val
    .ok (advance (putF s fmt rd (fpArith (fmtOf fmt) op m (readF s fmt rs1) (readF s fmt rs2))))
  | .fsqrt fmt rd rs1 rm => do
    needF s
    let m ← rounding s rm.val
    .ok (advance (putF s fmt rd ((fmtOf fmt).sqrt m (readF s fmt rs1))))
  | .fsgnj op fmt rd rs1 rs2 => do
    needF s
    .ok (advance (writeF s fmt rd ((fmtOf fmt).inject op (readF s fmt rs1) (readF s fmt rs2))))
  | .fminmax mx fmt rd rs1 rs2 => do
    needF s
    .ok (advance (putF s fmt rd ((fmtOf fmt).minmax mx (readF s fmt rs1) (readF s fmt rs2))))
  | .fcmp op fmt rd rs1 rs2 => do
    needF s
    let (r, f) := fpCmp (fmtOf fmt) op (readF s fmt rs1) (readF s fmt rs2)
    .ok (advance (putX s rd (word (boolNat r)) f))
  | .fclass fmt rd rs1 => do
    needF s
    .ok (advance (wx s rd (word ((fmtOf fmt).classify (readF s fmt rs1)))))
  | .fcvtToInt fmt i rd rs1 rm => do
    needF s
    let m ← rounding s rm.val
    let (v, f) := fpToInt (fmtOf fmt) m i (readF s fmt rs1)
    .ok (advance (putX s rd v f))
  | .fcvtFromInt fmt i rd rs1 rm => do
    needF s
    let m ← rounding s rm.val
    .ok (advance (putF s fmt rd ((fmtOf fmt).ofInt m (intOfReg i (rx s rs1)))))
  | .fcvtFmt fmt rd rs1 rm => do
    needF s
    let m ← rounding s rm.val
    let src := otherFmt fmt
    .ok (advance (putF s fmt rd ((fmtOf src).convert (fmtOf fmt) m (readF s src rs1))))
  | .fmvToX fmt rd rs1 => do
    needF s
    .ok (advance (wx s rd (match fmt with | .s => sextWord 32 (rf s rs1).toNat | .d => rf s rs1)))
  | .fmvFromX fmt rd rs1 => do
    needF s
    .ok (advance (writeF s fmt rd (rx s rs1).toNat))
  | .vsetvli _ _ _ | .vsetivli _ _ _ | .vsetvl _ _ _ | .varith _ => illegal s

/-! Loads and stores -/

/-- Bytes of a scalar load. -/
def loadWidth : LoadOp → Nat
  | .lb | .lbu => 1
  | .lh | .lhu => 2
  | .lw | .lwu | .flw => 4
  | .ld | .fld => 8

/-- Bytes of a scalar store. -/
def storeWidth : StoreOp → Nat
  | .sb => 1
  | .sh => 2
  | .sw | .fsw => 4
  | .sd | .fsd => 8

/-- Whether a load or a store is of an f register. -/
def LoadIsF : LoadOp → Bool
  | .flw | .fld => true
  | .lb | .lbu | .lh | .lhu | .lw | .lwu | .ld => false
def StoreIsF : StoreOp → Bool
  | .fsw | .fsd => true
  | .sb | .sh | .sw | .sd => false

/-- Write what a load has read. -/
def loadResult (s : State) (op : LoadOp) (rd : Reg) (v : Nat) : State :=
  match op with
  | .lb => wx s rd (sextWord 8 v)
  | .lh => wx s rd (sextWord 16 v)
  | .lw => wx s rd (sextWord 32 v)
  | .ld | .lbu | .lhu | .lwu => wx s rd (word v)
  | .flw => writeF s .s rd v
  | .fld => writeF s .d rd v

/-- A scalar load (R19, R29, R31). -/
def loadBody (op : LoadOp) (rd rs1 : Reg) (imm : BitVec 12) (s : State) : Res State := do
  if LoadIsF op then needF s
  let (bytes, t) ← loadScalar s (addrOf s rs1 imm) (loadWidth op)
  .ok (loadResult t op rd (leNat bytes))

def execScalarLoad (op : LoadOp) (rd rs1 : Reg) (imm : BitVec 12) (s : State) : Host.Outcome State Fault Refusal :=
  seq s (loadBody op rd rs1 imm s)

/-- A scalar store (R19, R29, R31). -/
def storeBody (op : StoreOp) (rs2 rs1 : Reg) (imm : BitVec 12) (s : State) : Res State := do
  if StoreIsF op then needF s
  let v := if StoreIsF op then rf s rs2 else rx s rs2
  let va := addrOf s rs1 imm
  storeBytes s va (leBytes (storeWidth op) v.toNat) (word va)

def execScalarStore (op : StoreOp) (rs2 rs1 : Reg) (imm : BitVec 12) (s : State) : Host.Outcome State Fault Refusal :=
  seq s (storeBody op rs2 rs1 imm s)

/-! The A extension (R30, R31) -/

/-- Bytes of an access of the A extension. -/
def AmoW.bytes : AmoW → Nat
  | .w => 4
  | .d => 8

/-- A value as the A extension returns it: a word is sign-extended. -/
def amoExt (sz : AmoW) (v : Nat) : Word := match sz with | .w => sextWord 32 v | .d => word v

/-- The bytes at an address are held through a whole handle in OWNED (R30). -/
def needWhole (s : State) (va : Nat) : Res Unit :=
  let a := capAddr s va
  let here := s.h.holdings.filterMap fun g =>
    match capAt s g.index with
    | some c => if c.gen == g.gen && c.state != .free && c.base ≤ a && a < c.base + c.length then some (g, c) else none
    | none => none
  if outOfTile s a then .error (.trap causeOwnership (word va))
  else if here.any fun p => p.2.state == .quarantined then .error (.trap causeQuarantined (word va))
  else check ((here.any fun p => p.1.kind == .whole && p.1.susp == 0 && p.2.state == .owned) && rightAt s va == .full)
    causeOwnership (word va)

/-- The naturally aligned doubleword that a reservation covers. -/
def resvOf (s : State) (va : Nat) : Nat := capAddr s va / 8 * 8

/-- LR: a load under the load rule, with a reservation. -/
def lrBody (sz : AmoW) (rd rs1 : Reg) (s : State) : Res State := do
  let va := addrReg s rs1
  check (va % AmoW.bytes sz = 0) 4 (word va)
  let (bytes, t) ← loadScalar s va (AmoW.bytes sz)
  .ok (wx (modH t fun h => { h with resv := some (resvOf s va) }) rd (amoExt sz (leNat bytes)))

def execLr (sz : AmoW) (_aq _rl : Bool) (rd rs1 : Reg) (s : State) : Host.Outcome State Fault Refusal :=
  seq s (lrBody sz rd rs1 s)

/-- SC: stores under a valid reservation of the doubleword; any SC clears the reservation. -/
def scBody (sz : AmoW) (rd rs1 rs2 : Reg) (s : State) : Res State := do
  let va := addrReg s rs1
  check (va % AmoW.bytes sz = 0) 6 (word va)
  if inHole va then .error (.trap 7 (word va))
  needWhole s va
  let clear (s : State) : State := modH s fun h => { h with resv := none }
  if s.h.resv = some (resvOf s va) then do
    let t ← storeBytes s va (leBytes (AmoW.bytes sz) (rx s rs2).toNat) (word va)
    .ok (wx (clear t) rd 0)
  else .ok (wx (clear s) rd 1)

def execSc (sz : AmoW) (_aq _rl : Bool) (rd rs1 rs2 : Reg) (s : State) : Host.Outcome State Fault Refusal :=
  seq s (scBody sz rd rs1 rs2 s)

/-- The operation of an AMO on values of `n` bits. -/
def amoOp (op : AmoOp) (n a b : Nat) : Nat :=
  match op with
  | .swap => b
  | .add => (a + b) % 2 ^ n
  | .xor => a ^^^ b
  | .and => a &&& b
  | .or => a ||| b
  | .min => if signed n a ≤ signed n b then a else b
  | .max => if signed n b ≤ signed n a then a else b
  | .minu => min a b
  | .maxu => max a b

/-- AMO: read, operate and write at one moment. -/
def amoBody (op : AmoOp) (sz : AmoW) (rd rs1 rs2 : Reg) (s : State) : Res State := do
  let va := addrReg s rs1
  let n := AmoW.bytes sz
  check (va % n = 0) 6 (word va)
  if inHole va then .error (.trap 7 (word va))
  needWhole s va
  let (pas, t) ← translateRange s .store va n
  let q := myPid t
  match readPas t (myTile t) q pas with
  | none => eccTrap t pas q fun _ => word va
  | some bytes =>
    let old := leNat bytes
    let new := amoOp op (8 * n) old ((rx s rs2).toNat % 2 ^ (8 * n))
    let u ← storeBytes (noteRead t q (pas.filter fun p => (tget (tileOf t (myTile t)).l1d p).isNone)) va (leBytes n new) (word va)
    .ok (wx u rd (amoExt sz old))

def execAmo (op : AmoOp) (sz : AmoW) (_aq _rl : Bool) (rd rs1 rs2 : Reg) (s : State) : Host.Outcome State Fault Refusal :=
  seq s (amoBody op sz rd rs1 rs2 s)

/-! Rows that R29 and R44 change -/

/-- FENCE: no operation (R29). -/
def execFence (_w : Word32) (s : State) : Host.Outcome State Fault Refusal := seq s (.ok s)
/-- FENCE.I: illegal instruction in every mode (R29). -/
def execFenceI (w : Word32) (s : State) : Host.Outcome State Fault Refusal := finish s (.error (.trap 2 (word w.toNat)))
/-- SFENCE.VMA and its companions: illegal instruction in every mode (R29). -/
def execSfenceVma (w : Word32) (s : State) : Host.Outcome State Fault Refusal := finish s (.error (.trap 2 (word w.toNat)))

/-- A word that the maps do not assign, or that fails check 1 of R36: illegal instruction, `stval` the word (R36, R44). -/
def execReservedEncoding (w : Word32) (s : State) : Host.Outcome State Fault Refusal :=
  finish s (.error (.trap 2 (word w.toNat)))

/-- WFI (R29): waits until an interrupt is pending and enabled in `mie`, then goes on at the next instruction. -/
def wfiBody (s : State) : Res State :=
  if bitAt s.h.csr.mstatus 21 && s.h.mode != .m then illegal s
  else if wakes s s.h then .ok (modH s fun h => { h with wfi := false })
  else .error (.point (modH s fun h => { h with wfi := true }))

def execWfi (s : State) : Host.Outcome State Fault Refusal := seq s (wfiBody s)

end Sys2Proof.Machine
end

