-- ==== Sys2Proof/Machine/Vector.lean ====
section
/-! DEFINITION. The base vector unit (R210, V 1.0 at VLEN 512 and ELEN 64): `vtype` and `vl`, register groups, tail and mask
policies, and the integer, fixed-point, mask and permutation instructions. A reserved combination of registers and `vtype` is an
illegal instruction (R44). -/

namespace Sys2Proof.Machine

/-! Settings -/

/-- SEW in bits, from a `vtype`. -/
def sewOf (vt : Nat) : Nat := 8 * 2 ^ (vt / 8 % 8)
/-- Exponent of LMUL. -/
def lmulOf (vt : Nat) : Int := signed 3 vt
/-- VLMAX = VLEN * LMUL / SEW. -/
def vlmaxOf (vt : Nat) : Nat :=
  let n := 512 / sewOf vt
  match lmulOf vt with
  | .ofNat k => n * 2 ^ k
  | .negSucc k => n / 2 ^ (k + 1)
/-- Whether a `vtype` value is supported: no reserved bit, SEW at most ELEN, and SEW at most LMUL * ELEN (log 6). -/
def vtypeOk (v : Nat) : Bool :=
  v < 256 && v / 8 % 8 ≤ 3 && v % 8 != 4 && (match lmulOf v with | .ofNat _ => true | .negSucc k => sewOf v * 2 ^ (k + 1) ≤ 64)

/-- The settings under which a vector instruction runs. -/
structure VCfg where
  sew : Nat
  lm : Int
  vlmax : Nat
  vl : Nat
  vstart : Nat
  vta : Bool
  vma : Bool
  deriving DecidableEq, Repr

def vcfg (s : State) : VCfg :=
  let v := s.h.csr.vtype.toNat
  { sew := sewOf v, lm := lmulOf v, vlmax := vlmaxOf v, vl := s.h.csr.vl, vstart := s.h.csr.vstart,
    vta := v / 64 % 2 == 1, vma := v / 128 % 2 == 1 }

/-- The new `vl` for an AVL: the choice that V 1.0 leaves between VLMAX and twice VLMAX is a free value. -/
def newVl (avl vlmax : Nat) : Nat :=
  if avl ≤ vlmax then avl
  else if 2 * vlmax ≤ avl then vlmax
  else let lo := (avl + 1) / 2; lo + Config.vlExcess avl vlmax % (vlmax - lo + 1)

/-- Install a `vtype` with an AVL; `keep` for the form that keeps `vl`, which needs an unchanged VLMAX (log 6). -/
def setVtype (s : State) (rd : Reg) (vt : Nat) (avl : Option Nat) : State :=
  let c := s.h.csr
  let kept := avl.isNone && (c.vill || vlmaxOf vt != vlmaxOf c.vtype.toNat)
  let (vill, vl) :=
    if !vtypeOk vt || kept then (true, 0)
    else (false, match avl with | some a => newVl a (vlmaxOf vt) | none => c.vl)
  let t := dirtyV (modC s fun c => { c with
    vill := vill
    vtype := if vill then 0 else BitVec.ofNat 8 vt
    vl := vl
    vstart := 0 })
  wx t rd (word vl)

/-- AVL of vsetvli and vsetvl: x0 with a destination asks for VLMAX, x0 without keeps `vl`. -/
def avlOf (s : State) (rd rs1 : Reg) : Option Nat :=
  if rs1 != 0 then some (rx s rs1).toNat else if rd != 0 then some (2 ^ 64 - 1) else none

/-! Register groups -/

/-- A register group as an operand: first register, element width (1 for a mask) and EMUL's exponent. -/
structure VGroup where
  r : Reg
  eew : Nat
  em : Int
  deriving DecidableEq, Repr

/-- Registers of a group. -/
def VGroup.regs (g : VGroup) : Nat := 2 ^ g.em.toNat
/-- EMUL within 1/8 to 8, and the number a multiple of it. -/
def VGroup.ok (g : VGroup) : Bool := -3 ≤ g.em && g.em ≤ 3 && g.r.val % g.regs == 0
def VGroup.meets (a b : VGroup) : Bool := a.r.val < b.r.val + b.regs && b.r.val < a.r.val + a.regs

/-- Overlap of a destination with a source (V 1.0, 5.2). -/
def overlapOk (d g : VGroup) : Bool :=
  !d.meets g || d.eew == g.eew ||
    (if d.eew < g.eew then d.r == g.r && d.regs ≤ g.regs
     else 0 ≤ g.em && g.r.val + g.regs == d.r.val + d.regs)

/-- The mask operand. -/
def maskGroup : VGroup := { r := 0, eew := 1, em := 0 }

/-- How a destination counts in the rules. -/
inductive VDest where
  | group (g : VGroup)
  /-- A mask result: may be v0 in a masked instruction. -/
  | mask (r : Reg)
  /-- Element 0 of a register. -/
  | scalar (r : Reg)
  | none

/-- The rules of V 1.0, 5.2 and 5.3, on alignment and overlap. `apart` forbids every overlap of destination and sources. -/
def groupsOk (masked apart : Bool) (d : VDest) (srcs : List VGroup) : Bool :=
  let srcs' := if masked then srcs ++ [maskGroup] else srcs
  let dg : Option VGroup := match d with
    | .group g => some g
    | .mask r => some { r := r, eew := 1, em := 0 }
    | .scalar _ | .none => none
  srcs.all VGroup.ok &&
  srcs'.all (fun a => srcs'.all fun b => a.eew == b.eew || !a.meets b) &&
  (match d with | .group g => g.ok && !(masked && g.meets maskGroup) | .mask _ | .scalar _ | .none => true) &&
  (match dg with
   | some g => srcs.all (fun a => overlapOk g a && !(apart && g.meets a))
   | none => true)

/-- Vector state usable, `vill` clear and the group rules met; otherwise illegal instruction. -/
def needGroups (s : State) (ok : Bool) : Res Unit := do
  needVl s
  if ok then .ok () else illegal s

/-! Writing results -/

/-- What an element's computation gives. -/
structure ERes where
  v : Nat
  f : FFlags
  sat : Bool

def ERes.of (v : Nat) : ERes := { v := v, f := FFlags.none, sat := false }
def ERes.coded (c : Coded) : ERes := { v := c.1, f := c.2, sat := false }
def ERes.sats (p : Nat × Bool) : ERes := { v := p.1, f := FFlags.none, sat := p.2 }

/-- An agnostic element: overwritten with ones or left, as the free value says (log 14). -/
def agnostic (s : State) (v : Reg) (w k : Nat) : State :=
  let (n, s) := draw s
  if Config.agnosticOnes n then setElem s v w k (256 ^ w - 1) else s

/-- Whether body element `i` is active. -/
def active (s : State) (vm : Bool) (i : Nat) : Bool := vm || maskBit s i

/-- An executed vector instruction leaves `vstart` 0. -/
def endVec (s : State) : State := if s.h.csr.vstart = 0 then s else dirtyV (modC s fun c => { c with vstart := 0 })

/-- Write elements of a destination group of element width `w` bytes: active body elements take `f i`, inactive and tail elements
follow the policies; nothing changes when `vstart` is at or above `vl`. `old` is the state that the mask is read from. -/
def putElems (old s : State) (c : VCfg) (vd : Reg) (w regs : Nat) (vm : Bool) (f : Nat → ERes) : State :=
  if c.vl ≤ c.vstart then endVec s
  else
    let total := regs * 64 / w
    let t := (rangeFrom c.vstart (total - c.vstart)).foldl (fun (s : State) i =>
      if i < c.vl then
        if active old vm i then let r := f i; saturated (raise (setElem s vd w i r.v) r.f) r.sat
        else if c.vma then agnostic s vd w i else s
      else if c.vta then agnostic s vd w i else s) s
    endVec t

/-- Write one bit of a mask register. -/
def setBitOf (s : State) (r : Reg) (i : Nat) (b : Bool) : State :=
  let v := rv s r
  wv s r (if b then v ||| (1#512 <<< i) else v &&& ~~~(1#512 <<< i))

/-- A bit of a mask result's tail: left, set, or the value that the operation gives there (V 1.0, 5.3; log 14). -/
def tailBit (s : State) (r : Reg) (i : Nat) (own : Option Bool) : State :=
  let (n, s) := draw s
  if Config.agnosticOnes n then setBitOf s r i true
  else
    let (m, s) := draw s
    match own with
    | some b => if Config.agnosticOnes m then setBitOf s r i b else s
    | none => s

/-- Write a mask result. `lim` bounds the tail bits that may take the operation's own value. -/
def putMask (old s : State) (c : VCfg) (vd : Reg) (vm : Bool) (lim : Nat) (f : Nat → Bool × FFlags) : State :=
  if c.vl ≤ c.vstart then endVec s
  else
    let t := (rangeFrom c.vstart (512 - c.vstart)).foldl (fun (s : State) i =>
      if i < c.vl then
        if active old vm i then let r := f i; raise (setBitOf s vd i r.1) r.2
        else if c.vma then
          let (n, s) := draw s
          if Config.agnosticOnes n then setBitOf s vd i true else s
        else s
      else tailBit s vd i (if i < lim then some (f i).1 else none)) s
    endVec t

/-- Write element 0 and treat the rest of the register as tail; nothing changes when `vstart` is at or above `vl`. -/
def putFirst (s : State) (c : VCfg) (vd : Reg) (w : Nat) (r : ERes) : State :=
  if c.vl ≤ c.vstart then endVec s
  else
    let t := saturated (raise (setElem s vd w 0 r.v) r.f) r.sat
    endVec (if c.vta then (rangeFrom 1 (64 / w - 1)).foldl (fun s i => agnostic s vd w i) t else t)

/-! Operands -/

/-- The second source of element `i`, of `n` bits; immediates are sign-extended unless `uimm`. -/
def srcElem (s : State) (src : VSrc) (n i : Nat) (uimm : Bool) : Nat :=
  match src with
  | .v r => vElem s r (n / 8) i
  | .x r => (rx s r).toNat % 2 ^ n
  | .i z => if uimm then z.val else wrap n (signed 5 z.val)
  | .f r => if n = 32 then readF s .s r else (rf s r).toNat % 2 ^ n

/-- The groups that a source reads. -/
def srcGroups (src : VSrc) (eew : Nat) (em : Int) : List VGroup :=
  match src with
  | .v r => [{ r := r, eew := eew, em := em }]
  | .x _ | .i _ | .f _ => []

/-! Integer element operations: `a` of vs2, `b` of the source, `d` the old destination -/

def vDivS (n : Nat) (a b : Nat) : Nat := if b = 0 then 2 ^ n - 1 else wrap n ((signed n a).tdiv (signed n b))
def vRemS (n : Nat) (a b : Nat) : Nat := if b = 0 then a else wrap n ((signed n a).tmod (signed n b))

/-- Single-width operations on `n`-bit elements. Operations of other shapes have functions of their own. -/
def vInt (op : VOp) (n vxrm a b d : Nat) : Option ERes :=
  let m := 2 ^ n
  let sa := signed n a
  let sb := signed n b
  let sh := b % n
  let ok (v : Nat) : Option ERes := some (ERes.of v)
  let i (v : Int) : Option ERes := some (ERes.of (wrap n v))
  match op with
  | .vadd => ok ((a + b) % m)
  | .vsub => i ((a : Int) - b)
  | .vrsub => i ((b : Int) - a)
  | .vminu => ok (min a b)
  | .vmin => ok (if sa ≤ sb then a else b)
  | .vmaxu => ok (max a b)
  | .vmax => ok (if sb ≤ sa then a else b)
  | .vand => ok (a &&& b)
  | .vor => ok (a ||| b)
  | .vxor => ok (a ^^^ b)
  | .vsll => ok (a * 2 ^ sh % m)
  | .vsrl => ok (a / 2 ^ sh)
  | .vsra => i (sa / (2 : Int) ^ sh)
  | .vsaddu => some (ERes.sats (satUnsigned n (a + b)))
  | .vsadd => some (ERes.sats (satSigned n (sa + sb)))
  | .vssubu => some (ERes.sats (satUnsigned n ((a : Int) - b)))
  | .vssub => some (ERes.sats (satSigned n (sa - sb)))
  | .vaaddu => i (roundShift vxrm (a + b) 1)
  | .vaadd => i (roundShift vxrm (sa + sb) 1)
  | .vasubu => i (roundShift vxrm ((a : Int) - b) 1)
  | .vasub => i (roundShift vxrm (sa - sb) 1)
  | .vsmul => some (ERes.sats (satSigned n (roundShift vxrm (sa * sb) (n - 1))))
  | .vssrl => i (roundShift vxrm a sh)
  | .vssra => i (roundShift vxrm sa sh)
  | .vdivu => ok (if b = 0 then m - 1 else a / b)
  | .vdiv => ok (vDivS n a b)
  | .vremu => ok (if b = 0 then a else a % b)
  | .vrem => ok (vRemS n a b)
  | .vmulhu => ok (a * b / m)
  | .vmul => ok (a * b % m)
  | .vmulhsu => i (sa * b / (2 : Int) ^ n)
  | .vmulh => i (sa * sb / (2 : Int) ^ n)
  | .vmadd => ok ((b * d + a) % m)
  | .vnmsub => i ((a : Int) - b * d)
  | .vmacc => ok ((b * a + d) % m)
  | .vnmsac => i ((d : Int) - b * a)
  | _ => none

/-- Whether an operation takes its immediate unsigned. -/
def vUimm (op : VOp) : Bool :=
  match op with
  | .vsll | .vsrl | .vsra | .vssrl | .vssra | .vnsrl | .vnsra | .vnclipu | .vnclip | .vslideup | .vslidedown | .vrgather => true
  | _ => false

/-- Comparisons and carries, which give a mask: `cin` is the carry or borrow in. -/
def vCmp (op : VOp) (n a b cin : Nat) : Option Bool :=
  let sa := signed n a
  let sb := signed n b
  match op with
  | .vmseq => some (a == b)
  | .vmsne => some (a != b)
  | .vmsltu => some (a < b)
  | .vmslt => some (sa < sb)
  | .vmsleu => some (a ≤ b)
  | .vmsle => some (sa ≤ sb)
  | .vmsgtu => some (b < a)
  | .vmsgt => some (sb < sa)
  | .vmadc => some (2 ^ n ≤ a + b + cin)
  | .vmsbc => some (a < b + cin)
  | _ => none

/-- Widening operations into `2n` bits; `a` has `2n` bits in the `w` forms. -/
def vWide (op : VOp) (n a b d : Nat) : Option Nat :=
  let sa := signed n a
  let sb := signed n b
  let ok (v : Int) : Option Nat := some (wrap (2 * n) v)
  match op with
  | .vwaddu => ok (a + b)
  | .vwadd => ok (sa + sb)
  | .vwsubu => ok ((a : Int) - b)
  | .vwsub => ok (sa - sb)
  | .vwadduw => ok (a + b)
  | .vwaddw => ok ((a : Int) + sb)
  | .vwsubuw => ok ((a : Int) - b)
  | .vwsubw => ok ((a : Int) - sb)
  | .vwmulu => ok (a * b)
  | .vwmulsu => ok (sa * b)
  | .vwmul => ok (sa * sb)
  | .vwmaccu => ok (d + b * a)
  | .vwmacc => ok ((d : Int) + sb * sa)
  | .vwmaccus => ok ((d : Int) + b * sa)
  | .vwmaccsu => ok ((d : Int) + sb * a)
  | _ => none

/-- Widening operations whose vs2 has the wide width already. -/
def vWideA (op : VOp) : Bool :=
  match op with
  | .vwadduw | .vwaddw | .vwsubuw | .vwsubw => true
  | _ => false

/-- Widening operations that read the destination. -/
def vWideD (op : VOp) : Bool :=
  match op with
  | .vwmaccu | .vwmacc | .vwmaccus | .vwmaccsu => true
  | _ => false

/-- Narrowing operations from `2n` bits. -/
def vNarrow (op : VOp) (n vxrm a b : Nat) : Option ERes :=
  let sh := b % (2 * n)
  match op with
  | .vnsrl => some (ERes.of (a / 2 ^ sh % 2 ^ n))
  | .vnsra => some (ERes.of (wrap n (signed (2 * n) a / (2 : Int) ^ sh)))
  | .vnclipu => some (ERes.sats (satUnsigned n (roundShift vxrm a sh)))
  | .vnclip => some (ERes.sats (satSigned n (roundShift vxrm (signed (2 * n) a) sh)))
  | _ => none

/-- Integer reductions of single width. -/
def vRed (op : VOp) (n a b : Nat) : Option Nat :=
  match op with
  | .vredsum => some ((a + b) % 2 ^ n)
  | .vredand => some (a &&& b)
  | .vredor => some (a ||| b)
  | .vredxor => some (a ^^^ b)
  | .vredminu => some (min a b)
  | .vredmin => some (if signed n a ≤ signed n b then a else b)
  | .vredmaxu => some (max a b)
  | .vredmax => some (if signed n a ≤ signed n b then b else a)
  | _ => none

/-- Mask logic: `a` of vs2, `b` of vs1. -/
def vLogic (op : VOp) (a b : Bool) : Option Bool :=
  match op with
  | .vmandn => some (a && !b)
  | .vmand => some (a && b)
  | .vmor => some (a || b)
  | .vmxor => some (a != b)
  | .vmorn => some (a || !b)
  | .vmnand => some !(a && b)
  | .vmnor => some !(a || b)
  | .vmxnor => some (a == b)
  | _ => none

/-- Zero and sign extension: the divisor of the source width, and whether signed. -/
def vExt (op : VOp) : Option (Nat × Bool) :=
  match op with
  | .vzext2 => some (2, false) | .vzext4 => some (4, false) | .vzext8 => some (8, false)
  | .vsext2 => some (2, true) | .vsext4 => some (4, true) | .vsext8 => some (8, true)
  | _ => none

/-! Bodies by shape -/

/-- The vector register that a source names, or v0. -/
def vsrcReg (src : VSrc) : Reg :=
  match src with
  | .v r | .x r | .f r => r
  | .i z => z

/-- An operation of one width. -/
def vSingle (s : State) (a : VArith) : Res State := do
  let c := vcfg s
  let n := c.sew
  let g : VGroup := { r := a.vd, eew := n, em := c.lm }
  needGroups s (groupsOk (!a.vm) false (.group g) ({ r := a.vs2, eew := n, em := c.lm } :: srcGroups a.src n c.lm))
  let f (i : Nat) : ERes :=
    (vInt a.op n s.h.csr.vxrm.toNat (vElem s a.vs2 (n / 8) i) (srcElem s a.src n i (vUimm a.op)) (vElem s a.vd (n / 8) i)).getD
      (ERes.of 0)
  .ok (putElems s s c a.vd (n / 8) g.regs a.vm f)

/-- vadc, vsbc, vmerge and vmv.v: every body element is written. -/
def vCarry (s : State) (a : VArith) : Res State := do
  let c := vcfg s
  let n := c.sew
  let g : VGroup := { r := a.vd, eew := n, em := c.lm }
  let srcs := srcGroups a.src n c.lm
  needGroups s (groupsOk (!a.vm) false (.group g)
    (if a.op == .vmerge && a.vm then srcs else { r := a.vs2, eew := n, em := c.lm } :: srcs))
  let f (i : Nat) : ERes :=
    let x := vElem s a.vs2 (n / 8) i
    let y := srcElem s a.src n i false
    let m := boolNat (maskBit s i)
    ERes.of (match a.op with
      | .vadc => (x + y + m) % 2 ^ n
      | .vsbc => wrap n ((x : Int) - y - m)
      | _ => if a.vm || maskBit s i then y else x)
  .ok (putElems s s c a.vd (n / 8) g.regs true f)

/-- Comparisons, vmadc and vmsbc. -/
def vCompare (s : State) (a : VArith) : Res State := do
  let c := vcfg s
  let n := c.sew
  let carries := a.op == .vmadc || a.op == .vmsbc
  needGroups s (groupsOk (!a.vm) false (.mask a.vd) ({ r := a.vs2, eew := n, em := c.lm } :: srcGroups a.src n c.lm))
  let f (i : Nat) : Bool × FFlags :=
    ((vCmp a.op n (vElem s a.vs2 (n / 8) i) (srcElem s a.src n i false)
        (if carries && !a.vm then boolNat (maskBit s i) else 0)).getD false, FFlags.none)
  .ok (putMask s s c a.vd (a.vm || carries) c.vlmax f)

/-- Widening operations. -/
def vWiden (s : State) (a : VArith) : Res State := do
  let c := vcfg s
  let n := c.sew
  let g : VGroup := { r := a.vd, eew := 2 * n, em := c.lm + 1 }
  let wa := vWideA a.op
  let g2 : VGroup := if wa then { r := a.vs2, eew := 2 * n, em := c.lm + 1 } else { r := a.vs2, eew := n, em := c.lm }
  -- A multiply-add reads vd too, a source of twice the width that no narrower source may overlap (V 1.0, 5.2).
  let acc := match a.op with
    | .vwmaccu | .vwmacc | .vwmaccus | .vwmaccsu => [g]
    | _ => []
  needGroups s (n ≤ 32 && groupsOk (!a.vm) false (.group g) (acc ++ g2 :: srcGroups a.src n c.lm))
  let f (i : Nat) : ERes :=
    ERes.of ((vWide a.op n (vElem s a.vs2 (g2.eew / 8) i) (srcElem s a.src n i false) (vElem s a.vd (n / 4) i)).getD 0)
  .ok (putElems s s c a.vd (n / 4) g.regs a.vm f)

/-- Narrowing operations. -/
def vNarrowing (s : State) (a : VArith) : Res State := do
  let c := vcfg s
  let n := c.sew
  let g : VGroup := { r := a.vd, eew := n, em := c.lm }
  needGroups s (n ≤ 32 && groupsOk (!a.vm) false (.group g)
    ({ r := a.vs2, eew := 2 * n, em := c.lm + 1 } :: srcGroups a.src n c.lm))
  let f (i : Nat) : ERes :=
    (vNarrow a.op n s.h.csr.vxrm.toNat (vElem s a.vs2 (n / 4) i) (srcElem s a.src n i true)).getD (ERes.of 0)
  .ok (putElems s s c a.vd (n / 8) g.regs a.vm f)

/-- The active body elements, in order. -/
def activeElems (s : State) (c : VCfg) (vm : Bool) : List Nat := (rangeFrom 0 c.vl).filter (active s vm)

/-- Integer reductions; vwredsum and vwredsumu into twice the width. A non-zero `vstart` is illegal. -/
def vReduce (s : State) (a : VArith) : Res State := do
  let c := vcfg s
  let n := c.sew
  let wide := a.op == .vwredsum || a.op == .vwredsumu
  let vs1 := vsrcReg a.src
  let g2 : VGroup := { r := a.vs2, eew := n, em := c.lm }
  let m := if wide then 2 * n else n
  let g1 : VGroup := { r := vs1, eew := m, em := 0 }
  needGroups s (c.vstart = 0 && m ≤ 64 && groupsOk (!a.vm) false (.scalar a.vd) [g2, g1])
  let step (acc i : Nat) : Nat :=
    let x := vElem s a.vs2 (n / 8) i
    match a.op with
    | .vwredsum => wrap m ((acc : Int) + signed n x)
    | .vwredsumu => (acc + x) % 2 ^ m
    | op => (vRed op n acc x).getD 0
  .ok (putFirst s c a.vd (m / 8) (ERes.of ((activeElems s c a.vm).foldl step (vElem s vs1 (m / 8) 0))))

/-- Mask logic. -/
def vMaskLogic (s : State) (a : VArith) : Res State := do
  let c := vcfg s
  let vs1 := vsrcReg a.src
  needGroups s true
  .ok (putMask s s c a.vd true 512 fun i => ((vLogic a.op (vBit s a.vs2 i) (vBit s vs1 i)).getD false, FFlags.none))

/-- vmsbf, vmsif and vmsof. -/
def vSetFirst (s : State) (a : VArith) : Res State := do
  let c := vcfg s
  let m2 : VGroup := { r := a.vs2, eew := 1, em := 0 }
  needGroups s (c.vstart = 0 && groupsOk (!a.vm) true (.mask a.vd) [m2] && (a.vm || a.vd != 0))
  let f (i : Nat) : Bool × FFlags :=
    let before := (rangeFrom 0 i).any fun j => active s a.vm j && vBit s a.vs2 j
    (match a.op with
      | .vmsbf => !before && !vBit s a.vs2 i
      | .vmsif => !before
      | _ => !before && vBit s a.vs2 i, FFlags.none)
  .ok (putMask s s c a.vd a.vm 512 f)

/-- viota and vid. -/
def vIota (s : State) (a : VArith) : Res State := do
  let c := vcfg s
  let n := c.sew
  let g : VGroup := { r := a.vd, eew := n, em := c.lm }
  let iota := a.op == .viota
  needGroups s (if iota then c.vstart = 0 && groupsOk (!a.vm) true (.group g) [{ r := a.vs2, eew := 1, em := 0 }]
    else groupsOk (!a.vm) false (.group g) [])
  let f (i : Nat) : ERes :=
    ERes.of ((if iota then ((rangeFrom 0 i).filter fun j => active s a.vm j && vBit s a.vs2 j).length else i) % 2 ^ n)
  .ok (putElems s s c a.vd (n / 8) g.regs a.vm f)

/-- vcpop and vfirst. -/
def vCount (s : State) (a : VArith) : Res State := do
  let c := vcfg s
  needGroups s (c.vstart = 0)
  let on := (activeElems s c a.vm).filter (vBit s a.vs2)
  let v : Word := if a.op == .vcpop then word on.length else match on with | i :: _ => word i | [] => word (2 ^ 64 - 1)
  .ok (endVec (wx s a.vd v))

/-- Zero and sign extension. -/
def vExtend (s : State) (a : VArith) (k : Nat) (sgn : Bool) : Res State := do
  let c := vcfg s
  let n := c.sew
  let g : VGroup := { r := a.vd, eew := n, em := c.lm }
  let sn := n / k
  needGroups s (8 ≤ sn && groupsOk (!a.vm) false (.group g) [{ r := a.vs2, eew := sn, em := c.lm - (Nat.log2 k : Nat) }])
  let f (i : Nat) : ERes :=
    let x := vElem s a.vs2 (sn / 8) i
    ERes.of (if sgn then wrap n (signed sn x) else x)
  .ok (putElems s s c a.vd (n / 8) g.regs a.vm f)

/-- vslideup, vslidedown and the slide1 forms; `scalar` is what slide1 inserts. -/
def vSlide (s : State) (a : VArith) (scalar : Nat) : Res State := do
  let c := vcfg s
  let n := c.sew
  let g : VGroup := { r := a.vd, eew := n, em := c.lm }
  let up := a.op == .vslideup || a.op == .vslide1up || a.op == .vfslide1up
  needGroups s (groupsOk (!a.vm) up (.group g) [{ r := a.vs2, eew := n, em := c.lm }])
  let off : Nat := match a.op with
    | .vslideup | .vslidedown => (match a.src with | .x r => (rx s r).toNat | .i z => z.val | .v _ | .f _ => 0)
    | _ => 1
  let el (k : Nat) : Nat := vElem s a.vs2 (n / 8) k
  let f (i : Nat) : ERes :=
    ERes.of (match a.op with
      | .vslideup => if i < off then vElem s a.vd (n / 8) i else el (i - off)
      | .vslidedown => if i + off < c.vlmax then el (i + off) else 0
      | .vslide1up | .vfslide1up => if i = 0 then scalar else el (i - 1)
      | _ => if i + 1 = c.vl then scalar else if i + 1 < c.vlmax then el (i + 1) else 0)
  -- Elements below the offset of vslideup are not body elements.
  let c' := if a.op == .vslideup then { c with vstart := if c.vstart < c.vl then min (max c.vstart off) c.vl else c.vstart } else c
  if a.op == .vslideup && c.vstart < c.vl && c.vl ≤ off then
    .ok (endVec (if c.vta then (rangeFrom c.vl (g.regs * 512 / n - c.vl)).foldl (fun s i => agnostic s a.vd (n / 8) i) s else s))
  else .ok (putElems s s c' a.vd (n / 8) g.regs a.vm f)

/-- vrgather and vrgatherei16. -/
def vGather (s : State) (a : VArith) : Res State := do
  let c := vcfg s
  let n := c.sew
  let g : VGroup := { r := a.vd, eew := n, em := c.lm }
  let in_ := if a.op == .vrgatherei16 then 16 else n
  let im : Int := if a.op == .vrgatherei16 then c.lm + 4 - (Nat.log2 n : Nat) else c.lm
  needGroups s (groupsOk (!a.vm) true (.group g) ({ r := a.vs2, eew := n, em := c.lm } :: srcGroups a.src in_ im))
  let f (i : Nat) : ERes :=
    let k : Nat := match a.src with
      | .v r => vElem s r (in_ / 8) i
      | .x r => (rx s r).toNat
      | .i z => z.val
      | .f _ => 0
    ERes.of (if k < c.vlmax then vElem s a.vs2 (n / 8) k else 0)
  .ok (putElems s s c a.vd (n / 8) g.regs a.vm f)

/-- vcompress. -/
def vCompress (s : State) (a : VArith) : Res State := do
  let c := vcfg s
  let n := c.sew
  let g : VGroup := { r := a.vd, eew := n, em := c.lm }
  let vs1 := vsrcReg a.src
  needGroups s (c.vstart = 0 &&
    groupsOk false true (.group g) [{ r := a.vs2, eew := n, em := c.lm }, { r := vs1, eew := 1, em := 0 }])
  let on := (rangeFrom 0 c.vl).filter (vBit s vs1)
  if c.vl = 0 then .ok (endVec s)
  else
    let t := (rangeFrom 0 on.length).foldl (fun t k => setElem t a.vd (n / 8) k (vElem s a.vs2 (n / 8) (on.getD k 0))) s
    .ok (endVec (if c.vta then
      (rangeFrom on.length (g.regs * 512 / n - on.length)).foldl (fun t k => agnostic t a.vd (n / 8) k) t else t))

/-- vmv.x.s. -/
def vMvXs (s : State) (a : VArith) : Res State := do
  needVl s
  let n := (vcfg s).sew
  .ok (endVec (wx s a.vd (sextWord n (vElem s a.vs2 (n / 8) 0))))

/-- vmv.s.x. -/
def vMvSx (s : State) (a : VArith) : Res State := do
  needVl s
  let c := vcfg s
  .ok (putFirst s c a.vd (c.sew / 8) (ERes.of (srcElem s a.src c.sew 0 false)))

/-- Whole-register moves: they depend on `vtype` only for the width that `vstart` counts in, and are illegal while `vill` is set (V 1.0,
16.6). -/
def vMvr (s : State) (a : VArith) : Res State := do
  needVl s
  let k := (vsrcReg a.src).val + 1
  if a.vd.val % k != 0 || a.vs2.val % k != 0 then illegal s
  else
    let from_ := s.h.csr.vstart * ((vcfg s).sew / 8)
    let t := (rangeFrom 0 k).foldl (fun t j =>
      let b := min 64 (from_ - 64 * j)
      let old := (rv t (regPlus a.vd j)).toNat
      let new := (rv s (regPlus a.vs2 j)).toNat
      wv t (regPlus a.vd j) (BitVec.ofNat 512 (old % 256 ^ b + new / 256 ^ b * 256 ^ b))) s
    .ok (endVec t)

end Sys2Proof.Machine
end

