-- ==== Sys2Proof/Machine/VectorFp.lean ====
section
/-! DEFINITION. Vector floating point (R210, V 1.0): FP32 and FP64 elements, subnormals kept, `fflags` set as specified. An
instruction whose elements have another width is an illegal instruction. -/

namespace Sys2Proof.Machine

/-- The format of elements of a width; 16-bit and 8-bit elements have none. -/
def vFmt (n : Nat) : Option FFmt := if n = 32 then some FFmt.fp32 else if n = 64 then some FFmt.fp64 else none

/-- Checks of every vector floating-point instruction: FS not Off and a legal `frm`. -/
def needVf (s : State) : Res RM := do
  needF s
  dynRounding s

/-- The format of the present SEW. -/
def needFmt (s : State) (n : Nat) : Res FFmt :=
  match vFmt n with
  | some f => .ok f
  | none => illegal s

/-! Estimates -/

/-- Table of vfrec7: 7 bits for the middle of each of 128 intervals. -/
def rec7Table (i : Nat) : Nat := (65536 + (257 + 2 * i) / 2) / (257 + 2 * i) - 128

/-- Table of vfrsqrt7, by the low bit of the exponent and 6 bits of the significand. -/
def rsqrt7Table (odd : Bool) (i : Nat) : Nat :=
  (isqrt (4 * 65536 * 128 / ((129 + 2 * i) * if odd then 1 else 2)) 16 0 + 1) / 2 - 128

/-- Exponent and fraction with a subnormal normalised. -/
def normParts (f : FFmt) (a : Nat) : Int × Nat :=
  let e := a / 2 ^ f.mb % 2 ^ f.eb
  let m := a % 2 ^ f.mb
  if e = 0 then
    let k := f.mb - Nat.log2 m
    (1 - (k : Int), m * 2 ^ k % 2 ^ f.mb)
  else (e, m)

/-- vfrec7. -/
def rec7 (f : FFmt) (rm : RM) (a : Nat) : Coded :=
  match f.value a with
  | .nan => quietNan f (f.isSnan a)
  | .inf n => (f.signed n 0, FFlags.none)
  | .fin n m _ =>
    if m = 0 then (f.signed n f.infCode, { FFlags.none with dz := true })
    else
      let (e, sig) := normParts f a
      if e < -1 then
        (f.signed n (if rm.saturates n then f.maxCode else f.infCode), { FFlags.none with of := true, nx := true })
      else
        let out := rec7Table (sig / 2 ^ (f.mb - 7)) * 2 ^ (f.mb - 7)
        let oe : Int := 2 * f.bias - 1 - e
        let code : Nat :=
          if oe = 0 then out / 2 + 2 ^ (f.mb - 1)
          else if oe = -1 then (out / 2 + 2 ^ (f.mb - 1)) / 2
          else oe.toNat * 2 ^ f.mb + out
        (f.signed n code, FFlags.none)

/-- vfrsqrt7. -/
def rsqrt7 (f : FFmt) (a : Nat) : Coded :=
  match f.value a with
  | .nan => quietNan f (f.isSnan a)
  | .inf n => if n then quietNan f true else (0, FFlags.none)
  | .fin n m _ =>
    if m = 0 then (f.signed n f.infCode, { FFlags.none with dz := true })
    else if n then quietNan f true
    else
      let (e, sig) := normParts f a
      let out := rsqrt7Table (e % 2 = 1) (sig / 2 ^ (f.mb - 6)) * 2 ^ (f.mb - 7)
      (((3 * (f.bias : Int) - 1 - e) / 2).toNat * 2 ^ f.mb + out, FFlags.none)

/-! Element operations -/

/-- Single-width operations: `a` of vs2, `b` of the source, `d` the old destination. -/
def vFp (op : VOp) (f : FFmt) (rm : RM) (a b d : Nat) : Option Coded :=
  match op with
  | .vfadd => some (f.add rm a b)
  | .vfsub => some (f.sub rm a b)
  | .vfrsub => some (f.sub rm b a)
  | .vfmul => some (f.mul rm a b)
  | .vfdiv => some (f.div rm a b)
  | .vfrdiv => some (f.div rm b a)
  | .vfmin => some (f.minmax false a b)
  | .vfmax => some (f.minmax true a b)
  | .vfsgnj => some (f.inject .j a b, FFlags.none)
  | .vfsgnjn => some (f.inject .jn a b, FFlags.none)
  | .vfsgnjx => some (f.inject .jx a b, FFlags.none)
  | .vfmadd => some (f.fma rm false false b d a)
  | .vfnmadd => some (f.fma rm true true b d a)
  | .vfmsub => some (f.fma rm false true b d a)
  | .vfnmsub => some (f.fma rm true false b d a)
  | .vfmacc => some (f.fma rm false false b a d)
  | .vfnmacc => some (f.fma rm true true b a d)
  | .vfmsac => some (f.fma rm false true b a d)
  | .vfnmsac => some (f.fma rm true false b a d)
  | _ => none

/-- Unary operations. -/
def vFpUnary (op : VOp) (f : FFmt) (rm : RM) (n a : Nat) : Option Coded :=
  match op with
  | .vfsqrt => some (f.sqrt rm a)
  | .vfrsqrt7 => some (rsqrt7 f a)
  | .vfrec7 => some (rec7 f rm a)
  | .vfclass => some (f.classify a, FFlags.none)
  | .vfcvtxuf => some (f.toInt rm false n a)
  | .vfcvtxf => some (f.toInt rm true n a)
  | .vfcvtrtzxuf => some (f.toInt .rtz false n a)
  | .vfcvtrtzxf => some (f.toInt .rtz true n a)
  | .vfcvtfxu => some (f.ofInt rm (a : Int))
  | .vfcvtfx => some (f.ofInt rm (signed n a))
  | _ => none

/-- Comparisons. -/
def vFpCmp (op : VOp) (f : FFmt) (a b : Nat) : Option (Bool × FFlags) :=
  match op with
  | .vmfeq => some (f.eq a b)
  | .vmfne => let r := f.eq a b; some (!r.1, r.2)
  | .vmflt => some (f.lt a b)
  | .vmfle => some (f.le a b)
  | .vmfgt => some (f.lt b a)
  | .vmfge => some (f.le b a)
  | _ => none

/-- FP32 to FP64, exact, with the invalid flag of a signalling NaN. -/
def widen64 (a : Nat) : Coded := FFmt.fp32.convert FFmt.fp64 .rne a

/-- Widening operations into FP64; `a` is wide already in the `w` forms. -/
def vFpWide (op : VOp) (rm : RM) (a b d : Nat) : Option Coded :=
  let g := FFmt.fp64
  let wa := widen64 a
  let wb := widen64 b
  let join (f : FFlags) (c : Coded) : Option Coded := some (c.1, c.2.or f)
  let both := wa.2.or wb.2
  match op with
  | .vfwadd => join both (g.add rm wa.1 wb.1)
  | .vfwsub => join both (g.sub rm wa.1 wb.1)
  | .vfwmul => join both (g.mul rm wa.1 wb.1)
  | .vfwaddw => join wb.2 (g.add rm a wb.1)
  | .vfwsubw => join wb.2 (g.sub rm a wb.1)
  | .vfwmacc => join both (g.fma rm false false wb.1 wa.1 d)
  | .vfwnmacc => join both (g.fma rm true true wb.1 wa.1 d)
  | .vfwmsac => join both (g.fma rm false true wb.1 wa.1 d)
  | .vfwnmsac => join both (g.fma rm true false wb.1 wa.1 d)
  | _ => none

/-! Bodies by shape -/

/-- An operation of one width. -/
def vfSingle (s : State) (a : VArith) : Res State := do
  needVl s
  let rm ← needVf s
  let c := vcfg s
  let n := c.sew
  let fmt ← needFmt s n
  let g : VGroup := { r := a.vd, eew := n, em := c.lm }
  needGroups s (groupsOk (!a.vm) false (.group g) ({ r := a.vs2, eew := n, em := c.lm } :: srcGroups a.src n c.lm))
  let f (i : Nat) : ERes :=
    ERes.coded ((vFp a.op fmt rm (vElem s a.vs2 (n / 8) i) (srcElem s a.src n i false) (vElem s a.vd (n / 8) i)).getD
      (0, FFlags.none))
  .ok (putElems s s c a.vd (n / 8) g.regs a.vm f)

/-- Unary operations and conversions of one width. -/
def vfUnary (s : State) (a : VArith) : Res State := do
  needVl s
  let rm ← needVf s
  let c := vcfg s
  let n := c.sew
  let fmt ← needFmt s n
  let g : VGroup := { r := a.vd, eew := n, em := c.lm }
  needGroups s (groupsOk (!a.vm) false (.group g) [{ r := a.vs2, eew := n, em := c.lm }])
  let f (i : Nat) : ERes := ERes.coded ((vFpUnary a.op fmt rm n (vElem s a.vs2 (n / 8) i)).getD (0, FFlags.none))
  .ok (putElems s s c a.vd (n / 8) g.regs a.vm f)

/-- vfmerge and vfmv.v.f. -/
def vfMerge (s : State) (a : VArith) : Res State := do
  needVl s
  let _ ← needVf s
  let c := vcfg s
  let n := c.sew
  let _ ← needFmt s n
  let g : VGroup := { r := a.vd, eew := n, em := c.lm }
  needGroups s (groupsOk (!a.vm) false (.group g) (if a.vm then [] else [{ r := a.vs2, eew := n, em := c.lm }]))
  let f (i : Nat) : ERes :=
    ERes.of (if a.vm || maskBit s i then srcElem s a.src n i false else vElem s a.vs2 (n / 8) i)
  .ok (putElems s s c a.vd (n / 8) g.regs true f)

/-- Comparisons. -/
def vfCompare (s : State) (a : VArith) : Res State := do
  needVl s
  let _ ← needVf s
  let c := vcfg s
  let n := c.sew
  let fmt ← needFmt s n
  needGroups s (groupsOk (!a.vm) false (.mask a.vd) ({ r := a.vs2, eew := n, em := c.lm } :: srcGroups a.src n c.lm))
  let f (i : Nat) : Bool × FFlags :=
    (vFpCmp a.op fmt (vElem s a.vs2 (n / 8) i) (srcElem s a.src n i false)).getD (false, FFlags.none)
  .ok (putMask s s c a.vd a.vm c.vlmax f)

/-- Widening operations, FP32 into FP64. -/
def vfWiden (s : State) (a : VArith) : Res State := do
  needVl s
  let rm ← needVf s
  let c := vcfg s
  let g : VGroup := { r := a.vd, eew := 64, em := c.lm + 1 }
  let wa := a.op == .vfwaddw || a.op == .vfwsubw
  let g2 : VGroup := if wa then { r := a.vs2, eew := 64, em := c.lm + 1 } else { r := a.vs2, eew := 32, em := c.lm }
  let acc := match a.op with
    | .vfwmacc | .vfwnmacc | .vfwmsac | .vfwnmsac => [g]
    | _ => []
  needGroups s (c.sew = 32 && groupsOk (!a.vm) false (.group g) (acc ++ g2 :: srcGroups a.src 32 c.lm))
  let f (i : Nat) : ERes :=
    ERes.coded ((vFpWide a.op rm (vElem s a.vs2 (g2.eew / 8) i) (srcElem s a.src 32 i false) (vElem s a.vd 8 i)).getD
      (0, FFlags.none))
  .ok (putElems s s c a.vd 8 g.regs a.vm f)

/-- Widening conversions: the source width is SEW. -/
def vfWidenCvt (s : State) (a : VArith) : Res State := do
  needVl s
  let rm ← needVf s
  let c := vcfg s
  let n := c.sew
  let toFp := a.op == .vfwcvtfxu || a.op == .vfwcvtfx
  let g : VGroup := { r := a.vd, eew := 2 * n, em := c.lm + 1 }
  needGroups s (((toFp && (n = 16 || n = 32)) || (!toFp && n = 32)) &&
    groupsOk (!a.vm) false (.group g) [{ r := a.vs2, eew := n, em := c.lm }])
  let dst := if n = 16 then FFmt.fp32 else FFmt.fp64
  let f (i : Nat) : ERes :=
    let x := vElem s a.vs2 (n / 8) i
    ERes.coded (match a.op with
      | .vfwcvtxuf => FFmt.fp32.toInt rm false 64 x
      | .vfwcvtxf => FFmt.fp32.toInt rm true 64 x
      | .vfwcvtrtzxuf => FFmt.fp32.toInt .rtz false 64 x
      | .vfwcvtrtzxf => FFmt.fp32.toInt .rtz true 64 x
      | .vfwcvtfxu => dst.ofInt rm (x : Int)
      | .vfwcvtfx => dst.ofInt rm (signed n x)
      | _ => widen64 x)
  .ok (putElems s s c a.vd (n / 4) g.regs a.vm f)

/-- Narrowing conversions: the destination width is SEW. -/
def vfNarrowCvt (s : State) (a : VArith) : Res State := do
  needVl s
  let rm ← needVf s
  let c := vcfg s
  let n := c.sew
  let toInt := a.op == .vfncvtxuf || a.op == .vfncvtxf || a.op == .vfncvtrtzxuf || a.op == .vfncvtrtzxf
  let g : VGroup := { r := a.vd, eew := n, em := c.lm }
  needGroups s (((toInt && (n = 16 || n = 32)) || (!toInt && n = 32)) &&
    groupsOk (!a.vm) false (.group g) [{ r := a.vs2, eew := 2 * n, em := c.lm + 1 }])
  let src := if n = 16 then FFmt.fp32 else FFmt.fp64
  let f (i : Nat) : ERes :=
    let x := vElem s a.vs2 (n / 4) i
    ERes.coded (match a.op with
      | .vfncvtxuf => src.toInt rm false n x
      | .vfncvtxf => src.toInt rm true n x
      | .vfncvtrtzxuf => src.toInt .rtz false n x
      | .vfncvtrtzxf => src.toInt .rtz true n x
      | .vfncvtfxu => FFmt.fp32.ofInt rm (x : Int)
      | .vfncvtfx => FFmt.fp32.ofInt rm (signed 64 x)
      | .vfncvtrodff => FFmt.fp64.convert FFmt.fp32 .rod x
      | _ => FFmt.fp64.convert FFmt.fp32 rm x)
  .ok (putElems s s c a.vd (n / 8) g.regs a.vm f)

/-- The unordered sum of a list under a free order: the first two values are added, and the sum goes to the front or to the end
(log 28). -/
def sumFree (f : FFmt) (rm : RM) : Nat → State → List Nat → FFlags → State × Coded
  | 0, s, l, fl => (s, (l.headD 0, fl))
  | k + 1, s, l, fl =>
    match l with
    | a :: b :: r =>
      let (n, s) := draw s
      let c := f.add rm a b
      let at_ := Config.sumOrder n % (r.length + 1)
      sumFree f rm k s (r.take at_ ++ c.1 :: r.drop at_) (fl.or c.2)
    | _ => (s, (l.headD 0, fl))

/-- Floating-point reductions. With no active element the scalar passes through unchanged. -/
def vfReduce (s : State) (a : VArith) : Res State := do
  needVl s
  let rm ← needVf s
  let c := vcfg s
  let n := c.sew
  let wide := a.op == .vfwredusum || a.op == .vfwredosum
  let fmt ← needFmt s n
  let vs1 := vsrcReg a.src
  let m := if wide then 64 else n
  let g2 : VGroup := { r := a.vs2, eew := n, em := c.lm }
  needGroups s (c.vstart = 0 && (!wide || n = 32) && groupsOk (!a.vm) false (.scalar a.vd) [g2, { r := vs1, eew := m, em := 0 }])
  let dst := if wide then FFmt.fp64 else fmt
  let elem (i : Nat) : Coded := let x := vElem s a.vs2 (n / 8) i; if wide then widen64 x else (x, FFlags.none)
  let els := (activeElems s c a.vm).map elem
  let first := vElem s vs1 (m / 8) 0
  let fl := els.foldl (fun f e => f.or e.2) FFlags.none
  let fold (g : Nat → Nat → Coded) : Coded :=
    els.foldl (fun (acc : Coded) e => let r := g acc.1 e.1; (r.1, acc.2.or r.2)) (first, fl)
  match a.op with
  | .vfredmin => .ok (putFirst s c a.vd (m / 8) (ERes.coded (fold fun x y => dst.minmax false x y)))
  | .vfredmax => .ok (putFirst s c a.vd (m / 8) (ERes.coded (fold fun x y => dst.minmax true x y)))
  | .vfredosum | .vfwredosum => .ok (putFirst s c a.vd (m / 8) (ERes.coded (fold fun x y => dst.add rm x y)))
  | _ =>
    let (t, r) := sumFree dst rm els.length s (first :: els.map (·.1)) fl
    .ok (putFirst t c a.vd (m / 8) (ERes.coded r))

/-- vfmv.f.s. -/
def vfMvFs (s : State) (a : VArith) : Res State := do
  needVl s
  let _ ← needVf s
  let n := (vcfg s).sew
  let _ ← needFmt s n
  let x := vElem s a.vs2 (n / 8) 0
  .ok (endVec (if n = 32 then writeF s .s a.vd x else wf s a.vd (word x)))

/-- vfmv.s.f. -/
def vfMvSf (s : State) (a : VArith) : Res State := do
  needVl s
  let _ ← needVf s
  let c := vcfg s
  let _ ← needFmt s c.sew
  .ok (putFirst s c a.vd (c.sew / 8) (ERes.of (srcElem s a.src c.sew 0 false)))

/-- vfslide1up and vfslide1down. -/
def vfSlide (s : State) (a : VArith) : Res State := do
  needVl s
  let _ ← needVf s
  let n := (vcfg s).sew
  let _ ← needFmt s n
  vSlide s a (srcElem s a.src n 0 false)

/-- The body of a vector arithmetic word. -/
def varithBody (a : VArith) (s : State) : Res State :=
  match a.op with
  | .vadd | .vsub | .vrsub | .vminu | .vmin | .vmaxu | .vmax | .vand | .vor | .vxor
  | .vsaddu | .vsadd | .vssubu | .vssub | .vsll | .vsmul | .vsrl | .vsra | .vssrl | .vssra
  | .vaaddu | .vaadd | .vasubu | .vasub | .vdivu | .vdiv | .vremu | .vrem | .vmulhu | .vmul | .vmulhsu | .vmulh
  | .vmadd | .vnmsub | .vmacc | .vnmsac => vSingle s a
  | .vadc | .vsbc | .vmerge => vCarry s a
  | .vmadc | .vmsbc | .vmseq | .vmsne | .vmsltu | .vmslt | .vmsleu | .vmsle | .vmsgtu | .vmsgt => vCompare s a
  | .vwaddu | .vwadd | .vwsubu | .vwsub | .vwadduw | .vwaddw | .vwsubuw | .vwsubw
  | .vwmulu | .vwmulsu | .vwmul | .vwmaccu | .vwmacc | .vwmaccus | .vwmaccsu => vWiden s a
  | .vnsrl | .vnsra | .vnclipu | .vnclip => vNarrowing s a
  | .vwredsumu | .vwredsum | .vredsum | .vredand | .vredor | .vredxor | .vredminu | .vredmin | .vredmaxu | .vredmax => vReduce s a
  | .vslideup | .vslidedown => vSlide s a 0
  | .vslide1up | .vslide1down => do
    needVl s
    vSlide s a (srcElem s a.src (vcfg s).sew 0 false)
  | .vrgather | .vrgatherei16 => vGather s a
  | .vcompress => vCompress s a
  | .vmvr => vMvr s a
  | .vmvxs => vMvXs s a
  | .vmvsx => vMvSx s a
  | .vcpop | .vfirst => vCount s a
  | .vzext2 => vExtend s a 2 false
  | .vzext4 => vExtend s a 4 false
  | .vzext8 => vExtend s a 8 false
  | .vsext2 => vExtend s a 2 true
  | .vsext4 => vExtend s a 4 true
  | .vsext8 => vExtend s a 8 true
  | .vmsbf | .vmsof | .vmsif => vSetFirst s a
  | .viota | .vid => vIota s a
  | .vmandn | .vmand | .vmor | .vmxor | .vmorn | .vmnand | .vmnor | .vmxnor => vMaskLogic s a
  | .vfadd | .vfsub | .vfrsub | .vfmul | .vfdiv | .vfrdiv | .vfmin | .vfmax | .vfsgnj | .vfsgnjn | .vfsgnjx
  | .vfmadd | .vfnmadd | .vfmsub | .vfnmsub | .vfmacc | .vfnmacc | .vfmsac | .vfnmsac => vfSingle s a
  | .vfslide1up | .vfslide1down => vfSlide s a
  | .vfmvfs => vfMvFs s a
  | .vfmvsf => vfMvSf s a
  | .vfmerge => vfMerge s a
  | .vmfeq | .vmfle | .vmflt | .vmfne | .vmfgt | .vmfge => vfCompare s a
  | .vfredusum | .vfredosum | .vfredmin | .vfredmax | .vfwredusum | .vfwredosum => vfReduce s a
  | .vfwadd | .vfwsub | .vfwaddw | .vfwsubw | .vfwmul | .vfwmacc | .vfwnmacc | .vfwmsac | .vfwnmsac => vfWiden s a
  | .vfsqrt | .vfrsqrt7 | .vfrec7 | .vfclass | .vfcvtxuf | .vfcvtxf | .vfcvtfxu | .vfcvtfx | .vfcvtrtzxuf | .vfcvtrtzxf =>
    vfUnary s a
  | .vfwcvtxuf | .vfwcvtxf | .vfwcvtfxu | .vfwcvtfx | .vfwcvtff | .vfwcvtrtzxuf | .vfwcvtrtzxf => vfWidenCvt s a
  | .vfncvtxuf | .vfncvtxf | .vfncvtfxu | .vfncvtfx | .vfncvtff | .vfncvtrodff | .vfncvtrtzxuf | .vfncvtrtzxf => vfNarrowCvt s a

end Sys2Proof.Machine
end

