-- ==== Sys2Proof/Machine/VectorMem.lean ====
section
/-! DEFINITION. Vector loads and stores (R209, V 1.0), checked element by element against the hart's holdings. -/

namespace Sys2Proof.Machine

/-- A vector access resolved: elements, fields, width in bytes of a field, registers of a field's group, and whether the settings
of `vtype` apply. -/
structure VAccess where
  evl : Nat
  nf : Nat
  w : Nat
  regs : Nat
  /-- The mask form and the whole-register form take no tail policy of `vtype`. -/
  plain : Bool
  masked : Bool
  /-- Elements of one field's group. -/
  total : Nat
  deriving DecidableEq, Repr

/-- EMUL's exponent of an element width beside SEW and LMUL. -/
def emulOf (c : VCfg) (eew : Nat) : Int := c.lm + (Nat.log2 eew : Nat) - (Nat.log2 c.sew : Nat)

/-- The legality of a data group of `nf` fields: EMUL in range, EMUL * NFIELDS at most 8, registers below v31. -/
def fieldsOk (vd : Reg) (em : Int) (nf : Nat) : Bool :=
  let g : VGroup := { r := vd, eew := 8, em := em }
  g.ok && nf * g.regs ≤ 8 && vd.val + nf * g.regs ≤ 32

/-- Resolve a vector access, with the checks of V 1.0 on its registers. -/
def resolve (s : State) (v : VMem) (load : Bool) : Res VAccess := do
  needV s
  let nf := v.nf.val + 1
  let w := 2 ^ v.ew.val
  let one (w : Nat) : VGroup := { r := v.vd, eew := 8 * w, em := 0 }
  match v.mop with
  | .whole =>
    if v.vd.val % nf != 0 then illegal s
    else .ok { evl := nf * 64 / w, nf := 1, w := w, regs := nf, plain := true, masked := false, total := nf * 64 / w }
  | .mask => do
    needVl s
    .ok { evl := ((vcfg s).vl + 7) / 8, nf := 1, w := 1, regs := 1, plain := true, masked := false, total := 64 }
  | .unit | .ff | .strided _ => do
    needVl s
    let c := vcfg s
    let em := emulOf c (8 * w)
    let g : VGroup := { r := v.vd, eew := 8 * w, em := em }
    let all := (List.range nf).map fun f => ({ g with r := regPlus v.vd (f * g.regs) } : VGroup)
    if fieldsOk v.vd em nf &&
        all.all (fun g => if load then groupsOk (!v.vm) false (.group g) [] else groupsOk (!v.vm) false .none [g]) then
      .ok { evl := c.vl, nf := nf, w := w, regs := g.regs, plain := false, masked := !v.vm, total := g.regs * 64 / w }
    else illegal s
  | .indexed _ vs2 => do
    needVl s
    let c := vcfg s
    let g : VGroup := { one (c.sew / 8) with em := c.lm }
    let ix : VGroup := { r := vs2, eew := 8 * w, em := emulOf c (8 * w) }
    let all := (List.range nf).map fun f => ({ g with r := regPlus v.vd (f * g.regs) } : VGroup)
    if fieldsOk v.vd c.lm nf && all.all (fun g =>
        if load then groupsOk (!v.vm) (1 < nf) (.group g) [ix] else groupsOk (!v.vm) false .none [g, ix]) then
      .ok { evl := c.vl, nf := nf, w := c.sew / 8, regs := g.regs, plain := false, masked := !v.vm, total := g.regs * 512 / c.sew }
    else illegal s

/-- Address of field `f` of element `i`. -/
def elemAddr (s : State) (v : VMem) (a : VAccess) (i f : Nat) : Nat :=
  let base := addrReg s v.rs1
  (match v.mop with
   | .unit | .ff | .whole | .mask => base + (i * a.nf + f) * a.w
   | .strided rs2 => base + i * (rx s rs2).toNat + f * a.w
   | .indexed _ vs2 => base + vElem s vs2 (2 ^ v.ew.val) i + f * a.w) % 2 ^ 64

/-- The elements that the access performs, in order. -/
def accessElems (s : State) (a : VAccess) : List Nat :=
  (rangeFrom s.h.csr.vstart (a.evl - s.h.csr.vstart)).filter fun i => !a.masked || maskBit s i

/-- Whether some byte of the access is LENT to the hart's own engine commands. -/
def meetsLent (s : State) (v : VMem) (a : VAccess) (els : List Nat) : Bool :=
  els.any fun i => (rangeFrom 0 a.nf).any fun f =>
    let va := elemAddr s v a i f
    (linesOf va a.w).any fun l => rightAt s (if l < va then va else l) == .lent

/-- Load the fields of an element. -/
def loadFields (s : State) (v : VMem) (a : VAccess) (old : State) (i : Nat) : Res State :=
  (rangeFrom 0 a.nf).foldlM (fun (t : State) f => do
    let va := elemAddr old v a i f
    let (bytes, t) ← loadBytes t va a.w true
    .ok (setElem t (regPlus v.vd (f * a.regs)) a.w i (leNat bytes))) s

/-- Store the fields of an element: all are checked before any is written. `n` is the hart's ST before the instruction, which its first byte
outside DEVICE raises. -/
def storeFields (s : State) (v : VMem) (a : VAccess) (n : Nat) (i : Nat) : Res State := do
  let (t, ws) ← (rangeFrom 0 a.nf).foldlM (fun (p : State × List (Nat × List Nat × List Byte)) f => do
    let va := elemAddr s v a i f
    if inHole va then .error (.trap 7 (word va))
    checkElem p.1 va a.w true
    let (pas, t) ← translateRange p.1 .store va a.w
    .ok (t, p.2 ++ [(va, pas, leBytes a.w (vElem s (regPlus v.vd (f * a.regs)) a.w i))])) (s, [])
  match doAll (fun t (p : Nat × List Nat × List Byte) => writePas t p.2.1 p.2.2) ws t with
  | (t, true) => .ok (ws.foldl (fun t p => if t.h.stOut.length = n then raiseStore t p.1 p.2.1 else widenStore t p.2.1) t)
  | (t, false) => .error (.stall t)

/-- Where a vector access stopped: the element, the state with the elements below it performed, and why. -/
structure VStop where
  elem : Nat
  state : State
  exc : Exc

/-- Perform elements in order. -/
def runElems (step : State → Nat → Res State) : List Nat → State → Except VStop State
  | [], s => .ok s
  | i :: r, s => match step s i with
    | .ok t => runElems step r t
    | .error e => .error { elem := i, state := s, exc := e }

/-- The exception of an access that stopped at an element: `vstart` names it. One that stalls begins again, and what it had performed is
performed again; its counts had not risen. -/
def stopAt (s : State) (p : VStop) : Exc :=
  let at_ (t : State) : State := dirtyV (modC t fun c => { c with vstart := p.elem })
  let again (t : State) : State := { t with
    h := s.h
    pending := s.pending ++ (t.pending.drop s.pending.length).filter fun i => i != .storePerformed s.h.loc && i != .loadDataReturn s.h.loc }
  match p.exc with
  | .trap c v => .trapAt (at_ p.state) c v
  | .trapAt t c v => .trapAt (at_ { t with h := p.state.h }) c v
  | .stall t => .stall (again t)
  | .point t => .point (again t)

/-- Tail and masked-off elements of a load, by the policies. -/
def loadPolicy (s : State) (v : VMem) (a : VAccess) (c : VCfg) : State :=
  if a.plain then
    (match v.mop with
     | .mask => (rangeFrom a.evl (64 - a.evl)).foldl (fun s i => agnostic s v.vd 1 i) s
     | .unit | .ff | .whole | .strided _ | .indexed _ _ => s)
  else
    (rangeFrom 0 a.nf).foldl (fun s f =>
      (rangeFrom c.vstart (a.total - c.vstart)).foldl (fun s i =>
        let r := regPlus v.vd (f * a.regs)
        if i < c.vl then (if a.masked && !maskBit s i && c.vma then agnostic s r a.w i else s)
        else if c.vta then agnostic s r a.w i else s) s) s

/-- The elements that a trimmed fault-only-first load leaves unspecified (V 1.0, 7.7): each keeps its value or takes a free one
(log 21). -/
def spoil (s : State) (v : VMem) (a : VAccess) (els : List Nat) : State :=
  els.foldl (fun s i => (rangeFrom 0 a.nf).foldl (fun s f =>
    let (n, s) := draw s
    if Config.agnosticOnes n then setElem s (regPlus v.vd (f * a.regs)) a.w i (Config.freeWord n).toNat else s) s) s

/-- A vector load. It counts in LD as far as it is performed: one that stops at its first element has done nothing (R112, R130). -/
def vloadBody (v : VMem) (s : State) : Res State := do
  let a ← resolve s v true
  let els := accessElems s a
  if a.evl ≤ s.h.csr.vstart then .ok (endVec s)
  else if meetsLent s v a els then .error (.point s)
  else if 255 ≤ s.h.ldOut then .error (.stall s)
  else
    match runElems (fun t i => loadFields t v a s i) els s with
    | .ok t => .ok (endVec (loadPolicy (raiseLoad t) v a (vcfg s)))
    | .error p =>
      if v.mop == .ff && p.elem != 0 then
        match p.exc with
        | .stall _ => .error (.stall s)
        | .point _ => .error (.point s)
        | .trap _ _ | .trapAt _ _ _ =>
          let t := dirtyV (modC (raiseLoad p.state) fun c => { c with vl := p.elem })
          .ok (endVec (spoil t v a (els.filter fun i => p.elem ≤ i)))
      else .error (match stopAt s p with
        | .trapAt t c v => .trapAt (if els.head? == some p.elem then t else raiseLoad t) c v
        | e => e)

def execVectorLoad (v : VMem) (s : State) : Host.Outcome State Fault Refusal := seq s (vloadBody v s)

/-- Whether an element of a vector store writes bytes outside DEVICE, in its first byte or, past the end of a page, in its last. -/
def storesSlow (s : State) (v : VMem) (a : VAccess) (i : Nat) : Bool :=
  (rangeFrom 0 a.nf).any fun f => [elemAddr s v a i f, elemAddr s v a i f + a.w - 1].any fun va => match translate s .store va with
    | .ok (pa, _) => !isDevicePa pa
    | .error _ => false

/-- A vector store; it counts once in ST when it writes bytes outside DEVICE, as far as it is performed (R130). -/
def vstoreBody (v : VMem) (s : State) : Res State := do
  let a ← resolve s v false
  let els := accessElems s a
  if els.isEmpty then .ok (endVec s)
  else if meetsLent s v a els then .error (.point s)
  else if 255 ≤ s.h.stOut.length && els.any (storesSlow s v a) then .error (.stall s)
  else
    match runElems (fun t i => storeFields t v a s.h.stOut.length i) els s with
    | .ok t => .ok (endVec t)
    | .error p => .error (stopAt s p)

def execVectorStore (v : VMem) (s : State) : Host.Outcome State Fault Refusal := seq s (vstoreBody v s)

/-! The words of `Base` -/

/-- A base instruction without a row of its own (R28). -/
def vsetBody (b : Base) (s : State) : Res State :=
  match b with
  | .vsetvli rd rs1 vt => do
    needV s
    .ok (setVtype s rd vt.toNat (avlOf s rd rs1))
  | .vsetivli rd avl vt => do
    needV s
    .ok (setVtype s rd vt.toNat (some avl.val))
  | .vsetvl rd rs1 rs2 => do
    needV s
    .ok (setVtype s rd (rx s rs2).toNat (avlOf s rd rs1))
  | _ => illegal s

end Sys2Proof.Machine
end

