-- ==== Sys2Proof/Machine/Base.lean ====
section
/-! DEFINITION. The base instructions that have no row of their own (R28): what `step` runs beside `exec`. -/

namespace Sys2Proof.Machine

/-- A base instruction without a row. -/
def execBase (b : Base) (s : State) : Host.Outcome State Fault Refusal :=
  match b with
  | .vsetvli _ _ _ | .vsetivli _ _ _ | .vsetvl _ _ _ => seq s (vsetBody b s)
  | .varith a => seq s (varithBody a s)
  | _ => finish s (scalarBody b s)

end Sys2Proof.Machine
end

