-- ==== Sys2Proof/Machine/Deposit.lean ====
section
/-! DEFINITION. Deposit windows: elements and aggregation (R134 to R146), the home slices (R147 to R150), the fault log and DFLUSH
(R151 to R154), and the drain of a window (R155). -/

namespace Sys2Proof.Machine

/-! Homes (R134) -/

/-- Window home slice of a buffer; none for a level that has none. -/
def windowHome (s : State) (i : Nat) (c : Cap) : Option Nat :=
  match c.level with
  | .tile => some ((c.base - 0x010000000000) / 0x01000000)
  | .cluster => some ((c.base - 0x011000000000) / 0x01000000)
  | .device => (tensorLinePa s i 0).map homeSlice
  | .host | .pool | .remote => none

/-- Line home slice of an offset of a window. Those of device d are 64 (d + 1) to 64 (d + 1) + 63: the slice that the line's REMOTE address gives
stands for the slice of the device that stores it (log 78). -/
def lineHome (s : State) (i : Nat) (c : Cap) (off : Nat) : Nat :=
  match c.level with
  | .device => match tensorLinePa s i (off / 128) with | some pa => homeSlice pa | none => 0
  | .remote => 64 * (storingDevice c + 1) + homeSlice (c.base + off)
  | .tile | .cluster | .host | .pool => (windowHome s i c).getD 0

/-! Elements (R137 to R139) -/

/-- Code of a store element, and of the second slot of a returning CAS (R142). -/
def opStore : Nat := 0x10

/-- Bytes that an element of a size code covers. -/
def sizeBytes (size : Nat) : Nat := if size < 4 then 2 ^ size else 1

/-- The DEPOSIT holding, live or void, that covers an address. A void one covers the buffer also after BREVOKE has raised its generation (R135);
none covers a tile out of service (R19). -/
def depositAt (s : State) (va : Nat) : Option (Holding × Cap) :=
  let a := capAddr s va
  if outOfTile s a then none else
  firstSome (fun g =>
    match capAt s g.index with
    | some c =>
      if g.kind == .deposit && c.state != .free && c.base ≤ a && a < c.base + c.length &&
        (if g.void then c.had g.gen else c.gen == g.gen && g.units != 0) then some (g, c) else none
    | none => none) s.h.holdings

/-- The issue checks of R137. -/
def needDeposit (s : State) (va n : Nat) : Res (Holding × Cap) := do
  check (va % n = 0) 6 (word va)
  match depositAt s va with
  | some p => .ok p
  | none => .error (.trap causeOwnership (word va))

/-- What DA.op writes: `w` bits, operand `v`, expected value `e` (R139). -/
def depValue (op w old v e : Nat) : Nat :=
  let m := 2 ^ w
  let lt : Bool := signed w old < signed w v
  match op with
  | 0 => (old + v) % m
  | 1 => if lt then old else v
  | 2 => if lt then v else old
  | 3 => min old v
  | 4 => max old v
  | 5 => old &&& v
  | 6 => old ||| v
  | 7 => old ^^^ v
  | 8 => v
  | 9 => if old = e then v else old
  | 10 => (FFmt.fp32.add .rne old v).1
  | _ => v

/-- New contents of the bytes of an element, as one number (R138, R139). -/
def elemValue (k : Slot) (old : Nat) : Nat :=
  let w := 8 * sizeBytes k.size
  let v := k.value.toNat % 2 ^ w
  if k.size = 4 then old / 16 * 16 + v % 16
  else if k.size = 5 then old % 16 + v % 16 * 16
  else depValue k.op w old v (k.expect.toNat % 2 ^ w)

/-! Aggregation (R142 to R146) -/

/-- Slots of the payload that an element takes: two for a returning CAS. -/
def slotCost (k : Slot) : Nat := if k.op = 9 && k.returning then 2 else 1
/-- Slots of a buffer in use. -/
def usedSlots (l : List Slot) : Nat := l.foldl (fun n k => n + slotCost k) 0

/-- Elements whose bytes overlap. -/
def Slot.overlaps (a b : Slot) : Bool := a.offset < b.offset + sizeBytes b.size && b.offset < a.offset + sizeBytes a.size

/-- Whether a new element joins a slot (R145), the slot being the latest of the hart that overlaps it. -/
def Slot.joins (k e : Slot) : Bool :=
  k.offset == e.offset && k.size == e.size && k.void == e.void && !k.returning && !e.returning && k.op == e.op &&
    (k.op == opStore || (k.op ≤ 7 && k.mult < 255))

/-- A slot with an element merged or combined into it. -/
def Slot.join (k e : Slot) : Slot :=
  if k.op = opStore then { k with value := e.value, elems := k.elems + 1 }
  else
    let w := 8 * sizeBytes k.size
    { k with value := word (depValue k.op w k.value.toNat e.value.toNat 0), mult := k.mult + 1, elems := k.elems + 1 }

/-- Place of the latest slot of the element's hart that overlaps it. -/
def lastOverlap (l : List Slot) (e : Slot) : Option (Nat × Slot) :=
  (findIdx (fun k => k.hart == e.hart && k.device == e.device && k.overlaps e) l.reverse 0).map fun p => (l.length - 1 - p.1, p.2)

/-- Slots after an element joins one of them; none when it takes a new slot. -/
def joinSlots (l : List Slot) (e : Slot) : Option (List Slot) :=
  match lastOverlap l e with
  | some (n, k) => if k.joins e then some (setAt l n (k.join e)) else none
  | none => none

/-- Free answers of a peer device to the slots of a packet that went out to it (R150; log 19), or LINK when the link does not carry. A void slot
is rejected (R135). -/
def peerReplies (s : State) (p : Packet) (port : Nat) : State × List Reply :=
  p.slots.foldl (fun (a : State × List Reply) k =>
    let (n, s) := draw a.1
    let w := Config.freeWord n
    let reason := if !(portAt s port).carries then 7 else if k.void then 1 + fld w 0 8 % 6 else fld w 0 8 % 7
    let (n, s) := draw s
    let seq := if reason = 7 then 0 else fld w 8 32
    (s, a.2 ++ [{ cluster := p.cluster, fromPort := some port, index := p.index, gen := p.gen, slot := k, reason := reason,
                  seq := seq, old := word (fld (Config.freeWord n) 0 (8 * sizeBytes k.size)) }])) (s, [])

/-- Answers on their way to depositors of this device. -/
def postReplies (s : State) (l : List Reply) : State :=
  l.foldl (fun s r =>
    if r.reason = 0 then enqueue { s with acks := s.acks ++ [r] } (.depositAck 0)
    else enqueue { s with rejections := s.rejections ++ [r] } (.depositRejection 0)) s

/-- An aggregation buffer as the next packet of its cluster's series to the slice, and of the device's over its links (R146). -/
def packetOf (s : State) (cluster : Nat) (b : AggBuf) : Packet :=
  { world := entryWorld s b.index, cluster := cluster, fromPort := none, num := tgetD (clusterAt s cluster).series b.home 0,
    link := if 64 ≤ b.home then some s.linkSeries else none, index := b.index, gen := b.gen, device := b.device, home := b.home,
    slots := b.slots }

/-- An aggregation buffer leaves as a packet (R143, R146); one for another device goes out over the route's port. -/
def sendBuf (s : State) (cluster k : Nat) : State :=
  match (clusterAt s cluster).bufs[k]? with
  | none => s
  | some b =>
    let p := packetOf s cluster b
    let s := updCluster s cluster fun c => { c with
      bufs := removeAt c.bufs k
      series := tput c.series b.home (p.num + 1) }
    if 64 ≤ b.home then
      let s := { s with linkSeries := s.linkSeries + 1 }
      let port := routePort s (b.home / 64 - 1)
      let (s, rs) := peerReplies (sendOut s p.world (.deposit p port)) p port
      postReplies s rs
    else enqueue { s with packets := s.packets ++ [p] } (.depositPacket 0)

/-- Send the buffers of a cluster that satisfy `p`, oldest first. -/
def sendBufs (s : State) (cluster : Nat) (p : AggBuf → Bool) : State :=
  (clusterAt s cluster).bufs.foldl (fun s b =>
    if p b then
      match findIdx (fun a => a == b) (clusterAt s cluster).bufs 0 with
      | some (k, _) => sendBuf s cluster k
      | none => s
    else s) s

/-- A buffer that holds an element of a hart. -/
def AggBuf.has (b : AggBuf) (loc : Nat) : Bool := b.slots.any fun k => k.hart == loc

/-- The least age limit of the harts whose elements a buffer holds (R143, R144). -/
def leastAge (s : State) (b : AggBuf) : Nat :=
  b.slots.foldl (fun m k => match findHart s k.hart with | some h => min m h.csr.dagemax | none => m) 65535

/-- A buffer whose oldest slot has reached the age limit. -/
def aged (s : State) (b : AggBuf) : Bool := b.slots.any fun k => k.born + leastAge s b ≤ s.cycle

/-- The ages of a cluster's buffers are watched while it has any. -/
def watchAge (s : State) (cluster : Nat) : State :=
  if (clusterAt s cluster).bufs.isEmpty || s.pending.contains (.ageLimitReached cluster 0) then s
  else enqueue s (.ageLimitReached cluster 0)

/-- Place an element in a buffer of its key (R143), which leaves when it is full, holds a returning operation or has age limit 0. -/
def placeElem (s : State) (cluster : Nat) (i : Nat) (gen : BitVec 16) (device home : Nat) (e : Slot) : State :=
  let key (b : AggBuf) : Bool := b.index == i && b.gen == gen && b.home == home && b.device == device
  let fits (b : AggBuf) : Bool := (joinSlots b.slots e).isSome || usedSlots b.slots + slotCost e ≤ 16
  let s := sendBufs s cluster fun b => key b && !fits b
  let s :=
    match findIdx key (clusterAt s cluster).bufs 0 with
    | some (n, b) =>
      let l := (joinSlots b.slots e).getD (b.slots ++ [e])
      updCluster s cluster fun c => { c with bufs := setAt c.bufs n { b with slots := l } }
    | none =>
      let s := if 64 ≤ (clusterAt s cluster).bufs.length then sendBuf s cluster 0 else s
      watchAge (updCluster s cluster fun c => { c with bufs := c.bufs ++ [AggBuf.mk i gen device home [e]] }) cluster
  sendBufs s cluster fun b => key b && (16 ≤ usedSlots b.slots || e.returning || leastAge s b == 0)

/-! At the home slice (R147 to R149) -/

/-- The physical addresses of an element's bytes. -/
def slotPas (pa : Nat) (k : Slot) : List Nat := rangeFrom pa (sizeBytes k.size)

/-- Perform or reject one slot (R147 to R149, R157). An element that meets another buffer, one of another world, or none, under its index is
rejected with CLOSED and `seq` 0 (log 79); one whose line lies in no mapped page is rejected as one whose line cannot be read (log 80). When the slice stalls,
the state in which it does. -/
def performSlot (s : State) (p : Packet) (k : Slot) : Except State (State × Reply) :=
  let ans (reason seq : Nat) (old : Word) : Reply :=
    { cluster := p.cluster, fromPort := p.fromPort, index := p.index, gen := p.gen, slot := k, reason := reason, seq := seq, old := old }
  match capAt s p.index with
  | none => .ok (s, ans 1 0 0)
  | some c =>
    if !c.had p.gen || c.state == .free || p.world != some c.world then .ok (s, ans 1 0 0)
    else if k.lost then .ok (s, ans 4 c.seq 0)
    else if c.state == .quarantined then .ok (s, ans 5 c.seq 0)
    else if c.state != .collecting then .ok (s, ans 1 c.seq 0)
    else if k.void || c.gen != p.gen then .ok (s, ans 3 c.seq 0)
    else if k.offset + sizeBytes k.size > c.length then .ok (s, ans 2 c.seq 0)
    else if c.seq + k.mult > 0xFFFFFFFE then .ok (s, ans 6 c.seq 0)
    else
      let line := k.offset / 128
      let bad (s : State) : Except State (State × Reply) :=
        .ok (updCap s p.index fun c => { c with marked := if c.marked.contains line then c.marked else line :: c.marked },
          ans 4 c.seq 0)
      if c.marked.contains line then bad s
      else match bufOff s p.index c k.offset with
        | none => bad s
        | some pa =>
          if lineWaits s pa || sliceHeld s (lineHome s p.index c k.offset) then .error s
          else match homeBytes s 0 (slotPas pa k) with
          | none => bad s
          | some bytes =>
            let old := leNat bytes
            match writeHome s 0 ((slotPas pa k).zip (leBytes (sizeBytes k.size) (elemValue k old))) with
            | (s, true) => .ok (updCap s p.index fun c => { c with seq := c.seq + k.mult + 1 }, ans 0 c.seq (word old))
            | (s, false) => .error s

/-- Perform the slots of a packet in order. -/
def performSlots (s : State) (p : Packet) : List Slot → Except State (State × List Reply)
  | [] => .ok (s, [])
  | k :: r => do
    let (s, a) ← performSlot s p k
    let (s, l) ← performSlots s p r
    .ok (s, a :: l)

/-- Packets of one series: from one cluster of this device to one slice, or from one cluster of a peer, whichever port they came in by. -/
def Packet.sameSeries (a b : Packet) : Bool :=
  a.cluster == b.cluster && a.fromPort.isSome == b.fromPort.isSome && a.home == b.home && a.device == b.device

/-- A packet comes before another of its series by number, in a series that wraps (R146). -/
def Packet.earlier (a b : Packet) : Bool := a.sameSeries b && a.num != b.num && (b.num - a.num).toNat < 2 ^ 15

/-- The place of a peer's series in the numbers that the slices expect. -/
def Packet.peerSeries (p : Packet) : Nat := (p.device * 64 + p.cluster % 64) * 64 + p.home % 64

/-- A packet of a peer has the number that its slice expects (R146). Where a failure of the link has left none, any number is taken for the next
(log 102). -/
def expectedNow (s : State) (p : Packet) : Bool :=
  p.fromPort.isNone || match tget s.expected p.peerSeries with
    | some n => p.num == n
    | none => p.num == 0 || s.relinked.contains p.device

/-- A peer's packet is performed: the next number is expected. -/
def expectNext (s : State) (p : Packet) : State :=
  if p.fromPort.isNone then s else { s with expected := tput s.expected p.peerSeries (p.num + 1) }

/-- The packets that may be performed now: the first of each series (R146). -/
def frontPackets (s : State) : List Packet := s.packets.filter fun p => expectedNow s p && !s.packets.any fun k => k.earlier p

/-- Deliver answers: to depositors here, or over the link that the packet came in by (R150). -/
def deliverReplies (s : State) (l : List Reply) : State :=
  l.foldl (fun s r => match r.fromPort with
    | some port => sendOut s (entryWorld s r.index) (.depositReply r port)
    | none => postReplies s [r]) s

/-- DEPOSIT_PACKET (R147 to R149). -/
def execDepositPacket (k : Nat) (s : State) : Host.Outcome State Fault Refusal :=
  match (frontPackets s)[k]? with
  | none => if s.packets.isEmpty then happen s else block s (.depositPacket 0)
  | some p =>
    match performSlots s p p.slots with
    | .error t => block (carryRolls s t) (.depositPacket k)
    | .ok (t, rs) => happen (deliverReplies (expectNext { t with packets := t.packets.erase p } p) rs)

/-- AGE_LIMIT_REACHED: the buffer, or else the oldest one whose age limit is reached, leaves (R143). -/
def execAgeLimitReached (cluster buf : Nat) (s : State) : Host.Outcome State Fault Refusal :=
  let bufs := (clusterAt s cluster).bufs
  let due := match bufs[buf]? with | some b => if aged s b then some buf else none | none => none
  match (match due with | some k => some k | none => (findIdx (aged s) bufs 0).map (·.1)) with
  | some k => happen (watchAge (sendBuf s cluster k) cluster)
  | none => if bufs.isEmpty then happen s else block s (.ageLimitReached cluster buf)

/-! Acknowledgements and the fault log (R149, R151 to R153) -/

/-- DP of a depositor falls. -/
def lowerDp (s : State) (r : Reply) : State := updHart s r.slot.hart fun h => { h with dpOut := h.dpOut - r.slot.elems }

/-- DEPOSIT_ACK. -/
def execDepositAck (k : Nat) (s : State) : Host.Outcome State Fault Refusal :=
  match s.acks[k]? with
  | none => happen s
  | some r => happen (lowerDp { s with acks := removeAt s.acks k } r)

/-- The record of a rejected element (R151). -/
def faultRecord (s : State) (r : Reply) : List Byte :=
  let k := r.slot
  let dws : List Nat :=
    [(handle s.device r.index r.gen .deposit 0).toNat,
     k.mult * 2 ^ 56 + r.reason * 2 ^ 52 + k.size * 2 ^ 48 + k.op * 2 ^ 40 + k.offset % 2 ^ 40, k.value.toNat,
     if k.op = 9 then k.expect.toNat else 0, k.device * 2 ^ 32 + k.hart, r.seq, (timeOf s).toNat, 0]
  (dws.map (leBytes 8)).flatten

/-- What the check of a log handle comes to (R152). -/
inductive LogCheck where
  | ok (i : Nat) (c : Cap)
  | discard
  | wait
  deriving DecidableEq, Repr

/-- The check of `dflog` for a hart (R152). -/
def logCheck (s : State) (h : Hart) : LogCheck :=
  match matching h.holdings h.csr.dflog with
  | none => .discard
  | some g =>
    match capAt s g.index with
    | none => .discard
    | some c =>
      if g.kind != .whole || g.susp != 0 || c.gen != g.gen || c.layout != 0 || c.length < 256 then .discard
      else match c.state with
        | .owned => .ok g.index c
        | .lent => .wait
        | _ => .discard

/-- Write the record of a rejection into the hart's log buffer. A buffer whose header cannot be read, or whose pages are not mapped, passes the
check all the same: its record is discarded without an error (log 81). It waits while the buffer is LENT, or a slice stalls, in the state
given. -/
def writeRecord (s : State) (h : Hart) (r : Reply) : Except State State :=
  match logCheck s h with
  | .wait => .error s
  | .discard => .ok s
  | .ok i c =>
    let t := h.place
    let q := match ctxOf s h.ctx with | some k => k.pid | none => 0
    match bufPas s i c 0 8 with
    | none => .ok s
    | some head =>
      match readPas s t q head with
      | none => .ok s
      | some hb =>
        let s := noteRead s q (head.filter fun p => (tget (tileOf s t).l1d p).isNone)
        let n := leNat hb
        let off := 64 + 64 * (n % ((c.length - 64) / 64))
        match bufPas s i c off 64 with
        | none => .ok s
        | some pas =>
          match writeOn s t q (pas ++ head) (faultRecord s r ++ leBytes 8 (n + 1)) with
          | (s, true) => .ok s
          | (u, false) => .error (carryRolls s u)

/-- DEPOSIT_REJECTION: the record, `dfcnt`, the rejection count, DEPOSIT_FAULT, and then DP (R151, R153). -/
def execDepositRejection (k : Nat) (s : State) : Host.Outcome State Fault Refusal :=
  match s.rejections[k]? with
  | none => happen s
  | some r =>
    let t := { s with rejections := removeAt s.rejections k }
    match findHart s r.slot.hart with
    | none => happen { t with faultedDfcnt := match tget t.faultedDfcnt r.slot.hart with
        | some n => tput t.faultedDfcnt r.slot.hart (n + 1)
        | none => t.faultedDfcnt }
    | some h =>
      match writeRecord t h r with
      | .error u => block { u with rejections := s.rejections } (.depositRejection k)
      | .ok t =>
        let t := updHart t h.loc fun h => Hart.touch { h with
          csr := { h.csr with
            dfcnt := h.csr.dfcnt + 1
            rejCount := h.csr.rejCount + 1
            mip := setBit h.csr.mip 16 true } } 13
        happen (lowerDp t r)

/-! Instructions -/

/-- DP rises for an element, which enters its cluster's buffers (R137, R143). -/
def issueElem (s : State) (g : Holding) (c : Cap) (va size op : Nat) (value expect : Nat) (returning : Bool) : Res State :=
  if 255 ≤ s.h.dpOut then .error (.stall s)
  else
    let off := capAddr s va - c.base
    let e : Slot :=
      { mult := 0, elems := 1, size := size, returning := returning, void := g.void, lost := returning && s.payloadLost.contains s.h.loc, op := op,
        offset := off, value := word value, expect := word expect, hart := s.h.loc, device := s.device, born := s.cycle }
    let s := if e.lost then { s with payloadLost := s.payloadLost.erase s.h.loc } else s
    let s := modH s fun h => { h with dpOut := h.dpOut + 1 }
    .ok (placeElem s (myCluster s) g.index g.gen s.device (lineHome s g.index c off) e)

/-- A posted store of a size (R138). -/
def depositStore (s : State) (rs2 rs1 : Reg) (imm : BitVec 12) (size : Nat) : Res State := do
  let va := addrOf s rs1 imm
  let n := sizeBytes size
  let (g, c) ← needDeposit s va n
  issueElem s g c va size opStore ((rx s rs2).toNat % 2 ^ (8 * n)) 0 false

/-- DSB. -/
def execDsb (rs2 rs1 : Reg) (imm : BitVec 12) (s : State) : Host.Outcome State Fault Refusal := seq s (depositStore s rs2 rs1 imm 0)
/-- DSH. -/
def execDsh (rs2 rs1 : Reg) (imm : BitVec 12) (s : State) : Host.Outcome State Fault Refusal := seq s (depositStore s rs2 rs1 imm 1)
/-- DSW. -/
def execDsw (rs2 rs1 : Reg) (imm : BitVec 12) (s : State) : Host.Outcome State Fault Refusal := seq s (depositStore s rs2 rs1 imm 2)
/-- DSD. -/
def execDsd (rs2 rs1 : Reg) (imm : BitVec 12) (s : State) : Host.Outcome State Fault Refusal := seq s (depositStore s rs2 rs1 imm 3)

/-- DSN: the nibble and its place come from x[rs2][4:0] (R138). -/
def dsnBody (s : State) (rs2 rs1 : Reg) (imm : BitVec 12) : Res State := do
  let va := addrOf s rs1 imm
  let (g, c) ← needDeposit s va 1
  issueElem s g c va (if bitAt (rx s rs2) 4 then 5 else 4) opStore (fld (rx s rs2) 0 4) 0 false
def execDsn (rs2 rs1 : Reg) (imm : BitVec 12) (s : State) : Host.Outcome State Fault Refusal := seq s (dsnBody s rs2 rs1 imm)

/-- Perform the packets of a series in order, up to the returning operation of a hart; answers the reply of that operation. When a
slice stalls, the state in which it does. -/
def performSeries (cluster home loc : Nat) : List Packet → State → Except State (State × Option Reply)
  | [], s => .ok (s, none)
  | p :: r, s =>
    if p.cluster == cluster && p.fromPort.isNone && p.home == home then
      match performSlots s p p.slots with
      | .error t => .error t
      | .ok (t, rs) =>
        let mine := rs.find? fun a => a.slot.returning && a.slot.hart == loc
        let t := deliverReplies { t with packets := t.packets.erase p } (rs.filter fun a => some a != mine)
        match mine with
        | some a => .ok (t, some a)
        | none => performSeries cluster home loc r t
    else performSeries cluster home loc r s

/-- The reply to a returning operation: the packets before it in its series are performed first (R146). A peer's answer stands among
the replies that were posted. -/
def awaitReply (s : State) (home : Nat) : Except State (State × Option Reply) :=
  let mine (a : Reply) : Bool := a.slot.returning && a.slot.hart == s.h.loc
  if 64 ≤ home then
    match s.acks.find? mine with
    | some a => .ok ({ s with acks := s.acks.erase a }, some a)
    | none => match s.rejections.reverse.find? mine with
      | some a => .ok ({ s with rejections := s.rejections.erase a }, some a)
      | none => .ok (s, none)
  else performSeries (myCluster s) home s.h.loc s.packets s

/-- What a reply leaves in rd and `dseq` (R140, R141). A rejection goes on to the fault log. -/
def takeReply (s : State) (rd : Reg) (size : Nat) (a : Reply) : State :=
  if a.reason = 0 then
    let v := if size = 2 then sextWord 32 a.old.toNat else a.old
    lowerDp (wx (modC s fun c => { c with dseq := word (a.seq % 2 ^ 32) }) rd v) a
  else
    let s := modC s fun c => { c with dseq := word (2 ^ 32 + a.reason * 2 ^ 36) }
    postReplies (wx s rd 0) [a]

/-- DA.op (R139, R140): posted when rd is x0, else returning. -/
def depositAtomic (s : State) (op size : Nat) (rd rs1 rs2 : Reg) : Res State := do
  let va := addrReg s rs1
  let n := sizeBytes size
  let (g, c) ← needDeposit s va n
  let m := 2 ^ (8 * n)
  let v := (rx s rs2).toNat % m
  let e := if op = 9 then (rx s rd).toNat % m else 0
  if rd = 0 then issueElem s g c va size op v e false
  else do
    let t ← issueElem s g c va size op v e true
    match awaitReply t (lineHome s g.index c (capAddr s va - c.base)) with
    | .error u => .error (.stall (carryRolls s u))
    | .ok (t, some a) => .ok (mark (takeReply t rd size a) 13)
    | .ok (t, none) => .ok t

/-- DA.ADD.W. -/
def execDaAddW (rd rs1 rs2 : Reg) (s : State) : Host.Outcome State Fault Refusal := seq s (depositAtomic s 0 2 rd rs1 rs2)
/-- DA.MIN.W. -/
def execDaMinW (rd rs1 rs2 : Reg) (s : State) : Host.Outcome State Fault Refusal := seq s (depositAtomic s 1 2 rd rs1 rs2)
/-- DA.MAX.W. -/
def execDaMaxW (rd rs1 rs2 : Reg) (s : State) : Host.Outcome State Fault Refusal := seq s (depositAtomic s 2 2 rd rs1 rs2)
/-- DA.MINU.W. -/
def execDaMinuW (rd rs1 rs2 : Reg) (s : State) : Host.Outcome State Fault Refusal := seq s (depositAtomic s 3 2 rd rs1 rs2)
/-- DA.MAXU.W. -/
def execDaMaxuW (rd rs1 rs2 : Reg) (s : State) : Host.Outcome State Fault Refusal := seq s (depositAtomic s 4 2 rd rs1 rs2)
/-- DA.AND.W. -/
def execDaAndW (rd rs1 rs2 : Reg) (s : State) : Host.Outcome State Fault Refusal := seq s (depositAtomic s 5 2 rd rs1 rs2)
/-- DA.OR.W. -/
def execDaOrW (rd rs1 rs2 : Reg) (s : State) : Host.Outcome State Fault Refusal := seq s (depositAtomic s 6 2 rd rs1 rs2)
/-- DA.XOR.W. -/
def execDaXorW (rd rs1 rs2 : Reg) (s : State) : Host.Outcome State Fault Refusal := seq s (depositAtomic s 7 2 rd rs1 rs2)
/-- DA.XCHG.W. -/
def execDaXchgW (rd rs1 rs2 : Reg) (s : State) : Host.Outcome State Fault Refusal := seq s (depositAtomic s 8 2 rd rs1 rs2)
/-- DA.CAS.W. -/
def execDaCasW (rd rs1 rs2 : Reg) (s : State) : Host.Outcome State Fault Refusal := seq s (depositAtomic s 9 2 rd rs1 rs2)
/-- DA.FADD.W. -/
def execDaFaddW (rd rs1 rs2 : Reg) (s : State) : Host.Outcome State Fault Refusal := seq s (depositAtomic s 10 2 rd rs1 rs2)
/-- DA.ADD.D. -/
def execDaAddD (rd rs1 rs2 : Reg) (s : State) : Host.Outcome State Fault Refusal := seq s (depositAtomic s 0 3 rd rs1 rs2)
/-- DA.MIN.D. -/
def execDaMinD (rd rs1 rs2 : Reg) (s : State) : Host.Outcome State Fault Refusal := seq s (depositAtomic s 1 3 rd rs1 rs2)
/-- DA.MAX.D. -/
def execDaMaxD (rd rs1 rs2 : Reg) (s : State) : Host.Outcome State Fault Refusal := seq s (depositAtomic s 2 3 rd rs1 rs2)
/-- DA.MINU.D. -/
def execDaMinuD (rd rs1 rs2 : Reg) (s : State) : Host.Outcome State Fault Refusal := seq s (depositAtomic s 3 3 rd rs1 rs2)
/-- DA.MAXU.D. -/
def execDaMaxuD (rd rs1 rs2 : Reg) (s : State) : Host.Outcome State Fault Refusal := seq s (depositAtomic s 4 3 rd rs1 rs2)
/-- DA.AND.D. -/
def execDaAndD (rd rs1 rs2 : Reg) (s : State) : Host.Outcome State Fault Refusal := seq s (depositAtomic s 5 3 rd rs1 rs2)
/-- DA.OR.D. -/
def execDaOrD (rd rs1 rs2 : Reg) (s : State) : Host.Outcome State Fault Refusal := seq s (depositAtomic s 6 3 rd rs1 rs2)
/-- DA.XOR.D. -/
def execDaXorD (rd rs1 rs2 : Reg) (s : State) : Host.Outcome State Fault Refusal := seq s (depositAtomic s 7 3 rd rs1 rs2)
/-- DA.XCHG.D. -/
def execDaXchgD (rd rs1 rs2 : Reg) (s : State) : Host.Outcome State Fault Refusal := seq s (depositAtomic s 8 3 rd rs1 rs2)
/-- DA.CAS.D. -/
def execDaCasD (rd rs1 rs2 : Reg) (s : State) : Host.Outcome State Fault Refusal := seq s (depositAtomic s 9 3 rd rs1 rs2)

/-- Elements of a hart to a window that no slice has performed or rejected yet; those to another device until its answer has come (R95, R150). -/
def unperformed (s : State) (loc i : Nat) (gen : BitVec 16) : Bool :=
  (s.acks ++ s.rejections).any (fun r => r.fromPort.isSome && r.slot.hart == loc && r.index == i && r.gen == gen) ||
  s.packets.any (fun p => p.fromPort.isNone && p.index == i && p.gen == gen && p.slots.any fun k => k.hart == loc) ||
  s.clusters.any (fun c => c.2.bufs.any fun b => b.index == i && b.gen == gen && b.has loc)

/-- Elements of a hart to a window whose acknowledgement or rejection has not arrived. -/
def unanswered (s : State) (loc i : Nat) (gen : BitVec 16) : Bool :=
  unperformed s loc i gen || (s.acks ++ s.rejections).any fun r => r.slot.hart == loc && r.index == i && r.gen == gen

/-- Send a hart's elements to a window on their way (R143, R154). -/
def flushWindow (s : State) (h : Hart) (i : Nat) (gen : BitVec 16) : State :=
  sendBufs s (clusterOf h.place) fun b => b.index == i && b.gen == gen && b.has h.loc

/-- Send all of a hart's elements on their way (R124). -/
def flushHart (s : State) (h : Hart) : State := sendBufs s (clusterOf h.place) (·.has h.loc)

/-- DFLUSH (R154). -/
def dflushBody (rd rs1 : Reg) (s : State) : Res State :=
  match depositAt s (addrReg s rs1) with
  | none => .error (.trap causeOwnership (rx s rs1))
  | some (g, _) =>
    let s := flushWindow s s.h g.index g.gen
    if unanswered s s.h.loc g.index g.gen then .error (.point s)
    else
      let n := s.h.csr.rejCount
      let s := if g.void then modHoldings s fun l => l.filter (· != g) else s
      .ok (wx (mark (modC s fun c => { c with rejCount := 0 }) 13) rd (word n))
def execDflush (rd rs1 : Reg) (s : State) : Host.Outcome State Fault Refusal := seq s (dflushBody rd rs1 s)

/-! Voiding and draining (R107, R135, R155) -/

/-- The clusters that a drain request reaches: those in service, and any that has a buffer or hosts a hart. -/
def drainClusters (s : State) : List (Fin 64) :=
  (List.finRange 64).filter fun c =>
    isReady s (32 + c.val / 32) (c.val % 32) || (tget s.clusters c.val).isSome ||
      (harts s).any fun h => h.tile.any fun t => clusterOf t == c.val

/-- The peer ports that a drain request reaches. -/
def drainPorts (c : Cap) : List (Fin 16) := (List.finRange 16).filter fun p => c.ports.contains p.val

/-- Void the units of a window that no running hart's lookaside can hold: those in queues, elements already given to a popper among them, in
flight from here or from a peer, with agents, and in the ports and holding sets of harts that are not on a tile (R135). -/
def voidElsewhere (s : State) (i : Nat) : State :=
  let voidA (a : Arrival) : Arrival := if a.index == i && a.kind == .deposit then { a with void := true } else a
  { s with
    sends := s.sends.map fun d => { d with arrival := voidA d.arrival }
    queues := s.queues.map fun q => (q.1, { q.2 with
      elems := q.2.elems.map fun e => { e with cap := e.cap.map voidA }
      served := q.2.served.map fun e => (e.1, e.2.map fun k => { k with cap := k.cap.map voidA }) })
    agents := s.agents.map fun a => (a.1, { a.2 with
      arrivals := a.2.arrivals.map voidA
      holdings := a.2.holdings.map fun g =>
        if g.index == i && g.kind == .deposit then { g with void := true, units := 0, susp := 0 } else g })
    moves := s.moves.map fun m =>
      if !m.2.sending && m.2.index == i && m.2.kind == .deposit then (m.1, { m.2 with void := true }) else m
    others := s.others.map fun h => if h.tile.isNone then voidDeposits h i else
      { h with port := h.port.map voidA, ring := h.ring.map voidA }
    h := { s.h with port := s.h.port.map voidA, ring := s.h.ring.map voidA } }

/-- Begin to drain a window (R155). A FORCE close voids every unit still out and sets `outst` to 0 (R107). -/
def startDrain (s : State) (i : Nat) (force : Bool) : State :=
  match capAt s i with
  | none => s
  | some c =>
    let agents : List DrainAt := (drainClusters s).map .cluster ++ (drainPorts c).map .port
    let s := updCap s i fun c => { c with
      drain := some (Drain.mk agents [])
      closing := force
      outst := if force then 0 else c.outst }
    let s := if force then voidElsewhere s i else s
    agents.foldl (fun s a => enqueue s (.drainRequest i a)) s

/-- Void the window's holdings of the harts of a cluster. -/
def voidCluster (s : State) (i cluster : Nat) : State :=
  let f (h : Hart) : Hart := if h.tile.any fun t => clusterOf t == cluster then voidDeposits h i else h
  { s with h := f s.h, others := s.others.map f }

/-- A request of the device that stores a window, over a port (R155, step 4): the reference's clusters drain. One that finds no units here to be drained,
its entry FREE or on its way, is answered at once, and what is on its way is void; so is one whose reference is drained already. -/
def drainHere (s : State) (i : Nat) (c : Cap) (p : Nat) : State :=
  let world := if c.state == .free then none else some c.world
  if c.level == .remote && c.state == .collecting then
    if (portAt s p).worldMap.any fun e => e.2 == c.world then startDrain (updCap s i fun c => { c with owner := p }) i true else s
  else if c.state != .free && c.state != .arriving && c.level != .remote then s
  else
    let s := { s with moves := s.moves.map fun m =>
      if !m.2.sending && m.2.index == i && m.2.kind == .deposit then (m.1, { m.2 with void := true }) else m }
    sendOut s world (.drain p i true)

/-- DRAIN_REQUEST: the agent voids, sends the window's buffers, and is to respond; a link relays the request (R155). -/
def execDrainRequest (i : Nat) (dest : DrainAt) (s : State) : Host.Outcome State Fault Refusal :=
  let c := (capAt s i).getD Cap.free
  match c.drain, dest with
  | some d, dest =>
    if d.unasked.contains dest then
      let s := updCap s i fun c => { c with drain := some (Drain.mk (d.unasked.erase dest) (d.waiting ++ [dest])) }
      match dest with
      | .cluster k =>
        let s := if c.closing then voidCluster s i k.val else s
        let s := sendBufs s k.val fun b => b.index == i && b.gen == c.gen
        happen (enqueue s (.drainResponse i dest))
      | .port p =>
        -- A link that does not carry responds by itself.
        happen (if (portAt s p.val).carries then sendOut s (some c.world) (.drain p.val i false) else enqueue s (.drainResponse i dest))
    else happen s
  | none, .port p =>
    happen (if (portAt s p.val).carries then drainHere s i c p.val else s)
  | none, .cluster _ => happen s

/-- A cluster's packets of a window that await acknowledgement. -/
def clusterBusy (s : State) (i : Nat) (gen : BitVec 16) (cluster : Nat) : Bool :=
  s.packets.any (fun p => p.fromPort.isNone && p.cluster == cluster && p.index == i && p.gen == gen) ||
    s.acks.any fun r => r.cluster == cluster && r.index == i && r.gen == gen

/-- A drain in which every agent has responded. -/
def Drain.done (d : Drain) : Bool := d.unasked.isEmpty && d.waiting.isEmpty

/-- The end of a drain: `seq` stands, and the entry is OWNED, or QUARANTINED when a line is marked or containment has met the window (R136, R147,
R155); that of an owner that has ended is freed (R315). A remote reference's device answers the request instead. -/
def endDrain (s : State) (i : Nat) : State :=
  match capAt s i with
  | none => s
  | some c =>
    if c.level == .remote then
      let s := updCap s i fun c => { c with drain := none, closing := false }
      if (portAt s c.owner).carries then sendOut s (some c.world) (.drain c.owner i true) else s
    else
      if c.orph && c.state != .quarantined then freeEntry s i
      else
        let s := updCap s i fun c => { c with
          state := if c.marked.isEmpty && c.state != .quarantined then .owned else .quarantined
          closing := false }
        closePass s i c.comp

/-- An agent has responded; the drain ends with the last, unless the window's home slice is held in reset with its die (R157). -/
def respond (s : State) (i : Nat) (c : Cap) (d : Drain) (dest : DrainAt) : Host.Outcome State Fault Refusal :=
  let d := Drain.mk d.unasked (d.waiting.erase dest)
  if d.done && (windowHome s i c).any (sliceHeld s) then block s (.drainResponse i dest)
  else
    let s := updCap s i fun c => { c with drain := some d }
    happen (if d.done then endDrain s i else s)

/-- DRAIN_RESPONSE. A link whose port does not carry responds by itself (R155, step 4). -/
def execDrainResponse (i : Nat) (dest : DrainAt) (s : State) : Host.Outcome State Fault Refusal :=
  match capAt s i with
  | none => happen s
  | some c =>
    match c.drain with
    | none => happen s
    | some d =>
      if d.waiting.contains dest then
        match dest with
        | .cluster k => if clusterBusy s i c.gen k.val then block s (.drainResponse i dest) else respond s i c d dest
        | .port _ => respond s i c d dest
      else happen s

end Sys2Proof.Machine
end

