-- ==== Sys2Proof/Machine/Cbuf.lean ====
section
/-! DEFINITION. Circular buffers (R175 to R182) and the engine command queue: claims, firing, completion, starvation and failure (R183
to R188), and what a command borrows (R79, R81, R120). -/

namespace Sys2Proof.Machine

/-! Counts (R176) -/

/-- A circular buffer of a hart. -/
def cbAt (h : Hart) (n : CbN) : Cb := h.cbs.get n
/-- Replace a circular buffer of a hart. -/
def setCb (h : Hart) (n : CbN) (b : Cb) : Hart := ({ h with cbs := h.cbs.set n.val b }).touch 12

/-- Committed slots not yet released. -/
def Cb.filled (b : Cb) : Nat := (b.pushed - b.popped).toNat
/-- Available slots. -/
def Cb.avail (b : Cb) : Nat := b.filled - b.held
/-- Room. -/
def Cb.room (b : Cb) : Nat := gCount b.geom - b.filled - b.resv

/-- The region of a circular buffer in its buffer: start and length. -/
def Cb.region (b : Cb) : Nat × Nat := (gOffset b.geom, gCount b.geom * gSize b.geom)

/-- Slots for an operand of `n` bytes (R183). -/
def Cb.need (b : Cb) (n : Nat) : Nat := (n + gSize b.geom - 1) / gSize b.geom

/-! Commands and the circular buffers that they name (R183) -/

/-- The operand of an MMA as an input. -/
def Opnd.ins : Opnd → List (CbN × Nat)
  | .cb n k => [(n, k)]
  | .image _ _ | .leader => []

/-- The circular buffer of a class C0 code (R35). -/
def cbOfCode (code : Nat) : Option CbN := if 16 ≤ code then some ⟨code % 16, Nat.mod_lt _ (by decide)⟩ else none

/-- Inputs of a command, with its needs. -/
def EngOp.ins : EngOp → List (CbN × Nat)
  | .mma c => c.a.ins ++ c.b.ins
  | .mldacc _ n k => [(n, k)]
  | .mdrain c => match c.res with | some n => [(n, c.resNeed)] | none => []
  | .copy c => match cbOfCode c.shape.scb with | some n => [(n, c.sneed)] | none => []
  | .mzero _ | .mstacc _ _ _ => []

/-- Outputs of a command, with its needs. -/
def EngOp.outs : EngOp → List (CbN × Nat)
  | .mstacc _ n k => [(n, k)]
  | .mdrain c => [(c.out, c.outNeed)]
  | .copy c => match cbOfCode c.shape.dcb with | some n => [(n, c.dneed)] | none => []
  | .mma _ | .mzero _ | .mldacc _ _ _ => []

/-- Whether a command names a circular buffer. -/
def EngOp.names (o : EngOp) (n : CbN) : Bool := (o.ins ++ o.outs).any fun p => p.1 == n

/-- Slots that a list of operands needs of one circular buffer. -/
def slotsOf (l : List (CbN × Nat)) (n : CbN) : Nat := (l.filter fun p => p.1 == n).foldl (fun k p => k + p.2) 0

/-- The circular buffers on which a command waits (R184). -/
def lacks (h : Hart) (o : EngOp) : List Nat :=
  ((o.ins.filter fun p => (cbAt h p.1).avail < slotsOf o.ins p.1) ++
    (o.outs.filter fun p => (cbAt h p.1).room < slotsOf o.outs p.1)).map (·.1.val)

/-- The commands that a hart issued before one. -/
def earlierCmds (h : Hart) (id : Nat) : List EngCmd := h.cmds.takeWhile fun c => c.id != id

/-- The conditions of R184 on a queued command of a hart: its slots, no earlier unfired command of its engine, and no earlier unfired
command that names one of its circular buffers. -/
def mayFire (h : Hart) (c : EngCmd) : Bool :=
  c.queued && !c.fired && (lacks h c.op).isEmpty &&
    (earlierCmds h c.id).all fun e =>
      e.fired || (e.isCopy != c.isCopy && (c.op.ins ++ c.op.outs).all fun p => !e.op.names p.1)

/-- The leader of the gang whose MMA a command is (R199). -/
def EngCmd.gangOf (c : EngCmd) : Option Nat :=
  match c.op with
  | .mma k => if k.gsz = 0 then none else some k.leader
  | .mzero _ | .mldacc _ _ _ | .mstacc _ _ _ | .mdrain _ | .copy _ => none

/-- Two commands are parts of one MMA of their gang: direct or queued alike, with the same number. -/
def EngOp.sameMma (a b : EngOp) : Bool :=
  match a, b with
  | .mma j, .mma k => j.leader == k.leader && j.nth == k.nth && (j.f2 == 0) == (k.f2 == 0)
  | _, _ => false

/-- The members' commands that make up one MMA with a command, leader first (R199). -/
def mates (s : State) (h : Hart) (c : EngCmd) : List (Hart × EngCmd) :=
  match c.gangOf, h.gang with
  | some l, some g =>
    g.members.filterMap fun loc => (findHart s loc).bind fun m =>
      (m.cmds.find? fun k => k.gangOf == some l && k.op.sameMma c.op).map fun k => (m, k)
  | _, _ => [(h, c)]

/-- Whether a command, with its mates, fires (R184, R199). -/
def canFire (s : State) (h : Hart) (c : EngCmd) : Bool := (mates s h c).all fun p => mayFire p.1 p.2

/-! Claims (R184, R185) -/

/-- Claim slots of an input; the first slot is noted in the command. -/
def claimIn (id : Nat) (r : Hart × List (CbN × Nat)) (p : CbN × Nat) : Hart × List (CbN × Nat) :=
  let b := cbAt r.1 p.1
  (setCb r.1 p.1 { b with held := b.held + p.2, inClaims := b.inClaims ++ [{ id := id, slots := p.2, done := false }] },
    r.2 ++ [(p.1, (b.popped.toNat % gCount b.geom + b.held) % gCount b.geom)])
/-- Claim slots of an output. -/
def claimOut (id : Nat) (r : Hart × List (CbN × Nat)) (p : CbN × Nat) : Hart × List (CbN × Nat) :=
  let b := cbAt r.1 p.1
  (setCb r.1 p.1 { b with resv := b.resv + p.2, outClaims := b.outClaims ++ [{ id := id, slots := p.2, done := false }] },
    r.2 ++ [(p.1, (b.pushed.toNat % gCount b.geom + b.resv) % gCount b.geom)])

/-- Change a command of a hart. -/
def updCmd (h : Hart) (id : Nat) (f : EngCmd → EngCmd) : Hart :=
  Hart.touch { h with cmds := h.cmds.map fun (c : EngCmd) => if c.id == id then f c else c } 15

/-- A command fires: its slots are claimed, inputs before outputs. -/
def fireCmd (h : Hart) (c : EngCmd) : Hart :=
  let r := c.op.outs.foldl (claimOut c.id) (c.op.ins.foldl (claimIn c.id) (h, []))
  updCmd r.1 c.id fun k => { k with fired := true, starts := r.2 }

/-- Release finished input claims at the head of the claim order. -/
def releaseDone : List Claim → Cb → Cb
  | c :: r, b =>
    if c.done then
      releaseDone r { b with popped := b.popped + BitVec.ofNat 32 c.slots, held := b.held - c.slots, inClaims := r }
    else b
  | [], b => b
/-- Commit finished output claims at the head of the claim order. -/
def commitDone : List Claim → Cb → Cb
  | c :: r, b =>
    if c.done then
      commitDone r { b with pushed := b.pushed + BitVec.ofNat 32 c.slots, resv := b.resv - c.slots, outClaims := r }
    else b
  | [], b => b
/-- Both. -/
def Cb.settle (b : Cb) : Cb :=
  let b := releaseDone b.inClaims b
  commitDone b.outClaims b

/-- The claims of a command are done. -/
def Cb.finish (b : Cb) (id : Nat) : Cb :=
  let f (c : Claim) : Claim := if c.id = id then { c with done := true } else c
  Cb.settle { b with inClaims := b.inClaims.map f, outClaims := b.outClaims.map f }

/-- Slots of a command's claims. -/
def claimed (l : List Claim) (id : Nat) : Nat := (l.filter fun c => c.id == id).foldl (fun n c => n + c.slots) 0

/-- The claims of a command are cancelled (R188, R200). -/
def Cb.cancel (b : Cb) (id : Nat) : Cb :=
  Cb.settle
    { b with
      held := b.held - claimed b.inClaims id
      resv := b.resv - claimed b.outClaims id
      inClaims := b.inClaims.filter fun c => c.id != id
      outClaims := b.outClaims.filter fun c => c.id != id }

/-! Borrowing (R79, R81, R120) -/

/-- A buffer is lent to a command. -/
def lend (s : State) (i : Nat) : State := updCap s i fun c => { c with state := .lent, lendcb := false, lends := c.lends + 1 }

/-- A buffer returns from a command of the hart on a tile: what the engine wrote to a REMOTE buffer goes to the device that stores it (R170), and
the last lend is an acquire (R116). -/
def unlend (s : State) (tile i : Nat) : State :=
  match capAt s i with
  | none => s
  | some c =>
    let last := c.lends ≤ 1 && c.state == .lent
    let s := updCap s i fun c => { c with
      lends := c.lends - 1
      state := if last then .owned else c.state }
    if last then acquireOn (if c.level == .remote then (cleanRemotes s (inBuf s i c)).1 else s) tile i else s

/-- Release the executing hart's buffers, and once all are released lend them to a command (R120). -/
def lendAll (s : State) (l : List Nat) : Res State := do
  let s ← l.foldlM release s
  .ok (l.foldl (fun s i => lend (match capAt s i with | some c => dropResv s c | none => s) i) s)

/-- A command leaves a hart: its claims are done or cancelled and its buffers return (R185, R188). -/
def endCmd (s : State) (loc : Nat) (c : EngCmd) (ok : Bool) : State :=
  match findHart s loc with
  | none => s
  | some h =>
    let s := updHart s loc fun h =>
      let g : Hart := { h with
        cmds := h.cmds.filter fun k => k.id != c.id
        cbs := h.cbs.map fun (b : Cb) => if ok then b.finish c.id else b.cancel c.id }
      (g.touch 12).touch 15
    c.lends.foldl (fun s i => unlend s h.place i) s

/-- A command fails: it and every unfired queued command of the hart are discarded (R188). An unfired MMA of the hart's gang goes in every
member, since one member's part of it cannot fire without the others'; R188 does not say so (log 90). -/
def failCmd (s : State) (loc : Nat) (c : EngCmd) : State :=
  let s := endCmd s loc c false
  match findHart s loc with
  | none => s
  | some h => (h.cmds.filter fun k => k.queued && !k.fired).foldl (fun s k =>
      (mates s h k).foldl (fun s p => endCmd s p.1.loc p.2 false) s) s

/-! Starvation (R187) -/

/-- The least of some numbers, or `d`. -/
def least (l : List Nat) (d : Nat) : Nat := match l with | [] => d | a :: r => r.foldl min a

/-- A pre-emption of a hart is pending: its own, its gang's or its co-resident kernel's (R187, R328). -/
def preemptDue (s : State) (h : Hart) : Bool :=
  s.pending.any fun i => match i with
    | .preempt l => l == h.loc || (h.gang.any fun g => g.members.contains l) ||
        (slotOf l == slotOf h.loc && (kernelOf s h.loc).any fun k => bitAt (dw k.desc 1) 58)
    | _ => false

/-- A queued command of a hart fires, or waits, with all its own conditions met, only for members of its gang whose engines go on: a fired
command of theirs can end the stall (R187, R199). -/
def mayYetFire (s : State) (h : Hart) (c : EngCmd) : Bool :=
  mayFire h c && (mates s h c).all fun p => mayFire p.1 p.2 || p.1.cmds.any fun k => k.queued && (k.fired || canFire s p.1 k)

/-- The circular buffers on which a hart's oldest unfired command waits: its own, or when it lacks none, those on which the commands of its
gang wait that keep it from firing. -/
def waitsOn (s : State) (h : Hart) (c : EngCmd) : List Nat :=
  match lacks h c.op with
  | [] => (mates s h c).flatMap fun p => (p.1.cmds.filter fun k => k.queued && !k.fired && k.id ≤ p.2.id).flatMap fun k => lacks p.1 k.op
  | l => l

/-- What `stval` of CB_DEADLOCK holds while the hart's tile is starved; none while it is not. `own` is for an empty queue. -/
def starvedOn (s : State) (h : Hart) (own : Nat) : Option Nat :=
  let q := h.cmds.filter (·.queued)
  if (q.any fun c => c.fired || mayYetFire s h c) || preemptDue s h then none
  else match q with
    | [] => some own
    | c :: _ => some (least (waitsOn s h c) (least ((c.op.ins ++ c.op.outs).map (·.1.val)) own))

/-- A stall that a starved tile turns into CB_DEADLOCK. -/
def stallOrDeadlock {α : Type} (s : State) (own : Nat) : Res α :=
  match starvedOn s s.h own with
  | some v => .error (.trap causeDeadlock (word v))
  | none => .error (.point s)

/-- The queue has an entry for a command of the executing hart (R186, R187). -/
def queueRoom (s : State) : Res Unit :=
  if (s.h.cmds.filter (·.queued)).length < 32 then .ok () else stallOrDeadlock s 0

/-- The counted commands of a kind are all queued and unfired. -/
def allUnfired (h : Hart) (copies : Bool) : Bool := h.cmds.all fun c => c.isCopy != copies || (c.queued && !c.fired)

/-! Issue -/

/-- The checks of R183 on a circular buffer that a command names, with the slots that it needs. -/
def checkCb (s : State) (n : CbN) (bytes : Nat) (output : Bool) (layout : Nat) : Res Nat := do
  let b := cbAt s.h n
  if !b.bound then .error (.trap causeCapability 0)
  let flow := gProd b.geom
  if flow != 2 && flow != boolNat output then .error (.trap causeEngine (word n.val))
  let need := b.need bytes
  if gCount b.geom < need then .error (.trap causeEngine (word n.val))
  match capAt s (hIndex b.handle) with
  | some c => if c.layout = layout then .ok need else .error (.trap causeLayout b.handle)
  | none => .error (.trap causeCapability b.handle)

/-- A new command of the executing hart. -/
def newCmd (s : State) (op : EngOp) (queued : Bool) : EngCmd :=
  { id := s.h.nextCmd, op := op, queued := queued, fired := false, susp := false, done := 0, part := [], lends := [], pins := [],
    pages := [], starts := [] }

/-- Put a command of the executing hart behind its others. -/
def addCmd (s : State) (c : EngCmd) : State :=
  mark (modH s fun h => { h with cmds := h.cmds ++ [c], nextCmd := h.nextCmd + 1 }) 15

/-- Put a queued command in the queue; it is due to fire. -/
def issueCmd (s : State) (c : EngCmd) : State := enqueue (addCmd s c) (.engineCommandFire s.h.loc c.id)

/-! The instructions (R178 to R182) -/

/-- A buffer returns from a circular buffer that is unbound: an acquire with the last lend. -/
def unbindCb (s : State) (n : CbN) : State :=
  let b := cbAt s.h n
  if !b.bound then s
  else
    let i := hIndex b.handle
    let s := modH s fun h => setCb h n Cb.unbound
    match capAt s i with
    | none => s
    | some c =>
      let last := c.lends ≤ 1 && c.state == .lent
      let s := updCap s i fun c => { c with
        lends := c.lends - 1
        state := if last then .owned else c.state
        lendcb := c.lendcb && !last }
      if last then acquire s i else s

/-- Reserved bits of a geometry value (R175). -/
def geomReserved : Word := 0xFFF8E000F000F000#64

/-- Two ranges, given by start and length, overlap. -/
def overlaps (a b : Nat × Nat) : Bool := a.1 < b.1 + b.2 && b.1 < a.1 + a.2

/-- A geometry that can be bound (R179): `n` is the circular buffer to bind. -/
def geomOk (h : Hart) (n : CbN) (hv g : Word) (length : Nat) : Bool :=
  let region := (gOffset g, gCount g * gSize g)
  g &&& geomReserved == 0 && gProd g ≤ 2 && 1 ≤ gCount g && gCount g ≤ 4096 && gSize g != 0 &&
    region.1 + region.2 ≤ length &&
    (List.finRange 16).all fun k =>
      let b := cbAt h k
      k == n || !b.bound || hIndex b.handle != hIndex hv || !overlaps region b.region

/-- The handle check of CBCFG: WHOLE, and OWNED or LENT to circular buffers. -/
def bindable (s : State) (hv : Word) : Res Cap := do
  let (g, c) ← checkHandle s hv false
  if g.kind != .whole then .error (.trap causeCapability hv)
  else if c.state == .owned || (c.state == .lent && c.lendcb) then .ok c
  else if c.state == .lent then .error (.stall s)
  else .error (.trap causeCapability hv)

/-- CBCFG (R179, R309). -/
def cbcfgBody (n : CbN) (rs1 rs2 : Reg) (s : State) : Res State := do
  let b := cbAt s.h n
  let hv := rx s rs1
  let g := rx s rs2
  if s.h.cbufs ≤ n.val then .error (.trap causeCapability 0)
  if b.bound && ((s.h.cmds.any fun c => c.op.names n) || b.resv != 0 || b.held != 0) then .error (.trap causeCapability b.handle)
  if hv = 0 then .ok (unbindCb s n)
  else do
    let c ← bindable s hv
    if c.level != .tile || (c.base - 0x010000000000) / 0x100000 != myTile s then .error (.trap causeCapability hv)
    if !geomOk s.h n hv g c.length then .error (.trap causeLayout g)
    let i := hIndex hv
    let t ← release s i
    let t := dropResv (unbindCb t n) c
    let t := updCap t i fun c => { c with state := .lent, lendcb := true, lends := c.lends + 1 }
    .ok (modH t fun h => setCb h n { Cb.unbound with bound := true, handle := hv, geom := g })
def execCbcfg (n : CbN) (rs1 rs2 : Reg) (s : State) : Host.Outcome State Fault Refusal := seq s (cbcfgBody n rs1 rs2 s)

/-- The circular buffer that CBACQ and CBREL work: bound, with a side for the hart. -/
def handSide (s : State) (n : CbN) : Res Cb :=
  let b := cbAt s.h n
  if !b.bound then .error (.trap causeCapability 0)
  else if gProd b.geom = 2 then .error (.trap causeCapability b.handle)
  else .ok b

/-- Open a window in a circular buffer: an acquire of its slots, of which the tile's L1 caches then hold no copy (R116, R181). -/
def openWindow (s : State) (n : CbN) (b : Cb) : State :=
  let s := modH s fun h => setCb h n b
  match capAt s (hIndex b.handle) with
  | some c =>
    let mine (a : Nat) : Bool := c.base ≤ a && a < c.base + c.length && cbAdmits b (a - c.base) == some true
    updTile s (myTile s) fun t => { t with l1d := t.l1d.filter fun k => !mine k.1, l1i := t.l1i.filter fun k => !mine k.1 }
  | none => s

/-- CBACQ (R180). -/
def cbacqBody (n : CbN) (rs1 : Reg) (s : State) : Res State := do
  let b ← handSide s n
  let k := (rx s rs1).toNat
  if k = 0 then .ok s
  else if gCount b.geom < k then .error (.trap causeCapability b.handle)
  else if gProd b.geom = 0 then
    if b.filled + k ≤ gCount b.geom then .ok (openWindow s n { b with resv := max b.resv k })
    else stallOrDeadlock s n.val
  else if k ≤ b.filled then .ok (openWindow s n { b with held := max b.held k })
  else stallOrDeadlock s n.val
def execCbacq (n : CbN) (rs1 : Reg) (s : State) : Host.Outcome State Fault Refusal := seq s (cbacqBody n rs1 s)

/-- CBREL (R180). -/
def cbrelBody (n : CbN) (rs1 : Reg) (s : State) : Res State := do
  let b ← handSide s n
  let k := (rx s rs1).toNat
  if k = 0 then .ok s
  else if (if gProd b.geom = 0 then b.resv else b.held) < k then .error (.trap causeCapability b.handle)
  else if gProd b.geom = 0 then
    .ok (modH s fun h => setCb h n { b with pushed := b.pushed + BitVec.ofNat 32 k, resv := b.resv - k })
  else .ok (modH s fun h => setCb h n { b with popped := b.popped + BitVec.ofNat 32 k, held := b.held - k })
def execCbrel (n : CbN) (rs1 : Reg) (s : State) : Host.Outcome State Fault Refusal := seq s (cbrelBody n rs1 s)

/-- CBQRY's snapshot (R182). -/
def cbSnapshot (h : Hart) (n : CbN) : Word :=
  let b := cbAt h n
  if !b.bound then 0
  else
    let cmds := (h.cmds.filter fun c => c.op.names n).length
    word (min cmds 32 * 2 ^ 56 + 2 ^ 54 + gProd b.geom * 2 ^ 52 + b.held % 2 ^ 13 * 2 ^ 39 + b.resv % 2 ^ 13 * 2 ^ 26 +
      b.room % 2 ^ 13 * 2 ^ 13 + b.avail % 2 ^ 13)

/-- CBQRY. -/
def execCbqry (rd : Reg) (n : CbN) (s : State) : Host.Outcome State Fault Refusal := seq s (.ok (wx s rd (cbSnapshot s.h n)))

end Sys2Proof.Machine
end

