-- ==== Sys2Proof/Machine/Matrix.lean ====
section
/-! DEFINITION. The matrix unit: operand images (R194), MMA with its checks, sums, progress and resumption (R193 to R202), MCFG,
MZERO, MLDACC, MSTACC and MDRAIN (R192, R203 to R207). -/

namespace Sys2Proof.Machine

/-! Accumulators (R189) -/

/-- An accumulator of a hart: element (i, j) at 256i + j, +0 where nothing is listed. -/
def accOf (h : Hart) (a : Fin 2) : Tbl (BitVec 32) := if a = 0 then h.acc0 else h.acc1
/-- Replace an accumulator; its four image groups become dirty (R329). -/
def setAcc (h : Hart) (a : Fin 2) (t : Tbl (BitVec 32)) : Hart :=
  if a = 0 then (((Hart.touch { h with acc0 := t } 3).touch 4).touch 5).touch 6
  else (((Hart.touch { h with acc1 := t } 7).touch 8).touch 9).touch 10
/-- An accumulator as a table, from its 16,384 elements in order. -/
def accTbl (l : List Nat) : Tbl (BitVec 32) :=
  ((rangeFrom 0 l.length).zip l).filterMap fun p => if p.2 = 0 then none else some (p.1, BitVec.ofNat 32 p.2)
/-- The 16,384 elements in order. -/
def accList (t : Tbl (BitVec 32)) : List Nat := (rangeFrom 0 16384).map fun k => (tgetD t k 0).toNat

/-! Images (R193, R194) -/

/-- Formats of A and B of a pair code; none for bit planes. -/
def pairFmts (p : Fin 12) : Option NarrowFmt × Option NarrowFmt :=
  match p.val with
  | 0 => (some .fp4, some .fp4) | 1 => (some .fp4, some .e4m3) | 2 => (some .e4m3, some .e4m3) | 3 => (some .e4m3, some .e5m2)
  | 4 => (some .e5m2, some .e4m3) | 5 => (some .e5m2, some .e5m2) | 6 => (some .bf16, some .bf16) | 7 => (some .fp16, some .fp16)
  | 8 => (some .int8, some .int8) | 9 => (some .int8, some .int4) | 10 => (none, some .int8) | _ => (none, none)
/-- Pairs with block scales. -/
def pairScaled (p : Fin 12) : Bool := p.val ≤ 5 || p.val = 8 || p.val = 9

/-- K of an MMA. -/
def MmaCmd.k (c : MmaCmd) : Nat := 32 * (c.kc + 1)
/-- Blocks of an MMA. -/
def MmaCmd.blocks (c : MmaCmd) : Nat := c.k / 8
/-- Whether the images of an MMA carry scales. -/
def MmaCmd.scaled (c : MmaCmd) : Bool := pairScaled c.pair && !c.uscale

/-- Bytes of the elements of an image of `side` rows or columns. -/
def elemBytes (f : Option NarrowFmt) (side k : Nat) : Nat := match f with | none => side * k | some f => side * k * f.bits / 8
/-- Bytes of an image. -/
def imageBytes (f : Option NarrowFmt) (side k : Nat) (scaled : Bool) : Nat := elemBytes f side k + if scaled then side * (k / 8) else 0
/-- Bytes of the panel of one K-block, but for its scales; the bit planes of a K-range are the panel of each of its blocks. -/
def panelBytes (f : Option NarrowFmt) (side : Nat) : Nat := match f with | none => 128 * side | some f => side * f.bits
/-- Offset of the panel of a K-block. -/
def panelAt (f : Option NarrowFmt) (side blk : Nat) : Nat :=
  match f with | none => blk / 16 * panelBytes f side | some _ => blk * panelBytes f side
/-- Byte of an image. -/
def imgByte (img : Array Byte) (n : Nat) : Nat := (img.getD n 0).toNat

/-- Element (i or j, k) of an image (R57, R58, R194). -/
def imgElem (f : Option NarrowFmt) (planes side : Nat) (img : Array Byte) (i k : Nat) : FV :=
  match f with
  | none =>
    let g := 128 * (k / 128 * side + i)
    intValue 8 (planeCode (img.extract g (g + 128)).toList planes (k % 128))
  | some f =>
    let n := k / 8 * (8 * side) + 8 * i + k % 8
    f.value (match f.bits with
      | 4 => imgByte img (n / 2) / 16 ^ (n % 2) % 16
      | 8 => imgByte img n
      | _ => imgByte img (2 * n) + 256 * imgByte img (2 * n + 1))

/-- Scale (i or j, blk) of an image (R59, R60, R194). -/
def imgScale (c : MmaCmd) (f : Option NarrowFmt) (side : Nat) (img : Array Byte) (i blk : Nat) : FV :=
  if c.scaled then scaleValue c.bsf (imgByte img (elemBytes f side c.k + side * blk + i)) else .fin false 1 0

/-- The sum of one output over the K-blocks from `lo` on (R62, R197). `ca` is the member's command, whose A it is; `cb` the leader's. -/
def sumBlocks (ca cb : MmaCmd) (a b : Array Byte) (i j lo n : Nat) (p : PCell) : PCell :=
  let (fa, fb) := pairFmts ca.pair
  (rangeFrom lo n).foldl (fun p blk =>
    let sp := scaleProduct (imgScale ca fa 64 a i blk) (imgScale cb fb 256 b j blk)
    (rangeFrom (8 * blk) 8).foldl (fun p k =>
      p.addTerm sp (imgElem fa (ca.pla + 2) 64 a i k) (imgElem fb (cb.plb + 2) 256 b j k)) p) p

/-- The partial state of every output after K-blocks `lo` to `lo + n - 1`. -/
def sumAll (ca cb : MmaCmd) (a b : Array Byte) (lo n : Nat) (part : Tbl PCell) : Tbl PCell :=
  (rangeFrom 0 16384).map fun e => (e, sumBlocks ca cb a b (e / 256) (e % 256) lo n (tgetD part e PCell.zero))

/-! Operand bytes -/

/-- Offset in its buffer of byte `p` of an operand that starts in a slot (R183). -/
def ringOff (b : Cb) (slot p : Nat) : Nat :=
  b.region.1 + (slot * gSize b.geom + p) % (if b.region.2 = 0 then 1 else b.region.2)

/-- Bytes that an engine reads from slots. -/
def cbRead (s : State) (b : Cb) (slot n : Nat) : List Byte :=
  match capAt s (hIndex b.handle) with
  | some c => (rangeFrom 0 n).map fun p => Memory.get s.mem (c.base + ringOff b slot p)
  | none => []
/-- Bytes that an engine writes to slots. -/
def cbWrite (s : State) (b : Cb) (slot : Nat) (bytes : List Byte) : State :=
  match capAt s (hIndex b.handle) with
  | some c => ((rangeFrom 0 bytes.length).zip bytes).foldl (fun s p => putMem s (c.base + ringOff b slot p.1) p.2) s
  | none => s

/-- The partition of a hart's context. -/
def hartPid (s : State) (h : Hart) : Nat := match ctxOf s h.ctx with | some c => c.pid | none => 0

/-- The physical addresses of the lines of a handle image. -/
def imagePas (s : State) (hv : Word) (va n : Nat) : List (Option Nat) :=
  match capAt s (hIndex hv) with
  | some c => (rangeFrom 0 ((n + 127) / 128)).map fun k => bufOff s (hIndex hv) c (va - c.base + 128 * k)
  | none => []

/-- The lines of a handle image at their read points; none for an unreadable one. -/
def imageLines (s : State) (h : Hart) (hv : Word) (va n : Nat) : List (Option (List Byte)) :=
  (imagePas s hv va n).map fun pa => pa.bind fun pa => linePlain s (hartPid s h) pa

/-- The lines of an operand of a hart's command; `nth` is its place among the command's claims. -/
def opndLines (s : State) (h : Hart) (c : EngCmd) (o : Opnd) (nth n : Nat) : List (Option (List Byte)) :=
  match o with
  | .cb k _ => [some (cbRead s (cbAt h k) (match c.starts[nth]? with | some p => p.2 | none => 0) n)]
  | .image hv va => imageLines s h hv va n
  | .leader => []

/-- The first byte of a range of an image that lies in a line for which `bad` holds. -/
def badIn (bad : Nat → Bool) (a n : Nat) : Option Nat :=
  ((rangeFrom (a / 128) ((a % 128 + n + 127) / 128)).find? bad).map fun l => max a (128 * l)

/-- The first byte that a K-block reads of an image, panel before scales, in a line for which `bad` holds (R194, R201). -/
def blockBad (bad : Nat → Bool) (f : Option NarrowFmt) (side k : Nat) (scaled : Bool) (blk : Nat) : Option Nat :=
  match badIn bad (panelAt f side blk) (panelBytes f side) with
  | some a => some a
  | none => if scaled then badIn bad (elemBytes f side k + side * blk) side else none

/-- The lines of an image that cannot be read. -/
def unread (l : List (Option (List Byte))) (n : Nat) : Bool := match l[n]? with | some o => o.isNone | none => false
/-- The bytes of lines that can be read. -/
def lineBytes (l : List (Option (List Byte))) : Array Byte := (l.map fun b => b.getD []).flatten.toArray

/-- A command as an MMA. -/
def EngCmd.mma? (c : EngCmd) : Option MmaCmd := match c.op with | .mma k => some k | _ => none

/-- The lines of A of a hart's MMA. -/
def aLines (s : State) (p : Hart × EngCmd) (c : MmaCmd) : List (Option (List Byte)) :=
  opndLines s p.1 p.2 c.a 0 (imageBytes (pairFmts c.pair).1 64 c.k c.scaled)
/-- The lines of B of the leader's MMA. -/
def bLines (s : State) (p : Hart × EngCmd) (c : MmaCmd) : List (Option (List Byte)) :=
  opndLines s p.1 p.2 c.b c.a.ins.length (imageBytes (pairFmts c.pair).2 256 c.k c.scaled)

/-! Direct MMAs in progress (R195, R200) -/

/-- A direct MMA: a handle operand, of its own or of the gang's leader. -/
def EngCmd.direct (c : EngCmd) : Bool := match c.mma? with | some k => k.f2 != 0 | none => false
/-- The direct MMA at which a hart stalls. -/
def runningDirect (h : Hart) : Option EngCmd := h.cmds.find? fun c => c.direct && !c.susp
/-- The suspended direct MMA of a hart. -/
def suspendedDirect (h : Hart) : Option EngCmd := h.cmds.find? fun c => c.direct && c.susp && bitAt h.csr.mprog 63

/-- `mprog` for an MMA (R200). -/
def mprogOf (c : MmaCmd) (kdone : Nat) : Word :=
  word (2 ^ 63 + c.gsz * 2 ^ 20 + c.kc * 2 ^ 16 + c.f2 * 2 ^ 13 + c.acc.val * 2 ^ 12 + c.pair.val * 2 ^ 8 + kdone)

/-- Write `mprog`. -/
def Hart.putMprog (h : Hart) (v : Word) : Hart := Hart.touch { h with csr := { h.csr with mprog := v } } 11

/-! A REMOTE operand (R201) -/

/-- The address of the REMOTE image of B, and its handle. -/
def remoteB (s : State) (c : MmaCmd) : Option (Word × Nat) :=
  match c.b with
  | .image hv va => match capAt s (hIndex hv) with
    | some e => if e.level == .remote then some (hv, va) else none
    | none => none
  | .cb _ _ | .leader => none

/-- The lines of B that a K-block reads. -/
def blockLines (c : MmaCmd) (blk : Nat) : List Nat :=
  let f := (pairFmts c.pair).2
  uniq (linesOf (panelAt f 256 blk) (panelBytes f 256) ++
    if c.scaled then linesOf (elemBytes f 256 c.k + 256 * blk) 256 else [])

/-- Set or clear the pin of a line that the remote partition holds. -/
def pinLine (s : State) (pa q : Nat) (on : Bool) : State :=
  match findTag s pa q with
  | some (key, t) => putTag s (homeSlice pa) key { t with pin := on }
  | none => s

/-- The operand fetcher reads the panel of a K-block and pins its lines in the remote partition. False when a slice stalls. -/
def fetchBlock (q va : Nat) (c : MmaCmd) (s : State) (blk : Nat) : State × Bool :=
  doAll (fun s l => match fillLine s (va + l) q with
    | (s, true) => (pinLine s (va + l) q true, true)
    | (s, false) => (s, false)) (blockLines c blk) s

/-- The lines of B are unpinned: the MMA has consumed them, has trapped or has stopped. -/
def releaseB (s : State) (h : Hart) (c : MmaCmd) : State :=
  match remoteB s c with
  | some (_, va) => ((uniq ((rangeFrom 0 c.blocks).flatMap (blockLines c))).foldl (fun s l => pinLine s (va + l) (hartPid s h) false) s)
  | none => s

/-- The link over which a REMOTE line comes carries traffic. -/
def remoteUp (s : State) (pa : Nat) : Bool := (portAt s (routePort s (pa / 2 ^ 47 % 256))).carries

/-- The first of some K-blocks whose panel needs a link that carries nothing, with the first byte that it lacks (R201). -/
def linkBad (s : State) (h : Hart) (c : MmaCmd) (from_ : Nat) : Option (Nat × Nat) :=
  (remoteB s c).bind fun b =>
    let missing (l : Nat) : Bool := (findTag s (b.2 + 128 * l) (hartPid s h)).isNone && !remoteUp s (b.2 + 128 * l)
    firstSome (fun blk => (blockBad missing (pairFmts c.pair).2 256 c.k c.scaled blk).map fun a => (blk, a))
      (rangeFrom from_ (c.blocks - from_))

/-- Read the panels of K-blocks `lo` to `lo + n - 1`, each pinned until the block that uses it is consumed. A block whose link is down ends
it, as `linkBad` reports. False when a slice stalls. -/
def fetchBlocks (s : State) (h : Hart) (c : MmaCmd) (lo n : Nat) : State × Bool :=
  match remoteB s c with
  | some (_, va) =>
    let n := match linkBad s h c lo with | some (blk, _) => min n (blk - lo) | none => n
    doAll (fetchBlock (hartPid s h) va c) (rangeFrom lo n) s
  | none => (s, true)

/-- The fetcher of a direct MMA that starts reads its first two panels (R201, R202's example). -/
def firstPanels (s : State) (loc : Nat) : State :=
  match (findHart s loc).bind fun h => (runningDirect h).bind fun c => c.mma?.map fun k => (h, c, k) with
  | some (h, c, k) => (fetchBlocks s h k c.done (min 2 (k.blocks - c.done))).1
  | none => s

/-- The members' reads of their operands are accesses of the slices that hold the lines (R159, R168). -/
def noteOperands (s : State) (ms : List (Hart × EngCmd)) : State :=
  ms.foldl (fun s p =>
    let pas (o : Opnd) (n : Nat) : List Nat := match o with | .image hv va => (imagePas s hv va n).filterMap id | .cb _ _ | .leader => []
    match p.2.mma? with
    | some c => noteRead s (hartPid s p.1)
        (pas c.a (imageBytes (pairFmts c.pair).1 64 c.k c.scaled) ++ pas c.b (imageBytes (pairFmts c.pair).2 256 c.k c.scaled))
    | none => s) s

/-- Suspend the direct MMA that a hart and its gang run, at a K-block boundary: P, `mprog` and the command are kept (R200 to R202). -/
def stopMma (s : State) (ms : List (Hart × EngCmd)) (kb : Nat) : State :=
  match ms.head?, ms.head?.bind fun l => l.2.mma? with
  | some l, some cl =>
    let b := lineBytes (bLines s l cl)
    let read := (fetchBlocks s l.1 cl l.2.done (kb - l.2.done)).1
    ms.foldl (fun t p => match p.2.mma? with
      | some c =>
        let part := sumAll c cl (lineBytes (aLines s p c)) b p.2.done (kb - p.2.done) p.2.part
        updHart t p.1.loc fun h =>
          updCmd (h.putMprog (mprogOf cl kb)) p.2.id fun k => { k with susp := true, done := kb, part := part }
      | none => t) (releaseB (noteOperands read ms) l.1 cl)
  | _, _ => s

/-- The direct MMA that the executing hart and its gang run. -/
def runningMma (s : State) : Option (List (Hart × EngCmd)) :=
  match gangHarts s s.h with
  | l :: _ => (runningDirect l).map fun c => mates s l c
  | [] => none

/-- The K-block boundary at which an interrupt or a pre-emption stops an MMA that has done `k` of `nb` blocks (R202): a free value; none
in the last block, which completes first. -/
def boundary (s : State) (k nb : Nat) : Option Nat × State :=
  if nb ≤ k + 1 then (none, s)
  else
    let (d, s) := draw s
    (some (k + 1 + Config.mmaBoundary d % (nb - 1 - k)), s)

/-- Suspend the direct MMA of the executing hart before an interrupt or a pre-emption; none when it has to complete first. -/
def suspendMma (s : State) : Option State :=
  match runningMma s with
  | some (l :: r) =>
    match l.2.mma? with
    | some c => match boundary s l.2.done c.blocks with
      | (some kb, s) => some (stopMma s (l :: r) (match linkBad s l.1 c l.2.done with | some (blk, _) => min kb blk | none => kb))
      | (none, _) => none
    | none => some s
  | some [] | none => some s

/-- Discard a command of a hart: the lines that it has pinned in the remote partition are unpinned (R170, R201). -/
def discardCmd (s : State) (h : Hart) (c : EngCmd) : State :=
  endCmd (match c.mma? with | some k => releaseB s h k | none => s) h.loc c false

/-- Discard the suspended direct MMA of a hart: P, `mprog`, claims and lends go (R200). -/
def abandonMma (s : State) (loc : Nat) : State :=
  match findHart s loc with
  | none => s
  | some h =>
    let s := match suspendedDirect h with | some c => endCmd s loc c false | none => s
    updHart s loc fun h => Hart.putMprog { h with mpart := [] } 0

/-- MPROG_WRITE: 0 abandons; any other value is ignored (R200). -/
def mprogPut (s : State) (v : Word) : Res State := .ok (if v = 0 then abandonMma s s.h.loc else s)
def execMprogWrite (c : CsrArg) (s : State) : Host.Outcome State Fault Refusal := seq s (csrBody s 0x808 c mprogPut)

/-! MCFG (R191, R192) -/

/-- Reserved bits of `mcfg`. -/
def mcfgReserved : Word := 0x0000000000FF08C0#64

/-- MCFG. -/
def mcfgBody (rs1 : Reg) (s : State) : Res State :=
  let v := rx s rs1
  if v &&& mcfgReserved != 0 || fld v 8 3 = 7 || fld v 12 3 = 7 then .error (.trap causeEngine v)
  else .ok (mark (modC s fun c => { c with mcfg := v }) 13)
def execMcfg (rs1 : Reg) (s : State) : Host.Outcome State Fault Refusal := seq s (mcfgBody rs1 s)

/-! Issue of an MMA (R196, R199) -/

/-- The CSRs of the leader of the executing hart's gang. -/
def leaderCsr (s : State) : Csrs := match gangHarts s s.h with | l :: _ => l.csr | [] => s.h.csr
/-- The code of the gang's size (R200), and its leader. -/
def gangSize (s : State) : Nat := match (gangHarts s s.h).length with | 2 => 1 | 4 => 2 | 8 => 3 | _ => 0
def gangLead (s : State) : Nat := match s.h.gang with | some g => g.members.headD s.h.loc | none => s.h.loc

/-- f2 of an MMA word (R193). -/
def srcBits (a b : MatSrc) : Nat :=
  (match a with | .handle _ => 1 | .cb _ => 0) + (match b with | .handle _ => 2 | .cb _ => 0)

/-- An MMA of the executing hart but for its operands. It keeps the tensor scale f[rs3] for every pair, also those for which R60 makes
each block scale 1 (log 74). -/
def mmaShape (s : State) (pair : Fin 12) (m : Fin 2) (a b : MatSrc) (fs3 : Reg) : MmaCmd :=
  let g := (leaderCsr s).mcfg
  { pair := pair, acc := m, a := .leader, b := .leader, f2 := srcBits a b, ts := BitVec.ofNat 32 (readF s .s fs3), kc := fld g 0 4,
    uscale := bitAt g 5, bsf := bitAt g 4, pla := fld s.h.csr.mcfg 8 3, plb := fld g 12 3, gsz := gangSize s, leader := gangLead s,
    nth := (s.h.gang.map (·.mmas)).getD 0 }

/-- Check 1 of R196. -/
def progressOk (s : State) (c : MmaCmd) : Bool := !bitAt s.h.csr.mprog 63 || s.h.csr.mprog.toNat / 128 = (mprogOf c 0).toNat / 128

/-- Check 2 of R196. -/
def planesOk (c : MmaCmd) : Bool :=
  let (fa, fb) := pairFmts c.pair
  (fa.isSome || (c.pla != 7 && c.k % 128 = 0)) && (fb.isSome || c.plb != 7)

/-- Lends of an entry to the suspended direct MMA of the executing hart. -/
def ownLends (s : State) (i : Nat) : Nat := match suspendedDirect s.h with | some c => (c.lends.filter (· == i)).length | none => 0

/-- Check 3 of R196 on one handle: its holding and entry. -/
def mmaHandle (s : State) (hv : Word) : Res (Holding × Cap) := do
  let (g, c) ← checkHandle s hv true
  match g.kind with
  | .whole =>
    if c.state == .owned || (c.state == .lent && !c.lendcb && c.lends ≤ ownLends s g.index) then .ok (g, c)
    else if c.state == .lent && !c.lendcb then .error (.stall s)
    else .error (.trap causeCapability hv)
  | .share => if c.state == .shared then .ok (g, c) else .error (.trap causeCapability hv)
  | .deposit | .notice => .error (.trap causeCapability hv)

/-- A handle operand under check: the handle, offset and size of its image, its layout, and whether it may be REMOTE. -/
structure ImageArg where
  hv : Word
  off : Nat
  size : Nat
  layout : Nat
  isB : Bool
  deriving DecidableEq, Repr

/-- Layout code that an MMA states for a format: LINEAR or BPLANE. -/
def statedLayout (f : Option NarrowFmt) : Nat := if f.isSome then 0 else 4

/-- The handle operands of an MMA, A before B; only the leader has B. -/
def imageArgs (s : State) (c : MmaCmd) (a b : MatSrc) : List ImageArg :=
  let (fa, fb) := pairFmts c.pair
  let la := match a with
    | .handle r => [ImageArg.mk (rx s r) (65536 * fld s.h.csr.mcfg 24 16) (imageBytes fa 64 c.k c.scaled) (statedLayout fa) false]
    | .cb _ => []
  let lb := match b with
    | .handle r =>
      if s.h.loc = c.leader then
        [ImageArg.mk (rx s r) (65536 * fld s.h.csr.mcfg 40 24) (imageBytes fb 256 c.k c.scaled) (statedLayout fb) true]
      else []
    | .cb _ => []
  la ++ lb

/-- Run a check over a list, in order. -/
def each {α : Type} (f : α → Res Unit) : List α → Res Unit
  | [] => .ok ()
  | a :: r => do
    f a
    each f r

/-- Check 4 of R196 on one handle. -/
def levelOk (s : State) (a : ImageArg) : Res Unit :=
  match capAt s (hIndex a.hv) with
  | some c => match c.level with
    | .tile | .cluster | .device => .ok ()
    | .remote => check a.isB causeEngine a.hv
    | .host | .pool => .error (.trap causeEngine a.hv)
  | none => .ok ()

/-- Check 5 of R196 on one handle. -/
def imageOk (s : State) (a : ImageArg) : Res Unit :=
  match capAt s (hIndex a.hv) with
  | some c =>
    if c.length < a.off + a.size then .error (.trap causeEngine a.hv)
    else check (c.layout = a.layout) causeLayout a.hv
  | none => .ok ()

/-- Check 7 of R196: the pages of the local handle images. -/
def probeImages (s : State) : List ImageArg → Res (List (Nat × Nat) × State)
  | [] => .ok ([], s)
  | a :: r =>
    match capAt s (hIndex a.hv) with
    | some c => do
      let (l, s) ← if c.level == .device then probeRange false s .load (c.base + a.off) a.size else .ok ([], s)
      let (m, s) ← probeImages s r
      .ok (l ++ m, s)
    | none => probeImages s r

/-- An operand as it stands at issue, after its checks: check 6 of R196 for a circular buffer. -/
def mmaOpnd (s : State) (o : MatSrc) (f : Option NarrowFmt) (side off : Nat) (c : MmaCmd) : Res Opnd :=
  match o with
  | .cb n => do
    let need ← checkCb s n (imageBytes f side c.k c.scaled) false (statedLayout f)
    .ok (.cb n need)
  | .handle r =>
    match capAt s (hIndex (rx s r)) with
    | some e => .ok (.image (rx s r) (e.base + off))
    | none => .error (.trap causeCapability (rx s r))

/-- The command that an MMA of the executing hart comes to, after checks 1 to 7 of R196. -/
def planMma (s : State) (pair : Fin 12) (m : Fin 2) (a b : MatSrc) (fs3 : Reg) : Res (EngCmd × State) := do
  needF s
  let c := mmaShape s pair m a b fs3
  let (fa, fb) := pairFmts pair
  if !progressOk s c then .error (.trap causeEngine s.h.csr.mprog)
  if !planesOk c then .error (.trap causeEngine s.h.csr.mcfg)
  let args := imageArgs s c a b
  each (fun x => do
    let _ ← mmaHandle s x.hv
    .ok ()) args
  each (levelOk s) args
  each (imageOk s) args
  let oa ← mmaOpnd s a fa 64 (65536 * fld s.h.csr.mcfg 24 16) c
  let ob ← if s.h.loc = c.leader then mmaOpnd s b fb 256 (65536 * fld s.h.csr.mcfg 40 24) c else .ok .leader
  let (pages, s) ← probeImages s args
  let whole := args.filter fun x => hKind x.hv == some .whole
  let share := args.filter fun x => hKind x.hv == some .share
  .ok ({ newCmd s (.mma { c with a := oa, b := ob }) true with
    lends := uniq (whole.map fun x => hIndex x.hv)
    pins := share.map fun x => (hIndex x.hv, hUnits x.hv)
    pages := pages.eraseDups }, s)

/-- A direct MMA goes ahead at once: an entry of the queue, its slots, no earlier unfired matrix command, no earlier unfired copy that names
one of its circular buffers, and no earlier MMA or command on its accumulator still running (R184, R186, R190). -/
def directReady (h : Hart) (c : EngCmd) (m : Fin 2) : Bool :=
  (h.cmds.filter (·.queued)).length < 32 && (lacks h c.op).isEmpty &&
    h.cmds.all fun e => match e.op with
      | .mma _ => false
      | .mzero a | .mldacc a _ _ | .mstacc a _ _ => e.fired && a != m
      | .mdrain d => e.fired && d.acc != m
      | .copy _ => e.fired || c.op.ins.all fun p => !e.op.names p.1

/-- The executing hart has issued a part of an MMA of its gang (R199). -/
def countMma (s : State) : State := modH s fun h => { h with gang := h.gang.map fun g => { g with mmas := g.mmas + 1 } }

/-- The executing hart's part of a direct MMA starts: it takes over the suspended command, or enters and fires a new one, with the P that
CTXLOAD restored if there is one (R200). -/
def startDirect (s : State) (c : EngCmd) : Res State :=
  match suspendedDirect s.h, c.mma? with
  | some old, some k =>
    .ok (modH s fun h => updCmd h old.id fun o => match o.op with
      | .mma m => { o with susp := false, op := .mma { m with ts := k.ts }, pages := c.pages }
      | _ => o)
  | _, _ => do
    let s ← lendAll s c.lends
    let act := bitAt s.h.csr.mprog 63
    let c := if act then { c with done := fld s.h.csr.mprog 0 7, part := s.h.mpart } else c
    let s := countMma (addCmd s c)
    .ok (modH s fun h => Hart.touch { fireCmd h c with mpart := [] } 11)

/-- Start a direct MMA in every member, in the leader's mode. -/
def startAll (md : Mode) (pair : Fin 12) (m : Fin 2) (a b : MatSrc) (fs3 : Reg) : List Nat → State → Res State
  | [], s => .ok s
  | l :: r, s =>
    match switchTo s l with
    | some t => do
      let own := t.h.mode
      let (c, t) ← planMma (modH t fun h => { h with mode := md }) pair m a b fs3
      let t := modH t fun h => { h with mode := own }
      if (suspendedDirect t.h).isSome || directReady t.h c m then do
        let t ← startDirect t c
        startAll md pair m a b fs3 r t
      else stallOrDeadlock t (least (lacks t.h c.op) 0)
    | none => startAll md pair m a b fs3 r s

/-- What stays when a direct MMA cannot start: what the releases of a member's buffers have begun. -/
def notStarted (s : State) : Exc → State
  | .stall t | .point t => carryRolls s t
  | .trap _ _ | .trapAt _ _ _ => s

/-- A direct MMA that does not start waits; one that lacks slots raises CB_DEADLOCK when its tile is starved, also with no earlier command
queued, a case that R187 does not name (log 91). -/
def mmaWaits (s : State) (h : Hart) (c : EngCmd) (m : Fin 2) : Res State :=
  if (suspendedDirect h).isSome || directReady h c m then .error (.point s) else stallOrDeadlock s (least (lacks h c.op) 0)

/-- MMA. A queued one enters the queue; a direct one starts in every member at the leader, and the hart stalls at it until
ENGINE_COMMAND_COMPLETE retires it or it traps. What another member's part meets is that member's own to report (R271). -/
def mmaBody (pair : Fin 12) (m : Fin 2) (a b : MatSrc) (fs3 : Reg) (s : State) : Res State :=
  if (runningDirect s.h).isSome then .error (.point s)
  else do
    let (c, t) ← planMma s pair m a b fs3
    if !c.direct then do
      queueRoom t
      .ok (countMma (issueCmd t c))
    else if s.h.loc != gangLead s then
      mmaWaits s s.h c m
    else
      match startAll s.h.mode pair m a b fs3 (gangLocs s) s with
      | .ok u =>
        let u := (switchTo u s.h.loc).getD u
        let id := match runningDirect u.h with | some c => c.id | none => 0
        .error (.point (enqueue (firstPanels u s.h.loc) (.engineCommandComplete s.h.loc id)))
      | .error e => mmaWaits (notStarted s e) s.h c m

def execMmaF4f4 (m : Fin 2) (a b : MatSrc) (fs3 : Reg) (s : State) : Host.Outcome State Fault Refusal := seq s (mmaBody 0 m a b fs3 s)
def execMmaF4e4 (m : Fin 2) (a b : MatSrc) (fs3 : Reg) (s : State) : Host.Outcome State Fault Refusal := seq s (mmaBody 1 m a b fs3 s)
def execMmaE4e4 (m : Fin 2) (a b : MatSrc) (fs3 : Reg) (s : State) : Host.Outcome State Fault Refusal := seq s (mmaBody 2 m a b fs3 s)
def execMmaE4e5 (m : Fin 2) (a b : MatSrc) (fs3 : Reg) (s : State) : Host.Outcome State Fault Refusal := seq s (mmaBody 3 m a b fs3 s)
def execMmaE5e4 (m : Fin 2) (a b : MatSrc) (fs3 : Reg) (s : State) : Host.Outcome State Fault Refusal := seq s (mmaBody 4 m a b fs3 s)
def execMmaE5e5 (m : Fin 2) (a b : MatSrc) (fs3 : Reg) (s : State) : Host.Outcome State Fault Refusal := seq s (mmaBody 5 m a b fs3 s)
def execMmaBfbf (m : Fin 2) (a b : MatSrc) (fs3 : Reg) (s : State) : Host.Outcome State Fault Refusal := seq s (mmaBody 6 m a b fs3 s)
def execMmaHfhf (m : Fin 2) (a b : MatSrc) (fs3 : Reg) (s : State) : Host.Outcome State Fault Refusal := seq s (mmaBody 7 m a b fs3 s)
def execMmaI8i8 (m : Fin 2) (a b : MatSrc) (fs3 : Reg) (s : State) : Host.Outcome State Fault Refusal := seq s (mmaBody 8 m a b fs3 s)
def execMmaI8i4 (m : Fin 2) (a b : MatSrc) (fs3 : Reg) (s : State) : Host.Outcome State Fault Refusal := seq s (mmaBody 9 m a b fs3 s)
def execMmaBpi8 (m : Fin 2) (a b : MatSrc) (fs3 : Reg) (s : State) : Host.Outcome State Fault Refusal := seq s (mmaBody 10 m a b fs3 s)
def execMmaBpbp (m : Fin 2) (a b : MatSrc) (fs3 : Reg) (s : State) : Host.Outcome State Fault Refusal := seq s (mmaBody 11 m a b fs3 s)

/-! The drain path (R203 to R206) -/

/-- Check 1 of R196 for a drain-path command: not on the accumulator of a suspended MMA (R200). -/
def accFree (s : State) (m : Fin 2) : Res Unit :=
  check (!bitAt s.h.csr.mprog 63 || fld s.h.csr.mprog 12 1 != m.val) causeEngine s.h.csr.mprog

/-- Issue a drain-path command. -/
def issueDrain (s : State) (op : EngOp) : Res State := do
  queueRoom s
  .ok (issueCmd s (newCmd s op true))

/-- MZERO. -/
def mzeroBody (m : Fin 2) (s : State) : Res State := do
  accFree s m
  issueDrain s (.mzero m)
def execMzero (m : Fin 2) (s : State) : Host.Outcome State Fault Refusal := seq s (mzeroBody m s)

/-- MLDACC. -/
def mldaccBody (m : Fin 2) (cb : CbN) (s : State) : Res State := do
  accFree s m
  let need ← checkCb s cb 65536 false 0
  issueDrain s (.mldacc m cb need)
def execMldacc (m : Fin 2) (cb : CbN) (s : State) : Host.Outcome State Fault Refusal := seq s (mldaccBody m cb s)

/-- MSTACC. -/
def mstaccBody (m : Fin 2) (cb : CbN) (s : State) : Res State := do
  accFree s m
  let need ← checkCb s cb 65536 true 0
  issueDrain s (.mstacc m cb need)
def execMstacc (m : Fin 2) (cb : CbN) (s : State) : Host.Outcome State Fault Refusal := seq s (mstaccBody m cb s)

/-- Size of the image of a drain format. -/
def drainBytes : DrainFmt → Nat
  | .fp4 => 8192 | .e4m3 | .e5m2 | .int8 | .bpi8 => 16384 | .bf16 | .fp16 => 32768 | .fp32 => 65536
/-- Layout code that an MDRAIN states. -/
def drainLayout : DrainFmt → Nat
  | .bpi8 => 4 | .fp4 | .e4m3 | .e5m2 | .int8 | .bf16 | .fp16 | .fp32 => 0

/-- MDRAIN (R205). Its check that `mamaxv` names a valid variable is the model's reading: bits 31 to 24 of the number are zero (log 92). -/
def mdrainBody (m : Fin 2) (fmt : DrainFmt) (rnd : Rnd) (out : CbN) (res : Option CbN) (s : State) : Res State := do
  let c := s.h.csr
  accFree s m
  if bitAt c.mamaxv 63 && fld c.mamaxv 24 8 != 0 then .error (.trap causeEngine c.mamaxv)
  let need ← checkCb s out (drainBytes fmt) true (drainLayout fmt)
  let resNeed ← match res with
    | some n => checkCb s n (drainBytes fmt) false (drainLayout fmt)
    | none => .ok 0
  issueDrain s (.mdrain
    { acc := m, fmt := fmt, rnd := rnd, out := out, outNeed := need, res := res, resNeed := resNeed, sat := bitAt c.mcfg 15,
      mdrop := c.mdrop, mamaxv := c.mamaxv, mcoord := c.mcoord, jobseed := c.jobseed })
def execMdrain (m : Fin 2) (fmt : DrainFmt) (rnd : Rnd) (out : CbN) (res : Option CbN) (s : State) : Host.Outcome State Fault Refusal :=
  seq s (mdrainBody m fmt rnd out res s)

/-- The narrow format of a drain format; none for FP32. BPI8 has the values of INT8. -/
def drainNarrow : DrainFmt → Option NarrowFmt
  | .fp4 => some .fp4 | .e4m3 => some .e4m3 | .e5m2 => some .e5m2 | .bf16 => some .bf16 | .fp16 => some .fp16
  | .int8 | .bpi8 => some .int8 | .fp32 => none

/-- The FP32 code of a value that FP32 holds exactly (R54). -/
def widen32 (v : FV) : Nat :=
  match v with
  | .nan => FFmt.fp32.nanCode
  | .inf n => FFmt.fp32.signed n FFmt.fp32.infCode
  | .fin n k e => (FFmt.fp32.ofDyad .rne n (FV.fin n k e).dyad).1

/-- Element `n` of a residual image, as FP32. -/
def resElem (fmt : DrainFmt) (img : Array Byte) (n : Nat) : Nat :=
  match fmt, drainNarrow fmt with
  | .bpi8, _ =>
    let g := 128 * (n / 128)
    widen32 (intValue 8 (planeCode (img.extract g (g + 128)).toList 8 (n % 128)))
  | _, some f =>
    widen32 (f.value (match f.bits with
      | 4 => imgByte img (n / 2) / 16 ^ (n % 2) % 16
      | 8 => imgByte img n
      | _ => imgByte img (2 * n) + 256 * imgByte img (2 * n + 1)))
  | _, none => imgByte img (4 * n) + 2 ^ 8 * imgByte img (4 * n + 1) + 2 ^ 16 * imgByte img (4 * n + 2) + 2 ^ 24 * imgByte img (4 * n + 3)

/-- The dropout scale `ks` (R206). -/
def dropScale (rate : Nat) : Nat := (FFmt.fp32.encode .rne false { num := 65536, den := 65536 - rate, e := 0 }).1

/-- v of element (i, j) after residual and dropout (R206). -/
def drainValue (c : DrainCmd) (img : Array Byte) (acc i j : Nat) : Nat :=
  let n := 256 * i + j
  let v := if c.res.isSome then (FFmt.fp32.add .rne acc (resElem c.fmt img n)).1 else acc
  let rate := fld c.mdrop 48 16
  if rate = 0 then v
  else
    let gr := (fld c.mcoord 0 32 + i) % 2 ^ 32
    let gc := (fld c.mcoord 32 32 + j) % 2 ^ 32
    let w := (philox c.jobseed gc gr (2 ^ 31 + fld c.mdrop 32 15 * 2 ^ 16) (fld c.mdrop 0 32)).getD 0 0
    if w / 2 ^ 16 < rate then 0 else (FFmt.fp32.mul .rne v (dropScale rate)).1

/-- The output code of element (i, j) with value v (R64 to R67, R206). -/
def drainCode (c : DrainCmd) (loc v i j : Nat) : Nat :=
  match drainNarrow c.fmt with
  | none => if FFmt.fp32.value v == .nan then FFmt.fp32.nanCode else v
  | some f =>
    let gr := (fld c.mcoord 0 32 + i) % 2 ^ 32
    let gc := (fld c.mcoord 32 32 + j) % 2 ^ 32
    (f.cvt (c.rnd.mode (hartWord c.jobseed loc 0 (gr * 2 ^ 32 + gc) 0)) c.sat (FFmt.fp32.value v)).1

/-- Groups of 128 codes as bit planes. -/
def packGroups : Nat → List Byte → List Byte
  | 0, _ => []
  | n + 1, l => packPlanes (l.take 128) 8 ++ packGroups n (l.drop 128)

/-- The output image of an MDRAIN and its largest magnitude (R206). -/
def drainImage (c : DrainCmd) (loc : Nat) (acc : Tbl (BitVec 32)) (res : List Byte) : List Byte × Nat :=
  let img := res.toArray
  let vs := ((rangeFrom 0 16384).zip (accList acc)).map fun p => (p.1, drainValue c img p.2 (p.1 / 256) (p.1 % 256))
  let codes := vs.map fun p => drainCode c loc p.2 (p.1 / 256) (p.1 % 256)
  let amax := vs.foldl (fun m p => max m (p.2 % 2 ^ 31)) 0
  (match c.fmt with
   | .bpi8 => packGroups 128 (codes.map (BitVec.ofNat 8))
   | .fp4 => packElems 4 codes
   | .e4m3 | .e5m2 | .int8 => packElems 8 codes
   | .bf16 | .fp16 => packElems 16 codes
   | .fp32 => packElems 32 codes,
   if FFmt.fp32.infCode < amax then FFmt.fp32.nanCode else amax)

end Sys2Proof.Machine
end

