-- ==== Sys2Proof/Machine/Launch.lean ====
section
/-! DEFINITION. The state in which a logical hart starts (R304, R313), and the placing of one word where `step` fetches next. -/

namespace Sys2Proof.Machine

/-! Fields of a descriptor (R304) -/

def dEntry (d : List Word) : Nat := fld (dw d 1) 0 32
def dHarts (d : List Word) : Nat := fld (dw d 1) 32 20 + 1
def dPrio (d : List Word) : Nat := fld (dw d 1) 52 3
/-- Largest gang; 1 when the kernel has none. -/
def dGang (d : List Word) : Nat := 2 ^ fld (dw d 1) 56 2
def dCores (d : List Word) : Bool := bitAt (dw d 1) 58
def dContain (d : List Word) : Bool := bitAt (dw d 1) 59
def dGrp0 (d : List Word) : Bool := bitAt (dw d 1) 60
def dCmask (d : List Word) : Word := dw d 2
def dTsram (d : List Word) : Nat := fld (dw d 3) 0 11
def dCbufs (d : List Word) : Nat := fld (dw d 3) 16 5
def dBdie (d : List Word) : Nat := fld (dw d 3) 24 7
def dBdev (d : List Word) : Nat := fld (dw d 3) 32 5
def dBlink (d : List Word) : Nat := fld (dw d 3) 40 7
def dPortring (d : List Word) : Nat := if fld (dw d 4) 0 32 = 0 then 4096 else fld (dw d 4) 0 32
def dLq (d : List Word) : Nat := fld (dw d 4) 32 16
def dNown (d : List Word) : Nat := fld (dw d 4) 48 7
def dParent (d : List Word) : Word := dw d 5
def dSeed (d : List Word) : Word := dw d 6
def dBtab (d : List Word) : Nat := fld (dw d 7) 0 32
def dNbuf (d : List Word) : Nat := fld (dw d 7) 32 7

/-- A mask with the bits of a list. -/
def bitMask (l : List Nat) : Word := word (l.foldl (fun m n => m + 2 ^ n) 0)

/-- The context's values that a hart starts with: `satp`, the trap CSRs as firmware leaves them and the allocation bits (R318, R320;
log 31). -/
def startCsrs (c : Option Ctx) (seed : Word) : Csrs :=
  match c with
  | some c => { Csrs.start with
      jobseed := seed, satp := ctxSatp c, medeleg := c.medeleg, mideleg := c.mideleg, mtvec := c.mtvec, stvec := c.stvec,
      mie := c.mie, compAlloc := c.cceil }
  | none => { Csrs.start with jobseed := seed }

/-- The logical hart of index `idx` of a kernel at its first instruction, on a tile (R313). Its holdings are given to it by placement. -/
def startHart (s : State) (slot idx tile : Nat) (k : Kernel) : Hart :=
  let d := k.desc
  let base := match capAt s (hIndex (dw d 0)) with | some c => c.base | none => 0
  let x : Vector Word 32 := Vector.replicate 32 0
  let x := x.set 10 k.arg
  let x := x.set 11 (word idx)
  let x := x.set 12 (word (dHarts d))
  let x := x.set 13 (if dGrp0 d then word (slot * 2 ^ 20) else 0)
  let x := x.set 14 (word k.argKind)
  let x := x.set 15 (if idx = 0 then k.block else 0)
  let x := x.set 16 (if dCores d then bitMask ((k.dieChans.filter fun n => n / 64 == dieOf tile).map (· % 64)) else 0)
  let x := x.set 17 (if dCores d then bitMask k.devChans else 0)
  { Hart.idle with
    live := true
    loc := slot * 2 ^ 20 + idx
    tile := some tile
    lastTile := tile
    ctx := k.ctx
    pc := word (base + dEntry d)
    x := x
    csr := startCsrs (ctxOf s k.ctx) (dSeed d)
    holdings := if idx = 0 then k.own else []
    ringCap := dPortring d
    cbufs := dCbufs d
    groups := if dGrp0 d then [0] else [] }

/-! Placing a word (log 4) -/

/-- The context of a placed word: world 0, nothing mapped. -/
def bootCtx : Ctx :=
  { life := .installed, world := 0, root := 0, asid := 0, pid := 0, cceil := 0xFF, prio := 7, pool := [], regions := [], cls := 0,
    medeleg := 0, mideleg := 0, mtvec := 0, stvec := 0, mie := 0 }

/-- The code buffer of a placed word: one SHARED unit of 256 bytes at offset 0 of tile 0. -/
def bootCap : Cap :=
  { Cap.free with
    state := .shared, level := .tile, gen := 1, owner := 0, base := 0x010000000000, length := 256, total := 1, outst := 1 }

/-- The kernel of a placed word. -/
def bootKernel (device : Nat) : Kernel :=
  { state := .running, sgen := 1, desc := [handle device 1 1 .share 1, 0, word (2 ^ 64 - 1), word (16 * 2 ^ 16), 0, 0, 0, 0], arg := 0,
    argKind := 0, ctx := 0, homeDie := 0, queue := 0, launcher := .template 0, parent := none, order := 0, codeHeld := false, placed := 1, ended := 0,
    hartFaulted := false, reclaimed := 0, block := 0, own := [], windows := [], groups := [], dieChans := [], devChans := [], reported := false }

/-- A machine that runs an instruction of `w` next: context 0 and the kernel of slot 0, which is in use from now on, are installed with one hart on
tile 0, its code
buffer holds `w` at its first byte, and the next turn is the hart's (log 4). -/
def placeWord (s : State) (_nbits w : Nat) : State :=
  let k := bootKernel s.device
  let s := { s with
    ctxs := tput s.ctxs 0 bootCtx
    caps := tput s.caps 1 bootCap
    kernels := tput s.kernels 0 k
    sgens := tput s.sgens 0 k.sgen
    usedSlots := max s.usedSlots 1
    freeSlots := s.freeSlots.filter (· != 0)
    ready := tput (tput s.ready 0 (tgetD s.ready 0 0#32 ||| 1#32)) 32 (tgetD s.ready 32 0#32 ||| 1#32)
    mem := Memory.putN s.mem 0x010000000000 (leBytes 4 w)
    tiles := terase s.tiles 0
    others := s.others.filter fun h => h.loc != 0 && h.tile != some 0
    schedule := .hart 0 :: s.schedule }
  { s with h := startHart s 0 0 0 k }

end Sys2Proof.Machine
end

