-- ==== Sys2Proof/Machine/Ports.lean ====
section
/-! DEFINITION. What arrives and where: the holdings that an arrival installs (R76, R99, R135), ports and notices (R101, R102), host
agents' completions (R358 to R360), and queues: mapping, pushes and served pops (R295 to R299), with the launch records that a
launch queue takes (R305, R308). -/

namespace Sys2Proof.Machine

/-! Units and buffers that go back -/

/-- Units return to their entry. A remote reference's last unit frees the reference here, and the storing device is told (R367). -/
def giveBack (s : State) (i n : Nat) : State :=
  match capAt s i with
  | none => s
  | some c =>
    if c.level == .remote then
      let s := sendWhenUp (returnUnits s i n) (some c.world) (.move (routePort s (storingDevice c)) 7 0 (handle s.device i c.gen .share n) (word c.base))
      match capAt s i with
      | some d => if d.outst = 0 && d.state != .owned then freeEntry s i else s
      | none => s
    else returnUnits s i n

/-- A WHOLE buffer ends; one that another device stores is given up there too. -/
def endBuffer (s : State) (i : Nat) : State :=
  match capAt s i with
  | none => s
  | some c =>
    let s := if c.level == .remote then
        sendWhenUp s (some c.world) (.move (routePort s (storingDevice c)) 7 0 (handle s.device i c.gen .whole 0) (word c.base))
      else s
    freeEntry s i

/-! Holdings from arrivals -/

/-- An arrival whose entry has gone from under it: FREE, or of another generation. -/
def staleArrival (s : State) (a : Arrival) : Bool :=
  match capAt s a.index with
  | some c => c.gen != a.gen || c.state == .free
  | none => true

/-- The holding that an arrival stands for. -/
def Arrival.holding (a : Arrival) : Holding :=
  { device := a.device, index := a.index, gen := a.gen, kind := a.kind, units := if a.void then 0 else a.units, void := a.void, susp := 0 }

/-- The handle that an arrival is received as. -/
def Arrival.handle (a : Arrival) : Word := Machine.handle a.device a.index a.gen a.kind (match a.kind with | .whole | .notice => 0 | _ => a.units)

/-- An arrival that a receive discards: rights of an older generation that meet a holding of the present one, and voided units that
meet a live holding of a later period (R76, R135). Other rights of an older generation are installed, and every use of them fails
(R80, R88). -/
def discarded (s : State) (l : List Holding) (a : Arrival) : Bool :=
  match a.kind with
  | .notice => false
  | .whole | .share => staleArrival s a && l.any fun g => g.index == a.index && g.kind == a.kind && g.gen != a.gen
  | .deposit => a.void && l.any fun g => g.index == a.index && g.kind == .deposit && !g.void

/-- A holding set after an arrival's holding is installed. -/
def install (l : List Holding) (a : Arrival) : List Holding := addUnits l a.holding

/-- Give up what an arrival carries, for a receiver that is no more (R315). -/
def reclaimArrival (s : State) (a : Arrival) : State :=
  if staleArrival s a || a.void then s
  else match a.kind with
    | .whole => match capAt s a.index with | some c => if c.state == .owned then endBuffer s a.index else s | none => s
    | .share | .deposit => giveBack s a.index a.units
    | .notice => freeEntry s a.index

/-- Sends and moves that will take room in a hart's port (R96). -/
def promised (s : State) (loc : Nat) : Nat :=
  (s.sends.filter fun d => fld d.dest 52 4 == 0 && fld d.dest 0 32 == loc && d.arrival.kind != .notice).length +
    (s.moves.filter fun m => !m.2.sending && fld m.2.dest 52 4 == 0 && fld m.2.dest 0 32 == loc).length

/-! Host agents (R358 to R360) -/

/-- An agent after its assignment. -/
def Agent.start : Agent :=
  { ctx := none, holdings := [], arrivals := [], reports := [], sqbase := 0, sqsize := 0, sqtail := 0, sqhead := 0, cqbase := 0,
    cqsize := 0, cqhead := 0, cqtail := 0, phase := true, enabled := false, overflowed := false, malformed := false, barred := false }
/-- An agent. -/
def agentAt (s : State) (a : Nat) : Agent := tgetD s.agents a Agent.start
/-- Change an agent. -/
def updAgent (s : State) (a : Nat) (f : Agent → Agent) : State := { s with agents := tput s.agents a (f (agentAt s a)) }

/-- Physical address of a host address behind an agent's port (R337). -/
def hostPa (agent : Nat) (a : Nat) : Nat := 2 ^ 52 + agent / 8 * 2 ^ 51 + a % 2 ^ 51

/-- The link of an agent's host port carries traffic (R356). -/
def hostUp (s : State) (agent : Nat) : Bool := (portAt s (16 + agent / 8 % 2)).carries

/-- A place of an agent's completion ring is free (R360). -/
def ringFree (g : Agent) : Bool := g.cqsize.toNat != 0 && (g.cqtail + 1) % g.cqsize.toNat != g.cqhead % g.cqsize.toNat

/-- Whether a completion can be written now: rings enabled, the link up, and a place of the ring is free. -/
def completionRoom (s : State) (a : Nat) : Bool := (agentAt s a).enabled && hostUp s a && ringFree (agentAt s a)

/-- A completion that finds its ring full (R359). -/
def markFull (g : Agent) : Agent := { g with overflowed := g.overflowed || (g.enabled && !ringFree g) }

/-- Write a completion into host memory (R360). -/
def putCompletion (s : State) (a kind code : Nat) (tag : Nat) (r1 r2 : Word) : State :=
  let g := agentAt s a
  let n := g.cqsize.toNat
  let dw0 := kind % 256 + code % 256 * 2 ^ 8 + boolNat g.phase * 2 ^ 16 + tag % 2 ^ 32 * 2 ^ 32
  let bytes := leBytes 8 dw0 ++ leBytes 8 r1.toNat ++ leBytes 8 r2.toNat ++ leBytes 8 0
  let s := { s with mem := Memory.putN s.mem (hostPa a (g.cqbase.toNat + 32 * g.cqtail)) bytes }
  let next := (g.cqtail + 1) % n
  updAgent s a fun g => { g with cqtail := next, phase := if next = 0 then !g.phase else g.phase }

/-- Deliver an agent's held arrivals while completions fit: the agent holds what arrives (R97, R360). -/
def deliverArrivals (a : Nat) : List Arrival → State → State
  | [], s => updAgent s a fun g => { g with arrivals := [] }
  | x :: r, s =>
    if completionRoom s a then
      if discarded s (agentAt s a).holdings x then deliverArrivals a r s
      else
        let s := putCompletion s a 1 0 0 x.handle (word x.tag.toNat)
        deliverArrivals a r (updAgent s a fun g => { g with holdings := install g.holdings x })
    else updAgent s a fun g => markFull { g with arrivals := x :: r }

/-- Deliver an agent's held reports while completions fit (R317, R360). -/
def deliverReports (a : Nat) : List (Word × Word) → State → State
  | [], s => updAgent s a fun g => { g with reports := [] }
  | x :: r, s =>
    if completionRoom s a then deliverReports a r (putCompletion s a 2 0 0 x.1 x.2)
    else updAgent s a fun g => markFull { g with reports := x :: r }

/-- Deliver all that an agent's rings have room for. -/
def deliverAgent (s : State) (a : Nat) : State :=
  let s := deliverArrivals a (agentAt s a).arrivals s
  deliverReports a (agentAt s a).reports s

/-- An arrival for a host agent. -/
def agentArrival (s : State) (a : Nat) (x : Arrival) : State :=
  deliverAgent (updAgent s a fun g => { g with arrivals := g.arrivals ++ [x] }) a

/-- The agent that a party's number names: parties are harts by hartloc, and agent `a` as 2^40 + a. -/
def agentNo (n : Nat) : Option Nat := if 2 ^ 40 ≤ n then some (n - 2 ^ 40) else none

/-! Notices (R102) -/

/-- A notice that can be written or discarded now. -/
def noticeReady (s : State) (n : Notice) : Bool :=
  match agentNo n.dest, findHart s n.dest with
  | some _, _ => (freeNotice s).isSome
  | none, none => true
  | none, some h => promised s n.dest < portFree h && (freeNotice s).isSome

/-- A notice record of a context, at an index, and the arrival that hands it over. R102 does not say what BPROBE reports of a record beyond
its owner: it is OWNED, at TILE, and zero otherwise (log 77). -/
def noticeArrival (s : State) (i : Nat) (n : Notice) (ctx : Nat) (ok : OKind) (owner : Nat) : State × Arrival :=
  let old := tgetD s.caps i Cap.free
  let c := { Cap.free with state := .owned, gen := old.gen + 1, world := worldOf s ctx, ctx := ctx, okind := ok, owner := owner }
  ({ s with caps := tput s.caps i c },
    { device := s.device, index := i, gen := c.gen, kind := .notice, units := 0, void := false, scope := n.scope,
      tag := BitVec.ofNat 60 (n.ntype * 2 ^ 56 + n.detail % 2 ^ 56) })

/-- Write a notice: a record of its own and an arrival; a notice for a hart that has ended is discarded. -/
def writeNotice (s : State) (n : Notice) : State :=
  match freeNotice s, agentNo n.dest, findHart s n.dest with
  | some i, some a, _ =>
    let (s, x) := noticeArrival s i n ((agentAt s a).ctx.getD 0) .hostAgent a
    agentArrival s a x
  | some i, none, some h =>
    let (s, x) := noticeArrival s i n h.ctx .hart h.loc
    postArrival s n.dest x
  | _, _, _ => s

/-- NOTICE_WRITE: the notice at a place among those that can be written. -/
def execNoticeWrite (k : Nat) (s : State) : Host.Outcome State Fault Refusal :=
  match (s.notices.filter (noticeReady s))[k]? with
  | some n => happen (writeNotice { s with notices := s.notices.erase n } n)
  | none => if s.notices.isEmpty then happen s else block s (.noticeWrite k)

/-- Index and generation of a buffer, as the detail of a notice gives them (R102), which states no places for them: the index above the 16
bits of the generation (log 76). -/
def noticeOf (i : Nat) (gen : BitVec 16) : Nat := i * 2 ^ 16 + gen.toNat

/-! Queues (R293 to R299) -/

/-- Die of a queue (R293). -/
def queueDie (n : Nat) : Nat := n / 16384 % 4
/-- Whether a queue identifier is malformed (R293). -/
def badQueue (q : Word) : Bool := 65536 ≤ q.toNat
/-- The queue of a number, if it is assigned. -/
def queueAt (s : State) (n : Nat) : Option Queue := tget s.queues n
/-- Change a queue. -/
def updQueue (s : State) (n : Nat) (f : Queue → Queue) : State :=
  match tget s.queues n with
  | some q => { s with queues := tput s.queues n (f q) }
  | none => s

/-- Elements, or launch records, that a queue holds. -/
def Queue.count (q : Queue) : Nat := q.elems.length + q.launches.length

/-- Sends and moves on their way to a queue, to which its place was promised (R96). -/
def queuePromised (s : State) (n : Nat) : Nat :=
  (s.sends.filter fun d => fld d.dest 52 4 == 1 && fld d.dest 0 32 == n).length +
    (s.moves.filter fun m => !m.2.sending && fld m.2.dest 52 4 == 1 && fld m.2.dest 0 32 == n).length

/-- A queue with room beside the places that are promised (R294, R299). -/
def queueRoomy (s : State) (n : Nat) (q : Queue) : Bool := q.count + queuePromised s n < 2 ^ q.cap

/-- A queue of a context that drains refuses records as if it were full (R319). -/
def queueRefuses (s : State) (q : Queue) : Bool :=
  q.qkind = 2 && match ctxOf s q.ctx with | some c => c.life != .installed | none => true

/-- The queue unit of a queue's die is held in reset, or has yet to pass its self-test: operations stall (R303, R377). -/
def queueWaits (s : State) (n : Nat) : Bool := !isReady s 36 (12 + queueDie n)

/-- An unmapped queue has work: it waits since now for a slot (R295, R296), and a rotation is due. -/
def queueWork (s : State) (n : Nat) : State :=
  match queueAt s n with
  | some q =>
    if q.mapped || q.since.isSome then s
    else
      let s := updQueue { s with workCount := s.workCount + 1 } n fun q => { q with since := some s.workCount }
      if s.pending.contains .slotRotation then s else enqueue s .slotRotation
  | none => s

/-! Kernel slots and launch records (R305, R308) -/

/-- The generation after one: 1 to 65,535. -/
def nextSgen (g : BitVec 16) : BitVec 16 := if g = 0xFFFF#16 then 1 else g + 1
/-- A ticket (R305). -/
def ticketOf (slot : Nat) (sgen : BitVec 16) : Word := word (sgen.toNat * 2 ^ 32 + slot % 4096 * 2 ^ 20)

/-- The slot that the queue unit gives the next launch: one never used, in ascending number, else the one free longest (R305). -/
def nextSlot (s : State) : Option Nat := if s.usedSlots < 4096 then some s.usedSlots else s.freeSlots.head?

/-- Take that slot. -/
def takeSlot (s : State) : State :=
  if s.usedSlots < 4096 then { s with usedSlots := s.usedSlots + 1 } else { s with freeSlots := s.freeSlots.drop 1 }

/-- Form a launch record and its kernel, QUEUED (R308, R314), with a fresh save area for its slot (R328). The queue has room and a slot is free. -/
def addLaunch (s : State) (n slot : Nat) (desc : List Word) (arg : Word) (kind ctx : Nat) (launcher : Launcher)
    (parent : Option (Nat × BitVec 16)) : State :=
  let g := nextSgen (tgetD s.sgens slot 0)
  let s := takeSlot s
  let k : Kernel :=
    { state := .queued, sgen := g, desc := desc, arg := arg, argKind := kind, ctx := ctx, homeDie := queueDie n, queue := n,
      launcher := launcher, parent := parent, order := s.workCount, codeHeld := false, placed := 0, ended := 0, hartFaulted := false, reclaimed := 0, block := 0, own := [], windows := [],
      groups := if dGrp0 desc then [(0, dHarts desc)] else [], dieChans := [], devChans := [], reported := false }
  let s := { s with
    sgens := tput s.sgens slot g
    kernels := tput s.kernels slot k
    workCount := s.workCount + 1
    saveArea := s.saveArea.filter fun i => slotOf i.1 != slot }
  let s := updQueue s n fun q => { q with
    launches := q.launches ++ [{ desc := desc, arg := arg, kind := kind, slot := slot, launcher := launcher }] }
  enqueue (queueWork s n) (.launchPlacement n)

/-- The template descriptor of a launch queue, with `parent` and `nown` taken as 0 (R308). -/
def template (s : State) (q : Queue) : Option (List Word) :=
  match capAt s (hIndex q.tmpl) with
  | some c =>
    match bufPas s (hIndex q.tmpl) c 0 64 with
    | some pas =>
      (homeBytes s 0 pas).map fun bytes =>
        let d := (rangeFrom 0 8).map fun k => word (leNat ((bytes.drop (8 * k)).take 8))
        let d := setAt d 4 (setFld (dw d 4) 48 7 0)
        setAt d 5 0
    | none => none
  | none => none

/-- What that reading does to the line cache (R159, R168). -/
def noteTemplate (s : State) (q : Queue) : State :=
  match (capAt s (hIndex q.tmpl)).bind fun c => bufPas s (hIndex q.tmpl) c 0 64 with
  | some pas => noteRead s 0 pas
  | none => s

/-- An element as a queue holds it: a FIFO has no keys (R302). -/
def queueElem (q : Queue) (e : QElem) : QElem :=
  { e with pos := q.pushes, key := if q.qkind = 1 then e.key else 0 }

/-- Rank of the element at place `k`: the elements before it by key and then by place. -/
def keyRank (l : List QElem) (k : Nat) (e : QElem) : Nat :=
  ((l.zip (rangeFrom 0 l.length)).filter fun f => f.1.key.toNat < e.key.toNat || (f.1.key = e.key && f.2 < k)).length

/-- The element that a pop takes (R298), with its place: the oldest, or one of the W least by a free choice (log 16). -/
def chooseElem (s : State) (q : Queue) : Option (Nat × QElem) × State :=
  if q.qkind = 1 then
    let (d, s) := draw s
    let r := Config.minkeyChoice d % min q.win q.elems.length
    ((q.elems.zip (rangeFrom 0 q.elems.length)).findSome? fun p => if keyRank q.elems p.2 p.1 = r then some (p.2, p.1) else none, s)
  else
    (q.elems.head?.map fun e => (0, e), s)

/-- An element back at its place in the order. -/
def restoreElem (l : List QElem) (e : QElem) : List QElem := (l.takeWhile fun k => k.pos < e.pos) ++ e :: l.dropWhile fun k => k.pos < e.pos

/-- The pop of a stalled popper takes effect (R298, R301): the element goes to it, with the ownership of a whole buffer; a full holding set leaves the
element; rights that a receive discards are gone, and the popper is still to be served. -/
def servePop (s : State) (n p k : Nat) (e : QElem) : State :=
  let served (s : State) (r : Option QElem) : State := updQueue s n fun q => { q with
    poppers := q.poppers.filter (· != p)
    waits := q.waits.filter (· != p)
    served := q.served ++ [(p, r)] }
  let gone (s : State) : State := updQueue s n fun q => { q with elems := removeAt q.elems k }
  match e.cap, findHart s p with
  | some a, some h =>
    if discarded s h.holdings a then gone s
    else if holdingFull h a.index a.kind then served s none
    else served (updCap (gone s) a.index fun c => if a.kind == .whole && c.gen == a.gen && c.okind == .queue then
      { c with okind := .hart, owner := p } else c) (some e)
  | some _, none | none, _ => served (gone s) (some e)

/-- Serve stalled poppers in the order in which they arrived, while there are elements; `fuel` bounds the elements and the poppers. -/
def servePopsIn (n : Nat) : Nat → State → State
  | 0, s => s
  | fuel + 1, s =>
    match queueAt s n with
    | none => s
    | some q =>
      match q.poppers with
      | [] => s
      | p :: _ =>
        match chooseElem s q with
        | (some (k, e), t) => servePopsIn n fuel (servePop t n p k e)
        | (none, _) => s

/-- Serve the stalled poppers of a mapped queue whose unit runs (R297, R298, R303). -/
def servePops (s : State) (n : Nat) : State :=
  match queueAt s n with
  | some q => if q.mapped && !queueWaits s n then servePopsIn n (q.poppers.length + q.elems.length) s else s
  | none => s

/-- Put an element at the end of a queue's order; stalled poppers are served. -/
def putElem (s : State) (n : Nat) (e : QElem) : State :=
  servePops (queueWork (updQueue s n fun q => { q with elems := q.elems ++ [queueElem q e], pushes := q.pushes + 1 }) n) n

/-- Push an element of a hart or of a fire: on a launch queue, a launch from the template with the payload as argument word. None when
the queue is full or refuses records, or no slot is free. -/
def pushWord (s : State) (n : Nat) (q : Queue) (e : QElem) : Option State :=
  if !queueRoomy s n q || queueRefuses s q then none
  else if q.qkind = 2 then
    match nextSlot s, template s q with
    | some slot, some d => some (addLaunch (noteTemplate s q) n slot d e.payload 2 q.ctx (.template n) none)
    | _, _ => none
  else some (putElem s n e)

/-- The sleeping pushers of a queue put their elements in, in the order in which they arrived, while there is room (R298, R300). -/
def grantPushes (n : Nat) : Nat → State → State
  | 0, s => s
  | fuel + 1, s =>
    match queueAt s n with
    | some q =>
      match q.pushers with
      | (loc, e) :: r =>
        match pushWord s n q e with
        | some s => grantPushes n fuel (updQueue s n fun q => { q with
            pushers := r, waits := q.waits.filter (· != loc), granted := q.granted ++ [loc] })
        | none => s
      | [] => s
    | none => s
/-- The same, when the queue is mapped and its unit runs (R297, R303). -/
def grantPush (s : State) (n : Nat) : State :=
  match queueAt s n with
  | some q => if q.mapped && !queueWaits s n then grantPushes n q.pushers.length s else s
  | none => s

/-- Withdraw a hart's stalled operations from every queue; a QPUSH.W starts a new period (R300, R301, R303). A pop that has taken effect is not
one of them: its reply is only outstanding. -/
def withdraw (s : State) (loc : Nat) : State :=
  let s := updHart s loc fun h => { h with timedOut := false }
  { s with queues := s.queues.map fun p =>
      let q := p.2
      (p.1, { q with
        waits := q.waits.filter (· != loc)
        poppers := q.poppers.filter (· != loc)
        pushers := q.pushers.filter fun e => e.1 != loc
        granted := q.granted.filter (· != loc) }) }

/-- Capabilities that pops of a hart have taken, and that it has not received yet (R298). -/
def servedCaps (s : State) (loc : Nat) : List Arrival :=
  (s.queues.map fun p => p.2.served.filterMap fun e => if e.1 == loc then e.2.bind (·.cap) else none).flatten

/-- The replies of a hart's pops are taken, or end with the hart. -/
def dropServed (s : State) (loc : Nat) : State :=
  { s with queues := s.queues.map fun p => (p.1, { p.2 with served := p.2.served.filter fun e => e.1 != loc }) }

end Sys2Proof.Machine
end

