-- ==== Sys2Proof/Machine/Buffer.lean ====
section
/-! DEFINITION. Buffers: allocation and inspection (R85 to R90), shares (R91 to R93), deposit windows (R106, R107) and revocation
(R110). -/

namespace Sys2Proof.Machine

/-! Layouts and attributes (R83, R85) -/

/-- The length rule of a layout (R83). R89 gives no outcome for an `lparam` that is not zero with a layout other than BLK8: it breaks the rule of
the layout (log 95). -/
def layoutOk (code length lparam : Nat) : Bool :=
  match code with
  | 0 | 1 | 4 => length % 256 = 0 && lparam = 0
  | 2 => length % 1024 = 0 && lparam = 0
  | 3 => length % 4096 = 0 && lparam = 0
  | 5 => length % 256 = 0 && 1 ≤ lparam && 256 * lparam < length
  | _ => false

/-- Reserved bits of BALLOC's attributes. -/
def attrReserved : Word := 0xFFFF000000FE00F0#64
/-- Levels that BALLOC admits (R82). -/
def allocLevel (code : Nat) : Option Level :=
  match Level.ofCode code with
  | some .tile => some .tile
  | some .cluster => some .cluster
  | some .device => some .device
  | some .pool => some .pool
  | _ => none

/-- A compartment's key slot holds a key (R321, R322). -/
def hasKey (s : State) (world comp : Nat) : Bool := (tget s.keys (8 * world + comp)).isSome

/-- A compartment that a hart may allocate at a level: bit `comp` of `alloc`, and a key for DEVICE and POOL (R321). -/
def compOk (s : State) (alloc : BitVec 8) (world comp : Nat) (l : Level) : Bool :=
  comp < 8 && alloc.getLsbD comp && ((l != .device && l != .pool) || hasKey s world comp)

/-- What BALLOC is asked for: the buffer to make, or the status of R85's first checks. -/
def allocRequest (s : State) (size attrs : Word) (alloc : BitVec 8) (ctx : Nat) : Except Word NewBuf :=
  let len := alignUp size.toNat 256
  match (if attrs &&& attrReserved = 0 then allocLevel (fld attrs 0 4) else none) with
  | none => .error (status 9 2)
  | some l =>
    if len = 0 || len > l.largest then .error (status 9 1)
    else
      let b : NewBuf :=
        { level := l, layout := fld attrs 8 4, comp := fld attrs 12 4, lparam := fld attrs 24 24, zero := bitAt attrs 16,
          length := len, ctx := ctx }
      if layoutOk b.layout len b.lparam && compOk s alloc (worldOf s ctx) b.comp l then .ok b else .error (status 9 2)

/-- BALLOC after its first checks: entry, holding set, storage (R85). `full` says that the holding set is full. -/
def allocate (s : State) (tile : Nat) (own : Option (Nat × Nat)) (owner : Nat) (full : Bool) (b : NewBuf) : Except Word (Nat × State) :=
  match freeIndex s with
  | none => .error (status 4 0)
  | some i =>
    if full then .error (status 4 1)
    else match storage s tile own b with
      | none => .error (status 3 b.level.code)
      | some base => .ok (i, makeBuf s i base b owner)

/-- The WHOLE holding of an entry. -/
def wholeOf (s : State) (i : Nat) : Holding :=
  { device := s.device, index := i, gen := match capAt s i with | some c => c.gen | none => 0, kind := .whole, units := 0,
    void := false, susp := 0 }

/-- The handle of a whole buffer. -/
def wholeHandle (s : State) (i : Nat) : Word := (wholeOf s i).handle

/-- BALLOC (R85). -/
def ballocBody (rd rs1 rs2 : Reg) (s : State) : Res State :=
  match allocRequest s (rx s rs1) (rx s rs2) s.h.csr.compAlloc s.h.ctx with
  | .error st => .ok (wx s rd st)
  | .ok b =>
    match allocate s (myTile s) s.h.run s.h.loc (4096 ≤ s.h.holdings.length) b with
    | .error st => .ok (wx s rd st)
    | .ok (i, t) =>
      if capWaits s i then .error (.stall s)
      else .ok (wx (modHoldings t fun l => putHolding l (wholeOf t i)) rd (wholeHandle t i))
def execBalloc (rd rs1 rs2 : Reg) (s : State) : Host.Outcome State Fault Refusal := seq s (ballocBody rd rs1 rs2 s)

/-! Giving up (R86) -/

/-- Units that may leave: those not pinned (R81). -/
def unpinned (s : State) (g : Holding) (n pins : Nat) : Res Unit := if n + pins ≤ g.units then .ok () else .error (.stall s)

/-- Take units from a holding of a set. -/
def takeUnits (l : List Holding) (g : Holding) (n : Nat) : List Holding := putHolding l { g with units := g.units - n }

/-- BFREE on a set of holdings, `pins` units of a share being pinned. -/
def freeIn (s : State) (l : List Holding) (hv : Word) (pins : Nat) : Res (State × List Holding) := do
  match hKind hv with
  | some .whole => do
    let _ ← ownedIn s l hv
    .ok (endBuffer s (hIndex hv), removeHolding l (hIndex hv) .whole)
  | some .share => do
    let (g, c) ← checkIn s l hv
    if c.state != .shared then .error (.trap causeCapability hv)
    unpinned s g (hUnits hv) pins
    .ok (giveBack s g.index (hUnits hv), takeUnits l g (hUnits hv))
  | some .notice => do
    let (g, _) ← checkIn s l hv
    .ok (freeEntry s g.index, removeHolding l g.index .notice)
  | some .deposit | none => do
    let _ ← checkIn s l hv
    .error (.trap causeCapability hv)

/-- Units of an entry that commands or kernels of the executing hart pin. -/
def myPins (s : State) (i : Nat) : Nat := pinnedUnits s.h i + kernelPins s (launcherOf s s.h) i

/-- BFREE (R86). -/
def bfreeBody (rs1 : Reg) (s : State) : Res State := do
  let hv := rx s rs1
  let (t, l) ← freeIn s s.h.holdings hv (myPins s (hIndex hv))
  let t := match capAt s (hIndex hv) with | some c => dropResv t c | none => t
  .ok (modHoldings t fun _ => l)
def execBfree (rs1 : Reg) (s : State) : Host.Outcome State Fault Refusal := seq s (bfreeBody rs1 s)

/-! Inspection (R87, R88) -/

/-- The entry of a handle that BBASE and BLEN accept. -/
def inspect (s : State) (hv : Word) : Res Cap := do
  let (g, c) ← checkHandle s hv true
  if g.kind == .notice then .error (.trap causeCapability hv) else .ok c

/-- BBASE. -/
def bbaseBody (rd rs1 : Reg) (s : State) : Res State := do
  let c ← inspect s (rx s rs1)
  .ok (wx s rd (word c.base))
def execBbase (rd rs1 : Reg) (s : State) : Host.Outcome State Fault Refusal := seq s (bbaseBody rd rs1 s)

/-- BLEN. -/
def blenBody (rd rs1 : Reg) (s : State) : Res State := do
  let c ← inspect s (rx s rs1)
  .ok (wx s rd (word c.length))
def execBlen (rd rs1 : Reg) (s : State) : Host.Outcome State Fault Refusal := seq s (blenBody rd rs1 s)

/-- BPROBE's report on a value (R88). -/
def probe (s : State) (hv : Word) : Word :=
  match matching (s.h.holdings ++ kernelHoldings s s.h.loc) hv with
  | none => 15
  | some g =>
    match capAt s g.index with
    | none => 15
    | some c =>
      let units := match g.kind with | .share | .deposit => g.units | .whole | .notice => 0
      let mine := (c.state != .free && c.okind == .hart && c.owner == s.h.loc) ||
        s.h.holdings.any fun k => k.kind == .whole && k.index == g.index && k.gen == c.gen
      word (c.state.code + c.level.code * 2 ^ 4 + c.layout * 2 ^ 8 + c.comp % 8 * 2 ^ 12 + boolNat c.indoubt * 2 ^ 15 +
        units % 4096 * 2 ^ 16 + c.outst % 4096 * 2 ^ 28 + boolNat (c.gen != g.gen) * 2 ^ 40 + boolNat mine * 2 ^ 41)

/-- BPROBE. -/
def execBprobe (rd rs1 : Reg) (s : State) : Host.Outcome State Fault Refusal := seq s (.ok (wx s rd (probe s (rx s rs1))))

/-! Layout and level (R89, R90) -/

/-- BLAYOUT. -/
def blayoutBody (rd rs1 rs2 : Reg) (s : State) : Res State := do
  let hv := rx s rs1
  let a := rx s rs2
  let c ← needOwned s hv
  if a &&& 0xFFFF000000FFFFF0#64 != 0 || !layoutOk (fld a 0 4) c.length (fld a 24 24) then .error (.trap causeLayout hv)
  else
    let t := updCap s (hIndex hv) fun c => { c with layout := fld a 0 4, lparam := fld a 24 24 }
    .ok (wx t rd (word c.layout))
def execBlayout (rd rs1 rs2 : Reg) (s : State) : Host.Outcome State Fault Refusal := seq s (blayoutBody rd rs1 rs2 s)

/-- The bytes of a buffer at its read point, by 128-byte lines; none for an uncorrectable error. -/
def bufBytes (s : State) (i : Nat) (c : Cap) (q : Nat) : Option (List Byte) :=
  match c.level with
  | .device | .remote | .pool =>
    ((rangeFrom 0 (c.length / 128)).mapM fun k => (bufOff s i c (128 * k)).bind fun pa => linePlain s q pa).map List.flatten
  | .tile | .cluster | .host => some (Memory.getN s.mem c.base c.length)

/-- The reads of a buffer's lines are accesses of the slices that hold them. -/
def noteBuf (s : State) (i : Nat) (c : Cap) (q : Nat) : State :=
  match c.level with
  | .device | .remote => noteRead s q ((rangeFrom 0 (c.length / 128)).filterMap fun k => bufOff s i c (128 * k))
  | .tile | .cluster | .host | .pool => s

/-- Write a buffer's bytes at its home; false when a slice stalls. -/
def putBuf (s : State) (i : Nat) (bytes : List Byte) : State × Bool :=
  match capAt s i with
  | none => (s, true)
  | some c =>
    doAll (fun s k => match bufOff s i c (128 * k) with
      | some pa => lineWrite 0 s (pa, ((bytes.drop (128 * k)).take 128).mapIdx fun n b => (n, b))
      | none => (s, true)) (rangeFrom 0 ((c.length + 127) / 128)) s

/-- Move a buffer's bytes to new storage, free the old, and keep index and generation (R90, R97). A write period of the old storage
ends, so that no pad recurs (R350). False when a slice stalls. -/
def relocate (s : State) (i base : Nat) (l : Level) (ctx : Nat) (bytes : List Byte) : State × Bool :=
  match capAt s i with
  | none => (s, false)
  | some c =>
    let s := if c.level == .remote then
        sendWhenUp s (some c.world) (.move (routePort s (storingDevice c)) 7 0 (handle s.device i c.gen .whole 0) (word c.base))
      else freeStorage s i
    let s := updCap s i fun c => { c with
      level := l
      base := base
      ctx := ctx
      encver := c.nextVersion
      encOpen := false
      encRoll := false
      pass := none }
    let s := match l with
      | .device | .pool => takeFrames s ctx base c.length i c.comp
      | .tile | .cluster | .host | .remote => s
    putBuf s i bytes

/-- What lies beyond a port lets BMOVE read a HOST, POOL or REMOTE buffer: its link carries (R356), and the host translates its pages (R364). -/
def reachBuf (s : State) (c : Cap) : Res State :=
  match c.level with
  | .tile | .cluster | .device => .ok s
  | .pool | .remote => if linkDead s c.base then .error (.trap causeLink (word c.base)) else .ok s
  | .host =>
    if linkDead s c.base then .error (.trap causeLink (word c.base))
    else (pagesOf c.base c.length).foldlM (fun s p => match askHost s (p * 4096) with
      | (s, true) => .ok s
      | (s, false) => .error (.trapAt s Access.load.fault (word (max c.base (p * 4096))))) s

/-- BMOVE (R90). -/
def bmoveBody (rd rs1 rs2 : Reg) (s : State) : Res State := do
  let hv := rx s rs1
  let i := hIndex hv
  let c ← needOwned s hv
  let target : Option Level :=
    if rx s rs2 = 0 then some .tile else if rx s rs2 = 1 then some .cluster else if rx s rs2 = 2 then some .device else none
  match target with
  | none => .ok (wx s rd (status 9 2))
  | some l =>
    if c.length > l.largest then .ok (wx s rd (status 9 2))
    else if c.level == l then .ok (wx (dropResv s c) rd hv)
    else
      let b : NewBuf :=
        { level := l, layout := c.layout, comp := c.comp, lparam := c.lparam, zero := false, length := c.length, ctx := s.h.ctx }
      match storage s (myTile s) s.h.run b with
      | none => .ok (wx s rd (status 3 l.code))
      | some base => do
        let s ← reachBuf s c
        let t ← release s i
        match bufBytes t i c (myPid s) with
        | none => .error (.trapAt (quarantine t i) causeQuarantined hv)
        | some bytes =>
          match relocate (noteBuf t i c (myPid s)) i base l s.h.ctx bytes with
          | (u, false) => .error (.stall (carryRolls t u))
          | (t, true) => .ok (wx (acquire (dropResv t c) i) rd hv)
def execBmove (rd rs1 rs2 : Reg) (s : State) : Host.Outcome State Fault Refusal := seq s (bmoveBody rd rs1 rs2 s)

/-! Shares (R91 to R93) -/

/-- A holding of units of an entry. -/
def unitsOf (s : State) (i : Nat) (k : HKind) (n : Nat) : Holding := { wholeOf s i with kind := k, units := n }

/-- BSPLIT on a set of holdings: state, set and result. -/
def splitIn (s : State) (l : List Holding) (hv n : Word) : Res (State × List Holding × Word) := do
  let _ ← ownedIn s l hv
  if n = 0 || 4095 < n.toNat then .ok (s, l, status 9 2)
  else if 4096 ≤ l.length then .ok (s, l, status 4 1)
  else
    let i := hIndex hv
    let s := updCap s i fun c => { c with state := .shared, total := n.toNat, outst := n.toNat, drain := none }
    let s := match capAt s i with | some c => closePass s i c.comp | none => s
    let g := unitsOf s i .share n.toNat
    .ok (s, putHolding l g, g.handle)

/-- Whether a result is a status (R77). -/
def isStatus (v : Word) : Bool := hIndex v == 0

/-- BSPLIT: a release (R115). One that ends in a status changes nothing and leaves the reservation as it is, like a BSEND, BGATE, BOPEN or BMOVE
that does: R30 names every one of them, their own rules say that nothing changes (log 96). -/
def bsplitBody (rd rs1 rs2 : Reg) (s : State) : Res State := do
  let hv := rx s rs1
  let (_, _, v) ← splitIn s s.h.holdings hv (rx s rs2)
  if isStatus v then .ok (wx s rd v)
  else do
    let t ← release s (hIndex hv)
    let (t, l, v) ← splitIn t t.h.holdings hv (rx s rs2)
    let t := match capAt s (hIndex hv) with | some c => dropResv t c | none => t
    .ok (wx (modHoldings t fun _ => l) rd v)
def execBsplit (rd rs1 rs2 : Reg) (s : State) : Host.Outcome State Fault Refusal := seq s (bsplitBody rd rs1 rs2 s)

/-- Units that BJOIN returns: none, or those of a SHARE handle of the same entry. -/
def joinUnits (s : State) (l : List Holding) (hv sv : Word) (pins : Nat) : Res (List Holding × Nat) := do
  if sv = 0 then .ok (l, 0)
  else do
    let (g, _) ← checkIn s l sv
    if g.kind != .share || g.index != hIndex hv || g.gen != hGen hv then .error (.trap causeCapability sv)
    unpinned s g (hUnits sv) pins
    .ok (takeUnits l g (hUnits sv), hUnits sv)

/-- BJOIN on a set of holdings. -/
def joinIn (s : State) (l : List Holding) (hv sv : Word) (pins : Nat) : Res (State × List Holding × Word) := do
  let (g, c) ← checkIn s l hv
  if g.kind != .whole || c.state != .shared then .error (.trap causeCapability hv)
  let (l, n) ← joinUnits s l hv sv pins
  let i := hIndex hv
  let left := c.outst - n
  if left = 0 then .ok (updCap s i fun c => { c with state := .owned, outst := 0 }, l, wholeHandle s i)
  else .ok (updCap s i fun c => { c with outst := left }, l, status 2 left)

/-- BJOIN: an acquire when it yields the WHOLE handle (R116). -/
def bjoinBody (rd rs1 rs2 : Reg) (s : State) : Res State := do
  let hv := rx s rs1
  let (t, l, v) ← joinIn s s.h.holdings hv (rx s rs2) (myPins s (hIndex hv))
  let t := modHoldings t fun _ => l
  .ok (wx (if isStatus v then t else acquire t (hIndex hv)) rd v)
def execBjoin (rd rs1 rs2 : Reg) (s : State) : Host.Outcome State Fault Refusal := seq s (bjoinBody rd rs1 rs2 s)

/-! Deposit windows (R106, R107) -/

/-- BOPEN: a release (R115). -/
def bopenBody (rd rs1 rs2 : Reg) (s : State) : Res State := do
  let hv := rx s rs1
  let i := hIndex hv
  let n := (rx s rs2).toNat
  let c ← needOwned s hv
  match windowHome s i c with
  | none => .ok (wx s rd (status 9 1))
  | some home =>
    if n = 0 || 4095 < n then .ok (wx s rd (status 9 2))
    else if 4096 ≤ s.h.holdings.length then .ok (wx s rd (status 4 1))
    else do
      let t ← release s i
      let t := updCap t i fun c => { c with
        state := .collecting
        okind := .slice
        owner := home
        seq := 0
        total := n
        outst := n
        marked := []
        ports := []
        drain := none
        closing := false }
      let g := unitsOf t i .deposit n
      .ok (wx (modHoldings (dropResv t c) fun l => putHolding l g) rd g.handle)
def execBopen (rd rs1 rs2 : Reg) (s : State) : Host.Outcome State Fault Refusal := seq s (bopenBody rd rs1 rs2 s)

/-- A drain that has ended and whose BCLOSE has not yet reported (R157). -/
def Cap.drained (c : Cap) : Bool := (c.state == .owned || c.state == .quarantined) && (match c.drain with | some d => d.done | none => false)

/-- The end of a BCLOSE: the count and q; an acquire unless the buffer is QUARANTINED (R107). -/
def reportClose (s : State) (rd : Reg) (i : Nat) (c : Cap) : State :=
  let s := updCap s i fun c => { c with
    drain := none
    okind := .hart
    owner := s.h.loc }
  let q := c.state == .quarantined
  wx (if q then s else acquire s i) rd (word (boolNat q * 2 ^ 63 + c.seq % 2 ^ 32))

/-- BCLOSE: it waits for its units in WAIT mode, starts the drain, and ends when the drain has ended. -/
def bcloseBody (rd rs1 rs2 : Reg) (s : State) : Res State := do
  let hv := rx s rs1
  let i := hIndex hv
  match matching s.h.holdings hv, capAt s i with
  | some g, some c =>
    if g.kind == .whole && g.gen == c.gen && c.drained then .ok (reportClose s rd i c)
    else do
      let (g, c) ← checkHandle s hv false
      if g.kind != .whole || c.state != .collecting || 1 < (rx s rs2).toNat then .error (.trap causeCapability hv)
      if c.drain.isSome then .error (.stall s)
      else if rx s rs2 = 0 && c.outst != 0 then .error (.point s)
      else .error (.stall (startDrain s i (rx s rs2 == 1)))
  | _, _ => .error (.trap causeCapability hv)
def execBclose (rd rs1 rs2 : Reg) (s : State) : Host.Outcome State Fault Refusal := seq s (bcloseBody rd rs1 rs2 s)

/-! Revocation (R110) -/

/-- Take the WHOLE and SHARE holdings of an entry from every party; DEPOSIT holdings stay void (R135). -/
def voidHoldings (s : State) (i : Nat) : State :=
  let keep (g : Holding) : Bool := g.index != i || g.kind == .deposit
  let f (h : Hart) : Hart := { voidDeposits h i with holdings := (voidDeposits h i).holdings.filter keep }
  { voidElsewhere s i with
    h := f (voidElsewhere s i).h
    others := (voidElsewhere s i).others.map f
    agents := (voidElsewhere s i).agents.map fun a => (a.1, { a.2 with holdings := a.2.holdings.filter fun g => g.index != i }) }

/-- The circular buffers of a hart that are bound to an entry. -/
def boundTo (h : Hart) (i : Nat) : List CbN := (List.finRange 16).filter fun n => (cbAt h n).bound && hIndex (cbAt h n).handle == i

/-- A command uses an entry: it is lent or pinned to it, or names a circular buffer bound to it. -/
def usesEntry (h : Hart) (i : Nat) (c : EngCmd) : Bool :=
  c.lends.contains i || (c.pins.any fun p => p.1 == i) || (boundTo h i).any c.op.names

/-- Discard the suspended direct MMAs that use an entry, in every member of their gangs (R208). -/
def dropSuspended (s : State) (i : Nat) : State :=
  let leads := (harts s).filterMap fun h => match suspendedDirect h with
    | some c => if usesEntry h i c then c.mma?.map (·.leader) else none
    | none => none
  ((harts s).filter fun h => match (suspendedDirect h).bind EngCmd.mma? with
    | some c => leads.contains c.leader
    | none => false).foldl (fun s h => abandonMma s h.loc) s

/-- A command that still runs on a circular buffer bound to an entry. -/
def ringBusy (s : State) (i : Nat) : Bool :=
  (harts s).any fun h => h.cmds.any fun c => c.fired && !c.susp && (boundTo h i).any c.op.names

/-- Unbind every circular buffer that is bound to an entry; commands that wait to fire on one are discarded (R188). -/
def unbindAll (s : State) (i : Nat) : State :=
  let s := (harts s).foldl (fun s h =>
    (h.cmds.filter fun c => !c.fired && (boundTo h i).any c.op.names).foldl (fun s c => endCmd s h.loc c false) s) s
  let f (h : Hart) : Hart := (boundTo h i).foldl (fun h n => setCb h n Cb.unbound) h
  updCap { s with h := f s.h, others := s.others.map f } i fun c => { c with state := .owned, lendcb := false, lends := 0 }

/-- Write back the dirty bytes of a buffer that any tile's data L1 holds, so that they are kept and overwrite no later store (R110, R117). -/
def cleanEverywhere (s : State) (i : Nat) : State × Bool := doAll (fun s t => cleanCopies s t.1 i) s.tiles s

/-- Steps 4 to 6 of BREVOKE: an acquire. The bytes are kept; a pass that had stopped goes on. -/
def takeOver (s : State) (rd : Reg) (i : Nat) : State :=
  let s := voidHoldings s i
  let s := updCap s i fun c => { c with
    state := .owned
    gen := c.gen + 1
    revoked := c.gen :: c.revoked
    okind := .hart
    owner := s.h.loc
    outst := 0
    orph := false
    drain := none
    closing := false
    marked := []
    lends := 0
    lendcb := false }
  let s := match capAt s i with
    | some c => if c.pass.isSome && !s.pending.contains (.passLine i) then enqueue s (.passLine i) else s
    | none => s
  wx (acquire (modHoldings s fun l => putHolding l (wholeOf s i)) i) rd (wholeHandle s i)

/-- The end of BREVOKE, once the private copies of the buffer are written back. -/
def finishRevoke (s : State) (rd : Reg) (i : Nat) : Res State :=
  match cleanEverywhere s i with
  | (s, true) => .ok (takeOver s rd i)
  | (s, false) => .error (.stall s)

/-- BREVOKE. It waits for commands that run on a circular buffer bound to the entry, as for those that the entry is lent to. -/
def brevokeBody (rd rs1 : Reg) (s : State) : Res State := do
  needMode s .s
  let hv := rx s rs1
  let i := hIndex hv
  match capAt s i with
  | none => .error (.trap causeCapability hv)
  | some c =>
    if hDevice hv != s.device || i = 0 || noticeBase ≤ i || c.state == .free || c.gen != hGen hv || c.ctx != s.h.ctx || c.indoubt then
      .error (.trap causeCapability hv)
    else if 4096 ≤ s.h.holdings.length && !s.h.holdings.any fun g => g.index == i then .ok (wx s rd (status 4 1))
    else
      let s := dropSuspended s i
      match (match capAt s i with | some c => c.state | none => c.state) with
      | .lent =>
        if !c.lendcb || ringBusy s i then .error (.stall s) else finishRevoke (unbindAll s i) rd i
      | .collecting => if c.drain.isSome then .error (.stall s) else .error (.stall (startDrain s i true))
      | .moving | .arriving => .error (.stall s)
      | .free | .owned | .shared | .quarantined => finishRevoke s rd i
def execBrevoke (rd rs1 : Reg) (s : State) : Host.Outcome State Fault Refusal := seq s (brevokeBody rd rs1 s)

end Sys2Proof.Machine
end

