-- ==== Sys2Proof/Machine/Gang.lean ====
section
/-! DEFINITION. What a gang shares (R270, R271): traps and interrupts taken by every member, and the lockstep of an instruction. A
hart outside a gang is the case of one member. -/

namespace Sys2Proof.Machine

/-- Copy fields of a status word under a mask. -/
def statusFrom (old new mask : Word) : Word := mix mask old new

/-- A member other than the leader enters the handler that the leader has entered: `epc`, cause, previous-mode fields, mode and pc are
the leader's, `tval` its own. -/
def followTrap (lead : Hart) (toS : Bool) (tval : Word) (h : Hart) : Hart :=
  let l := lead.csr
  let c := h.csr
  let c :=
    if toS then { c with sepc := l.sepc, scause := l.scause, stval := tval, mstatus := statusFrom c.mstatus l.mstatus 0x122#64 }
    else { c with mepc := l.mepc, mcause := l.mcause, mtval := tval, mstatus := statusFrom c.mstatus l.mstatus 0x1888#64 }
  { h.leaveStall with
    resv := none
    csr := c
    mode := lead.mode
    pc := lead.pc
    schedDirty := h.schedDirty ||| 0x4000#16
    softDirty := h.softDirty ||| 0x4000#16 }

/-- Every member takes a trap or an interrupt in its leader's mode (R270); the executing hart is the leader. `tvals` gives the members' values in rank order. -/
def enterAll (s : State) (intr : Bool) (code : Nat) (tvals : List Word) : State :=
  let toS := delegated s intr code
  let t := enterTrap s intr code (tvals.headD 0)
  (((gangLocs s).drop 1).zip (tvals.drop 1)).foldl (fun u p => updHart u p.1 (followTrap t.h toS p.2)) t

/-- Whether a queue operation or a returning EPOST of a hart has left it and only its reply is outstanding (R256, R301). -/
def replied (s : State) (loc : Nat) : Bool :=
  (match findHart s loc with | some h => h.evWait.isSome | none => false) ||
    s.queues.any fun q => q.2.served.any (fun e => e.1 == loc) || q.2.granted.contains loc

/-- Whether a hart's BSEND or BGATE awaits the answer to its move, or has not written it yet: interrupts and pre-emption wait (R96). -/
def sending (s : State) (loc : Nat) : Bool := s.moves.any fun m => m.2.sending && m.2.sender == loc && !m.2.told

/-- The interrupt that the executing hart, or its gang, takes at a boundary (R271, R325, R326): the leader's enables decide, and the
lowest-ranked member with an admitted interrupt gives the cause. A GFUSE that has failed raises its exception first (R269). -/
def admittedIntr (s : State) : Option Nat :=
  if (s.h.fuse.any fun m => 2 ^ 16 ≤ m) || (gangLocs s).any fun l => replied s l || sending s l then none
  else firstSome (fun m => pendingIntr s m s.h.csr s.h.mode) (gangHarts s s.h)

/-- A hart that waits in WFI leaves it: it goes on at the next instruction (R29). -/
def endWfi (h : Hart) : Hart :=
  if h.wfi then { h with wfi := false, pc := h.pc + 4, csr := { h.csr with instret := h.csr.instret + 1 } } else h

/-- WFI ends before an interrupt is taken: the saved pc is the next instruction (R29). -/
def leaveWfi (s : State) : State := (gangLocs s).foldl (fun s l => updHart s l endWfi) s

/-- Take the admitted interrupt, if there is one: a direct MMA is suspended first, unless it has to complete (R202), and operations that
wait at a queue are withdrawn (R300, R301). -/
def takeIntr (s : State) : Option State :=
  (admittedIntr s).bind fun i => (suspendMma s).map fun s =>
    let s := leaveWfi ((gangLocs s).foldl withdraw s)
    { enterAll s true i ((gangLocs s).map fun _ => 0) with note := .clear }

/-- TAKE_INTERRUPT: at an instruction boundary of the executing hart, which for a gang is its leader's (R271, R325, R326). A hart that stands in
an instruction that runs to its end is at none (R129, R343). -/
def execTakeInterrupt (s : State) : Host.Outcome State Fault Refusal :=
  happen (if s.h.live && s.h.tile.isSome then
    match switchTo s (gangLead s) with
    | some t => if (gangHarts t t.h).any (·.mid) then t else (takeIntr t).getD t
    | none => s
  else s)

/-- What one member's part of an instruction came to. -/
inductive Part where
  | ok (s : State)
  | trapped (loc : Nat) (cause : Word) (tval : Word)
  | stalled (s : State)
  | stop (o : Host.Outcome State Fault Refusal)

/-- Read an outcome by its note. -/
def partOf (loc : Nat) (o : Host.Outcome State Fault Refusal) : Part :=
  match o with
  | .next t => match t.note with
    | .clear | .blocked => .ok t
    | .trapped c v => .trapped loc c v
    | .stalled => .stalled t
  | o => .stop o

/-- Run a member's part: it becomes the executing hart. -/
def runMember (run : State → Host.Outcome State Fault Refusal) (s : State) (loc : Nat) : Part :=
  match switchTo s loc with
  | some t => partOf loc (run t)
  | none => .ok s

/-- Run the members in rank order; the state is that of the last, and the first trap, stall or stop ends it. -/
def runAll (runs : List (Nat × (State → Host.Outcome State Fault Refusal))) (s : State) : Part :=
  match runs with
  | [] => .ok s
  | (l, run) :: r => match runMember run s l with
    | .ok t => runAll r t
    | p => p

/-- `tval` of a member: what its part, run alone, reports, and 0 when that raises nothing (R271). A member that raises another cause than the one
that is taken reports its own value: the address or handle that its instruction names (log 93). -/
def ownTval (s : State) (p : Nat × (State → Host.Outcome State Fault Refusal)) : Word :=
  match runMember p.2 s p.1 with
  | .trapped _ _ v => v
  | .ok _ | .stalled _ | .stop _ => 0

/-- The cause of the lowest-ranked member whose part, run alone, traps. -/
def firstTrap (s : State) (runs : List (Nat × (State → Host.Outcome State Fault Refusal))) : Option Word :=
  firstSome (fun p => match runMember p.2 s p.1 with
    | .trapped _ c _ => some c
    | .ok _ | .stalled _ | .stop _ => none) runs

/-- A member's part of an instruction runs in the leader's privilege mode; the member's own copy stays, unless the instruction is a return from a
trap, which sets it (R270). -/
def inMode (md : Mode) (returns : Bool) (run : State → Host.Outcome State Fault Refusal) (s : State) : Host.Outcome State Fault Refusal :=
  match run (modH s fun h => { h with mode := md }) with
  | .next t => .next (if returns then t else updHart t s.h.loc fun h => { h with mode := s.h.mode })
  | o => o

/-- After an instruction of the gang every member is at the leader's pc. Its own privilege mode stays (R270). -/
def alignGang (s : State) (locs : List Nat) (lead : Nat) : State :=
  match findHart s lead with
  | some l => locs.foldl (fun s k => updHart s k fun h => { h with pc := l.pc }) s
  | none => s

/-- The members whose gang still stands. -/
def stillFused (s : State) (lead : Nat) : Bool := match findHart s lead with | some h => h.gang.isSome | none => false

/-- What a stalled instruction of the gang leaves of one member's part: what its own stall records; or where it does not stall itself, the
channel or the variable at which it waits for the others (R285, R288). -/
def stallPart (u : State) (p : Nat × (State → Host.Outcome State Fault Refusal)) : State :=
  match runMember p.2 u p.1 with
  | .stalled t => t
  | .ok t => match findHart t p.1 with
    | some m => updHart u p.1 fun h => { h with barAt := m.barAt, svAt := m.svAt }
    | none => u
  | .trapped _ _ _ | .stop _ => u

/-- The members' parts of an instruction that stalls. At a WFI every member waits (R29). -/
def stallAll (s : State) (runs : List (Nat × (State → Host.Outcome State Fault Refusal))) : State :=
  let t := runs.foldl stallPart s
  if runs.any fun p => (findHart t p.1).any (·.wfi) then runs.foldl (fun t p => updHart t p.1 fun h => { h with wfi := true }) t else t

/-- One instruction of a gang (R270, R271): all its members' parts are performed, or none. A trap in any member is taken by all; a
stall in any member leaves every member's part unperformed, but for what the members' stalls record. -/
def lockstep (s : State) (runs : List (Nat × (State → Host.Outcome State Fault Refusal))) : Host.Outcome State Fault Refusal :=
  let lead := (runs.headD (s.h.loc, fun s => .next s)).1
  match firstTrap s runs with
  | some c => .next { enterAll s false (c.toNat % 2 ^ 63) (runs.map (ownTval s)) with note := .trapped c 0 }
  | none =>
    match runAll runs s with
    | .ok t =>
      let t := (switchTo t lead).getD t
      let t := runs.foldl (fun t p => updHart t p.1 fun h => { h with barAt := none, svAt := none }) t
      .next (if stillFused t lead then alignGang t (runs.map (·.1)) lead else t)
    | .trapped l c v =>
      .next { enterAll s false (c.toNat % 2 ^ 63) (runs.map fun p => if p.1 == l then v else 0) with note := .trapped c v }
    | .stop o => o
    | .stalled _ =>
      let t := stallAll s runs
      .next { (switchTo t lead).getD t with note := .stalled }

end Sys2Proof.Machine
end

