-- ==== Sys2Proof/Machine/Engine.lean ====
section
/-! DEFINITION. Events of a tile's engines: a queued command fires (R184), a matrix command completes (R185, R190, R197, R206), and a
direct MMA fails on an operand (R201). -/

namespace Sys2Proof.Machine

/-- A command of a hart. -/
def cmdOf (s : State) (loc id : Nat) : Option (Hart × EngCmd) :=
  (findHart s loc).bind fun h => (h.cmds.find? fun c => c.id == id).map fun c => (h, c)

/-- The event that is due once a command has fired. -/
def afterFire (loc : Nat) (c : EngCmd) : Instr :=
  match c.op with
  | .copy k => .copySegment loc k.ticket.toNat
  | .mma _ | .mzero _ | .mldacc _ _ _ | .mstacc _ _ _ | .mdrain _ => .engineCommandComplete loc c.id

/-- ENGINE_COMMAND_FIRE: the command, and a gang's MMA in every member, claims its slots (R184, R199). -/
def execEngineCommandFire (loc id : Nat) (s : State) : Host.Outcome State Fault Refusal :=
  match cmdOf s loc id with
  | none => happen s
  | some (h, c) =>
    if c.fired then happen s
    else
      let ms := mates s h c
      if h.tile.isSome && ms.all fun p => mayFire p.1 p.2 then
        let s := ms.foldl (fun s p => updHart s p.1.loc fun h => fireCmd h p.2) s
        happen (match ms.head? with | some l => enqueue s (afterFire l.1.loc l.2) | none => s)
      else block s (.engineCommandFire loc id)

/-- The accumulator of a command. -/
def EngOp.acc? : EngOp → Option (Fin 2)
  | .mma c => some c.acc
  | .mzero a | .mldacc a _ _ | .mstacc a _ _ => some a
  | .mdrain c => some c.acc
  | .copy _ => none
/-- Whether a matrix command runs on the drain path. -/
def EngOp.onDrain : EngOp → Bool
  | .mma _ => false
  | .mzero _ | .mldacc _ _ _ | .mstacc _ _ _ | .mdrain _ | .copy _ => true

/-- A fired matrix command may complete: every earlier one on its path or its accumulator has (R190). -/
def mayEnd (p : Hart × EngCmd) : Bool :=
  p.2.fired && !p.2.susp && p.1.tile.isSome &&
    (earlierCmds p.1 p.2.id).all fun e => e.isCopy || (e.op.acc? != p.2.op.acc? && e.op.onDrain != p.2.op.onDrain)

/-! MMA -/

/-- A direct MMA retires. -/
def retire (h : Hart) : Hart := { h with pc := h.pc + 4, csr := { h.csr with instret := h.csr.instret + 1 } }

/-- An MMA completes in every member (R197). Its operands have been read, and no line of B is pinned any more. -/
def finishMma (s : State) (ms : List (Hart × EngCmd)) : State :=
  match ms.head?, ms.head?.bind fun l => l.2.mma? with
  | some l, some cl =>
    let b := lineBytes (bLines s l cl)
    ms.foldl (fun t p => match p.2.mma? with
      | some c =>
        let part := sumAll c cl (lineBytes (aLines s p c)) b p.2.done (c.blocks - p.2.done) p.2.part
        let acc := (part.zip (accList (accOf p.1 c.acc))).map fun q => q.1.2.finish c.ts.toNat q.2
        let t := updHart t p.1.loc fun h => Hart.putMprog (setAcc h c.acc (accTbl acc)) 0
        let t := endCmd t p.1.loc p.2 true
        if p.2.direct then updHart t p.1.loc retire else t
      | none => t) (releaseB (noteOperands s ms) l.1 cl)
  | _, _ => s

/-- A direct MMA traps at a block in every member of its gang; `tval` gives each member's own value (R199, R201). -/
def trapMma (s : State) (ms : List (Hart × EngCmd)) (kb cause : Nat) (tval : Nat → Word) : State :=
  let t := stopMma s ms kb
  match ms.head?.bind fun l => switchTo t l.1.loc with
  | some t => { enterAll t false cause (ms.map fun p => tval p.1.loc) with note := .clear }
  | none => t

/-- What stops a handle operand of a member: its hartloc, the block, the cause and its `tval` (R109, R172, R201). -/
def opndFails (s : State) (p : Hart × EngCmd) (o : Opnd) (f : Option NarrowFmt) (side : Nat) (c : MmaCmd)
    (lines : List (Option (List Byte))) : Option (Nat × Nat × Nat × Word) :=
  match o with
  | .cb _ _ | .leader => none
  | .image hv va =>
    match capAt s (hIndex hv) with
    | none => some (p.1.loc, p.2.done, causeCapability, hv)
    | some e =>
      if e.state == .quarantined then some (p.1.loc, p.2.done, causeQuarantined, word (va + panelAt f side p.2.done))
      else if e.level == .remote && (matching (p.1.holdings ++ kernelHoldings s p.1.loc) hv).all fun g => g.void then some (p.1.loc, p.2.done, causeCapability, hv)
      else
        firstSome (fun blk => (blockBad (unread lines) f side c.k c.scaled blk).map fun a => (p.1.loc, blk, causeQuarantined, word (va + a)))
          (rangeFrom p.2.done (c.blocks - p.2.done))

/-- Every operand of an MMA that stops it, lowest rank first and A before B; the panels of a REMOTE B that a dead link keeps away among
them. -/
def mmaStops (s : State) (ms : List (Hart × EngCmd)) : List (Nat × Nat × Nat × Word) :=
  let a := ms.filterMap fun p => p.2.mma?.bind fun c => opndFails s p c.a (pairFmts c.pair).1 64 c (aLines s p c)
  match ms.head?.bind fun l => l.2.mma?.map fun c => (l, c) with
  | some (l, c) =>
    let b := (opndFails s l c.b (pairFmts c.pair).2 256 c (bLines s l c)).toList
    let k := ((remoteB s c).bind fun b => (linkBad s l.1 c l.2.done).map fun e => (l.1.loc, e.1, causeLink, word (b.2 + e.2))).toList
    a.filter (fun e => e.1 == l.1.loc) ++ b ++ k ++ a.filter fun e => e.1 != l.1.loc
  | none => a

/-- What stops an MMA: the first block that fails, the cause of the lowest-ranked member that fails there, and each member's own value, 0
for one whose own operands are read (R199, R271; log 93). -/
def mmaFails (s : State) (ms : List (Hart × EngCmd)) : Option (Nat × Nat × (Nat → Word)) :=
  let l := mmaStops s ms
  match l.foldl (fun (m : Option Nat) e => some (match m with | some b => min b e.2.1 | none => e.2.1)) none with
  | some blk =>
    let at_ := l.filter fun e => e.2.1 == blk
    at_.head?.map fun e => (blk, e.2.2.1, fun loc =>
      match at_.find? fun k => k.1 == loc with | some k => k.2.2.2 | none => 0)
  | none => none

/-- Local lines of a handle operand that cannot be read are marked, or their buffer quarantined (R172). -/
def markBad (s : State) (o : Opnd) (lines : List (Option (List Byte))) : State :=
  match o with
  | .cb _ _ | .leader => s
  | .image hv va =>
    match capAt s (hIndex hv), badIn (unread lines) 0 (128 * lines.length) with
    | some c, some off =>
      if c.level == .remote then s
      else match bufOff s (hIndex hv) c (va - c.base + off) with
        | some pa => lineError s pa
        | none => s
    | _, _ => s

/-- Mark the unreadable operands of an MMA. -/
def markOperands (s : State) (ms : List (Hart × EngCmd)) : State :=
  ms.foldl (fun s p => match p.2.mma? with
    | some c => markBad (markBad s c.a (aLines s p c)) c.b (bLines s p c)
    | none => s) s

/-- The end of an MMA: it completes, or traps on an operand; the flag is false while a slice keeps its fetcher waiting. -/
def endMma (s : State) (ms : List (Hart × EngCmd)) : State × Bool :=
  match mmaFails s ms with
  | some (blk, cause, tval) => (trapMma (markOperands s ms) ms blk cause tval, true)
  | none =>
    match ms.head?.bind fun l => l.2.mma?.map fun c => (l, c) with
    | some (l, c) => match fetchBlocks s l.1 c l.2.done (c.blocks - l.2.done) with
      | (t, true) => (finishMma t ms, true)
      | (t, false) => (carryRolls s t, false)
    | none => (finishMma s ms, true)

/-! The drain path -/

/-- The first slot of a command's claim on a circular buffer: the `nth` of its claims. -/
def startOf (c : EngCmd) (nth : Nat) : Nat := match c.starts[nth]? with | some p => p.2 | none => 0

/-- Whether an MDRAIN's SV.MAX is still on its way (R207). -/
def drainPosted (s : State) (loc : Nat) : Bool := s.svPosts.any fun v => v.hart == loc && v.drain

/-- MDRAIN's output, and its SV.MAX posted (R206). -/
def drainOut (s : State) (h : Hart) (c : EngCmd) (d : DrainCmd) : State :=
  let res := match d.res with | some n => cbRead s (cbAt h n) (startOf c 0) (drainBytes d.fmt) | none => []
  let (bytes, amax) := drainImage d h.loc (accOf h d.acc) res
  let s := cbWrite s (cbAt h d.out) (startOf c (if d.res.isSome then 1 else 0)) bytes
  if bitAt d.mamaxv 63 then
    enqueue { s with svPosts := s.svPosts ++
      [{ hart := h.loc, var := fld d.mamaxv 0 24, op := 2, operand := word amax, expect := 0, world := worldOf s h.ctx, drain := true }] }
      (.postedSvOperation 0)
  else s

/-- A matrix command of one hart completes; an MDRAIN whose SV.MAX is on its way waits for it, so that the maximum is posted before MX
falls (R207). -/
def endMatrix (s : State) (h : Hart) (c : EngCmd) : Host.Outcome State Fault Refusal :=
  let done (s : State) : Host.Outcome State Fault Refusal := happen (endCmd s h.loc c true)
  match c.op with
  | .mma _ => match endMma s (mates s h c) with
    | (s, true) => happen s
    | (s, false) => block s (.engineCommandComplete h.loc c.id)
  | .mzero a => done (updHart s h.loc fun h => setAcc h a [])
  | .mldacc a n _ =>
    let img := (cbRead s (cbAt h n) (startOf c 0) 65536)
    done (updHart s h.loc fun h => setAcc h a (accTbl ((rangeFrom 0 16384).map fun k => packedElem ((img.drop (4 * k)).take 4) 32 0)))
  | .mstacc a n _ => done (cbWrite s (cbAt h n) (startOf c 0) (packElems 32 (accList (accOf h a))))
  | .mdrain d =>
    if drainPosted s h.loc then block s (.engineCommandComplete h.loc c.id)
    else if c.done = 64 then done s
    else
      let t := drainOut s h c d
      if bitAt d.mamaxv 63 then
        block (updHart t h.loc fun h => updCmd h c.id fun k => { k with done := 64 }) (.engineCommandComplete h.loc c.id)
      else done t
  | .copy _ => happen s

/-- ENGINE_COMMAND_COMPLETE. -/
def execEngineCommandComplete (loc id : Nat) (s : State) : Host.Outcome State Fault Refusal :=
  match cmdOf s loc id with
  | none => happen s
  | some (h, c) =>
    if c.isCopy || !c.fired || c.susp then happen s
    else if (mates s h c).all mayEnd then endMatrix s h c
    else block s (.engineCommandComplete loc id)

/-! Failed reads of a remote panel (R201) -/

/-- The running direct MMA of a hart, or of its gang, if its B is REMOTE: its members, the handle and address of B. -/
def remoteMma (s : State) (loc : Nat) : Option (List (Hart × EngCmd) × MmaCmd × Word × Nat) :=
  (findHart s loc).bind fun h => (runningDirect h).bind fun c =>
    let ms := mates s h c
    ms.head?.bind fun l => l.2.mma?.bind fun k =>
      if l.1.tile.isSome then (remoteB s k).map fun b => (ms, k, b.1, b.2) else none

/-- The block at which a failed read of a block's panel is reported: for bit planes, the first of its range. -/
def reportBlock (c : MmaCmd) (blk : Nat) : Nat := if (pairFmts c.pair).2.isNone then blk / 16 * 16 else blk

/-- The offsets at which the first faulting byte of a block may lie (R201): where its panel and its scales begin, and where a new piece of
`step` bytes begins in them. -/
def faultBytes (c : MmaCmd) (va step blk : Nat) : List Nat :=
  let f := (pairFmts c.pair).2
  let pieces (a n : Nat) : List Nat :=
    (rangeFrom ((va + a) / step) (((va + a) % step + n + step - 1) / step)).map fun p => max (va + a) (p * step) - va
  pieces (panelAt f 256 blk) (panelBytes f 256) ++ if c.scaled then pieces (elemBytes f 256 c.k + 256 * blk) 256 else []

/-- The direct MMA fails at a block. Which byte of its panel is the first that fails is a free value: one at which a page begins for a page
fault, one at which a line begins otherwise (log 51). An MMA that was resumed within the range that fails has done blocks of it, and reports
the first that it has not: R201's multiple of 16 would undo them (log 94). -/
def panelFails (s : State) (ms : List (Hart × EngCmd)) (c : MmaCmd) (hv : Word) (va blk : Nat) (why : PanelFail) : State :=
  let kb := max (match ms.head? with | some l => l.2.done | none => 0) (reportBlock c blk)
  let (n, s) := draw s
  let bytes := faultBytes c va (match why with | .page => 4096 | .link | .ecc | .revoked => 128) kb
  let addr := word (va + bytes.getD (Config.mmaBoundary n % (if bytes.length = 0 then 1 else bytes.length)) 0)
  let own (v : Word) (loc : Nat) : Word := if ms.head?.any fun l => l.1.loc == loc then v else 0
  match why with
  | .page => trapMma s ms kb 13 (own addr)
  | .link => trapMma s ms kb causeLink (own addr)
  | .ecc => trapMma s ms kb causeQuarantined (own addr)
  | .revoked => trapMma s ms kb causeCapability (own hv)

/-- MMA_PANEL_FAULT: a block that the MMA has not summed yet. -/
def execMmaPanelFault (hartloc blk : Nat) (why : PanelFail) (s : State) : Host.Outcome State Fault Refusal :=
  match remoteMma s hartloc with
  | some (ms, c, hv, va) =>
    let done := match ms.head? with | some l => l.2.done | none => 0
    happen (if done ≤ blk && blk < c.blocks then panelFails s ms c hv va blk why else s)
  | none => happen s

/-- A link has left UP or DEGRADED: every running direct MMA whose B comes over it fails at the first panel that it has not read by then
(R201, R356). How far its fetcher has come is a free value. -/
def failMmas (before s : State) : State :=
  (harts s).foldl (fun s h =>
    match remoteMma s h.loc with
    | some (ms, c, _, va) =>
      match ms.head? with
      | some l =>
        if l.1.loc != h.loc || remoteUp s va then s
        else
          let (n, s) := draw s
          let lo := l.2.done
          let far := min (c.blocks - lo) (1 + Config.mmaBoundary n % (c.blocks - lo))
          let p := routePort s (va / 2 ^ 47 % 256)
          let down := portAt s p
          let s := updPort (fetchBlocks (updPort s p fun _ => portAt before p) l.1 c lo far).1 p fun _ => down
          match linkBad s l.1 c lo with
          | some (blk, a) => trapMma s ms blk causeLink fun loc => if loc == l.1.loc then word (va + a) else 0
          | none => s
      | none => s
    | none => s) s

/-- UNANSWERED_READ: a read of the executing hart's direct MMA that is never answered; which block it was for is a free value. -/
def execUnansweredRead (s : State) : Host.Outcome State Fault Refusal :=
  match remoteMma s s.h.loc with
  | some (ms, c, hv, va) =>
    let done := match ms.head? with | some l => l.2.done | none => 0
    let (n, s) := draw s
    happen (panelFails s ms c hv va (done + Config.mmaBoundary n % (c.blocks - done)) .link)
  | none => happen s

end Sys2Proof.Machine
end

