-- ==== Sys2Proof/Machine/Copy.lean ====
section
/-! DEFINITION. Copies: shape records (R223 to R225), operands and issue (R226 to R229), segments (R230), the six commands (R232 to
R235) and completion records (R237). Copies that overlap never run together (R231): every buffer that one of them writes is LENT until
it completes, so that the later one stalls at issue. -/

namespace Sys2Proof.Machine

/-! The shape record -/

/-- Doubleword `n` of a record in memory. -/
def recDw (r : List Byte) (n : Nat) : Word := word (leNat ((r.drop (8 * n)).take 8))

/-- A shape record from its 160 bytes (R223). -/
def parseShape (r : List Byte) : Shape :=
  let w := recDw r 0
  { ndim := fld w 0 3, esize := fld w 4 3, slay := fld w 8 4, dlay := fld w 12 4, lconv := bitAt w 16, crec := bitAt w 17,
    fcvt := fld w 18 2, ffmt := fld w 20 3, frnd := fld w 23 3, fsat := bitAt w 26, scb := fld w 27 5, dcb := fld w 32 5,
    rop := fld w 37 3, rtyp := fld w 40 4, soff := fld (recDw r 1) 0 41, doff := fld (recDw r 2) 0 41, ring := recDw r 3,
    ixh := recDw r 4, ioff := fld (recDw r 5) 0 41,
    ext := (rangeFrom 0 6).map fun d => fld (recDw r (8 + 2 * d)) 0 32,
    sstr := (rangeFrom 0 6).map fun d => signed 32 (fld (recDw r (9 + 2 * d)) 0 32),
    dstr := (rangeFrom 0 6).map fun d => signed 32 (fld (recDw r (9 + 2 * d)) 32 32) }

/-- Reserved fields of the record are zero. -/
def reservedZero (r : List Byte) (ndim : Nat) : Bool :=
  recDw r 0 &&& 0xFFFFF00000000088#64 == 0 && fld (recDw r 1) 41 23 == 0 && fld (recDw r 2) 41 23 == 0 && fld (recDw r 5) 41 23 == 0 &&
    recDw r 6 == 0 && recDw r 7 == 0 &&
    (rangeFrom 0 6).all fun d => fld (recDw r (8 + 2 * d)) 32 32 == 0 &&
      (d < ndim || (recDw r (8 + 2 * d) == 0 && recDw r (9 + 2 * d) == 0))

/-- Extents in use. -/
def Shape.exts (c : Shape) : List Nat := c.ext.take c.ndim
/-- Number of positions. -/
def Shape.total (c : Shape) : Nat := c.exts.foldl (· * ·) 1

/-- The narrow format of a code of `ffmt` (R41). -/
def narrowOf : Nat → NarrowFmt
  | 0 => .fp4 | 1 => .e4m3 | 2 => .e5m2 | 3 => .bf16 | 4 => .fp16 | 5 => .int8 | _ => .int4

/-- Source and destination element sizes, in nibbles (R224). -/
def Shape.es (c : Shape) : Nat := match c.esize with | 0 => 2 | 1 => 4 | 2 => 8 | 3 => 16 | _ => 1
def Shape.ed (c : Shape) : Nat :=
  match c.fcvt with
  | 1 => (narrowOf c.ffmt).bits / 4
  | 2 => 8
  | _ => c.es

/-- Size in nibbles of a RED element type. -/
def rtypSize : Nat → Nat
  | 0 | 2 | 4 => 8 | 1 | 3 => 16 | _ => 4

/-- The layout conditions of R224 on one side: layout, start, element size in nibbles, first stride and first extent. R224 asks of BPLANE that
`esize` be a byte; the model asks it of the side's own elements too, so that a conversion to another size has no BPLANE destination (log 97). -/
def layOk (lay off e : Nat) (str0 : Int) (ext0 esize : Nat) : Bool :=
  (lay != 1 || (off % 128 = 0 && str0 = 1 && ext0 * e % 256 = 0)) && (lay != 4 || (esize = 0 && e = 2)) && (e != 1 || lay = 0 || lay = 5)

/-- Codes of a record are assigned (R223). -/
def codesOk (c : Shape) : Bool :=
  1 ≤ c.ndim && c.ndim ≤ 6 && c.esize ≤ 4 && c.slay ≤ 5 && c.dlay ≤ 5 && c.fcvt ≤ 2 && c.ffmt ≤ 6 && c.frnd ≤ 3 && c.rop ≤ 5 &&
    c.rtyp ≤ 6 && (c.scb = 0 || 16 ≤ c.scb) && (c.dcb = 0 || 16 ≤ c.dcb) && c.ioff % 4 = 0 && c.exts.all fun e => 1 ≤ e

/-- What a command asks of its record (R225). -/
def kindOk (k : CopyKind) (c : Shape) : Bool :=
  (c.slay = c.dlay || c.lconv) &&
    match k with
    | .copy =>
      (c.fcvt != 1 || c.esize = 2) && (c.fcvt != 2 || c.es = (narrowOf c.ffmt).bits / 4) && c.rop = 0 && c.rtyp = 0 && c.ixh = 0
    | .red =>
      c.fcvt = 0 && c.es = rtypSize c.rtyp && (c.rop < 3 || c.rtyp ≤ 3) && c.scb = 0 && c.dcb = 0 && c.ixh = 0
    | .gath | .scat => c.ndim = 2 && c.fcvt = 0 && c.ixh != 0 && c.scb = 0 && c.dcb = 0
    | .fill => c.fcvt = 0 && c.scb = 0 && c.soff = 0 && (c.sstr.all fun x => x == 0) && c.ixh = 0
    | .cmp => c.fcvt = 0 && c.crec && c.scb = 0 && c.dcb = 0 && c.ixh = 0

/-- A well-formed record (R223 to R225). R224 does not except the source of FILL, which has none, from the conditions on a layout: its `slay`
ROW128 is malformed, since `sstr` must then be 0 (log 98). -/
def shapeOk (k : CopyKind) (va : Nat) (r : List Byte) (c : Shape) : Bool :=
  va % 8 = 0 && reservedZero r c.ndim && codesOk c && kindOk k c && c.total ≤ 2 ^ 40 &&
    layOk c.slay c.soff c.es (c.sstr.headD 0) (c.ext.headD 0) c.esize &&
    layOk c.dlay c.doff c.ed (c.dstr.headD 0) (c.ext.headD 0) c.esize

/-! Positions and elements (R224) -/

/-- Indices of a position: dimension 0 varies fastest. -/
def digits : List Nat → Nat → List Nat
  | [], _ => []
  | e :: r, p => p % e :: digits r (p / e)

/-- An exact linear element number. -/
def linear : List Nat → List Int → Int
  | i :: r, x :: y => (i : Int) * x + linear r y
  | _, _ => 0

/-- Linear offset, in nibbles, of an element number of a side. -/
def linOff (off e : Nat) (n : Int) : Int := 2 * (off : Int) + n * (e : Int)

/-- Byte offset of a linear byte offset under a layout (R224). -/
def layMap (lay l : Nat) : Nat :=
  let line := l / 128
  match lay with
  | 2 => 128 * line + 16 * ((l % 128 / 16) ^^^ (line % 8)) + l % 16
  | 3 => 128 * line + 4 * ((l % 128 / 4) ^^^ (line % 32)) + l % 4
  | _ => l

/-- Byte offsets of an element of `e` nibbles at a linear offset in nibbles. -/
def elemOffs (lay e l : Nat) : List Nat :=
  if lay = 4 then (rangeFrom 0 8).map fun p => 128 * (l / 2 / 128) + 16 * p + l / 2 % 128 / 8
  else (rangeFrom (l / 2) (if e = 1 then 1 else e / 2)).map (layMap lay)

/-- The element that bytes hold. -/
def elemGet (lay e l : Nat) (b : List Byte) : Nat :=
  if lay = 4 then
    (rangeFrom 0 8).foldl (fun v p => v + if (b.getD p 0).getLsbD (l / 2 % 8) then 2 ^ (7 - p) else 0) 0
  else if e = 1 then leNat b / 16 ^ (l % 2) % 16
  else leNat b

/-- Those bytes with the element replaced. -/
def elemPut (lay e l : Nat) (b : List Byte) (v : Nat) : List Byte :=
  if lay = 4 then
    (rangeFrom 0 8).map fun p =>
      let o := (b.getD p 0).toNat
      let k := 2 ^ (l / 2 % 8)
      BitVec.ofNat 8 (o - o / k % 2 * k + v / 2 ^ (7 - p) % 2 * k)
  else if e = 1 then
    let o := leNat b
    let k := 16 ^ (l % 2)
    leBytes 1 (o - o / k % 16 * k + v % 16 * k)
  else leBytes (e / 2) v

/-! What a command touches -/

/-- Bytes that one side touches: the offsets in iteration order; none when one of them is negative. -/
def touched (c : Shape) (dst : Bool) : Option (List Nat) :=
  let off := if dst then c.doff else c.soff
  let e := if dst then c.ed else c.es
  let str := if dst then c.dstr else c.sstr
  let lay := if dst then c.dlay else c.slay
  ((rangeFrom 0 c.total).mapM fun p =>
    let l := linOff off e (linear (digits c.exts p) str)
    if l < 0 then none else some (elemOffs lay e l.toNat)).map List.flatten

/-- The least and the greatest byte offset that a side touches, which may be negative. -/
def sideBounds (c : Shape) (dst : Bool) : Int × Int :=
  let off := if dst then c.doff else c.soff
  let e := if dst then c.ed else c.es
  let str := if dst then c.dstr else c.sstr
  let lay := if dst then c.dlay else c.slay
  let ends (p : Nat) : Int × Int :=
    let l := linOff off e (linear (digits c.exts p) str)
    let o := elemOffs lay e l.toNat
    if l < 0 then (l / 2, (l + e - 1) / 2) else ((o.foldl min (o.headD 0) : Nat), (o.foldl max 0 : Nat))
  (rangeFrom 1 (c.total - 1)).foldl (fun b p => (min b.1 (ends p).1, max b.2 (ends p).2)) (ends 0)

/-- The side that an index list addresses is touched across its whole length (R228). -/
def indexed (k : CopyKind) (dst : Bool) : Bool :=
  match k with | .gath => !dst | .scat => dst | .copy | .red | .fill | .cmp => false

/-- Least and greatest of some offsets. -/
def bounds (l : List Nat) : Nat × Nat := (l.foldl min (l.headD 0), l.foldl max 0)

/-- BLK8 on a side whose offsets the record gives: each linear offset lies below 256 times the buffer's `lparam` (R224). -/
def blkSide (s : State) (c : Shape) (hv : Word) (dst : Bool) : Bool :=
  (if dst then c.dlay else c.slay) != 5 ||
    match capAt s (hIndex hv), touched c dst with
    | some b, some l => l.all fun o => o < 256 * b.lparam
    | _, _ => true

/-- The BLK8 condition of R224 on both sides, which makes a record malformed (R225). A side that an index list addresses has offsets only when it
runs (R234). -/
def blkOk (s : State) (k : CopyKind) (c : Shape) (dst src : Word) : Bool :=
  let side (isDst : Bool) (reg : Word) : Bool :=
    indexed k isDst || match cbOfCode (if isDst then c.dcb else c.scb) with
      | some n => blkSide s c (cbAt s.h n).handle isDst
      | none => blkSide s c reg isDst
  side true dst && (k == .fill || side false src)

/-- The bytes of a buffer that a layout admits: the scale region of BLK8 is never touched (R224). -/
def layLimit (lay : Nat) (c : Cap) : Nat := if lay = 5 then min c.length (256 * c.lparam) else c.length

/-! Issue (R228) -/

/-- The first byte of a range at which the executing hart may not load, line by line. -/
def checkLoads (s : State) (va n : Nat) : Res Unit :=
  each (fun l =>
    let a := max l va
    match rightAt s a with
    | .quarantined => .error (.trap causeQuarantined (word a))
    | .lent => .error (.stall s)
    | r => check (r.allows false) causeOwnership (word a)) (linesOf va n)

/-- The end of the buffer that gives the executing hart its load right at an address. -/
def bufEnd (s : State) (va : Nat) : Option Nat :=
  let a := capAddr s va
  firstSome (fun g =>
    match capAt s g.index with
    | some c =>
      if c.gen == g.gen && c.state != .free && c.base ≤ a && a < c.base + c.length && (rightUnder s.h g c a).allows false then
        some (va + (c.base + c.length - a))
      else none
    | none => none) (s.h.holdings ++ kernelHoldings s s.h.loc)

/-- The bytes of a record of `n` bytes that lies in one held buffer (R228 check 1, R254 check 1). -/
def readHeld (s : State) (va n : Nat) : Res (List Byte × State) := do
  if inHole va then .error (.trap 5 (word va))
  checkLoads s va n
  match bufEnd s va with
  | some e => if e < va + n then .error (.trap causeOwnership (word e))
  | none => .ok ()
  let (pas, s) ← translateRange s .load va n
  match readPas s (myTile s) (myPid s) pas with
  | some b => .ok (b, noteRead s (myPid s) (pas.filter fun p => (tget (tileOf s (myTile s)).l1d p).isNone))
  | none => eccTrap s pas (myPid s) fun k => word (va + k)

/-- A handle that a command borrows: WHOLE in OWNED, or for what it only reads SHARE in SHARED (R226). -/
def borrow (s : State) (hv : Word) (share : Bool) : Res Unit := do
  let (g, c) ← checkHandle s hv true
  match g.kind with
  | .whole =>
    if c.state == .owned then .ok ()
    else if c.state == .lent && !c.lendcb then .error (.stall s)
    else .error (.trap causeCapability hv)
  | .share => check (share && c.state == .shared) causeCapability hv
  | .deposit | .notice => .error (.trap causeCapability hv)

/-- A handle operand of a copy under check. -/
structure CopyArg where
  hv : Word
  /-- Whether the command only reads it. -/
  share : Bool
  /-- Stated layout, unless the buffers may differ from it. -/
  layout : Option Nat
  /-- Touched offsets; none when one is negative. -/
  bytes : Option (List Nat)
  limit : Nat
  deriving Repr

/-- The entry of a handle. -/
def capOf (s : State) (hv : Word) : Cap := (capAt s (hIndex hv)).getD Cap.free

/-- Destination and source of a copy, when handles name them. -/
def sideArgs (s : State) (k : CopyKind) (c : Shape) (dst src : Word) : List CopyArg :=
  let side (hv : Word) (isDst : Bool) : CopyArg :=
    let cap := capOf s hv
    let lay := if isDst then c.dlay else c.slay
    { hv := hv, share := !isDst || k == .cmp, layout := if c.lconv then none else some lay,
      bytes := if indexed k isDst then some (rangeFrom 0 cap.length) else touched c isDst, limit := cap.length }
  (if c.dcb = 0 then [side dst true] else []) ++ (if c.scb = 0 && k != .fill then [side src false] else [])

/-- Index list and ring. -/
def otherArgs (s : State) (k : CopyKind) (c : Shape) : List CopyArg :=
  let ix : List CopyArg :=
    if k == .gath || k == .scat then
      [{ hv := c.ixh, share := true, layout := none, bytes := some (rangeFrom c.ioff (4 * c.ext.getD 1 0)), limit := (capOf s c.ixh).length }]
    else []
  let ring : List CopyArg :=
    if c.crec then
      [{ hv := c.ring, share := false, layout := some 0, bytes := some (rangeFrom 0 (capOf s c.ring).length),
         limit := (capOf s c.ring).length }]
    else []
  ix ++ ring

/-- The rule for a buffer that is both source and destination (R226). -/
def sameBufOk (k : CopyKind) (c : Shape) (dst src : Word) : Bool :=
  if c.dcb != 0 || c.scb != 0 || k == .fill || hIndex dst != hIndex src then true
  else match k with
    | .copy | .red | .cmp =>
      (sideBounds c true).2 < (sideBounds c false).1 || (sideBounds c false).2 < (sideBounds c true).1
    | .gath | .scat | .fill => false

/-- Check 5 on one handle. -/
def inLength (a : CopyArg) : Res Unit :=
  match a.bytes with
  | some l => check ((bounds l).2 < a.limit) causeEngine a.hv
  | none => .error (.trap causeEngine a.hv)

/-- Check 6 on one side: its circular buffer and its register. -/
def sideCb (s : State) (c : Shape) (dst : Bool) (reg : Word) : Res Nat :=
  match cbOfCode (if dst then c.dcb else c.scb) with
  | none => .ok 0
  | some n =>
    match touched c dst with
    | none => .error (.trap causeEngine (word n.val))
    | some l => do
      let need ← checkCb s n ((bounds l).2 + 1) dst (if dst then c.dlay else c.slay)
      if reg = 0 then .ok need else .error (.trap causeEngine reg)

/-- Drop repeats that follow each other. -/
def dropRuns : List Nat → List Nat
  | a :: b :: r => if a = b then dropRuns (b :: r) else a :: dropRuns (b :: r)
  | l => l

/-- The 4 KiB units that an operand touches, in the order of first touch; TILE and CLUSTER buffers have none. -/
def argUnits (s : State) (a : CopyArg) : List Nat :=
  let c := capOf s a.hv
  match c.level with
  | .tile | .cluster => []
  | .device | .host | .pool | .remote => uniq (dropRuns ((a.bytes.getD []).map fun o => (c.base + o) / 4096))

/-- The page of any size that holds a 4 KiB unit (R339), whatever it admits: as the engine's TLB or the tables have it; one unit where nothing
maps it. -/
def unitPage (s : State) (k : Access) (u : Nat) : Nat × Nat :=
  if !paged s k then (u, 1)
  else match tlbFind (tlbOf s true) s.h.ctx (fld s.h.csr.satp 44 16) (u * 4096) with
    | some e => (e.vpn, e.pages)
    | none => match walk s (pmpAdmits s .s .load) s.h.ctx s.h.csr.satp (u * 4096) with
      | .ok e => (e.vpn, e.pages)
      | .error _ => (u, 1)

/-- The pages that an operand touches. -/
def argPages (s : State) (a : CopyArg) : List (Nat × Nat) :=
  ((argUnits s a).map (unitPage s (if a.share then .load else .store))).eraseDups

/-- The least touched address of a 4 KiB unit. -/
def firstTouch (base : Nat) (bytes : List Nat) (page : Nat) : Nat :=
  match (bytes.map (base + ·)).filter fun a => a / 4096 == page with
  | [] => page * 4096
  | a :: r => r.foldl min a

/-- Probe the 4 KiB units of one operand (check 8): a host that refuses a page gives the hart an access fault (R364). -/
def probeArg (k : Access) (base : Nat) (bytes : List Nat) : List Nat → State → Res (List (Nat × Nat) × State)
  | [], s => .ok ([], s)
  | u :: r, s => do
    let va := firstTouch base bytes u
    let (pa, s) ← translateBy true s k va
    if linkDead s pa then .error (.trap causeLink (word va))
    else match askHost s pa with
      | (s, false) => .error (.trapAt s k.fault (word va))
      | (s, true) => do
        let p := pageAt s true k va
        let (l, s) ← probeArg k base bytes r s
        .ok (p :: l, s)

/-- The answer of a storing device to the probe of a REMOTE operand: the link's state, then a free value that says whether one of its pages
fails, and which (log 19). -/
def probeRemote (s : State) (k : Access) (c : Cap) (bytes units : List Nat) : Res State :=
  let addr (u : Nat) : Word := word (firstTouch c.base bytes u)
  if !(portAt s (routePort s (storingDevice c))).carries then .error (.trap causeLink (addr (units.headD 0)))
  else
    let (n, s) := draw s
    let w := Config.freeWord n
    if w.getLsbD 0 then .error (.trapAt s k.page (addr (units.getD (fld w 1 63 % (if units.length = 0 then 1 else units.length)) 0)))
    else .ok s

/-- Check 8: probe and pin. -/
def probeArgs (s : State) : List CopyArg → Res (List (Nat × Nat) × State)
  | [] => .ok ([], s)
  | a :: r => do
    let c := capOf s a.hv
    let k : Access := if a.share then .load else .store
    let bytes := a.bytes.getD []
    let (l, s) ← probeArg k c.base bytes (argUnits s a) s
    let s ← if c.level == .remote then probeRemote s k c bytes (argUnits s a) else .ok s
    let (m, s) ← probeArgs s r
    .ok (l ++ m, s)

/-- Issue of a copy (R228). -/
def copyBody (k : CopyKind) (rd rs1 rs2 rs3 : Reg) (s : State) : Res State := do
  let va := addrReg s rs3
  let dst := rx s rs1
  let src := rx s rs2
  let (r, t) ← readHeld s va 160
  let c := parseShape r
  if !shapeOk k va r c || !blkOk t k c dst src then .error (.trap causeEngine (word va))
  let sides := sideArgs t k c dst src
  let args := sides ++ otherArgs t k c
  each (fun a => borrow t a.hv a.share) args
  if !sameBufOk k c dst src then .error (.trap causeCapability src)
  each (fun a => match a.layout with
    | some l => check ((capOf t a.hv).layout = l) causeLayout a.hv
    | none => .ok ()) args
  each inLength args
  let dneed ← sideCb t c true dst
  let sneed ← sideCb t c false (if k == .fill then 0 else src)
  each (fun a => check ((argPages t a).length ≤ 65536) causeEngine a.hv) args
  let (pages, t) ← probeArgs t args
  if 64 ≤ cpCount t.h then .error (.stall t)
  let queued : Bool := c.scb != 0 || c.dcb != 0
  if queued then queueRoom t
  let whole := args.filter fun a => hKind a.hv == some .whole
  let share := args.filter fun a => hKind a.hv == some .share
  let lends := uniq (whole.map fun a => hIndex a.hv)
  let t ← lendAll t lends
  let op : CopyCmd :=
    { kind := k, shape := c, dst := dst, src := src, fill := src, ticket := t.h.ticket, satp := t.h.csr.satp, mstatus := t.h.csr.mstatus, mode := t.h.mode,
      pmpcfg := t.h.csr.pmpcfg, pmpaddr := t.h.csr.pmpaddr,
      sneed := sneed, dneed := dneed, pos := 0, unequal := 0, least := none, status := 0, ended := false }
  let cmd := { newCmd t (.copy op) queued with
    fired := !queued
    lends := lends
    pins := share.map fun a => (hIndex a.hv, hUnits a.hv)
    pages := pages.eraseDups }
  let t := mark (wx t rd (word t.h.ticket.toNat)) 13
  let t := modH t fun h => { h with ticket := h.ticket + 1 }
  .ok (if queued then issueCmd t cmd else enqueue (addCmd t cmd) (.copySegment t.h.loc op.ticket.toNat))

/-- COPY. -/
def execCopy (rd rs1 rs2 rs3 : Reg) (s : State) : Host.Outcome State Fault Refusal := seq s (copyBody .copy rd rs1 rs2 rs3 s)
/-- RED. -/
def execRed (rd rs1 rs2 rs3 : Reg) (s : State) : Host.Outcome State Fault Refusal := seq s (copyBody .red rd rs1 rs2 rs3 s)
/-- GATH. -/
def execGath (rd rs1 rs2 rs3 : Reg) (s : State) : Host.Outcome State Fault Refusal := seq s (copyBody .gath rd rs1 rs2 rs3 s)
/-- SCAT. -/
def execScat (rd rs1 rs2 rs3 : Reg) (s : State) : Host.Outcome State Fault Refusal := seq s (copyBody .scat rd rs1 rs2 rs3 s)
/-- FILL. -/
def execFill (rd rs1 rs2 rs3 : Reg) (s : State) : Host.Outcome State Fault Refusal := seq s (copyBody .fill rd rs1 rs2 rs3 s)
/-- CMP. -/
def execCmp (rd rs1 rs2 rs3 : Reg) (s : State) : Host.Outcome State Fault Refusal := seq s (copyBody .cmp rd rs1 rs2 rs3 s)

/-! Element operations (R232, R233) -/

/-- The IEEE format of a RED type. -/
def redFmt : Nat → FFmt
  | 5 => FFmt.bf16 | 6 => FFmt.fp16 | _ => FFmt.fp32

/-- RED's new destination element. -/
def reduce (rop rtyp d x : Nat) : Nat :=
  let bits := 4 * rtypSize rtyp
  if rtyp ≤ 3 then
    let less : Bool := if rtyp ≤ 1 then signed bits x < signed bits d else x < d
    match rop with
    | 0 => (d + x) % 2 ^ bits
    | 1 => if less then x else d
    | 2 => if less then d else x
    | 3 => d &&& x
    | 4 => d ||| x
    | _ => d ^^^ x
  else
    let f := redFmt rtyp
    if f.value d == .nan || f.value x == .nan then f.nanCode
    else match rop with
      | 0 => (f.add .rne d x).1
      | 1 => (f.minmax false d x).1
      | _ => (f.minmax true d x).1

/-- COPY's new destination element. -/
def convertElem (c : Shape) (x : Nat) : Nat :=
  let f := narrowOf c.ffmt
  match c.fcvt with
  | 1 =>
    let rm : RM := match c.frnd with | 0 => .rne | 1 => .rtz | 2 => .rdn | _ => .rup
    (f.cvt rm c.fsat (FFmt.fp32.value x)).1
  | 2 => widen32 (f.value x)
  | _ => x

/-! Segments (R230) -/

/-- Where an operand's bytes are: a buffer, or the slots of a circular buffer. -/
inductive Side where
  | buf (i : Nat) (c : Cap)
  | ring (b : Cb) (base slot : Nat)

/-- A side of a copy of a hart. -/
def sideOf (s : State) (h : Hart) (k : EngCmd) (c : CopyCmd) (dst : Bool) : Side :=
  match cbOfCode (if dst then c.shape.dcb else c.shape.scb) with
  | some n =>
    let nth := if dst && c.shape.scb != 0 then 1 else 0
    .ring (cbAt h n) (capOf s (cbAt h n).handle).base (startOf k nth)
  | none =>
    let hv := if dst then c.dst else c.src
    .buf (hIndex hv) (capOf s hv)

/-- How a position ends a command early, or puts it off. -/
inductive CopyEnd where
  | fails (status : Nat) (s : State)
  /-- The page of an address is not pinned: it is to be probed again. -/
  | probe (va : Nat) (store : Bool)
  /-- A slice stalls: the segment is tried again. -/
  | waits (s : State)

/-- Who runs a segment: the hart, its command and copy, and whether an HBM controller performs it (R236). -/
structure Runner where
  h : Hart
  k : EngCmd
  c : CopyCmd
  hbm : Bool
  deriving DecidableEq, Repr

/-- The physical address that the engine has for an address of a paged buffer: by the entry of its cluster's TLB (R341), or the address itself
where the issuing hart's accesses had no page tables. None when no entry translates it. -/
def enginePa (s : State) (w : Runner) (va : Nat) : Option Nat :=
  if pagedUnder (modeUnder w.c.mode w.c.mstatus .load) w.c.satp then
    (tlbFind (clusterAt s (clusterOf w.h.place)).tlb w.h.ctx (fld w.c.satp 44 16) va).map fun e => e.pa va
  else some va

/-- Physical addresses of offsets. -/
def Side.pas (s : State) (w : Runner) : Side → List Nat → Option (List Nat)
  | .buf _ c, offs => match c.level with
    | .tile | .cluster => some (offs.map (c.base + ·))
    | .device | .host | .pool | .remote => offs.mapM fun o => enginePa s w (c.base + o)
  | .ring b base slot, offs => some (offs.map fun o => base + ringOff b slot o)

/-- What keeps an engine from an address of a paged buffer: a page that is no longer pinned, that the TLB does not hold, or that the port's cache
does not hold, which is to be probed again; a link that carries nothing, 3 LINK; a frame that a scrub has still to clear, 4 PAGE. -/
def addrFails (s : State) (w : Runner) (va : Nat) (store : Bool) : Option CopyEnd :=
  let page := va % 2 ^ 57 / 4096
  if !w.k.pages.any fun p => p.1 ≤ page && page < p.1 + p.2 then some (.probe va store)
  else match enginePa s w va with
    | none => some (.probe va store)
    | some pa =>
      if linkDead s pa then some (.fails 3 s)
      else if hostUnknown s pa then some (.probe va store)
      else if scrubBlocked s pa then some (.fails 4 s)
      else none

/-- What keeps a side's bytes from being reached: 2 ECC of a quarantined buffer (R109, R237), or what keeps one of its addresses. -/
def sideFails (s : State) (w : Runner) (x : Side) (offs : List Nat) (store : Bool) : Option CopyEnd :=
  match x with
  | .ring _ _ _ => none
  | .buf _ c =>
    if c.state == .quarantined then some (.fails 2 s)
    else match c.level with
      | .tile | .cluster => none
      | .device | .host | .pool | .remote => firstSome (fun o => addrFails s w (c.base + o) store) offs

/-- The hart as it stood at a copy's issue, in its place (R38). -/
def asIssued (s : State) (h : Hart) (c : CopyCmd) : Option State :=
  (switchTo s h.loc).map fun t => modH t fun g => { g with
    csr := { g.csr with satp := c.satp, mstatus := c.mstatus, pmpcfg := c.pmpcfg, pmpaddr := c.pmpaddr }
    mode := c.mode }

/-- What has come of a step of a command's engine: it is done, with the command as it leaves it; it fails with a status; or a slice, or a
function whose self-test has not ended, keeps it waiting. -/
inductive Tried (α : Type) where
  | ok (a : α) (s : State) (k : EngCmd)
  | fails (status : Nat) (s : State) (k : EngCmd)
  | waits (s : State) (k : EngCmd)

/-- Probe a page again with what translated at issue (R38, R229, R344): the command pins it, and the cluster's TLB and the port's cache stay as
the probe leaves them. One that fails ends the copy with PAGE; Larch is told of a table that the walker could not read (R355). -/
def reprobe (s : State) (h : Hart) (k : EngCmd) (c : CopyCmd) (va : Nat) (store : Bool) : Tried Unit :=
  match asIssued s h c with
  | none => .fails 4 s k
  | some t =>
    match translateBy true t (if store then .store else .load) va with
    | .ok (pa, u) =>
      let p := pageAt u true .load va
      match askHost { s with clusters := u.clusters } pa with
      | (s, true) => .ok () s { k with pages := if k.pages.contains p then k.pages else k.pages ++ [p] }
      | (s, false) => .fails 4 s k
    | .error (.trap _ _) => .fails 4 s k
    | .error (.trapAt u _ _) => .fails 4 { s with told := u.told } k
    | .error (.stall _) | .error (.point _) => .waits s k

/-- The bytes of lines as an HBM controller reads them: the home slice writes back a dirty copy first (R236). -/
def hbmRead (s : State) (pas : List Nat) : State × Option (List Byte) :=
  let lines := uniq (pas.map lineOf)
  match doAll (fun s l => match findTag s l 0 with
      | some (key, _) => cleanTag s (homeSlice l) key
      | none => (s, true)) lines s with
  | (s, true) => (s, pas.mapM fun p => (memLine s p).map fun l => l.getD (p % 128) 0)
  | (s, false) => (s, none)

/-- An HBM controller's write of bytes: the home slice drops each line's tag as an eviction does, and the controller encrypts the line under its
tensor's version (R236, R346). -/
def hbmWrite (s : State) (cells : List Host.Cell) : State × Bool :=
  doAll (fun s l =>
    match (match findTag s l.1 0 with | some (key, _) => evictTag s (homeSlice l.1) key | none => (s, true)) with
    | (s, true) => poolWrite s l.1 l.2
    | (s, false) => (s, false)) (byLine cells) s

/-- A line of a side that cannot be read: its buffer becomes QUARANTINED, and the command ends with ECC. -/
def sideLost {α : Type} (s : State) (x : Side) : Except CopyEnd α :=
  .error (.fails 2 (match x with | .buf i _ => quarantine s i | .ring _ _ _ => s))

/-- Read the bytes at some offsets of a side. The slices that hold their lines see the reads. -/
def readSide (s : State) (w : Runner) (x : Side) (offs : List Nat) : Except CopyEnd (List Byte × State) :=
  match sideFails s w x offs false with
  | some f => .error f
  | none =>
    match x.pas s w offs with
    | none => .error (.fails 4 s)
    | some pas =>
      if w.hbm then
        match hbmRead s pas with
        | (s, some b) => .ok (b, s)
        | (t, none) => if (pas.all fun p => (memLine s p).isSome) then .error (.waits t) else sideLost s x
      else match homeBytes s (hartPid s w.h) pas with
        | some b => .ok (b, noteRead s (hartPid s w.h) pas)
        | none => sideLost s x

/-- Write the bytes at some offsets of a side: what `f` makes of those that are there. -/
def writeSide (s : State) (w : Runner) (x : Side) (offs : List Nat) (f : List Byte → List Byte) : Except CopyEnd State :=
  match sideFails s w x offs true with
  | some f => .error f
  | none =>
    match x.pas s w offs with
    | none => .error (.fails 4 s)
    | some pas => match homeBytes s (hartPid s w.h) pas with
      | some b =>
        let cells := pas.zip (f b)
        match (if w.hbm then hbmWrite s cells else writeHome s (hartPid s w.h) cells) with
        | (s, true) => .ok s
        | (t, false) => .error (.waits t)
      | none => sideLost s x

/-- Read an element. -/
def readElem (s : State) (w : Runner) (x : Side) (lay e l : Nat) : Except CopyEnd (Nat × State) :=
  (readSide s w x (elemOffs lay e l)).map fun r => (elemGet lay e l r.1, r.2)

/-- Write an element. -/
def writeElem (s : State) (w : Runner) (x : Side) (lay e l v : Nat) : Except CopyEnd State :=
  writeSide s w x (elemOffs lay e l) fun b => elemPut lay e l b v

/-- Entry `j` of the index list (R234). -/
def indexEntry (s : State) (w : Runner) (c : CopyCmd) (j : Nat) : Except CopyEnd (Nat × State) :=
  readElem s w (.buf (hIndex c.shape.ixh) (capOf s c.shape.ixh)) 0 8 (2 * (c.shape.ioff + 4 * j))

/-- Linear offsets, in nibbles, of source and destination at a position (R224, R234); `x` is the index entry of its row. -/
def copyOffs (c : CopyCmd) (p x : Nat) : Int × Int :=
  let sh := c.shape
  let ds := digits sh.exts p
  let row (dst : Bool) : List Nat := if indexed c.kind dst then [ds.getD 0 0, x] else ds
  (linOff sh.soff sh.es (linear (row false) sh.sstr), linOff sh.doff sh.ed (linear (row true) sh.dstr))

/-- Whether a row's index entry takes every offset of the row inside the indexed buffer (R234). -/
def rowOk (s : State) (c : CopyCmd) (j x : Nat) : Bool :=
  let sh := c.shape
  let n := sh.ext.getD 0 1
  let dst := c.kind == .scat
  let cap := capOf s (if dst then c.dst else c.src)
  let lay := if dst then sh.dlay else sh.slay
  let e := if dst then sh.ed else sh.es
  (rangeFrom 0 n).all fun i0 =>
    let o := copyOffs c (j * n + i0) x
    let l := if dst then o.2 else o.1
    0 ≤ l && (elemOffs lay e l.toNat).all fun b => b < layLimit lay cap

/-- One position of a copy. -/
def copyPos (s : State) (w : Runner) (c : CopyCmd) (p : Nat) : Except CopyEnd (State × CopyCmd) := do
  let sh := c.shape
  let hasIx := c.kind == .gath || c.kind == .scat
  let j := p / sh.ext.getD 0 1
  let (x, s) ← if hasIx then indexEntry s w c j else .ok (0, s)
  if hasIx && !rowOk s c j x then .error (.fails 1 s)
  let (ls, ld) := copyOffs c p x
  let src := sideOf s w.h w.k c false
  let dst := sideOf s w.h w.k c true
  let (v, s) ← if c.kind == .fill then .ok (c.fill.toNat % 16 ^ sh.es, s) else readElem s w src sh.slay sh.es ls.toNat
  match c.kind with
  | .cmp =>
    let (d, s) ← readElem s w dst sh.dlay sh.ed ld.toNat
    .ok (s, if d = v then c else { c with unequal := c.unequal + 1, least := some (c.least.getD p) })
  | .red =>
    let (d, s) ← readElem s w dst sh.dlay sh.ed ld.toNat
    let s ← writeElem s w dst sh.dlay sh.ed ld.toNat (reduce sh.rop sh.rtyp d v)
    .ok (s, c)
  | .copy | .gath | .scat | .fill =>
    let s ← writeElem s w dst sh.dlay sh.ed ld.toNat (convertElem sh v)
    .ok (s, c)

/-- A piece of a copy's work, with as many probes of pages as `fuel` admits: a piece touches fewer. -/
def engineTry {α : Type} (f : State → Runner → Except CopyEnd (State × α)) (h : Hart) (hbm : Bool) (c : CopyCmd) :
    Nat → State → EngCmd → Tried α
  | 0, s, k => .fails 4 s k
  | fuel + 1, s, k =>
    match f s { h := h, k := k, c := c, hbm := hbm } with
    | .ok (s, a) => .ok a s k
    | .error (.fails st t) => .fails st t k
    | .error (.waits t) => .waits (carryRolls s t) k
    | .error (.probe va store) =>
      match reprobe s h k c va store with
      | .ok _ s k => engineTry f h hbm c fuel s k
      | .fails st s k => .fails st s k
      | .waits s k => .waits s k

/-- One position. -/
def copyTry (h : Hart) (hbm : Bool) (c : CopyCmd) (s : State) (k : EngCmd) : Tried CopyCmd :=
  engineTry (fun s w => copyPos s w c c.pos) h hbm c 64 s k

/-- What a segment has come to: state, command of the engine, copy, and whether the slices let it finish. -/
structure Ran where
  s : State
  k : EngCmd
  c : CopyCmd
  done : Bool

/-- Up to `n` positions. The positions before a failing one are performed, but for the row of an index out of range. -/
def copyRun (h : Hart) (hbm : Bool) : Nat → State → EngCmd → CopyCmd → Ran
  | 0, s, k, c => { s := s, k := k, c := if c.shape.total ≤ c.pos then { c with ended := true } else c, done := true }
  | n + 1, s, k, c =>
    if c.shape.total ≤ c.pos then { s := s, k := k, c := { c with ended := true }, done := true }
    else match copyTry h hbm c s k with
      | .ok c s k => copyRun h hbm n s k { c with pos := c.pos + 1 }
      | .fails st s k => { s := s, k := k, c := { c with status := st, ended := true }, done := true }
      | .waits s k => { s := s, k := k, c := c, done := false }

/-- Positions of a segment: as many as fill 64 KiB of destination bytes, or of source bytes for CMP. -/
def segmentLen (c : CopyCmd) : Nat := 131072 / (if c.kind == .cmp then c.shape.es else c.shape.ed)

/-- A copy in flight, by its ticket. -/
def copyCmd (s : State) (loc ticket : Nat) : Option (Hart × EngCmd × CopyCmd) :=
  (findHart s loc).bind fun h => firstSome (fun k => match k.op with
    | .copy c => if c.ticket.toNat = ticket then some (h, k, c) else none
    | .mma _ | .mzero _ | .mldacc _ _ _ | .mstacc _ _ _ | .mdrain _ => none) h.cmds

/-- The REMOTE buffers that a copy reads, its index list among them, and those that it only writes. -/
def remoteSides (s : State) (h : Hart) (k : EngCmd) (c : CopyCmd) : List Nat × List Nat :=
  let remote (x : Side) : List Nat := match x with | .buf i b => if b.level == .remote then [i] else [] | .ring _ _ _ => []
  let src := if c.kind == .fill then [] else remote (sideOf s h k c false)
  let list := if c.kind == .gath || c.kind == .scat then remote (.buf (hIndex c.shape.ixh) (capOf s c.shape.ixh)) else []
  let dst := remote (sideOf s h k c true)
  if c.kind == .red || c.kind == .cmp then (src ++ list ++ dst, []) else (src ++ list, dst)

/-- The status with which a storing device may end a copy, and the buffer that an uncorrectable error there leaves QUARANTINED (R237): a REMOTE
access that fails, or an uncorrectable error in a REMOTE line that the command reads, in the buffer that `n` picks. -/
def outsideStatus (s : State) (h : Hart) (k : EngCmd) (c : CopyCmd) (ecc : Bool) (n : Nat) : Option (Nat × Option Nat) :=
  let (reads, writes) := remoteSides s h k c
  if reads.isEmpty && writes.isEmpty then none
  else if ecc && !reads.isEmpty then some (2, reads[n % reads.length]?) else some (3, none)

/-- The positions that a segment may perform, and how it then ends if something beyond a port ends it: free values (log 19). -/
def segmentEnd (s : State) (h : Hart) (k : EngCmd) (c : CopyCmd) : State × Nat × Option (Nat × Option Nat) :=
  if (outsideStatus s h k c false 0).isNone then (s, segmentLen c, none)
  else
    let (n, s) := draw s
    let w := Config.freeWord n
    if w.getLsbD 0 then (s, fld w 4 60 % segmentLen c, outsideStatus s h k c (w.getLsbD 1) (fld w 2 2)) else (s, segmentLen c, none)

/-- Every byte that a command touches lies at DEVICE level (R236). -/
def hbmAble (s : State) (h : Hart) (k : EngCmd) (c : CopyCmd) : Bool :=
  let device (x : Side) : Bool := match x with | .buf _ b => b.level == .device | .ring _ _ _ => false
  (c.kind == .copy || c.kind == .red || c.kind == .fill || c.kind == .cmp) && device (sideOf s h k c true) &&
    (c.kind == .fill || device (sideOf s h k c false))

/-- Whether the HBM controllers perform the next segment: a free choice where they may (R236). -/
def byController (s : State) (h : Hart) (k : EngCmd) (c : CopyCmd) : State × Bool :=
  if hbmAble s h k c then let (n, s) := draw s; (s, (Config.freeWord n).getLsbD 0) else (s, false)

/-- The virtual addresses that the positions from `pos` on touch on a side; none when an index list chooses them. -/
def restVas (s : State) (h : Hart) (k : EngCmd) (c : CopyCmd) (dst : Bool) : Option (List Nat) :=
  match sideOf s h k c dst with
  | .ring _ _ _ => some []
  | .buf _ b =>
    if indexed c.kind dst then none
    else
      let sh := c.shape
      some (((rangeFrom c.pos (sh.total - c.pos)).map fun p =>
        let o := copyOffs c p 0
        elemOffs (if dst then sh.dlay else sh.slay) (if dst then sh.ed else sh.es) (if dst then o.2 else o.1).toNat).flatten.map (b.base + ·))

/-- The pins that a copy keeps after a segment: those of the pages that a later one, the rows of its index list that are still to come, or its
record may still touch (R229). One that has performed every position has only its record to write; one that has failed releases them all. -/
def keepPins (s : State) (h : Hart) (k : EngCmd) (c : CopyCmd) : EngCmd :=
  let within (lo n : Nat) (p : Nat × Nat) : Bool := lo < (p.1 + p.2) * 4096 && p.1 * 4096 < lo + n
  let whole (hv : Word) : Nat × Nat → Bool := within (capOf s hv).base (capOf s hv).length
  let rows (p : Nat × Nat) : Bool :=
    let j := c.pos / c.shape.ext.getD 0 1
    within ((capOf s c.shape.ixh).base + c.shape.ioff + 4 * j) (4 * (c.shape.ext.getD 1 0 - j)) p
  let side (dst : Bool) (reg : Word) (p : Nat × Nat) : Bool :=
    match restVas s h k c dst with
    | some l => l.any fun a => p.1 ≤ a / 4096 && a / 4096 < p.1 + p.2
    | none => whole reg p
  let needed (p : Nat × Nat) : Bool :=
    side true c.dst p || (c.kind != .fill && side false c.src p) ||
      ((c.kind == .gath || c.kind == .scat) && rows p)
  { k with pages := k.pages.filter fun p => c.status = 0 && ((!c.ended && needed p) || (c.shape.crec && whole c.shape.ring p)) }

/-- COPY_SEGMENT: the next segment of a copy that has fired (R230). -/
def execCopySegment (loc ticket : Nat) (s : State) : Host.Outcome State Fault Refusal :=
  match copyCmd s loc ticket with
  | some (h, k, c) =>
    if !k.fired || c.ended then happen s
    else if h.tile.isNone then block s (.copySegment loc ticket)
    else
      let (u, len, stop) := segmentEnd s h k c
      let (u, hbm) := byController u h k c
      let r := copyRun h hbm len u k c
      let (t, c) := match stop with
        | some (st, q) => if r.c.ended || !r.done then (r.s, r.c)
            else (match q with | some i => quarantine r.s i | none => r.s, { r.c with status := st, ended := true })
        | none => (r.s, r.c)
      let t := updHart t loc fun h => updCmd h k.id fun _ => { keepPins t h r.k c with op := .copy c }
      if r.done then happen (enqueue t (if c.ended then .copyComplete loc ticket else .copySegment loc ticket))
      else block t (.copySegment loc ticket)
  | none => happen s

/-! Completion (R237) -/

/-- Command code of a record. -/
def CopyKind.code : CopyKind → Nat
  | .copy => 0 | .red => 1 | .gath => 2 | .scat => 3 | .fill => 4 | .cmp => 5

/-- The 32 bytes of a completion record. -/
def copyRecord (c : CopyCmd) : List Byte :=
  let cmp : Bool := c.kind == .cmp
  leBytes 8 (c.ticket.toNat + c.status * 2 ^ 32 + c.kind.code * 2 ^ 40) ++ leBytes 8 (c.pos % 2 ^ 41) ++
    leBytes 8 (if cmp then c.unequal % 2 ^ 41 else 0) ++ leBytes 8 (if cmp then c.least.getD (2 ^ 64 - 1) else 0)

/-- Write the record of a copy into its ring, and the header's count. -/
def writeRing (s : State) (w : Runner) (c : CopyCmd) : Except CopyEnd (State × Unit) := do
  let cap := capOf s c.shape.ring
  let x : Side := .buf (hIndex c.shape.ring) cap
  let (b, s) ← readSide s w x (rangeFrom 0 8)
  let n := leNat b
  let room := (cap.length - 64) / 32
  let s ← writeSide s w x (rangeFrom (64 + 32 * (n % (if room = 0 then 1 else room))) 32) fun _ => copyRecord c
  let s ← writeSide s w x (rangeFrom 0 8) fun _ => leBytes 8 ((n + 1) % 2 ^ 64)
  .ok (s, ())

/-- Write the record of a copy; false when a slice stalls. Nothing reports a ring that the engine cannot reach: no record is written (log 99); one
that cannot be read is QUARANTINED. -/
def putRecord (s : State) (h : Hart) (k : EngCmd) (c : CopyCmd) : State × Bool :=
  if !c.shape.crec then (s, true)
  else match engineTry (fun s w => writeRing s w c) h false c 16 s k with
    | .ok _ s _ | .fails _ s _ => (s, true)
    | .waits s _ => (s, false)

/-- The end of the writes of a copy: what its engine wrote to REMOTE lines is performed at the device that stores them; one that the link keeps
away ends it with LINK (R170, R237). -/
def settleRemote (s : State) (h : Hart) (k : EngCmd) (c : CopyCmd) : State × CopyCmd :=
  match sideOf s h k c true with
  | .buf i b =>
    if b.level == .remote && c.kind != .cmp then
      match cleanRemotes s (inBuf s i b) with
      | (s, true) => (s, c)
      | (s, false) => (s, if c.status = 0 then { c with status := 3 } else c)
    else (s, c)
  | .ring _ _ _ => (s, c)

/-- COPY_COMPLETE: the record is written, the buffers return, and CP falls (R120, R237). A queued copy that failed takes the unfired
commands with it (R188). -/
def execCopyComplete (loc ticket : Nat) (s : State) : Host.Outcome State Fault Refusal :=
  match copyCmd s loc ticket with
  | some (h, k, c) =>
    if !c.ended then happen s
    else
      let (t, c) := settleRemote s h k c
      match putRecord t h k c with
      | (t, true) => happen (if k.queued && c.status != 0 then failCmd t loc k else endCmd t loc k true)
      | (u, false) => block (carryRolls s u) (.copyComplete loc ticket)
  | none => happen s

end Sys2Proof.Machine
end

