-- ==== Sys2Proof/Machine/Aspen.lean ====
section
/-! DEFINITION. Event accumulators (R240 to R262): delivery, evaluation, fires and their actions, and the event instructions. -/

namespace Sys2Proof.Machine

/-! Parts of an Aspen -/

/-- A cluster's Aspen. -/
def aspenAt (s : State) (c : Nat) : Aspen := (clusterAt s c).aspen
/-- A profile after bring-up. -/
def Profile.start : Profile :=
  { thr := 0, rst := 0, leak := 0, rfr := 0, agel := 0, wfmt := 0, act := 0, nlk := false, eager := false, arg := 0, foff := 0, world := 0,
    ctx := 0, owner := 0, ownerGen := 0, hasUnit := false, voided := false }
/-- A profile. -/
def profAt (a : Aspen) (p : Nat) : Profile := tgetD a.profiles p Profile.start
/-- An accumulator. -/
def accAt (a : Aspen) (n : Nat) : Acc := tgetD a.accs n Acc.unbound
/-- Replace an accumulator. -/
def putAcc (a : Aspen) (n : Nat) (x : Acc) : Aspen := { a with accs := tset Acc.unbound a.accs n x }

/-- A counter of R262 after one more. -/
def bump (n : Nat) : Nat := (n + 1) % 2 ^ 48

/-- Clamp to a signed width (R8, R243). -/
def satTo (bits : Nat) (v : Int) : Int := max (-(2 : Int) ^ (bits - 1)) (min v ((2 : Int) ^ (bits - 1) - 1))

/-- w(e) (R243). -/
def eventWeight (p : Profile) (w : BitVec 32) : Int :=
  match p.wfmt with
  | 0 => signed 32 w.toNat
  | 1 => signed 16 w.toNat
  | _ => 1

/-- leak(s) (R243). -/
def leakOf (p : Profile) (v : Int) : Int :=
  if p.nlk then v
  else
    let q : Int := (v.natAbs * p.leak / 2 ^ 16 : Nat)
    if v < 0 then -q else q

/-- An event address (R241). -/
def eventAddr (device cluster acc : Nat) : Nat := device % 256 * 2 ^ 24 + cluster * 2 ^ 18 + acc

/-- Where an Aspen is: its device and cluster. -/
structure Seat where
  device : Nat
  cluster : Nat
  deriving DecidableEq, Repr

/-- fire(a, k): the record waits for its action, and the accumulator is reset (R249). -/
def fire (w : Seat) (a : Aspen) (n cause : Nat) : Aspen :=
  let x := accAt a n
  let p := profAt a x.prof
  let r := word (a.tick % 2 ^ 16 * 2 ^ 48 + x.cnt * 2 ^ 32 + eventAddr w.device w.cluster n + cause * 2 ^ 16)
  let f : Fire := { acc := n, prof := x.prof, record := r, tick := a.tick, world := x.world, cnt := x.cnt }
  putAcc { a with fires := a.fires ++ [f], firedCnt := bump a.firedCnt } n
    { x with state := p.rst, sum := 0, cnt := 0, age := 0, refr := p.rfr, fired := true }

/-- A FAULT status with its reason (R256). -/
def evFault (reason : Nat) : Word := word (2 + reason * 2 ^ 4)

/-- deliver(e, a) (R247): the Aspen after, and the status. A fault counts for a posted event (R256); a returning one has it in its reply. An event of
the wheel has none, and counts (log 104). -/
def deliver (w : Seat) (a : Aspen) (n : Nat) (weight : BitVec 32) (world : Nat) (posted : Bool) : Aspen × Word :=
  let x := accAt a n
  let p := profAt a x.prof
  let bad (reason : Nat) : Aspen × Word := (if posted then { a with faults := bump a.faults } else a, evFault reason)
  if x.retired then bad 5
  else if !x.bound then bad 1
  else if x.world != world then bad 2
  else if 0 < x.refr then ({ a with refused := bump a.refused }, word (1 + x.cnt * 2 ^ 16))
  else
    let sum := satTo 48 (x.sum + eventWeight p weight)
    let a := putAcc a n { x with cnt := min (x.cnt + 1) 65535, sum := sum }
    let a := if p.eager && p.thr ≤ satTo 32 (x.state + sum) then fire w a n 2 else a
    (a, word (x.cnt * 2 ^ 16))

/-- evaluate(a) (R248). -/
def evaluate (w : Seat) (a : Aspen) (n : Nat) : Aspen :=
  let x := accAt a n
  let p := profAt a x.prof
  let a :=
    if 0 < x.refr then
      if x.fired then a else putAcc a n { x with state := leakOf p x.state, refr := x.refr - 1 }
    else
      let y := { x with state := satTo 32 (leakOf p x.state + x.sum), age := if 0 < x.cnt then min (x.age + 1) 65535 else x.age }
      let a := putAcc a n y
      if p.thr ≤ y.state then fire w a n 0
      else if p.agel != 0 && p.agel ≤ y.age && 0 < y.state then fire w a n 1
      else a
  putAcc a n { accAt a n with sum := 0, fired := false }

/-- Events of the wheel that are due now. -/
def dueNow (a : Aspen) : List WheelEvent := a.wheel.filter fun e => e.due ≤ a.tick

/-- The end of a tick (R246, R247, R248): what is due in it is delivered, every bound accumulator is evaluated, and the next tick is
current. Its boundary falls one period after the one that has passed. -/
def endTick (w : Seat) (a : Aspen) : Aspen :=
  let due := dueNow a
  let a := due.foldl (fun a e => (deliver w a e.acc e.weight e.world true).1) { a with wheel := a.wheel.filter fun e => a.tick < e.due }
  let a := ((a.accs.filter fun x => x.2.bound && !x.2.retired).map (·.1)).foldl (evaluate w) a
  { a with tick := a.tick + 1, boundary := if a.period = 0 then none else a.boundary.map (· + tickCycles a.period) }

/-- The seat of a cluster of this device. -/
def seat (s : State) (c : Nat) : Seat := { device := s.device, cluster := c }

/-- Change an Aspen: an action is due for every new fire, and a delivery for every event of the wheel that has become due. -/
def aspenStep (s : State) (c : Nat) (b : Aspen) : State :=
  let a := aspenAt s c
  let cl : Fin 64 := ⟨c % 64, Nat.mod_lt _ (by decide)⟩
  let s := updAspen s c fun _ => b
  let s := (rangeFrom 0 (b.fires.length - a.fires.length)).foldl (fun s _ => enqueue s (.fireAction cl)) s
  (rangeFrom 0 ((dueNow b).length - (dueNow a).length)).foldl (fun s _ => enqueue s (.wheelDeliver cl 0)) s

/-! Arrival (R247) -/

/-- A cluster in service. -/
def clusterReady (s : State) (c : Nat) : Bool := isReady s (32 + c / 32) (c % 32)

/-- An event with no tick to wait for is delivered; any other goes into the wheel. None when the wheel is full. `due` is its tick. -/
def arriveEvent (s : State) (c n : Nat) (weight : BitVec 32) (world due : Nat) (posted : Bool) : Option (State × Word) :=
  let a := aspenAt s c
  if due ≤ a.tick then
    let (b, st) := deliver (seat s c) { a with posted := bump a.posted } n weight world posted
    some (aspenStep s c b, st)
  else if 65536 ≤ a.wheel.length then none
  else
    some (updAspen s c fun a => { a with
      posted := bump a.posted
      wheel := a.wheel ++ [{ due := due, acc := n, weight := weight, world := world }] }, 4)

/-- A fault of an event that reaches no Aspen counts in the poster's cluster (R256). -/
def countFault (s : State) (c : Nat) : State := updAspen s c fun a => { a with faults := bump a.faults }

/-- A fault of an event that finds its cluster out of service: a returning one has it in its reply, a posted one counts at home. -/
def countLost (s : State) (e : Event) : State :=
  match e.home, e.replyTo with
  | some c, none => countFault s c
  | none, _ | some _, some _ => s

/-- A posted event leaves over a port for a peer device; over a port that carries nothing it fails, counted in the poster's cluster `c`
(R256). -/
def postOver (s : State) (port dev c : Nat) (e : Event) : State :=
  if (portAt s port).carries then
    let s := sendOut s (some e.world) (.event port e dev)
    { s with postedOut := s.postedOut ++ [(port, c)] }
  else countFault s c

/-- The events on their way that may arrive next: those of one hart for one cluster arrive in its program order (R260). -/
def arrivable (s : State) : List Event :=
  s.events.foldl (fun (acc : List Event) e =>
    if e.poster.isSome && acc.any fun f => f.poster == e.poster && f.cluster == e.cluster then acc else acc ++ [e]) []

/-- EVENT_DELIVER: the event at a place among those that may arrive. -/
def execEventDeliver (k : Nat) (s : State) : Host.Outcome State Fault Refusal :=
  match (arrivable s)[k]? with
  | some e =>
    let t := { s with events := s.events.erase e }
    if clusterWaits s e.cluster then block s (.eventDeliver k)
    else match (if clusterReady s e.cluster then arriveEvent t e.cluster e.acc e.weight e.world ((aspenAt s e.cluster).tick + e.delay) e.replyTo.isNone
           else some (countLost t e, evFault 3)) with
    | some (t, st) => happen (match e.replyTo with | some p => sendOut t (some e.world) (.eventReply p st) | none => t)
    | none => block s (.eventDeliver k)
  | none => if s.events.isEmpty then happen s else block s (.eventDeliver k)

/-- WHEEL_DELIVER: the event at a place among those of the wheel that are due. -/
def execWheelDeliver (cluster : Fin 64) (k : Nat) (s : State) : Host.Outcome State Fault Refusal :=
  let a := aspenAt s cluster.val
  match (dueNow a)[k]? with
  | some e => happen (aspenStep s cluster.val (deliver (seat s cluster.val) { a with wheel := a.wheel.erase e } e.acc e.weight e.world true).1)
  | none => happen s

/-- TICK_BOUNDARY: the current tick ends at its boundary, if it has one (R245, R246). -/
def execTickBoundary (cluster : Fin 64) (s : State) : Host.Outcome State Fault Refusal :=
  let a := aspenAt s cluster.val
  match a.boundary with
  | none => happen s
  | some b =>
    if s.cycle < b then block s (.tickBoundary cluster)
    else happen (watchTick (aspenStep s cluster.val (endTick (seat s cluster.val) a)) cluster.val)

/-! Fire actions (R250 to R252) -/

/-- Append a record to the cluster fire queue (R252). -/
def appendFire (s : State) (c : Nat) (f : Fire) : State :=
  updAspen s c fun a => if 4096 ≤ a.fireQ.length then { a with lost := bump a.lost } else { a with fireQ := a.fireQ ++ [(f.record, f.world)] }

/-- The profile's fan-out buffer, while its unit stands (R251, R261). -/
def fanBuffer (s : State) (p : Profile) : Option (Nat × Cap) :=
  match capAt s (hIndex p.arg) with
  | some c => if p.hasUnit && !p.voided && c.gen == hGen p.arg && c.state == .shared then some (hIndex p.arg, c) else none
  | none => none

/-- Physical address of a byte that Aspen reads for a context, through its cluster's TLB, which a walk fills (R341). None while the walk waits for a
line (R377); no address where no readable page, a frame still to be scrubbed, a link or a host keeps the byte away. -/
def fanPa (s : State) (c ctx va : Nat) : Option (State × Option Nat) :=
  match ctxOf s ctx with
  | none => some (s, none)
  | some x =>
    let known := tlbFind (clusterAt s c).tlb ctx (fld (ctxSatp x) 44 16) va
    if known.isNone && walkWaits s (va % 2 ^ 57) 4 (fld (ctxSatp x) 0 44 * 4096) then none
    else
      let (s, e) := match known with
        | some e => (s, some e)
        | none => match walk s (fun _ => true) ctx (ctxSatp x) va with
          | .ok e => (updCluster s c fun k => { k with tlb := tlbAdd k.tlb 4096 e }, some e)
          | .error w => (tellWalk s w, none)
      match e.filter fun e => e.flags.getLsbD 6 && e.flags.getLsbD 1 with
      | none => some (s, none)
      | some e =>
        let pa := e.pa va
        if lineWaits s pa then none
        else if scrubBlocked s pa || linkDead s pa then some (s, none)
        else match askHost s pa with
          | (s, true) => some (s, some pa)
          | (s, false) => some (s, none)

/-- The addresses of bytes in turn. -/
def fanPas (c ctx : Nat) : List Nat → State → Option (State × Option (List Nat))
  | [], s => some (s, some [])
  | va :: r, s => do
    let (s, pa) ← fanPa s c ctx va
    match pa with
    | none => some (s, none)
    | some pa => do
      let (s, l) ← fanPas c ctx r s
      some (s, l.map (pa :: ·))

/-- `n` bytes of a fan-out buffer, read by the Aspen of a cluster; no value outside it or where they cannot be read. None while the read waits. -/
def fanBytes (s : State) (c : Nat) (p : Profile) (b : Cap) (off n : Nat) : Option (State × Option Nat) :=
  if b.length < off + n then some (s, none)
  else do
    let q := match ctxOf s p.ctx with | some x => x.pid | none => 0
    let (s, l) ← if b.level == .tile || b.level == .cluster then some (s, some (rangeFrom (b.base + off) n))
      else fanPas c p.ctx (rangeFrom (b.base + off) n) s
    match l with
    | none => some (s, none)
    | some pas => match homeBytes s q pas with
      | some v => some (noteRead s q pas, some (leNat v))
      | none => some (s, none)

/-- Post one event of a fan-out (R251). One to the firing cluster counts its delay from the tick of the fire; another cluster, whose
ticks are its own, from its arrival. None when the wheel is full. -/
def fanPost (s : State) (c : Nat) (f : Fire) (p : Profile) (d0 d1 : Nat) : Option State :=
  let addr := d0 % 2 ^ 32
  let delay := d0 / 2 ^ 32 % 2 ^ 16
  if 2 ^ 48 ≤ d0 || d0 / 2 ^ 16 % 4 != 0 || 1023 < delay || 2 ^ 32 ≤ d1 then some (countFault s c)
  else
    let dev := addr / 2 ^ 24
    let cl := addr / 2 ^ 18 % 64
    let w := BitVec.ofNat 32 d1
    if dev = s.device then
      if clusterWaits s cl then none
      else if !clusterReady s cl then some (countFault s c)
      else if cl = c then (arriveEvent s c (addr % 2 ^ 16) w p.world (f.tick + delay) true).map (·.1)
      else
        some (enqueue { s with events := s.events ++
          [{ cluster := cl, acc := addr % 2 ^ 16, weight := w, delay := delay, world := p.world, poster := none, home := some c,
             replyTo := none }] }
          (.eventDeliver 0))
    else
      some (postOver s (routePort s dev) dev c
        { cluster := cl, acc := addr % 2 ^ 16, weight := w, delay := delay, world := p.world, poster := none, home := some c,
          replyTo := none })

/-- The event entries of a fan-out, from byte `off` of its buffer. -/
def fanAll (c : Nat) (f : Fire) (p : Profile) (b : Cap) : Nat → Nat → State → Option State
  | 0, _, s => some s
  | n + 1, off, s => do
    let (s, d0) ← fanBytes s c p b off 8
    let (s, d1) ← fanBytes s c p b (off + 8) 8
    let s ← match d0, d1 with
      | some d0, some d1 => fanPost s c f p d0 d1
      | _, _ => some (countFault s c)
    fanAll c f p b n (off + 16) s

/-- Action 1: none while it has to wait. -/
def fanOut (s : State) (c : Nat) (f : Fire) (p : Profile) : Option State :=
  match fanBuffer s p with
  | none => some (countFault s c)
  | some (_, b) => do
    let (s, e) ← fanBytes s c p b (p.foff + 8 * f.acc) 8
    match e with
    | none => some (countFault s c)
    | some e => fanAll c f p b (e / 2 ^ 48) (e % 2 ^ 48) s

/-- Action 2: none while the queue has no slot. -/
def firePush (s : State) (c : Nat) (f : Fire) (p : Profile) : Option State :=
  let n := fld p.arg 0 32
  match (if n < 65536 then queueAt s n else none) with
  | none => some (appendFire s c f)
  | some q =>
    if q.world != f.world || (q.qkind = 2 && q.tmpl = 0) then some (appendFire s c f)
    else if !q.mapped || queueWaits s n then none
    else match pushWord s n q { pos := 0, payload := f.record, key := BitVec.ofNat 32 f.tick, cap := none } with
      | some s => some s
      | none => some (appendFire s c f)

/-- Action 3: a NOTICE of type 1. -/
def fireNotice (s : State) (c : Nat) (f : Fire) (p : Profile) : State :=
  match (if fld p.arg 56 8 = s.device && fld p.arg 52 4 = 0 && fld p.arg 32 20 = 0 then findHart s (fld p.arg 0 32) else none) with
  | some h =>
    if promised s h.loc < portFree h then
      let scope := if clusterOf h.place = c then 2 else if dieOf h.place = c / 16 then 3 else 4
      postNotice s
        { dest := h.loc, ntype := 1, detail := fld f.record 0 32 + f.tick % 2 ^ 16 * 2 ^ 32 + min f.cnt 255 * 2 ^ 48, scope := scope }
    else appendFire s c f
  | none => appendFire s c f

/-- Perform the action of a fire; none when it has to wait. -/
def fireAct (s : State) (c : Nat) (f : Fire) : Option State :=
  let p := profAt (aspenAt s c) f.prof
  match p.act with
  | 0 => some (appendFire s c f)
  | 1 => fanOut s c f p
  | 2 => firePush s c f p
  | _ => some (fireNotice s c f p)

/-- FIRE_ACTION: the oldest fire of a cluster whose action is due. -/
def execFireAction (cluster : Fin 64) (s : State) : Host.Outcome State Fault Refusal :=
  let c := cluster.val
  match (aspenAt s c).fires with
  | [] => happen s
  | f :: r =>
    match fireAct (updAspen s c fun a => { a with fires := r }) c f with
    | some t => happen t
    | none =>
      let p := profAt (aspenAt s c) f.prof
      block (if p.act = 2 then queueWork s (fld p.arg 0 32) else s) (.fireAction cluster)

/-- Perform the actions of the fires of a tick before the next one ends; one that has to wait stays. -/
def actAll (c : Nat) : Nat → State → State
  | 0, s => s
  | n + 1, s =>
    match (aspenAt s c).fires with
    | [] => s
    | f :: r =>
      match fireAct (updAspen s c fun a => { a with fires := r }) c f with
      | some t => actAll c n t
      | none => s

/-! ECFG (R242, R254) -/

/-- A well-formed profile record (R242). -/
def profileOk (va : Nat) (r : List Byte) : Bool :=
  let w := recDw r 1
  let act := fld w 50 2
  let arg := recDw r 2
  va % 8 = 0 && fld w 54 10 = 0 && fld w 48 2 != 3 && fld (recDw r 3) 41 23 = 0 && (act = 1 || recDw r 3 = 0) &&
    ((rangeFrom 4 4).all fun n => recDw r n == 0) &&
    match act with
    | 0 => arg = 0
    | 2 => fld arg 32 32 = 0
    | 3 => fld arg 52 4 = 0 && fld arg 32 20 = 0
    | _ => true

/-- The profile of a record, written by the executing hart. -/
def profileOf (s : State) (r : List Byte) : Profile :=
  let w := recDw r 1
  { thr := signed 32 (fld (recDw r 0) 0 32), rst := signed 32 (fld (recDw r 0) 32 32), leak := fld w 0 16, rfr := fld w 16 16,
    agel := fld w 32 16, wfmt := fld w 48 2, act := fld w 50 2, nlk := bitAt w 52, eager := bitAt w 53, arg := recDw r 2,
    foff := fld (recDw r 3) 0 41, world := myWorld s, ctx := s.h.ctx, owner := s.h.loc, ownerGen := tgetD s.sgens (slotOf s.h.loc) 0, hasUnit := fld w 50 2 = 1, voided := false }

/-- The unit of a replaced profile goes back to the hart that configured it, or is freed. None while that hart's port is full. -/
def returnProfileUnit (s : State) (c p : Nat) (old : Profile) : Option State :=
  if !old.hasUnit || old.voided then some s
  else match capAt s (hIndex old.arg) with
    | none => some s
    | some e =>
      if e.gen != hGen old.arg || e.state == .free then some s
      else match (if tgetD s.sgens (slotOf old.owner) 0 = old.ownerGen then findHart s old.owner else none) with
        | none => some (returnUnits s (hIndex old.arg) 1)
        | some h =>
          if portFree h ≤ promised s h.loc then none
          else
            let scope := if clusterOf h.place = c then 2 else if dieOf h.place = c / 16 then 3 else 4
            some (postArrival s h.loc
              { device := s.device, index := hIndex old.arg, gen := e.gen, kind := .share, units := 1, void := false, scope := scope,
                tag := BitVec.ofNat 60 (c * 16 + p) })

/-- Check 4 of R254: the holding that a unit of action 1 comes from. -/
def fanUnit (s : State) (arg : Word) : Res Holding := do
  let (g, c) ← checkHandle s arg false
  if g.kind != .share || c.state != .shared then .error (.trap causeCapability arg)
  unpinned s g 1 (myPins s g.index)
  .ok g

/-- ECFG: it completes inside the instruction, once no action of the old profile is still due. -/
def ecfgBody (p : Fin 16) (rs1 : Reg) (s : State) : Res State := do
  let va := addrReg s rs1
  let c := myCluster s
  let (r, t) ← readHeld s va 64
  if !profileOk va r then .error (.trap causeEngine (word va))
  if (aspenAt t c).accs.any fun x => x.2.bound && x.2.prof == p.val && x.2.world != myWorld t then
    .error (.trap causeEngine (word p.val))
  let new := profileOf t r
  let unit ← if new.act = 1 then (fanUnit t new.arg).map some else .ok none
  queueRoom t
  if (aspenAt t c).fires.any fun f => f.prof == p.val then .error (.stall t)
  match returnProfileUnit t c p.val (profAt (aspenAt t c) p.val) with
  | none => .error (.stall t)
  | some t =>
    let t := updAspen t c fun a => { a with profiles := tput a.profiles p.val new }
    .ok (match unit with
      | some g => modHoldings t fun l => takeUnits l g 1
      | none => t)
def execEcfg (p : Fin 16) (rs1 : Reg) (s : State) : Host.Outcome State Fault Refusal := seq s (ecfgBody p rs1 s)

/-! EBIND (R255) -/

/-- One accumulator after EBIND. -/
def bindAcc (a : Aspen) (world prof : Nat) (n : Nat) : Aspen :=
  putAcc a n { Acc.unbound with bound := true, world := world, prof := prof, state := (profAt a prof).rst, retired := (accAt a n).retired }

/-- EBIND. -/
def ebindBody (rs1 rs2 : Reg) (s : State) : Res State :=
  let v := rx s rs1
  let w := rx s rs2
  let c := myCluster s
  let first := fld v 0 16
  let n := fld v 32 16 + 1
  let a := aspenAt s c
  if v &&& 0xFFFF0000FFFF0000#64 != 0 || 32 ≤ w.toNat || 65536 < first + n then .error (.trap causeEngine v)
  else if a.accs.any fun x => first ≤ x.1 && x.1 < first + n && x.2.bound && x.2.world != myWorld s then .error (.trap causeEngine v)
  else
    .ok (updAspen s c fun a => (rangeFrom first n).foldl (fun a k =>
      if bitAt w 4 then putAcc a k { accAt a k with bound := false } else bindAcc a (myWorld s) (fld w 0 4) k) a)
def execEbind (rs1 rs2 : Reg) (s : State) : Host.Outcome State Fault Refusal := seq s (ebindBody rs1 rs2 s)

/-! EPOST (R256) -/

/-- The executing hart's events for a cluster that have not arrived. -/
def eventsOut (s : State) (c : Nat) : Bool := s.events.any fun e => e.poster == some (s.device, s.h.loc) && e.cluster == c

/-- EPOST to this device. -/
def postHere (s : State) (rd : Reg) (e : Event) : Res State :=
  if clusterWaits s e.cluster then .error (.stall s)
  else if !clusterReady s e.cluster then .ok (wx (if rd = 0 then countFault s (myCluster s) else s) rd (evFault 3))
  else if rd = 0 then
    if e.delay != 0 && 65536 ≤ (aspenAt s e.cluster).wheel.length then .error (.stall s)
    else .ok (enqueue { s with events := s.events ++ [e] } (.eventDeliver 0))
  else if eventsOut s e.cluster then .error (.stall s)
  else match arriveEvent s e.cluster e.acc e.weight e.world ((aspenAt s e.cluster).tick + e.delay) false with
    | some (t, st) => .ok (wx t rd st)
    | none => .error (.stall s)

/-- EPOST to a peer device: a posted one is on its way; a returning one waits for the reply. -/
def postFar (s : State) (rd : Reg) (dev : Nat) (e : Event) : Res State :=
  let port := routePort s dev
  if rd = 0 then .ok (postOver s port dev (myCluster s) e)
  else if !(portAt s port).carries then .ok (wx s rd (evFault 3))
  else .error (.stall (modH (sendOut s (some e.world) (.event port e dev)) fun h => { h with evWait := some (port, none) }))

/-- EPOST. -/
def epostBody (rd rs1 rs2 : Reg) (s : State) : Res State :=
  match s.h.evWait with
  | some (_, some st) => .ok (wx (modH s fun h => { h with evWait := none }) rd st)
  | some (_, none) => .error (.stall s)
  | none =>
    let v := rx s rs1
    if fld v 48 16 != 0 || fld v 16 2 != 0 || 1023 < fld v 32 16 then .error (.trap causeEngine v)
    else
      let e : Event :=
        { cluster := fld v 18 6, acc := fld v 0 16, weight := BitVec.ofNat 32 (rx s rs2).toNat, delay := fld v 32 16, world := myWorld s,
          poster := some (s.device, s.h.loc), home := some (myCluster s), replyTo := none }
      if fld v 24 8 = s.device then postHere s rd e else postFar s rd (fld v 24 8) e
def execEpost (rd rs1 rs2 : Reg) (s : State) : Host.Outcome State Fault Refusal := seq s (epostBody rd rs1 rs2 s)

/-! ERECV (R257) -/

/-- Pop the oldest record of the hart's world from the hosting cluster's fire queue. -/
def popFire (s : State) : Option (Word × State) :=
  let c := myCluster s
  (findIdx (fun r : Word × Nat => r.2 == myWorld s) (aspenAt s c).fireQ 0).map fun p =>
    (p.2.1, updAspen s c fun a => { a with fireQ := removeAt a.fireQ p.1 })

/-- ERECV. -/
def erecvBody (rd : Reg) (s : State) : Res State :=
  match popFire s with
  | some (r, s) => .ok (wx s rd r)
  | none => .error (.point s)
def execErecv (rd : Reg) (s : State) : Host.Outcome State Fault Refusal := seq s (erecvBody rd s)

/-- ERECV.NB. -/
def erecvNbBody (rd : Reg) (s : State) : Res State :=
  match popFire s with
  | some (r, s) => .ok (wx s rd r)
  | none => .ok (wx s rd 0xFFFFFFFFFFFFFFFF#64)
def execErecvNb (rd : Reg) (s : State) : Host.Outcome State Fault Refusal := seq s (erecvNbBody rd s)

/-! ETICK, ERD and EWR (R258, R259) -/

/-- The accumulator that an operand names, of the hart's own world (R244, R261). -/
def ownAcc (s : State) (v : Word) : Res Acc :=
  let x := accAt (aspenAt s (fld v 18 6)) (fld v 0 16)
  if clusterWaits s (fld v 18 6) then .error (.stall s)
  else if x.retired then .error (.trap causeQuarantined (word (fld v 0 32)))
  else if !x.bound || x.world != myWorld s then .error (.trap causeEngine v)
  else .ok x

/-- End `n` ticks of a cluster in turn, each with its evaluation and its actions. -/
def endTicks (c : Nat) : Nat → State → State
  | 0, s => s
  | n + 1, s =>
    let s := aspenStep s c (endTick (seat s c) (aspenAt s c))
    endTicks c n (actAll c (aspenAt s c).fires.length s)

/-- ETICK. -/
def etickBody (rs1 : Reg) (s : State) : Res State := do
  let v := rx s rs1
  let c := fld v 18 6
  let n := signed 16 (fld v 48 16)
  if fld v 32 16 != 0 || fld v 16 2 != 0 || fld v 24 8 != s.device then .error (.trap causeEngine v)
  if clusterWaits s c then .error (.stall s)
  if 0 < n && ((aspenAt s c).period != 0 || 1024 < n) then .error (.trap causeEngine v)
  if n < 0 then
    let x ← ownAcc s v
    if eventsOut s c then .error (.stall s)
    .ok (updAspen s c fun a => putAcc a (fld v 0 16) { x with refr := ((x.refr : Int) + n).toNat })
  else if eventsOut s c then .error (.stall s)
  else .ok (endTicks c n.toNat s)
def execEtick (rs1 : Reg) (s : State) : Host.Outcome State Fault Refusal := seq s (etickBody rs1 s)

/-- The operand checks of ERD and EWR. -/
def accField (s : State) (v : Word) : Res Acc :=
  if 2 ^ 34 ≤ v.toNat || fld v 16 2 != 0 || fld v 24 8 != s.device then .error (.trap causeEngine v) else ownAcc s v

/-- ERD. -/
def erdBody (rd rs1 : Reg) (s : State) : Res State := do
  let v := rx s rs1
  let x ← accField s v
  if eventsOut s (fld v 18 6) then .error (.stall s)
  let tick := (aspenAt s (fld v 18 6)).tick
  .ok (wx s rd (match fld v 32 2 with
    | 0 => word (wrap 64 x.state)
    | 1 => word x.age
    | 2 => word x.refr
    | _ => word (tick % 2 ^ 32 * 2 ^ 32 + boolNat x.bound * 2 ^ 20 + x.prof * 2 ^ 16 + x.cnt)))
def execErd (rd rs1 : Reg) (s : State) : Host.Outcome State Fault Refusal := seq s (erdBody rd rs1 s)

/-- EWR. -/
def ewrBody (rs1 rs2 : Reg) (s : State) : Res State := do
  let v := rx s rs1
  let w := rx s rs2
  let x ← accField s v
  if eventsOut s (fld v 18 6) then .error (.stall s)
  let y := match fld v 32 2 with
    | 0 => { x with state := signed 32 (fld w 0 32) }
    | 1 => { x with age := fld w 0 16 }
    | 2 => { x with refr := fld w 0 16 }
    | _ => { x with cnt := fld w 0 16 }
  .ok (updAspen s (fld v 18 6) fun a => putAcc a (fld v 0 16) y)
def execEwr (rs1 rs2 : Reg) (s : State) : Host.Outcome State Fault Refusal := seq s (ewrBody rs1 rs2 s)

/-! Uncorrectable errors (R261) -/

/-- ACCUMULATOR_ECC: an accumulator is retired until cold reset, or a pending wheel event is dropped and counted. -/
def execAccumulatorEcc (e : AspenErr) (s : State) : Host.Outcome State Fault Refusal :=
  match e with
  | .acc c n => happen (updAspen s (c % 64) fun a => putAcc a (n % 65536) { accAt a (n % 65536) with retired := true })
  | .wheel c k => happen (updAspen s (c % 64) fun a =>
      if k < a.wheel.length then { a with wheel := removeAt a.wheel k, faults := bump a.faults } else a)

end Sys2Proof.Machine
end

