-- ==== Sys2Proof/Machine/Pages.lean ====
section
/-! DEFINITION. Pages: INVPG (R343, R344), page tables and migration (R340, R345), scrub (R351 to R353) and frame-table errors
(R355). -/

namespace Sys2Proof.Machine

/-- What an INVPG names (R343). -/
structure InvArg where
  allAsids : Bool
  allPages : Bool
  asid : Nat
  page : Nat
  deriving DecidableEq, Repr

/-- Whether a translation of a context is named. -/
def InvArg.names (a : InvArg) (ctx : Nat) (e : TlbEntry) : Bool :=
  e.ctx == ctx && (a.allAsids || e.asid == a.asid) && (a.allPages || (e.vpn ≤ a.page && a.page < e.vpn + e.pages))

/-- Drop the named translations from every TLB of the device. -/
def dropTlbs (s : State) (ctx : Nat) (a : InvArg) : State :=
  let keep (l : List TlbEntry) : List TlbEntry := l.filter fun e => !a.names ctx e
  { s with
    tiles := s.tiles.map fun t => (t.1, { t.2 with tlb := keep t.2.tlb })
    clusters := s.clusters.map fun c => (c.1, { c.2 with tlb := keep c.2.tlb }) }

/-- Whether a page that starts at a virtual page number and has so many 4 KiB pages is named. -/
def InvArg.namesPage (a : InvArg) (p : Nat × Nat) : Bool := a.allPages || (p.1 ≤ a.page && a.page < p.1 + p.2)

/-- A running direct MMA pins a named page (R344). -/
def mmaPins (s : State) (ctx : Nat) (a : InvArg) : Bool :=
  (harts s).any fun h => h.ctx == ctx && match runningDirect h with
    | some c => c.pages.any a.namesPage
    | none => false

/-- Drop the pins on named pages of a context's commands, but for a running direct MMA's; they probe again before they next touch the pages
(R344). A segment that runs is one step, so none is ever waited for. -/
def dropPins (s : State) (ctx : Nat) (a : InvArg) : State :=
  let drop (c : EngCmd) : EngCmd := if c.direct && !c.susp then c else { c with pages := c.pages.filter fun p => !a.namesPage p }
  let f (h : Hart) : Hart := if h.ctx == ctx then Hart.touch { h with cmds := h.cmds.map drop } 15 else h
  { s with h := f s.h, others := s.others.map f }

/-- What an INVPG waits for (R343, steps 2 and 3): the context's loads and stores that are still counted, any of which may have used a dropped
translation, and a running direct MMA that pins a named page. -/
def invBusy (s : State) (ctx : Nat) (a : InvArg) : Bool :=
  mmaPins s ctx a || (harts s).any fun h => h.ctx == ctx && (h.ldOut != 0 || !h.stOut.isEmpty)

/-- The operands of an INVPG. -/
def invArg (rs1 rs2 : Word) : InvArg :=
  { allAsids := bitAt rs2 63, allPages := bitAt rs2 62, asid := fld rs2 0 16, page := fld rs1 12 45 }

/-- What an INVPG does at once: the named translations and pins of a context go (R343, R344). -/
def invalidate (s : State) (ctx : Nat) (a : InvArg) : State := dropPins (dropTlbs s ctx a) ctx a

/-- INVPG. -/
def invpgBody (rs1 rs2 : Reg) (s : State) : Res State := do
  needMode s .s
  let v := rx s rs2
  if fld v 16 46 != 0 then .error (.trap causeEngine v)
  else
    let a := invArg (rx s rs1) v
    let t := invalidate s s.h.ctx a
    if invBusy t t.h.ctx a then .error (.stall t) else .ok t
def execInvpg (rs1 rs2 : Reg) (s : State) : Host.Outcome State Fault Refusal := seq s (invpgBody rs1 rs2 s)

/-- Larch's INVPG on a management hart, which names the context. Like a hart's, it is tried again by a later turn while it has to wait; Larch
sees its end. -/
def larchInvpg (rs1 rs2 : Word) (s : State) : State :=
  if fld rs2 16 40 != 0 || !s.larch then s
  else
    let ctx := fld rs2 56 6
    let a := invArg rs1 rs2
    let t := invalidate s ctx a
    if invBusy t ctx a then t else { t with told := t.told ++ [.invpgDone] }

/-! Scrub -/

/-- Start a scrub of `count` frames of a stack from frame `first` on (R351), for a world that is torn down where there is one. -/
def startScrub (s : State) (n : Fin 8) (first count : Nat) (world : Option Nat) : State :=
  enqueue { s with scrubs := s.scrubs.set n { boot := false, world := world, act := true, ptr := first, last := first + count - 1 } } (.scrubFrame n)

/-- SCRUB (R352): M-mode; stalls while the stack's channel is active, and an interrupt is taken meanwhile. -/
def scrubBody (rs1 : Reg) (s : State) : Res State := do
  needMode s .m
  let v := rx s rs1
  let first := fld v 12 24
  let count := fld v 36 24 + 1
  if bitAt v 63 || fld v 0 12 != 0 || 2 ^ 24 < first + count then .error (.trap causeEngine v)
  else
    let n : Fin 8 := ⟨fld v 60 3 % 8, Nat.mod_lt _ (by decide)⟩
    if (s.scrubs.get n).act then .error (.point s) else .ok (startScrub s n first count none)
def execScrub (rs1 : Reg) (s : State) : Host.Outcome State Fault Refusal := seq s (scrubBody rs1 s)

/-- Clear one frame: its tags go without a write, its bytes are zero and its lines have the zero code. -/
def clearFrame (s : State) (pa : Nat) : State :=
  let s := zeroRange (dropFrame s pa) pa 4096
  { s with lmeta := s.lmeta.filter fun k => !(pa / 128 ≤ k.1 && k.1 < pa / 128 + 32) }

/-- SCRUB_FRAME: while the stack is held in reset the channel stays active and waits (R355). -/
def execScrubFrame (stack : Fin 8) (s : State) : Host.Outcome State Fault Refusal :=
  let c := s.scrubs.get stack
  if c.act && s.stacksHeld.getLsbD stack.val then block s (.scrubFrame stack)
  else if c.act then
    let s := clearFrame s (stack.val * 2 ^ 36 + c.ptr * 4096)
    if c.last ≤ c.ptr then happen { s with scrubs := s.scrubs.set stack { c with boot := false, world := none, act := false, ptr := c.last } }
    else happen (enqueue { s with scrubs := s.scrubs.set stack { c with ptr := c.ptr + 1 } } (.scrubFrame stack))
  else happen s

/-! Page tables and migration -/

/-- PAGE_TABLE_WRITE: Larch's aperture reaches TABLE frames only (R340). -/
def execPageTableWrite (pa : Nat) (value : BitVec 64) (s : State) : Host.Outcome State Fault Refusal :=
  let f := frameOf s pa
  whenRuns s.larch s (.pageTableWrite pa value) (happen (if pa % 8 = 0 && isDevicePa pa && f.ftype == .table && !f.retired then
    { s with mem := Memory.putN s.mem pa (leBytes 8 value.toNat) } else s))

/-- Address of the leaf entry that maps a page, by the walk of R339. -/
def leafAddr (s : State) (va : Nat) : Nat → Nat → Option Nat
  | lvl, table =>
    let a := table + va / 2 ^ (12 + 9 * lvl) % 512 * 8
    let p := readPte s a
    if !bitAt p 0 then none
    else if bitAt p 1 || bitAt p 3 then some a
    else match lvl with
      | 0 => none
      | l + 1 => leafAddr s va l (fld p 10 44 * 4096)

/-- The old home slices clean the dirty lines of a frame that have another home slice at the new address (R345, step 1); false while one has to
wait. -/
def cleanFrame (s : State) (old new : Nat) : State × Bool :=
  doAll (fun s l => match (if homeSlice (l - old + new) = homeSlice l then none else findTag s l 0) with
    | some (key, _) => cleanTag s (homeSlice l) key
    | none => (s, true)) (linesOf old 4096) s

/-- Move one frame raw: data, metadata, markers, the dirty bytes of the data L1s and the frame-table entry go to the new frame, and the old one is
FREE (R345, steps 2 and 4). The dirty lines of its home slices stay there, to be written back at the new address. False when one of these or a
marker finds no place. -/
def moveFrame (s : State) (old new : Nat) : State × Bool :=
  let lines := linesOf old 4096
  let f := frameOf s old
  let dirty := lines.filterMap fun l => (findTag s l 0).bind fun k =>
    if k.2.kind == .data && k.2.dirty then some (l - old + new, (tagBytes (sliceAt s (homeSlice l)) k.2).mapIdx fun n b => (n, b)) else none
  let marked := lines.filter fun l => (findMarker s l f.tensor).isSome
  let bytes := Memory.getN s.mem old 4096
  let metas := lines.map fun l => (l - old, metaOf s l)
  let moved (m : List Host.Cell) : List Host.Cell := m.foldl (fun m c =>
    if old ≤ c.1 && c.1 < old + 4096 then tput m (c.1 - old + new) c.2 else tput m c.1 c.2) []
  let s := dropFrame { s with tiles := s.tiles.map fun k => (k.1, { k.2 with l1d := moved k.2.l1d }) } old
  let s := { s with mem := Memory.putN s.mem new bytes }
  let s := metas.foldl (fun s k => setMeta s (new + k.1) k.2) s
  let s := { s with frames := tput (tput s.frames (new / 4096) { f with retired := false }) (old / 4096) { Frame.none with retired := f.retired } }
  match doAll (fun s l => placeMarker s (l - old + new) f.tensor true) marked s with
  | (s, true) => doAll (fun s d => sliceWrite s d.1 0 d.2) dirty s
  | (s, false) => (s, false)

/-- Frames that a page may move to: FREE, in service, and not in the range of a scrub. -/
def framesFree (s : State) (pa n : Nat) : Bool :=
  (rangeFrom (pa / 4096) n).all fun f =>
    let e := tgetD s.frames f Frame.none
    e.ftype == .free && !e.retired && f < 2 ^ 27 && !scrubBlocked s (f * 4096)

/-- Rewrite the leaf entry at an address. -/
def putLeaf (s : State) (leaf : Nat) (p : Word) : State := { s with mem := Memory.putN s.mem leaf (leBytes 8 p.toNat) }

/-- A migration ends. -/
def endMigration (s : State) (m : Migration) : State := { s with migrations := s.migrations.erase m }

/-- A tensor whose markers find no place at the new address takes a roll first, after which it has none. -/
def rollFirst (s : State) (old : Nat) : State :=
  match capAt s (frameOf s old).tensor with
  | some c =>
    if c.pass.isNone && (linesOf old 4096).any fun l => (findMarker s l (frameOf s old).tensor).isSome then
      startRoll s (frameOf s old).tensor []
    else s
  | none => s

/-- PAGE_MIGRATE (R345): it happens twice. At first the leaf loses W, and its translations and pins go (step 1). When what they were used for has
ended, the lines are cleaned, the frames move, and the leaf is rewritten with W as it was (steps 2 to 4). It waits while Larch does not
run, and for a pass that holds a line. -/
def execPageMigrate (ctx : Fin 64) (va newpa : Nat) (s : State) : Host.Outcome State Fault Refusal :=
  let ev : Instr := .pageMigrate ctx va newpa
  if !s.larch then block s ev
  else match s.migrations.find? fun m => m.ctx == ctx.val && m.va == va && m.new == newpa, ctxOf s ctx.val with
  | none, none => happen s
  | some m, none => happen (endMigration s m)
  | m, some c =>
    let inv : InvArg := { allAsids := true, allPages := false, asid := 0, page := va % 2 ^ 57 / 4096 }
    match walk s (fun _ => true) ctx.val (ctxSatp c) va, leafAddr s (va % 2 ^ 57) 4 (fld (ctxSatp c) 0 44 * 4096) with
    | .ok e, some leaf =>
      let old := e.ppn * 4096
      let p := readPte s leaf
      match m with
      | none =>
        if isDevicePa old && newpa % (e.pages * 4096) = 0 && framesFree s newpa e.pages then
          let t := invalidate (putLeaf s leaf (setBit p 2 false)) ctx.val inv
          happen (enqueue { t with migrations := t.migrations ++ [{ ctx := ctx.val, va := va, new := newpa, w := bitAt p 2 }] } ev)
        else happen s
      | some m =>
        if invBusy s ctx.val inv then block s ev
        else if !framesFree s newpa e.pages then happen (endMigration (putLeaf s leaf (setBit p 2 m.w)) m)
        else match doAll (fun s k => cleanFrame s (old + 4096 * k) (newpa + 4096 * k)) (rangeFrom 0 e.pages) s with
          | (t, false) => block t ev
          | (t, true) =>
            match doAll (fun s k => moveFrame s (old + 4096 * k) (newpa + 4096 * k)) (rangeFrom 0 e.pages) t with
            | (u, false) => block ((rangeFrom 0 e.pages).foldl (fun t k => rollFirst t (old + 4096 * k)) (carryRolls t u)) ev
            | (u, true) =>
              let ppn := newpa / 4096 + if bitAt p 63 then 8 else 0
              happen (endMigration (dropTlbs (putLeaf u leaf (setBit (setFld p 10 44 ppn) 2 m.w)) ctx.val inv) m)
    | _, _ => happen (match m with | some m => endMigration s m | none => s)

/-- Larch has a frame whose leaf it has made invalid copied raw to a free frame (R389, R390): data and metadata go over, and Yew copies the entry. It
is tried again by a later turn while a slice has to wait. -/
def copyFrame (s : State) (old new : Nat) : State :=
  if (frameOf s old).ftype == .data && framesFree s new 1 then
    match cleanFrame s old new with
    | (t, false) => t
    | (t, true) => match moveFrame t old new with
      | (u, true) => u
      | (u, false) => rollFirst (carryRolls t u) old
  else s

/-- A frame is retired: it is assigned no more. -/
def retireFrame (s : State) (frame : Nat) : State :=
  if frame < 2 ^ 27 then { s with frames := tput s.frames frame { tgetD s.frames frame Frame.none with retired := true } } else s

/-- Larch retires a frame after corrected errors (R389), once what it held has gone to another. -/
def retireFree (s : State) (frame : Nat) : State :=
  if (tgetD s.frames frame Frame.none).ftype == .free then retireFrame s frame else s

/-- FRAME_TABLE_ECC: every buffer of the frame is QUARANTINED and the frame is retired (R355). -/
def execFrameTableEcc (frame : Nat) (s : State) : Host.Outcome State Fault Refusal :=
  let f := tgetD s.frames frame Frame.none
  happen (retireFrame (if f.tensor = 0 then s else quarantine s f.tensor) frame)

end Sys2Proof.Machine
end

