-- ==== Sys2Proof/Machine/Group.lean ====
section
/-! DEFINITION. Groups (R263 to R268), the arrivals of their barrier channels (R276 to R279), and gangs (R269 to R274). -/

namespace Sys2Proof.Machine

/-- Change a kernel. -/
def updKernel (s : State) (slot : Nat) (f : Kernel → Kernel) : State :=
  match tget s.kernels slot with
  | some k => { s with kernels := tput s.kernels slot (f k) }
  | none => s

/-- The executing hart's kernel is co-resident (R304). -/
def coResident (s : State) : Bool := match kernelOf s s.h.loc with | some k => dCores k.desc | none => false

/-! Channels -/

/-- A channel after bring-up. -/
def Chan.start : Chan :=
  { state := .unbound, phase := 0, slot := 0, group := 0, flag := false, counted := [], ctx := none, devices := [], doneDevices := [],
    localDone := false }
/-- A channel, by class * 1024 + die * 64 + number (R276). -/
def chanAt (s : State) (k : Nat) : Chan := tgetD s.chans k Chan.start
/-- Replace a channel. -/
def putChan (s : State) (k : Nat) (c : Chan) : State := { s with chans := tset Chan.start s.chans k c }
/-- A link-class channel. -/
def isLinkChan (k : Nat) : Bool := k / 1024 == 2

/-- The members of a group: harts that have been placed, and for group 0 of a kernel that starts with it those that have not (R264). -/
def members (s : State) (slot g : Nat) : List Nat :=
  ((harts s).filter fun h => slotOf h.loc == slot && h.groups.contains g).map (·.loc) ++
    match tget s.kernels slot with
    | some k => if g = 0 && dGrp0 k.desc then rangeFrom (slot * 2 ^ 20 + k.placed) (dHarts k.desc - k.placed) else []
    | none => []

/-- The devices of a channel's set other than this one. -/
def Chan.peers (c : Chan) (device : Nat) : List Nat := c.devices.filter (· != device)

/-- The counted set of this device is done: a die- or device-class phase is due to complete; a link-class one is announced to the other
devices, or BROKEN when a link to one of them carries nothing (R277, R278). -/
def localArrived (s : State) (k : Nat) : State :=
  let c := chanAt s k
  if !isLinkChan k then enqueue s (.phaseComplete k)
  else
    let ps := c.peers s.device
    if ps.all fun d => (portAt s (routePort s d)).carries then
      let s := putChan s k { c with localDone := true }
      enqueue (ps.foldl (fun s d => sendOut s (c.ctx.map (worldOf s)) (.barrier (k % 64) d c.phase c.flag)) s) (.phaseComplete k)
    else putChan s k { c with state := .broken }

/-- An arrival, or a leave, of a hart at a bound channel that is IDLE or OPEN: the first opens the phase with the members of that
moment for its counted set (R278). -/
def arriveChan (s : State) (k loc : Nat) (flag : Bool) : State :=
  let c := chanAt s k
  let c := if c.state == .idle then { c with state := .open, counted := members s c.slot c.group } else c
  let here := c.counted.contains loc
  let c := { c with counted := c.counted.filter (· != loc), flag := c.flag || (here && flag) }
  let s := putChan s k c
  if here && c.counted.isEmpty then localArrived s k else s

/-- The channels bound to a group. -/
def chansOf (s : State) (slot g : Nat) : List Nat :=
  (s.chans.filter fun c => c.2.state != .unbound && c.2.slot == slot && c.2.group == g).map (·.1)

/-! Groups -/

/-- The number of a group identifier of the executing hart's kernel; a malformed one raises ENGINE (R263). -/
def groupNo (s : State) (v : Word) : Res Nat :=
  if 2 ^ 32 ≤ v.toNat || fld v 8 12 != 0 || fld v 20 12 != slotOf s.h.loc then .error (.trap causeEngine v) else .ok (fld v 0 8)

/-- Member count of a group (R264). -/
def groupCount (s : State) (slot g : Nat) : Nat := match tget s.kernels slot with | some k => tgetD k.groups g 0 | none => 0

/-- A hart joins a group. -/
def joinGroup (s : State) (h : Hart) (g : Nat) : State :=
  if h.groups.contains g then s
  else
    let s := updHart s h.loc fun h => Hart.touch { h with groups := h.groups ++ [g] } 13
    updKernel s (slotOf h.loc) fun k => { k with groups := tset 0 k.groups g (tgetD k.groups g 0 + 1) }

/-- A hart leaves a group; it arrives with flag 0 at every channel bound to it (R267). -/
def leaveGroup (s : State) (h : Hart) (g : Nat) : State :=
  if !h.groups.contains g then s
  else
    let slot := slotOf h.loc
    let s := (chansOf s slot g).foldl (fun s k => if (chanAt s k).state == .broken then s else arriveChan s k h.loc false) s
    let s := updHart s h.loc fun h => Hart.touch { h with groups := h.groups.filter (· != g) } 13
    updKernel s slot fun k => { k with groups := tset 0 k.groups g (tgetD k.groups g 0 - 1) }

/-- A hart leaves every group. -/
def leaveAll (s : State) (h : Hart) : State := h.groups.foldl (fun s g => match findHart s h.loc with | some h => leaveGroup s h g | none => s) s

/-- The lowest group without members and without a bound channel. -/
def freeGroup (s : State) (slot : Nat) : Option Nat :=
  (rangeFrom 0 256).find? fun g => groupCount s slot g == 0 && (chansOf s slot g).isEmpty

/-- GJOIN (R266). -/
def gjoinBody (rd rs1 : Reg) (s : State) : Res State := do
  let slot := slotOf s.h.loc
  let v := rx s rs1
  if v = 0xFFFFFFFFFFFFFFFF#64 then
    match freeGroup s slot with
    | some g => .ok (wx (joinGroup s s.h g) rd (word (slot * 2 ^ 20 + g)))
    | none => .ok (wx s rd v)
  else do
    let g ← groupNo s v
    .ok (wx (joinGroup s s.h g) rd v)
def execGjoin (rd rs1 : Reg) (s : State) : Host.Outcome State Fault Refusal := seq s (gjoinBody rd rs1 s)

/-- GLEAVE (R267). -/
def gleaveBody (rs1 : Reg) (s : State) : Res State := do
  let g ← groupNo s (rx s rs1)
  .ok (leaveGroup s s.h g)
def execGleave (rs1 : Reg) (s : State) : Host.Outcome State Fault Refusal := seq s (gleaveBody rs1 s)

/-- GSIZE (R268). -/
def gsizeBody (rd rs1 : Reg) (s : State) : Res State := do
  let g ← groupNo s (rx s rs1)
  .ok (wx s rd (word (groupCount s (slotOf s.h.loc) g)))
def execGsize (rd rs1 : Reg) (s : State) : Host.Outcome State Fault Refusal := seq s (gsizeBody rd rs1 s)

/-! Gangs -/

/-- The tiles of a cluster that a mask names, in rank order. -/
def namedTiles (cluster m : Nat) : List Nat := ((rangeFrom 0 16).filter m.testBit).map (16 * cluster + ·)

/-- Check 3 of R269. -/
def maskOk (s : State) (v : Word) : Bool :=
  let m := v.toNat
  let n := (namedTiles 0 m).length
  let lo := (namedTiles 0 m).headD 0
  m < 2 ^ 16 && (n = 2 || n = 4 || n = 8) && m == (2 ^ n - 1) * 2 ^ lo && lo % n = 0 && m.testBit (myTile s % 16) &&
    (match kernelOf s s.h.loc with | some k => n ≤ dGang k.desc | none => false)

/-- The other harts of the executing hart's kernel and cluster that have arrived at GFUSE, and that no check 4 has failed since (R269). -/
def arrived (s : State) : List (Hart × Nat) :=
  s.others.filterMap fun h => match h.fuse, h.tile with
    | some m, some t => if clusterOf t == myCluster s && slotOf h.loc == slotOf s.h.loc && m < 2 ^ 16 then some (h, m) else none
    | _, _ => none

/-- Arrivals whose mask differs from the executing hart's, where either names the other's tile (R269, check 4). -/
def fuseClash (s : State) (m : Nat) : List (Hart × Nat) :=
  (arrived s).filter fun a => a.2 != m && (a.2.testBit (myTile s % 16) || m.testBit (a.1.place % 16))

/-- Check 4 has failed for harts that have arrived: each is to raise its exception (R269). -/
def failFuse (s : State) (l : List (Hart × Nat)) : State :=
  l.foldl (fun s a => updHart s a.1.loc fun h => { h with fuse := some (a.2 + 2 ^ 16) }) s

/-- A tile that is in service and hosts a hart of the executing hart's kernel. -/
def fuseTile (s : State) (t : Nat) : Bool :=
  tileReady s t && match hartOn s t with | some h => slotOf h.loc == slotOf s.h.loc | none => false

/-- The rd field of a GFUSE word. -/
def fuseRd (w : Word32) : Reg := ⟨w.toNat / 128 % 32, Nat.mod_lt _ (by decide)⟩

/-- The gang forms: every member has its rank in rd and goes on after the leader's GFUSE (R269, R270). `rd` is the
executing hart's. -/
def formGang (s : State) (rd : Reg) (locs : List Nat) : State :=
  match locs.head?.bind (findHart s) with
  | none => s
  | some l =>
    (locs.zip (rangeFrom 0 locs.length)).foldl (fun t p => updHart t p.1 fun h =>
      let r := if h.loc = s.h.loc then rd else fuseRd h.ir
      Hart.touch { h with
        gang := some { members := locs, rank := p.2, mmas := 0 }
        fuse := none
        pc := l.pc + 4
        x := if r = 0 then h.x else h.x.set r.val (word p.2)
        csr := { h.csr with instret := h.csr.instret + 1 } } 0) s

/-- GFUSE (R269). -/
def gfuseBody (rd rs1 : Reg) (s : State) : Res State :=
  let v := rx s rs1
  let m := v.toNat
  let fail (s : State) : Res State := .error (.trapAt (modH s fun h => { h with fuse := none }) causeEngine v)
  if !coResident s then .error (.trap causeCapability v)
  else if s.h.gang.isSome then .error (.trap causeEngine v)
  else if !maskOk s v then .error (.trap causeEngine v)
  else if s.h.fuse.any fun k => 2 ^ 16 ≤ k then fail s
  else
    let bad := fuseClash s m
    let ts := namedTiles (myCluster s) m
    if !bad.isEmpty || !ts.all (fuseTile s) then fail (failFuse s (bad ++ (arrived s).filter fun a => a.2 == m))
    else
      let s' := modH s fun h => { h with fuse := some m }
      if ts.all fun t => (hartOn s' t).any fun h => h.fuse == some m then
        .ok (formGang s' rd (ts.filterMap fun t => (hartOn s' t).map (·.loc)))
      else .error (.point s')
def execGfuse (rd rs1 : Reg) (s : State) : Host.Outcome State Fault Refusal := finish s (gfuseBody rd rs1 s)

/-- An MMA that the executing hart's gang has issued and that has not completed. -/
def gangMma (s : State) : Bool := (gangHarts s s.h).any fun h => h.cmds.any fun c => c.gangOf.isSome

/-- GSPLIT (R272). -/
def gsplitBody (s : State) : Res State :=
  if s.h.gang.isNone then .ok s
  else if bitAt s.h.csr.mprog 63 then .error (.trap causeEngine s.h.csr.mprog)
  else if gangMma s then
    (if mxCount s.h != 0 && allUnfired s.h false then stallOrDeadlock s 0 else .error (.point s))
  else .ok ((gangLocs s).foldl (fun s l => updHart s l fun h => { h with gang := none }) s)
def execGsplit (s : State) : Host.Outcome State Fault Refusal := seq s (gsplitBody s)

/-- GRANK's value (R273). -/
def rankOf (h : Hart) : Word :=
  match h.gang with
  | some g => word (g.rank + g.members.length * 2 ^ 8)
  | none => 0x100
/-- GRANK. -/
def execGrank (rd : Reg) (s : State) : Host.Outcome State Fault Refusal := seq s (.ok (wx s rd (rankOf s.h)))

end Sys2Proof.Machine
end

