-- ==== Sys2Proof/Machine/Barrier.lean ====
section
/-! DEFINITION. Barriers (R275 to R285) and synchronisation variables (R286 to R292). -/

namespace Sys2Proof.Machine

/-! Barriers -/

/-- The channel of a channel identifier; none for a malformed one (R276). -/
def chanNo (v : Word) : Option Nat :=
  let cls := fld v 10 2
  if 2 ^ 12 ≤ v.toNat || cls = 3 || fld v 6 2 != 0 || (cls != 0 && fld v 8 2 != 0) || (cls = 1 && 16 ≤ fld v 0 6) then none
  else some (cls * 1024 + fld v 8 2 * 64 + fld v 0 6)

/-- The checks of R281: the channel. -/
def barChan (s : State) (v : Word) : Res (Nat × Chan) :=
  if !coResident s then .error (.trap causeCapability v)
  else match chanNo v with
    | none => .error (.trap causeEngine v)
    | some k =>
      let c := chanAt s k
      if c.state == .unbound || c.slot != slotOf s.h.loc then .error (.trap causeEngine v)
      else if c.state == .broken then .error (.trap causeLink v)
      else if k < 1024 && dieOf (myTile s) != k / 64 then .error (.trap causeEngine v)
      else if (k < 1024 && unsettled s 36 (20 + k / 64)) || (k / 1024 = 1 && unsettled s 36 24) then .error (.stall s)
      else .ok (k, c)

/-- The executing hart stalls at BARR or BARW on a channel. -/
def atBarrier (s : State) (k : Nat) : State := modH s fun h => { h with barAt := some (k, .waits) }

/-- The place of a hart whose BARR or BARW is done: a gang's member stays at its channel until every member's is (R270). -/
def leftBarrier (h : Hart) (k : Nat) : Option (Nat × BarStall) := if h.gang.isSome then some (k, .waits) else none

/-- The channel that the hart stalls at has been unbound under it: ENGINE (R285); or it has become BROKEN: LINK (R292). -/
def needBound (s : State) (v : Word) : Res Unit :=
  match s.h.barAt with
  | some (k, .unbound) => if chanNo v = some k then .error (.trap causeEngine v) else .ok ()
  | some (k, .broken) => if chanNo v = some k then .error (.trap causeLink v) else .ok ()
  | some (_, .waits) | none => .ok ()

/-- The harts that stall at a channel are told what has become of it. -/
def tellStalled (s : State) (k : Nat) (why : BarStall) : State :=
  (harts s).foldl (fun s h =>
    if h.tile.isSome && h.barAt == some (k, .waits) then updHart s h.loc fun h => { h with barAt := some (k, why) } else s) s

/-- BARR (R282): a hart that the open phase does not count waits for the next one. -/
def barrBody (rs1 rs2 : Reg) (s : State) : Res State := do
  let v := rx s rs1
  needBound s v
  let (k, c) ← barChan s v
  if !s.h.groups.contains c.group then .error (.trap causeEngine v)
  else if (tget s.h.barRecs k).any fun r => !r.done then .error (.point (atBarrier s k))
  else if c.state == .open && !c.counted.contains s.h.loc then .error (.point (atBarrier s k))
  else
    let t := modH s fun h => Hart.touch { h with barAt := leftBarrier h k, barRecs := tput h.barRecs k { phase := c.phase, done := false, flag := false } } 13
    .ok (arriveChan t k s.h.loc (bitAt (rx s rs2) 0))
def execBarr (rs1 rs2 : Reg) (s : State) : Host.Outcome State Fault Refusal := seq s (barrBody rs1 rs2 s)

/-- BARW (R283). -/
def barwBody (rd rs1 : Reg) (s : State) : Res State := do
  let v := rx s rs1
  needBound s v
  let (k, _) ← barChan s v
  match tget s.h.barRecs k with
  | none => .error (.trap causeEngine v)
  | some r =>
    if !r.done then .error (.point (atBarrier s k))
    else
      let t := modH s fun h => Hart.touch { h with barAt := leftBarrier h k, barRecs := terase h.barRecs k } 13
      .ok (wx t rd (word (r.phase.toNat * 2 ^ 32 + boolNat r.flag)))
def execBarw (rd rs1 : Reg) (s : State) : Host.Outcome State Fault Refusal := seq s (barwBody rd rs1 s)

/-- BART's value (R284). -/
def barTest (h : Hart) (k : Nat) (c : Chan) : Word :=
  match tget h.barRecs k with
  | none => word (c.phase.toNat * 2 ^ 32)
  | some r => word (r.phase.toNat * 2 ^ 32 + 4 + 2 * boolNat r.done + boolNat (r.done && r.flag))

/-- BART. -/
def bartBody (rd rs1 : Reg) (s : State) : Res State := do
  let (k, c) ← barChan s (rx s rs1)
  .ok (wx s rd (barTest s.h k c))
def execBart (rd rs1 : Reg) (s : State) : Host.Outcome State Fault Refusal := seq s (bartBody rd rs1 s)

/-- Scope that BARC accepts for a class (R275). -/
def barScope (k scope : Nat) : Bool :=
  match k / 1024 with
  | 0 => scope = 3
  | 1 => scope = 4
  | _ => scope = 6 || scope = 7

/-- Whether a channel is reserved for the kernel of a slot, or for a context if it is of link class (R277). -/
def reservedFor (s : State) (k slot ctx : Nat) : Bool :=
  match k / 1024 with
  | 0 => match tget s.kernels slot with | some n => n.dieChans.contains k | none => false
  | 1 => match tget s.kernels slot with | some n => n.devChans.contains (k % 64) | none => false
  | _ => (chanAt s k).ctx == some ctx

/-- Unbind a channel: an open phase is aborted, the harts that stall at it are told, and every arrival record becomes NONE. Its reservation
and its device set stay. -/
def unbindChan (s : State) (k : Nat) : State :=
  let c := chanAt s k
  let s := if c.state == .open then tellStalled s k .unbound else s
  let s := (harts s).foldl (fun s h =>
    if (tget h.barRecs k).isSome then updHart s h.loc fun h => Hart.touch { h with barRecs := terase h.barRecs k } 13 else s) s
  putChan s k { Chan.start with ctx := c.ctx, devices := c.devices }

/-- BARC (R285). -/
def barcBody (rs1 rs2 : Reg) (s : State) : Res State := do
  needMode s .s
  let v := rx s rs1
  let b := rx s rs2
  if 9 ≤ fld b 32 4 then illegal s
  let unb := bitAt b 63
  let slot := fld b 20 12
  let ctxOfSlot (n : Nat) : Option Nat := (tget s.kernels n).bind fun k => if k.running && dCores k.desc then some k.ctx else none
  match chanNo v with
  | none => .error (.trap causeEngine v)
  | some k =>
    let c := chanAt s k
    let ok : Bool :=
      if unb then fld b 0 63 = 0 && c.state != .unbound && ctxOfSlot c.slot == some s.h.ctx && reservedFor s k c.slot s.h.ctx
      else
        fld b 36 27 = 0 && fld b 8 12 = 0 && ctxOfSlot slot == some s.h.ctx && barScope k (fld b 32 4) &&
          reservedFor s k slot s.h.ctx && c.state == .unbound
    if !ok then .error (.trap causeEngine v)
    else if unb then .ok (unbindChan s k)
    else .ok (putChan s k { c with state := .idle, phase := 0, slot := slot, group := fld b 0 8 })
def execBarc (rs1 rs2 : Reg) (s : State) : Host.Outcome State Fault Refusal := seq s (barcBody rs1 rs2 s)

/-- PHASE_COMPLETE: every counted hart has arrived or left, and for a link-class channel every other device of the set is done
(R278). -/
def execPhaseComplete (k : Nat) (s : State) : Host.Outcome State Fault Refusal :=
  let c := chanAt s k
  if c.state == .open && c.counted.isEmpty &&
      (!isLinkChan k || (c.localDone && (c.peers s.device).all fun d => c.doneDevices.contains d)) then
    let s := (harts s).foldl (fun s h => match tget h.barRecs k with
      | some r =>
        if r.phase == c.phase && !r.done then
          updHart s h.loc fun h => Hart.touch { h with barRecs := tput h.barRecs k { r with done := true, flag := c.flag } } 13
        else s
      | none => s) s
    happen (putChan s k { c with state := .idle, phase := c.phase + 1, flag := false, counted := [], doneDevices := [], localDone := false })
  else happen s

/-- BAR_MESSAGE: another device of a link-class channel's set is done with a phase. A message for a phase that this device has not
reached yet waits; so does one for a channel that is not bound here yet. One of a world that the port's map does not pair with the
channel's is refused (R366). -/
def execBarMessage (channel : Nat) (m : BarMsg) (s : State) : Host.Outcome State Fault Refusal :=
  match m with
  | .done world device phase flag =>
    let k := 2048 + channel % 64
    let c := chanAt s k
    let mapped := tget (portAt s (routePort s device.toNat)).worldMap world.val
    if 64 ≤ channel || !c.devices.contains device.toNat || device.toNat = s.device || c.state == .broken then happen s
    else if mapped.isNone || mapped != c.ctx.map (worldOf s) then happen s
    else if c.state == .unbound || phase = c.phase + 1 then block s (.barMessage channel m)
    else if phase != c.phase then happen s
    else
      happen (enqueue (putChan s k { c with
        doneDevices := if c.doneDevices.contains device.toNat then c.doneDevices else c.doneDevices ++ [device.toNat]
        flag := c.flag || flag }) (.phaseComplete k))

/-- LINK_CHANNEL_RESERVE: a link-class channel for a context, with its device set (R277). A bound channel keeps its binding. -/
def execLinkChannelReserve (num : Nat) (ctx : Fin 64) (devices : List (BitVec 8)) (s : State) : Host.Outcome State Fault Refusal :=
  whenRuns s.larch s (.linkChannelReserve num ctx devices) (happen (if 64 ≤ num || (ctxOf s ctx.val).isNone then s
    else putChan s (2048 + num) { chanAt s (2048 + num) with ctx := some ctx.val, devices := uniq (devices.map (·.toNat)) }))

/-! Variables -/

/-- A variable after assignment. -/
def Var.start : Var := { value := 0, err := 0, retired := false }
/-- A variable. -/
def varAt (s : State) (n : Nat) : Var := tgetD s.vars n Var.start
/-- Replace a variable. -/
def putVar (s : State) (n : Nat) (v : Var) : State := { s with vars := tset Var.start s.vars n v }
/-- The world that a variable's range is assigned to. -/
def varOwner (s : State) (n : Nat) : Option Nat := tget s.varWorld (n / 256)
/-- Die of a variable's engine (R286). -/
def varDie (n : Nat) : Nat := if n < 262144 then n / 65536 else n % 4

/-- The operations of R288 on a variable: its new value. `e` is CAS's comparand. WAITGE changes nothing. -/
def svNew (op : Nat) (old v e : Word) : Word :=
  match op with
  | 0 => old + v
  | 1 => if old.toInt ≤ v.toInt then old else v
  | 2 => if v.toInt ≤ old.toInt then old else v
  | 3 => if old.toNat ≤ v.toNat then old else v
  | 4 => if v.toNat ≤ old.toNat then old else v
  | 5 => old &&& v
  | 6 => old ||| v
  | 7 => v
  | 8 => if old = e then v else old
  | 9 => v
  | _ => old

/-- A hart that stalls at SV.WAITGE on a variable takes the first value that reaches its operand. -/
def Hart.sample (h : Hart) (n : Nat) (value : Word) : Hart :=
  match h.svAt with
  | some (m, v, none) => if m = n && v.toInt ≤ value.toInt then { h with svAt := some (n, v, some value) } else h
  | _ => h

/-- A variable has a new value: the harts that wait for one see it. -/
def sampleAll (s : State) (n : Nat) (value : Word) : State :=
  { s with h := s.h.sample n value, others := s.others.map fun h => h.sample n value }

/-- Perform an operation on a variable: what rd receives, and the state. -/
def svPerform (s : State) (n op : Nat) (v e : Word) : Word × State :=
  let x := varAt s n
  let r := if op = 9 && x.err != 0 then 0x7FC00000#64 else x.value
  let new := svNew op x.value v e
  (r, sampleAll (putVar s n { x with value := new, err := if op = 9 then 0 else x.err }) n new)

/-- The checks of R290: the variable's number. -/
def svCheck (s : State) (v : Word) : Res Nat :=
  let n := v.toNat
  if 2 ^ 24 ≤ n then .error (.trap causeEngine v)
  else if varOwner s n != some (myWorld s) then .error (.trap causeCapability v)
  else if unsettled s 36 (8 + varDie n) then .error (.stall s)
  else if (varAt s n).retired then .error (.trap causeQuarantined v)
  else .ok n

/-- Earlier posted operations of the executing hart on a variable (R289). -/
def svWaiting (s : State) (n : Nat) : Bool := s.svPosts.any fun p => p.hart == s.h.loc && p.var == n && !p.drain

/-- SV.op but for WAITGE: posted when rd is x0 (R289). -/
def svBody (op : Nat) (rd rs1 rs2 : Reg) (s : State) : Res State := do
  let n ← svCheck s (rx s rs1)
  let v := rx s rs2
  let e := if rd = 0 then 0 else rx s rd
  if rd = 0 then
    let p : SvPost := { hart := s.h.loc, var := n, op := op, operand := v, expect := e, world := myWorld s, drain := false }
    .ok (enqueue { s with svPosts := s.svPosts ++ [p] } (.postedSvOperation 0))
  else if svWaiting s n then .error (.stall s)
  else
    let (r, t) := svPerform s n op v e
    .ok (wx t rd r)

/-- SV.ADD. -/
def execSvAdd (rd rs1 rs2 : Reg) (s : State) : Host.Outcome State Fault Refusal := seq s (svBody 0 rd rs1 rs2 s)
/-- SV.MIN. -/
def execSvMin (rd rs1 rs2 : Reg) (s : State) : Host.Outcome State Fault Refusal := seq s (svBody 1 rd rs1 rs2 s)
/-- SV.MAX. -/
def execSvMax (rd rs1 rs2 : Reg) (s : State) : Host.Outcome State Fault Refusal := seq s (svBody 2 rd rs1 rs2 s)
/-- SV.MINU. -/
def execSvMinu (rd rs1 rs2 : Reg) (s : State) : Host.Outcome State Fault Refusal := seq s (svBody 3 rd rs1 rs2 s)
/-- SV.MAXU. -/
def execSvMaxu (rd rs1 rs2 : Reg) (s : State) : Host.Outcome State Fault Refusal := seq s (svBody 4 rd rs1 rs2 s)
/-- SV.AND. -/
def execSvAnd (rd rs1 rs2 : Reg) (s : State) : Host.Outcome State Fault Refusal := seq s (svBody 5 rd rs1 rs2 s)
/-- SV.OR. -/
def execSvOr (rd rs1 rs2 : Reg) (s : State) : Host.Outcome State Fault Refusal := seq s (svBody 6 rd rs1 rs2 s)
/-- SV.XCHG. -/
def execSvXchg (rd rs1 rs2 : Reg) (s : State) : Host.Outcome State Fault Refusal := seq s (svBody 7 rd rs1 rs2 s)
/-- SV.CAS. -/
def execSvCas (rd rs1 rs2 : Reg) (s : State) : Host.Outcome State Fault Refusal := seq s (svBody 8 rd rs1 rs2 s)
/-- SV.MAXRST. -/
def execSvMaxrst (rd rs1 rs2 : Reg) (s : State) : Host.Outcome State Fault Refusal := seq s (svBody 9 rd rs1 rs2 s)

/-- The value that a stalled SV.WAITGE of these operands has seen. -/
def sampled (s : State) (a v : Word) : Option Word :=
  match s.h.svAt with
  | some (n, w, some r) => if a = word n && v = w then some r else none
  | _ => none

/-- What a member of a gang keeps of an SV.WAITGE that has its value, until every member has its own (R270, R288). -/
def leftVar (h : Hart) (n : Nat) (v r : Word) : Option (Nat × Word × Option Word) := if h.gang.isSome then some (n, v, some r) else none

/-- SV.WAITGE: it stalls whatever rd is, and returns the value at the first point of the variable's order at which it is high enough. Its own
place in the order comes after the hart's earlier posted operations on the variable. -/
def waitgeBody (rd rs1 rs2 : Reg) (s : State) : Res State :=
  let v := rx s rs2
  match sampled s (rx s rs1) v with
  | some r => .ok (wx (modH s fun h => { h with svAt := leftVar h (rx s rs1).toNat v r }) rd r)
  | none => do
    let n ← svCheck s (rx s rs1)
    let x := (varAt s n).value
    if svWaiting s n then .error (.point s)
    else if v.toInt ≤ x.toInt then .ok (wx (modH s fun h => { h with svAt := leftVar h n v x }) rd x)
    else .error (.point (modH s fun h => { h with svAt := some (n, v, none) }))
def execSvWaitge (rd rs1 rs2 : Reg) (s : State) : Host.Outcome State Fault Refusal := seq s (waitgeBody rd rs1 rs2 s)

/-- The posted operations that may be performed next: those of one hart on one variable go in its program order (R122). -/
def performable (s : State) : List SvPost :=
  s.svPosts.foldl (fun (acc : List SvPost) p => if acc.any fun q => q.hart == p.hart && q.var == p.var then acc else acc ++ [p]) []

/-- A posted operation is dropped: the engine counts it, but for one to a retired variable that its world still has (R292); a drain's is
always counted, and raises `err` where its variable still exists. -/
def dropPost (s : State) (p : SvPost) : State :=
  let x := varAt s p.var
  let s := if p.drain && (varOwner s p.var).isSome then putVar s p.var { x with err := min (x.err + 1) 255 } else s
  let d := varDie p.var
  if p.drain || varOwner s p.var != some p.world then { s with svDrops := tput s.svDrops d (tgetD s.svDrops d 0 + 1) } else s

/-- POSTED_SV_OPERATION: the posted operation at a place among those that may be performed. -/
def execPostedSvOperation (k : Nat) (s : State) : Host.Outcome State Fault Refusal :=
  match (performable s)[k]? with
  | some p =>
    let t := { s with svPosts := s.svPosts.erase p }
    happen (if (varAt t p.var).retired || varOwner t p.var != some p.world then dropPost t p
      else (svPerform t p.var p.op p.operand p.expect).2)
  | none => if s.svPosts.isEmpty then happen s else block s (.postedSvOperation 0)

/-- VARIABLE_ECC: the variable is retired until cold reset (R292). -/
def execVariableEcc (n : Nat) (s : State) : Host.Outcome State Fault Refusal :=
  happen (if n < 2 ^ 24 then putVar s n { varAt s n with retired := true } else s)

/-- A variable zeroed, as assignment and teardown leave it; a retired one stays retired. -/
def zeroVars (s : State) (first n : Nat) : State :=
  let zero (v : Nat × Var) : Nat × Var := if first ≤ v.1 && v.1 < first + n then (v.1, { Var.start with retired := v.2.retired }) else v
  { s with vars := (s.vars.map zero).filter fun v => v.2 != Var.start }

/-- VARIABLE_ASSIGN: ranges of 256 variables from number `first` up go to a context's world, zeroed (R287). -/
def execVariableAssign (ctx : Fin 64) (first count : Nat) (s : State) : Host.Outcome State Fault Refusal :=
  whenRuns s.larch s (.variableAssign ctx first count) <| match ctxOf s ctx.val with
  | some c =>
    if first % 256 != 0 || 2 ^ 24 < first + 256 * count then happen s
    else
      let s := zeroVars s first (256 * count)
      happen { s with varWorld := (rangeFrom (first / 256) count).foldl (fun t r => tput t r c.world) s.varWorld }
  | none => happen s

end Sys2Proof.Machine
end

