-- ==== Sys2Proof/Machine/Send.lean ====
section
/-! DEFINITION. Sending and receiving rights: BSEND, BGATE and BRECV (R94 to R100, R105), byte copies and arrivals (R97, R101), and
the sender's side of a move between devices (R103, R367). -/

namespace Sys2Proof.Machine

/-! Destinations (R94, R321) -/

/-- A destination that a send can reach. -/
inductive Dest where
  | hart (h : Hart)
  | queue (n : Nat) (q : Queue)
  | agent (a ctx : Nat)
  /-- A device reached over a port. -/
  | far (device port : Nat)
  deriving DecidableEq, Repr

/-- Whether a context admits a compartment of a world (R321). -/
def admits (s : State) (ctx world comp : Nat) : Bool :=
  match ctxOf s ctx with
  | some k => k.world == world && k.cceil.getLsbD comp
  | none => false

/-- The reachable destination that a value names for a buffer of a world and compartment; none is BADDEST (R96, R299, R321, R358). -/
def findDest (s : State) (world comp : Nat) (d : Word) : Option Dest :=
  let n := fld d 0 32
  if fld d 32 20 != 0 then none
  else if fld d 56 8 != s.device then
    let port := routePort s (fld d 56 8)
    if (fld d 52 4 == 0 || fld d 52 4 == 1 || fld d 52 4 == 3) && (portAt s port).carries then some (.far (fld d 56 8) port) else none
  else match fld d 52 4 with
    | 0 => match findHart s n with
      | some h => if admits s h.ctx world comp then some (.hart h) else none
      | none => none
    | 1 => match (if 65536 ≤ n then none else queueAt s n) with
      | some q => if q.world = world && q.qkind != 2 then some (.queue n q) else none
      | none => none
    | 3 => match (if 16 ≤ n then none else tget s.agents n) with
      | some g => match g.ctx with
        | some x => if worldOf s x = world then some (.agent n x) else none
        | none => none
      | none => none
    | _ => none

/-- Scope of a send (R25): the sender is a hart, or a host agent. -/
def sendScope (s : State) (sender : Option Hart) : Dest → Nat
  | .far dev _ => routeScope s dev
  | .agent _ _ => 5
  | .hart h => match sender with | some g => scopeHarts g h | none => 5
  | .queue n _ => match sender with | some g => scopeTileDie g.place (queueDie n) | none => 5

/-! Rights or bytes (R97) -/

/-- The stores that a byte copy tries, in order; none when only rights move. `mode` 0 plain, 1 `.LOCAL`, 2 `.REF`. -/
def copyStores (c : Cap) (kind : HKind) (mode : Nat) : Dest → Option (List Level)
  | .hart h =>
    let all : List Level := if h.tile.isSome then [.tile, .cluster, .device] else [.cluster, .device]
    if kind != .whole then none
    else match c.level with
      | .tile =>
        if (c.base - 0x010000000000) / 0x01000000 != clusterOf h.place then some all else if mode = 1 then some all else none
      | .cluster =>
        if mode = 1 then some all
        else if (c.base - 0x011000000000) / 0x01000000 / 16 != dieOf h.place then some [.cluster, .device] else none
      | .device | .host | .pool | .remote => if mode = 1 then some all else none
  | .queue _ _ | .agent _ _ | .far _ _ => none

/-- Storage for a copy near a receiver: the first level with room, with its base. -/
def copyRoom (s : State) (c : Cap) (h : Hart) : List Level → Option (Nat × Level)
  | [] => none
  | l :: r =>
    let b : NewBuf :=
      { level := l, layout := c.layout, comp := c.comp, lparam := c.lparam, zero := false, length := c.length, ctx := h.ctx }
    match storage s h.place h.run b with
    | some a => some (a, l)
    | none => copyRoom s c h r

/-! Room at the destination (R96, R101) -/

/-- Whether a hart holds the pending-whole holding of an entry. -/
def holdsPending (h : Hart) (i : Nat) (gen : BitVec 16) : Bool := h.holdings.any fun g => g.kind == .whole && g.of i gen

/-- Whether an arrival slot can be reserved. Units that go home to a window's owner take none (R96). -/
def destRoom (s : State) (kind : HKind) (i : Nat) (gen : BitVec 16) : Dest → Bool
  | .hart h => (kind == .deposit && holdsPending h i gen) || promised s h.loc < portFree h
  | .queue n q => queueRoomy s n q
  | .agent _ _ | .far _ _ => true

/-! Local sends -/

/-- Who sends: a set of holdings, and a hart or a host agent. Moves name an agent `a` as 2^40 + a. -/
structure Sender where
  id : Nat
  hart : Option Hart
  holdings : List Holding
  pins : Nat
  deriving DecidableEq, Repr

/-- What a send came to. -/
inductive Sent where
  /-- A status: nothing has changed. -/
  | status (w : Word)
  /-- The rights have gone; the sender's holdings are these. -/
  | gone (s : State) (l : List Holding)
  /-- A move has been requested of another device; the sender waits for its answer. -/
  | asked (s : State) (l : List Holding)
  deriving DecidableEq, Repr

/-- The handle and state that a send needs (R80, R95). -/
def sendable (s : State) (w : Sender) (hv : Word) : Res (Holding × Cap) := do
  let (g, c) ← checkIn s w.holdings hv
  match g.kind with
  | .whole => do
    let _ ← ownedIn s w.holdings hv
    .ok (g, c)
  | .share =>
    if c.state != .shared then .error (.trap causeCapability hv)
    else do
      unpinned s g (hUnits hv) w.pins
      .ok (g, c)
  | .deposit => if c.state != .collecting || g.void || c.closing then .error (.trap causeCapability hv) else .ok (g, c)
  | .notice => .error (.trap causeCapability hv)

/-- The sender's holdings without what it sends. -/
def withoutSent (w : Sender) (g : Holding) (n : Nat) : List Holding :=
  match g.kind with
  | .whole | .notice => removeHolding w.holdings g.index g.kind
  | .share | .deposit => takeUnits w.holdings g n

/-- Owner kind and number that a destination gives a whole buffer (R78, R97). -/
def destOwner : Dest → OKind × Nat
  | .hart h => (.hart, h.loc)
  | .queue n _ => (.queue, n)
  | .agent a _ => (.hostAgent, a)
  | .far _ p => (.link, p)

/-- Send rights within the device (R96, R97): the arrival is on its way. -/
def sendNear (s : State) (w : Sender) (g : Holding) (c : Cap) (hv dest tag : Word) (copy : Option (Nat × Level × Nat)) (dst : Dest) : Sent :=
  let i := g.index
  let units := match g.kind with | .share | .deposit => hUnits hv | .whole | .notice => 0
  let a : Arrival :=
    { device := s.device, index := i, gen := g.gen, kind := g.kind, units := units, void := false, scope := sendScope s w.hart dst,
      tag := BitVec.ofNat 60 tag.toNat }
  let (ok, owner) := destOwner dst
  let s := if g.kind == .whole then
      closePass (updCap s i fun c => { c with
        state := if copy.isSome then .moving else .owned
        okind := ok
        owner := owner
        drain := none }) i c.comp
    else s
  let s := { s with sends := s.sends ++ [Send.mk w.id dest a copy copy.isNone] }
  let s := if copy.isSome then enqueue s (.byteCopyCommit i true) else s
  .gone (enqueue s (.arrivalWrite 0)) (withoutSent w g units)

/-! Sends to another device (R103) -/

/-- The lowest free export range of the export space: 64 KiB granules of 2^47 bytes (R367). -/
def exportRange (s : State) (len : Nat) : Option Nat :=
  let used := s.exports.map fun e => (e.base, e.base + e.len)
  let need := alignUp len 65536
  ((0 :: used.map (·.2)).filter fun a => a + need ≤ 2 ^ 47 && clear used a (a + need)).foldl
    (fun best a => match best with | some b => if a < b then some a else best | none => some a) none

/-- Write a move and its record in the move log (R370). -/
def putMove (s : State) (id : Nat) (m : Move) : State := { s with moves := tput s.moves id m, moveLog := tput s.moveLog id m }

/-- The sender has been told the answer of its move. -/
def tellMove (s : State) (m : Nat × Move) : State :=
  { s with moves := if m.2.closed then terase s.moves m.1 else tput s.moves m.1 { m.2 with told := true } }

/-- Ask another device to take rights: the entry is MOVING, or the units are set apart, and the request goes out (R103, step 1). A
remote reference gets its export range first (R367); rights that go home to the device that stores the buffer need none. -/
def sendFar (s : State) (w : Sender) (g : Holding) (c : Cap) (hv dest tag : Word) (mode dev port : Nat) : Sent :=
  let i := g.index
  let units := match g.kind with | .share | .deposit => hUnits hv | .whole | .notice => 0
  let ref : Bool := g.kind != .whole || mode == 2
  let home : Bool := c.level == .remote && storingDevice c == dev
  let n := if g.kind == .whole then 1 else units
  let old := s.exports.find? fun e => e.index == i && e.gen == g.gen && e.device == dev
  let range := if !ref || home then some 0 else match old with | some e => some e.base | none => exportRange s c.length
  match range with
  | none => .status (status 3 5)
  | some base =>
    let s := if !ref || home then s
      else if old.isSome then
        { s with exports := s.exports.map fun e =>
            if e.index == i && e.gen == g.gen && e.device == dev then { e with units := e.units + n } else e }
      else { s with exports := s.exports ++ [Export.mk base (alignUp c.length 65536) i g.gen dev c.world n] }
    let id := s.audit
    let m : Move :=
      { sending := true, port := port, peer := dev, audit := id, index := i, gen := g.gen, kind := g.kind, units := units, ref := ref,
        void := false, sender := w.id, dest := dest, tag := BitVec.ofNat 60 tag.toNat, scope := routeScope s dev, steps := 1, got := 0,
        exportBase := if ref && !home then some base else none, gate := none, indoubt := false, answer := none, told := false, closed := false,
        length := c.length }
    let s := putMove { s with audit := id + 1 } id m
    let s := updCap s i fun c => { c with
      state := if g.kind == .whole then .moving else c.state
      audit := id
      drain := if g.kind == .whole then none else c.drain
      ports := if g.kind == .deposit && !c.ports.contains port then c.ports ++ [port] else c.ports }
    let s := if g.kind == .whole then closePass s i c.comp else s
    let l := match g.kind with
      | .whole | .notice => putHolding w.holdings { g with susp := 1 }
      | .share | .deposit => putHolding w.holdings { g with units := g.units - units, susp := g.susp + units }
    .asked (sendOut s (some c.world) (.move port 1 id hv dest)) l

/-- BSEND after the handle's checks (R96, R97). `comp` is the compartment that the destination must admit. -/
def sendChecked (s : State) (w : Sender) (g : Holding) (c : Cap) (hv dest tag : Word) (mode comp : Nat) : Sent :=
  match findDest s c.world comp dest with
  | none => .status (status 7 0)
  | some (.far dev port) => sendFar s w g c hv dest tag mode dev port
  | some dst =>
    let room : Option (Option (Nat × Level × Nat)) := match copyStores c g.kind mode dst, dst with
      | some l, .hart h => (copyRoom s c h l).map fun r => some (r.1, r.2, h.ctx)
      | _, _ => some none
    match room with
    | none => .status (status 3 Level.device.code)
    | some copy =>
      if destRoom s g.kind g.index g.gen dst then sendNear s w g c hv dest tag copy dst else .status (status 5 0)

/-- The executing hart as a sender. -/
def hartSender (s : State) (hv : Word) : Sender :=
  { id := s.h.loc, hart := some s.h, holdings := s.h.holdings, pins := myPins s (hIndex hv) }

/-- A hart's move whose answer BSEND still has to write. -/
def ownMove (s : State) (id : Nat) : Option (Nat × Move) := s.moves.find? fun m => m.2.sending && m.2.sender == id && !m.2.told

/-- Write the answer of a move, if it has come. -/
def collectMove (s : State) (rd : Reg) (m : Nat × Move) : Res State :=
  match m.2.answer with
  | none => .error (.stall s)
  | some v => .ok (wx (tellMove s m) rd v)

/-- Before DEPOSIT units leave, the sender's elements for the window are sent and performed (R95, R115). -/
def settleDeposits (s : State) (g : Holding) : Res State :=
  if g.kind == .deposit then
    let s := flushWindow s s.h g.index g.gen
    if unperformed s s.h.loc g.index g.gen then .error (.stall s) else .ok s
  else .ok s

/-- The executing hart's rights go, all that it had to wait for being done (R96). -/
def sendNow (s : State) (rd : Reg) (hv dest tag : Word) (mode comp : Nat) (g : Holding) (c : Cap) : Res State :=
  match sendChecked s (hartSender s hv) g c hv dest tag mode comp with
  | .status v => .ok (wx s rd v)
  | .gone t l => .ok (wx (modH (dropResv t c) fun h => { h with holdings := l, sdOut := h.sdOut + 1 }) rd stOk)
  | .asked t l => .error (.stall (modHoldings (dropResv t c) fun _ => l))

/-- The executing hart sends (R96). -/
def hartSend (s : State) (rd : Reg) (hv dest tag : Word) (mode comp : Nat) (g : Holding) (c : Cap) : Res State := do
  let s ← settleDeposits s g
  if 255 ≤ s.h.sdOut then .error (.stall s)
  else match sendChecked s (hartSender s hv) g c hv dest tag mode comp with
    | .status v => .ok (wx s rd v)
    | .gone _ _ | .asked _ _ => do
      let s ← release s g.index
      sendNow s rd hv dest tag mode comp g c

/-- BSEND in a mode. -/
def bsendBody (mode : Nat) (rd rs1 rs2 rs3 : Reg) (s : State) : Res State :=
  match ownMove s s.h.loc with
  | some m => collectMove s rd m
  | none => do
    let hv := rx s rs1
    let (g, c) ← sendable s (hartSender s hv) hv
    hartSend s rd hv (rx s rs2) (rx s rs3) mode c.comp g c
def execBsend (rd rs1 rs2 rs3 : Reg) (s : State) : Host.Outcome State Fault Refusal := seq s (bsendBody 0 rd rs1 rs2 rs3 s)
/-- BSEND.LOCAL. -/
def execBsendLocal (rd rs1 rs2 rs3 : Reg) (s : State) : Host.Outcome State Fault Refusal := seq s (bsendBody 1 rd rs1 rs2 rs3 s)
/-- BSEND.REF. -/
def execBsendRef (rd rs1 rs2 rs3 : Reg) (s : State) : Host.Outcome State Fault Refusal := seq s (bsendBody 2 rd rs1 rs2 rs3 s)

/-! Gates (R105, R323) -/

/-- The doublewords of an installed gate. -/
def gateAt (s : State) (v : Word) : Option (List Word) :=
  match (if v.toNat < 1024 then tget s.gates v.toNat else none) with
  | some g => if bitAt (dw g 0) 18 then some g else none
  | none => none

/-- The first gate check that fails (R105). -/
def gateFails (g : Option (List Word)) (c : Cap) : Option Nat :=
  match g with
  | none => some 1
  | some g =>
    if fld (dw g 0) 0 3 != c.comp || fld (dw g 0) 6 6 != c.world then some 2
    else if !bitAt (dw g 0) (12 + c.level.code) then some 3
    else if c.length > fld (dw g 1) 0 41 then some 4
    else none

/-- The move that BGATE has begun keeps the compartment that the buffer came from. -/
def gateMove (s : State) (comp : Nat) : State :=
  match ownMove s s.h.loc with
  | some m => { s with moves := tput s.moves m.1 { m.2 with gate := some comp } }
  | none => s

/-- BGATE: the checks of the gate, then the compartment, its pass, and a plain BSEND to the gate's destination, here or on another device. A
delivery that a status refuses leaves the buffer unchanged. It waits for SD, and for a pass that still runs, before it changes anything. -/
def bgateBody (rd rs1 rs2 : Reg) (s : State) : Res State :=
  match ownMove s s.h.loc with
  | some m => collectMove s rd m
  | none => do
    let hv := rx s rs1
    let c ← needOwned s hv
    let (g, _) ← checkHandle s hv false
    if c.pass.isSome || 255 ≤ s.h.sdOut then .error (.stall s)
    let gate := gateAt s (rx s rs2)
    match gateFails gate c with
    | some n => .ok (wx s rd (status 8 n))
    | none =>
      let d := gate.getD []
      let comp := fld (dw d 0) 3 3
      match sendChecked s (hartSender s hv) g c hv (dw d 2) (rx s rs2) 0 comp with
      | .status v => .ok (wx s rd v)
      | .gone _ _ | .asked _ _ => do
        let t ← release s g.index
        let t := retag (closePass (updCap t g.index fun c => { c with comp := comp }) g.index c.comp) g.index comp
        match sendNow t rd hv (dw d 2) (rx s rs2) 0 comp g { c with comp := comp } with
        | .error (.stall u) => .error (.stall (gateMove u c.comp))
        | r => r
def execBgate (rd rs1 rs2 : Reg) (s : State) : Host.Outcome State Fault Refusal := seq s (bgateBody rd rs1 rs2 s)

/-! Arrivals -/

/-- Whether the destination of a send takes its arrival now: a queue does while it is mapped and its unit is not held in reset (R297, R299,
R303). -/
def destTakes (s : State) (d : Send) : Bool :=
  if fld d.dest 52 4 = 1 then
    match queueAt s (fld d.dest 0 32) with
    | some q => q.mapped && !queueWaits s (fld d.dest 0 32)
    | none => true
  else true

/-- The sends whose arrival may be written now: committed, and the first of its sender to its destination (R98). -/
def readySends (s : State) : List Send :=
  let firsts := s.sends.foldl (fun (acc : List Send) d =>
    if acc.any fun e => e.sender == d.sender && e.dest == d.dest then acc else acc ++ [d]) []
  firsts.filter fun d => d.ready && destTakes s d

/-- SD of a sender falls (R130). -/
def lowerSd (s : State) (id : Nat) : State := updHart s id fun h => { h with sdOut := h.sdOut - 1 }

/-- Write an arrival at a destination of this device. Units that go home to a window's owner return to `outst` (R96); an arrival for a
party that is no more is reclaimed (R315). -/
def arrive (s : State) (dest : Word) (a : Arrival) : State :=
  let n := fld dest 0 32
  match fld dest 52 4 with
  | 0 =>
    match findHart s n with
    | some h =>
      if a.kind == .deposit && holdsPending h a.index a.gen then (if a.void then s else returnUnits s a.index a.units)
      else postArrival s n a
    | none => reclaimArrival s a
  | 1 =>
    match queueAt s n with
    | some _ => putElem s n { pos := 0, payload := 0, key := BitVec.ofNat 32 a.tag.toNat, cap := some a }
    | none => reclaimArrival s a
  | _ => agentArrival s n a

/-- The queues to which a committed send waits gain work (R295). -/
def sendsWork (s : State) : State :=
  s.sends.foldl (fun s d => if d.ready && fld d.dest 52 4 = 1 then queueWork s (fld d.dest 0 32) else s) s

/-- ARRIVAL_WRITE: the arrival of the send at a place among those that may be written. -/
def execArrivalWrite (k : Nat) (s : State) : Host.Outcome State Fault Refusal :=
  match (readySends s)[k]? with
  | some d =>
    let s := sendsWork { s with sends := s.sends.erase d }
    happen (lowerSd (arrive s d.dest d.arrival) d.sender)
  | none =>
    if s.sends.isEmpty then happen s
    else block (sendsWork s) (.arrivalWrite k)

/-- The byte copy of an entry that has still to be written. -/
def copyOf (s : State) (i : Nat) : Option (Nat × Send) := findIdx (fun d => d.arrival.index == i && d.copy.isSome && !d.ready) s.sends 0

/-- A byte copy that fails: the buffer is QUARANTINED, and the receiver gets a NOTICE of type 2 in place of the arrival (R100, R108). Its scope is
that between the copy path, at the sender's location, and the receiver: the send's, but CLUSTER where that names a hart or a gang, of which
the copy path is none (R25). -/
def failCopy (s : State) (n : Nat) (d : Send) : State :=
  let a := d.arrival
  let s := quarantine { s with sends := removeAt s.sends n } a.index
  postNotice (lowerSd s d.sender)
    { dest := fld d.dest 0 32, ntype := 2, detail := noticeOf a.index a.gen, scope := max 2 a.scope }

/-- The partition of a sender's context, under which the copy path reads REMOTE lines (R161). -/
def senderPid (s : State) (id : Nat) : Nat :=
  match agentNo id, findHart s id with
  | some a, _ => (((agentAt s a).ctx.bind (ctxOf s)).map (·.pid)).getD 0
  | none, some h => hartPid s h
  | none, none => 0

/-- BYTE_COPY_COMMIT: the bytes are written to the new storage, the old is freed, and the arrival may be written (R97). Bytes that a link or a host
keeps away fail the copy (R356, R364). -/
def execByteCopyCommit (i : Nat) (ok : Bool) (s : State) : Host.Outcome State Fault Refusal :=
  match copyOf s i, capAt s i with
  | some (n, d), some c =>
    let q := senderPid s d.sender
    if !ok then happen (failCopy s n d)
    else match reachBuf s c with
      | .error (.trapAt t _ _) => happen (failCopy t n d)
      | .error _ => happen (failCopy s n d)
      | .ok s => match d.copy, bufBytes s i c q with
        | some (base, l, ctx), some bytes =>
          let s' := { s with sends := setAt s.sends n { d with ready := true } }
          match relocate (noteBuf s' i c q) i base l ctx bytes with
          | (t, true) => happen (updCap t i fun c => { c with state := if c.state == .moving then .owned else c.state })
          | (u, false) => block (carryRolls s u) (.byteCopyCommit i ok)
        | _, _ => happen (failCopy s n d)
  | _, _ => happen s

/-! Receiving (R99, R100) -/

/-- The value of `rcvtag` for an arrival (R100). -/
def rcvtagOf (a : Arrival) : Word := word (a.scope % 16 * 2 ^ 60 + a.tag.toNat)

/-- Drop from the front of the executing hart's port the arrivals that a receive discards; `fuel` bounds their number. -/
def skipDiscards : Nat → State → State
  | 0, s => s
  | fuel + 1, s =>
    match portTake s.h with
    | some (a, h) => if discarded s s.h.holdings a then skipDiscards fuel { s with h := h } else s
    | none => s

/-- The most arrivals that a receive can meet. -/
def portFuel (h : Hart) : Nat := h.port.length + h.ring.length + 1

/-- Receive the oldest arrival of the executing hart's port; none when it is empty. -/
def receive (s : State) (rd : Reg) : Option State :=
  match portTake s.h with
  | none => none
  | some (a, h) =>
    if holdingFull s.h a.index a.kind then some (wx s rd (status 4 1))
    else
      let s := { s with h := { h with holdings := install h.holdings a, csr := { h.csr with rcvtag := rcvtagOf a } } }
      let s := mark (if a.kind == .notice then s else acquire s a.index) 13
      some (wx s rd a.handle)

/-- BRECV: stalls while the port is empty. -/
def brecvBody (rd : Reg) (s : State) : Res State :=
  let s := skipDiscards (portFuel s.h) s
  match receive s rd with
  | some t => .ok t
  | none => .error (.point s)
def execBrecv (rd : Reg) (s : State) : Host.Outcome State Fault Refusal := seq s (brecvBody rd s)

/-- BRECV.NB: EMPTY while the port is empty. -/
def brecvNbBody (rd : Reg) (s : State) : Res State :=
  let s := skipDiscards (portFuel s.h) s
  match receive s rd with
  | some t => .ok t
  | none => .ok (wx s rd stEmpty)
def execBrecvNb (rd : Reg) (s : State) : Host.Outcome State Fault Refusal := seq s (brecvNbBody rd s)

end Sys2Proof.Machine
end

