-- ==== Sys2Proof/Machine/Queue.lean ====
section
/-! DEFINITION. Queues (R293 to R303): pushes and pops, the rotation of slots, assignment and errors. -/

namespace Sys2Proof.Machine

/-! Slots (R295, R296) -/

/-- A queue with work (R295): it holds an element, or an operation on it waits in the queue unit: of a hart, of a send, or of a fire. -/
def queueBusy (s : State) (n : Nat) (q : Queue) : Bool :=
  q.count != 0 || !q.waits.isEmpty || !q.poppers.isEmpty || !q.pushers.isEmpty ||
    (s.sends.any fun d => d.ready && fld d.dest 52 4 == 1 && fld d.dest 0 32 == n) ||
    s.clusters.any fun c => c.2.aspen.fires.any fun f =>
      let p := profAt c.2.aspen f.prof
      p.act == 2 && fld p.arg 0 32 == n

/-- The numbers of a list with a key, in rising order of the key; equal keys keep their order. -/
def byKey (l : List (Nat × Nat)) : List Nat :=
  (l.foldl (fun (acc : List (Nat × Nat)) x => (acc.takeWhile fun y => y.1 ≤ x.1) ++ x :: (acc.dropWhile fun y => y.1 ≤ x.1)) []).map (·.2)

/-- One step of a die's rotation: mapped queues give up as many slots as the waiting ones lack, those without work first and then those
that have held theirs longest; the waiting ones are mapped in the order in which they gained work. -/
def rotateDie (s : State) (d : Nat) : State :=
  let mine := s.queues.filter fun q => queueDie q.1 == d
  let waiting := byKey (mine.filterMap fun q => if q.2.mapped then none else q.2.since.map fun t => (t, q.1))
  let mapped := mine.filter fun q => q.2.mapped
  let lacking := min waiting.length 256 - (256 - mapped.length)
  let idle := (mapped.filter fun q => !queueBusy s q.1 q.2).map (·.1)
  let old := byKey ((mapped.filter fun q => queueBusy s q.1 q.2).map fun q => (2 ^ 64 - 1 - q.2.age, q.1))
  let out := (idle ++ old).take lacking
  let s := out.foldl (fun s n =>
    let s := updQueue s n fun q => { q with mapped := false, age := 0, since := none }
    match queueAt s n with
    | some q => if queueBusy s n q then queueWork s n else s
    | none => s) s
  let older (q : Nat × Queue) : Nat × Queue := if queueDie q.1 == d && q.2.mapped then (q.1, { q.2 with age := q.2.age + 1 }) else q
  let s := { s with queues := s.queues.map older }
  (waiting.take (256 - (mapped.length - out.length))).foldl (fun s n =>
    updQueue s n fun q => { q with mapped := true, age := 0, since := none }) s

/-- SLOT_ROTATION: one step on every die, once in 4,096 cycles (R296); while queues wait, another is due. -/
def execSlotRotation (s : State) : Host.Outcome State Fault Refusal :=
  if s.cycle / 4096 ≤ s.rotations then block s .slotRotation
  else
  let s := (rangeFrom 0 4).foldl rotateDie { s with rotations := s.cycle / 4096 }
  happen (if (s.queues.any fun q => !q.2.mapped && q.2.since.isSome) && !s.pending.contains .slotRotation then enqueue s .slotRotation else s)

/-! Checks (R300, R301) -/

/-- The queue that an operand names, for the executing hart's world. -/
def ownQueue (s : State) (v : Word) : Res (Nat × Queue) :=
  match (if badQueue v then none else queueAt s v.toNat) with
  | none => .error (.trap causeEngine v)
  | some q => if q.world != myWorld s then .error (.trap causeCapability v) else .ok (v.toNat, q)

/-- An operation of a party waits until its queue is mapped, and for the queue unit of its die (R297, R303, R377). Parties are harts by
hartloc, and host agents. -/
def waitAs (party : Nat) (s : State) (n : Nat) (q : Queue) : Res Unit :=
  if !queueWaits s n && q.mapped then .ok ()
  else
    let t := updQueue s n fun q => { q with waits := if q.waits.contains party then q.waits else q.waits ++ [party] }
    .error (.point (queueWork t n))

/-- The operation goes on: it no longer waits for the mapping. -/
def goOnAs (party : Nat) (s : State) (n : Nat) : State := updQueue s n fun q => { q with waits := q.waits.filter (· != party) }

/-- The same for the executing hart. -/
def waitMapped (s : State) (n : Nat) (q : Queue) : Res Unit := waitAs s.h.loc s n q
def goOn (s : State) (n : Nat) : State := goOnAs s.h.loc s n

/-! QPUSH (R300) -/

/-- The element of a QPUSH. -/
def pushElem (payload key : Word) : QElem := { pos := 0, payload := payload, key := BitVec.ofNat 32 key.toNat, cap := none }

/-- Both forms: `sleeps` for `.W`. Those that sleep from before are served first (R298). -/
def qpushBody (sleeps : Bool) (rd rs1 rs2 rs3 : Reg) (s : State) : Res State := do
  let v := rx s rs1
  let (n, q) ← ownQueue s v
  if q.qkind = 2 && q.tmpl = 0 then .error (.trap causeEngine v)
  let loc := s.h.loc
  if q.granted.contains loc then .ok (wx (withdraw s loc) rd 0)
  else do
    waitMapped s n q
    let s := grantPush (goOn s n) n
    let q := (queueAt s n).getD q
    if q.granted.contains loc then .ok (wx (withdraw s loc) rd 0)
    else
      let e := pushElem (rx s rs2) (rx s rs3)
      let asleep := q.pushers.any fun p => p.1 == loc
      match (if asleep || (sleeps && !q.pushers.isEmpty) then none else pushWord s n q e) with
      | some t => .ok (wx (withdraw t loc) rd 0)
      | none =>
        if !sleeps then .ok (wx s rd 1)
        else if s.h.timedOut then .ok (wx (withdraw s loc) rd 2)
        else if asleep then .error (.point s)
        else
          let t := updQueue s n fun q => { q with pushers := q.pushers ++ [(loc, e)] }
          .error (.point (enqueue (modH t fun h => { h with sleepFrom := s.cycle }) .qpushWTimeout))
/-- QPUSH. -/
def execQpush (rd rs1 rs2 rs3 : Reg) (s : State) : Host.Outcome State Fault Refusal := seq s (qpushBody false rd rs1 rs2 rs3 s)
/-- QPUSH.W. -/
def execQpushW (rd rs1 rs2 rs3 : Reg) (s : State) : Host.Outcome State Fault Refusal := seq s (qpushBody true rd rs1 rs2 rs3 s)

/-- A hart that has slept for 65,536 cycles at QPUSH.W. -/
def sleptOut (s : State) (h : Hart) : Bool :=
  !h.timedOut && h.sleepFrom + 65536 ≤ s.cycle && s.queues.any fun q => q.2.pushers.any fun p => p.1 == h.loc

/-- QPUSH_W_TIMEOUT: for the executing hart if its period is over, else for the first hart whose period is. -/
def execQpushWTimeout (s : State) : Host.Outcome State Fault Refusal :=
  match (harts s).find? (sleptOut s) with
  | some h => happen (updHart s (if s.h.live && sleptOut s s.h then s.h.loc else h.loc) fun h => { h with timedOut := true })
  | none => if s.queues.any fun q => !q.2.pushers.isEmpty then block s .qpushWTimeout else happen s

/-! QPOP (R301) -/

/-- `qkey` (R302). -/
def setQkey (s : State) (v : Word) : State := mark (modC s fun c => { c with qkey := v }) 13

/-- Take an element that the executing hart has come by: `back` restores it to its place. A capability is installed, with the scope
between the queue's die and the hart (R100). None when it carries rights that a receive discards. -/
def takeElem (s : State) (n : Nat) (rd : Reg) (e : QElem) (back : State) : Option State :=
  match e.cap with
  | none => some (setQkey (wx s rd e.payload) (word e.key.toNat))
  | some a =>
    if discarded s s.h.holdings a then none
    else if holdingFull s.h a.index a.kind then some (setQkey (wx back rd (status 4 1)) (word (2 ^ 61)))
    else
      let a := { a with scope := scopeTileDie (myTile s) (queueDie n) }
      let s := modH s fun h => { h with holdings := install h.holdings a, csr := { h.csr with rcvtag := rcvtagOf a } }
      let s := updCap s a.index fun c => if a.kind == .whole && c.gen == a.gen && c.okind == .queue then
        { c with okind := .hart, owner := s.h.loc } else c
      let s := acquire s a.index
      some (setQkey (wx s rd a.handle) (word (2 ^ 62 + e.key.toNat)))

/-- The reply to a pop of the executing hart that has taken effect (R298). Rights that have been revoked since are as revoked holdings: the handle is
written, and nothing is installed that a receive would discard. -/
def takeServed (s : State) (n : Nat) (rd : Reg) (given : Option QElem) : State :=
  match given with
  | none => setQkey (wx s rd (status 4 1)) (word (2 ^ 61))
  | some e =>
    match takeElem s n rd e (servePops (updQueue s n fun q => { q with elems := restoreElem q.elems e }) n), e.cap with
    | some t, _ => t
    | none, some a => setQkey (wx s rd a.handle) (word (2 ^ 62 + e.key.toNat))
    | none, none => s

/-- Pop while elements are there; discarded ones go on the way. `fuel` bounds their number. -/
def popLoop (n : Nat) (rd : Reg) : Nat → State → Option State
  | 0, _ => none
  | fuel + 1, s =>
    match queueAt s n with
    | none => none
    | some q =>
      match chooseElem s q with
      | (none, _) => none
      | (some (k, e), t) =>
        let back := updQueue t n fun q => { q with poppers := q.poppers.filter (· != s.h.loc) }
        let u := updQueue back n fun q => { q with elems := removeAt q.elems k }
        match takeElem u n rd e back with
        | some v => some (servePops (grantPush v n) n)
        | none => popLoop n rd fuel (grantPush u n)

/-- Both forms: `nb` for `.NB`. -/
def qpopBody (nb : Bool) (rd rs1 : Reg) (s : State) : Res State := do
  let v := rx s rs1
  let (n, q) ← ownQueue s v
  if q.qkind = 2 then .error (.trap causeEngine v)
  let loc := s.h.loc
  match q.served.find? fun e => e.1 == loc with
  | some (_, given) => .ok (takeServed (goOn (dropServed s loc) n) n rd given)
  | none => do
    waitMapped s n q
    let s := goOn s n
    let q := (queueAt s n).getD q
    let first := q.poppers.isEmpty || q.poppers.head? == some loc
    match (if first then popLoop n rd (q.elems.length + q.pushers.length + 1) s else none) with
    | some t => .ok t
    | none =>
      if nb then .ok (setQkey (wx s rd 0) (word (2 ^ 63)))
      else if q.poppers.contains loc then .error (.point s)
      else .error (.point (updQueue s n fun q => { q with poppers := q.poppers ++ [loc] }))
/-- QPOP. -/
def execQpop (rd rs1 : Reg) (s : State) : Host.Outcome State Fault Refusal := seq s (qpopBody false rd rs1 s)
/-- QPOP.NB. -/
def execQpopNb (rd rs1 : Reg) (s : State) : Host.Outcome State Fault Refusal := seq s (qpopBody true rd rs1 s)

/-! Assignment and errors (R294, R303) -/

/-- Give back what the elements of a queue carry. -/
def reclaimElems (s : State) (l : List QElem) : State :=
  l.foldl (fun s e => match e.cap with | some a => reclaimArrival s a | none => s) s

/-- The two SHARE units that a queue holds for its template: of the descriptor and of the code (R294). -/
def tmplUnits (s : State) (q : Queue) : List Nat :=
  if q.qkind != 2 || q.tmpl = 0 then [] else hIndex q.tmpl :: match template s q with | some d => [hIndex (dw d 0)] | none => []

/-- A SHARED DEVICE buffer of a context. -/
def sharedDevice (s : State) (ctx : Nat) (hv : Word) : Bool :=
  match capAt s (hIndex hv) with
  | some c => c.state == .shared && c.level == .device && c.ctx == ctx && c.gen == hGen hv
  | none => false

/-- A template that can be installed: a descriptor and its code in SHARED DEVICE buffers of the context (R294). -/
def tmplOk (s : State) (ctx : Nat) (q : Queue) : Bool :=
  q.tmpl = 0 || (sharedDevice s ctx q.tmpl && match template s q with | some d => sharedDevice s ctx (dw d 0) | none => false)

/-- A queue as an assignment gives it. -/
def queueOf (r : QueueInit) (world : Nat) : Queue :=
  { qkind := r.qkind.val, win := if r.qkind = 1 then (if r.win = 0 then 8 else r.win) else 0, cap := r.cap, world := world, ctx := r.ctx.val,
    tmpl := if r.qkind = 2 then r.tmpl else 0, elems := [], pushes := 0, launches := [], mapped := false, age := 0, since := none,
    waits := [], poppers := [], served := [], pushers := [], granted := [] }

/-- QUEUE_ASSIGN: an assignment with fields that R294 admits, of a queue that holds no launch record and has no live kernel of its
template. It empties the queue. -/
def execQueueAssign (n : Nat) (r : QueueInit) (s : State) : Host.Outcome State Fault Refusal :=
  whenRuns s.larch s (.queueAssign n r) <| match ctxOf s r.ctx.val with
  | none => happen s
  | some c =>
    let q := queueOf r c.world
    let busy := s.kernels.any fun k => k.2.queue == n && (k.2.state == .queued || k.2.state == .placing || (k.2.launcher == .template n && k.2.running))
    if 65536 ≤ n || r.cap < 4 || 16 < r.cap || 64 < r.win || c.life != .installed || !tmplOk s r.ctx.val q then happen s
    else if busy then block s (.queueAssign n r)
    else
      let s := match queueAt s n with
        | some old => (tmplUnits s old).foldl (fun s i => returnUnits s i 1) (reclaimElems s (old.elems ++ old.served.filterMap (·.2)))
        | none => s
      let s := (tmplUnits s q).foldl (fun s i => updCap s i fun c => { c with total := c.total + 1, outst := c.outst + 1 }) s
      happen { s with queues := tput s.queues n q }

end Sys2Proof.Machine
end

