-- ==== Sys2Proof/Machine/Ending.lean ====
section
/-! DEFINITION. How logical harts and kernels end: KEXIT and what it reclaims (R315), the end of a kernel (R314, R316, R317), KJOIN, and
faults (R108, R274, R303, R336). -/

namespace Sys2Proof.Machine

/-! Reclaiming (R315) -/

/-- Kernels of a launcher that pin a code unit of an entry: the first `n` go on holding it themselves (R307). -/
def keepPinned (s : State) (by_ : Launcher) (i n : Nat) : State :=
  let ks := ((s.kernels.filter fun k => k.2.launcher == by_ && k.2.pinsCode && hIndex (dw k.2.desc 0) == i).map (·.1)).take n
  ks.foldl (fun s k => updKernel s k fun k => { k with codeHeld := true }) s

/-- A WHOLE holding ends: an OWNED buffer is freed, a SHARED one is orphaned, a window is closed as by FORCE and freed. -/
def reclaimWhole (s : State) (i : Nat) (c : Cap) : State × Nat :=
  match c.state with
  | .owned | .lent => (endBuffer s i, 1)
  | .shared => (if c.outst = 0 then endBuffer s i else updCap s i fun c => { c with orph := true }, 1)
  | .collecting =>
    let s := updCap s i fun c => { c with orph := true }
    (if c.drain.isSome then s else startDrain s i true, 1)
  | .free | .moving | .quarantined | .arriving => (s, 0)

/-- What one holding of an ending hart gives back, and the items counted. Rights of an older generation and void units are none. -/
def reclaimHolding (by_ : Launcher) (g : Holding) (s : State) : State × Nat :=
  match capAt s g.index with
  | none => (s, 0)
  | some c =>
    if c.gen != g.gen || c.state == .free || g.void then (s, 0)
    else match g.kind with
      | .whole => reclaimWhole s g.index c
      | .share =>
        let n := min (kernelPins s by_ g.index) g.units
        (giveBack (keepPinned s by_ g.index n) g.index (g.units - n), 1)
      | .deposit => if c.closing then (s, 0) else (giveBack s g.index g.units, 1)
      | .notice => (freeEntry s g.index, 1)

/-- An arrival that an ending hart has not received. -/
def reclaimPort (a : Arrival) (s : State) : State × Nat := if staleArrival s a then (s, 0) else (reclaimArrival s a, 1)

/-- Add up what a list gives back. -/
def reclaimList {α : Type} (f : α → State → State × Nat) (l : List α) (s : State) : State × Nat :=
  l.foldl (fun r x => let (s, n) := f x r.1; (s, r.2 + n)) (s, 0)

/-- Unbind every circular buffer of a hart (R188). -/
def unbindHart (s : State) (loc : Nat) : State :=
  match findHart s loc with
  | none => s
  | some h =>
    let used := uniq (((List.finRange 16).filter fun n => (cbAt h n).bound).map fun n => hIndex (cbAt h n).handle)
    let s := updHart s loc fun h => { h with cbs := Vector.replicate 16 Cb.unbound }
    used.foldl (fun s i => updCap s i fun c =>
      if c.state == .lent && c.lendcb then { c with state := .owned, lendcb := false, lends := 0 } else c) s

/-- All that a hart holds goes back (R315). -/
def reclaimHart (s : State) (loc : Nat) : State × Nat :=
  let s := unbindHart s loc
  match findHart s loc with
  | none => (s, 0)
  | some h =>
    let left := (h.holdings.filter fun g => g.kind == .whole && (capAt s g.index).any fun c => c.gen == g.gen && c.state == .collecting).map fun g =>
      (g.index, g.gen)
    let (s, a) := reclaimList (reclaimHolding (launcherOf s h)) h.holdings s
    let (s, b) := reclaimList reclaimPort (h.port ++ h.ring ++ servedCaps s loc) (dropServed s loc)
    (updKernel s (slotOf loc) fun k => { k with windows := k.windows ++ left }, a + b)

/-! Kernels (R314, R316, R317) -/

/-- A slot is free again (R305). -/
def freeSlot (s : State) (slot : Nat) : State :=
  { s with kernels := terase s.kernels slot, freeSlots := s.freeSlots ++ [slot] }

/-- A kernel all of whose unexited harts are pre-empted (R314). -/
def checkPreempted (s : State) (slot : Nat) : State :=
  let mine := (harts s).filter fun h => slotOf h.loc == slot
  match tget s.kernels slot with
  | some k =>
    if k.state == .running && dHarts k.desc ≤ k.placed && !mine.isEmpty && mine.all (·.tile.isNone) then
      updKernel s slot fun k => { k with state := .preempted }
    else s
  | none => s

/-- A hart of a kernel has ended: with the last one the kernel is EXITING, and with the last one on a tile PRE-EMPTED. -/
def checkEnd (s : State) (slot : Nat) : State :=
  match tget s.kernels slot with
  | some k =>
    if k.running && k.state != .exiting && dHarts k.desc ≤ k.ended then
      enqueue (updKernel s slot fun k => { k with state := .exiting }) (.kernelDone slot)
    else checkPreempted s slot
  | none => s

/-- The channels that a kernel has bound become UNBOUND, and its reservations end (R277). -/
def endChans (s : State) (slot : Nat) : State :=
  let ks := (s.chans.filter fun c => c.2.state != .unbound && c.2.slot == slot).map (·.1)
  updKernel (ks.foldl unbindChan s) slot fun k => { k with dieChans := [], devChans := [] }

/-- The report of R317. -/
def reportOf (k : Kernel) : Word :=
  word (min k.reclaimed (2 ^ 24 - 1) * 2 ^ 8 + if k.state == .faulted then 1 else if k.hartFaulted then 2 else 0)

/-- A send or a move of a kernel's harts that has not committed. -/
def kernelSends (s : State) (slot : Nat) : Bool :=
  let mine (id : Nat) : Bool := id < 2 ^ 40 && slotOf id == slot
  (s.sends.any fun d => mine d.sender) || s.moves.any fun m => m.2.sending && !m.2.closed && !m.2.indoubt && mine m.2.sender

/-- A window that a kernel's harts left behind is still draining, so that its reclaim is not done (R314, R315). -/
def reclaimBusy (s : State) (slot : Nat) : Bool :=
  (tget s.kernels slot).any fun k => k.windows.any fun w => (capAt s w.1).any fun c => c.gen == w.2 && c.orph && c.state == .collecting

/-- The launching logical hart, while it lives. -/
def launchHart (s : State) (k : Kernel) : Option Hart :=
  match k.launcher with
  | .hart loc g => if tgetD s.sgens (slotOf loc) 0 = g then findHart s loc else none
  | .agent _ | .template _ => none

/-- The argument units go back to the launcher (R316); none while its port is full. -/
def returnArgs (s : State) (slot : Nat) (k : Kernel) : Option State :=
  let i := hIndex k.arg
  let live := match capAt s i with | some c => c.gen == hGen k.arg && c.state != .free | none => false
  if k.argKind != 1 || !live then some s
  else
    let a : Arrival :=
      { device := s.device, index := i, gen := hGen k.arg, kind := .share, units := hUnits k.arg, void := false, scope := 5,
        tag := BitVec.ofNat 60 (ticketOf slot k.sgen).toNat }
    match k.launcher, launchHart s k with
    | .agent n, _ => some (agentArrival s n a)
    | _, some h => if portFree h ≤ promised s h.loc then none else some (postArrival s h.loc { a with scope := scopeTileDie h.place k.homeDie })
    | _, none => some (giveBack s i a.units)

/-- The code unit that the kernel itself has come to hold goes back. -/
def returnCode (s : State) (k : Kernel) : State :=
  let hv := dw k.desc 0
  match capAt s (hIndex hv) with
  | some c => if k.codeHeld && c.gen == hGen hv && c.state != .free then giveBack s (hIndex hv) 1 else s
  | none => s

/-- The children that an ended kernel has not joined: those that have ended free their slots, the others will. -/
def orphanChildren (s : State) (slot : Nat) (k : Kernel) : State :=
  let mine := (s.kernels.filter fun c => c.2.parent == some (slot, k.sgen)).map (·.1)
  mine.foldl (fun s c => match tget s.kernels c with
    | some n => if n.reported then freeSlot s c else updKernel s c fun n => { n with parent := none }
    | none => s) s

/-- The outcome is reported: to the agent that launched the kernel, and to a joining parent, for which the slot is kept. -/
def reportEnd (s : State) (slot : Nat) : State :=
  match tget s.kernels slot with
  | none => s
  | some k =>
    let s := match k.launcher with
      | .agent a => deliverAgent (updAgent s a fun g => { g with reports := g.reports ++ [(ticketOf slot k.sgen, reportOf k)] }) a
      | .hart _ _ | .template _ => s
    if k.parent.isNone then freeSlot s slot else updKernel s slot fun k => { k with reported := true }

/-- KERNEL_DONE: an EXITING kernel whose sends have committed, or a FAULTED one, returns its units and is reported. -/
def execKernelDone (slot : Nat) (s : State) : Host.Outcome State Fault Refusal :=
  match tget s.kernels slot with
  | none => happen s
  | some k =>
    if (k.state != .exiting && k.state != .faulted) || k.reported then happen s
    else if kernelSends s slot || reclaimBusy s slot then block s (.kernelDone slot)
    else match returnArgs s slot k with
      | none => block s (.kernelDone slot)
      | some s =>
        let s := endChans (returnCode s k) slot
        let s := updKernel s slot fun k => { k with state := if k.state == .exiting then .done else k.state, codeHeld := false }
        happen (reportEnd (orphanChildren s slot k) slot)

/-! KEXIT -/

/-- A hart ends: it leaves its groups, what it holds goes back, and its tile is idle. -/
def endHart (s : State) (loc : Nat) (count : Bool) : State :=
  match findHart s loc with
  | none => s
  | some h =>
    let s := leaveAll (withdraw s loc) h
    let (s, n) := reclaimHart s loc
    let s := dropHart s loc
    updKernel s (slotOf loc) fun k => { k with ended := k.ended + 1, reclaimed := k.reclaimed + if count then n else 0 }

/-- KEXIT (R315). -/
def kexitBody (s : State) : Res State :=
  let h := s.h
  let s := if bitAt h.csr.mprog 63 then abandonMma s h.loc else s
  if cpCount s.h != 0 || mxCount s.h != 0 || s.h.dpOut != 0 || s.h.sdOut != 0 then .error (.point s)
  else .ok (checkEnd (endHart s h.loc true) (slotOf h.loc))
def execKexit (s : State) : Host.Outcome State Fault Refusal := finish s (kexitBody s)

/-! KJOIN (R317) -/

/-- The kernel that a ticket names for the executing hart's kernel, its joining parent. -/
def joinable (s : State) (v : Word) : Option (Nat × Kernel) :=
  let slot := fld v 20 12
  match tget s.kernels slot with
  | some k =>
    if v == ticketOf slot k.sgen && k.parent == some (slotOf s.h.loc, tgetD s.sgens (slotOf s.h.loc) 0) then some (slot, k) else none
  | none => none

/-- KJOIN. -/
def kjoinBody (rd rs1 : Reg) (s : State) : Res State :=
  match joinable s (rx s rs1) with
  | none => .error (.trap causeEngine (rx s rs1))
  | some (slot, k) => if k.reported then .ok (wx (freeSlot s slot) rd (reportOf k)) else .error (.point s)
def execKjoin (rd rs1 : Reg) (s : State) : Host.Outcome State Fault Refusal := seq s (kjoinBody rd rs1 s)

/-! Faults (R108) -/

/-- Containment of an entry: it becomes QUARANTINED, the DEPOSIT units of a window are void (R135), and so is the unit of a fan-out
profile (R261). -/
def contain (s : State) (i : Nat) : State :=
  match capAt s i with
  | none => s
  | some c =>
    if c.state == .free then s
    else
      let s := if c.state == .collecting then
          let s := voidElsewhere s i
          updCap { s with h := voidDeposits s.h i, others := s.others.map fun h => voidDeposits h i } i fun c => { c with outst := 0 }
        else s
      let mark (p : Nat × Profile) : Nat × Profile := if p.2.hasUnit && hIndex p.2.arg == i then (p.1, { p.2 with voided := true }) else p
      let cl (k : Nat × Cluster) : Nat × Cluster := (k.1, { k.2 with aspen := { k.2.aspen with profiles := k.2.aspen.profiles.map mark } })
      quarantine { s with clusters := s.clusters.map cl } i

/-- The engine commands of a hart end with it; what was lent to them returns (R188, R208, R239). -/
def dropCmds (s : State) (loc : Nat) : State :=
  match findHart s loc with
  | none => s
  | some h =>
    let s := h.cmds.foldl (fun s c => discardCmd s h c) s
    unbindHart (updHart s loc fun h => { h with csr := { h.csr with mprog := 0 }, mpart := [] }) loc

/-- Every MMA that a gang issued and a member still holds, queued or not, is discarded there as an abandonment (R274). -/
def dropGangMmas (s : State) (loc : Nat) : State :=
  match findHart s loc with
  | none => s
  | some h => (h.cmds.filter fun c => c.gangOf.isSome).foldl (fun s c =>
      let s := discardCmd s h c
      if c.direct then abandonMma s loc else s) s

/-- The gang of a faulted member ends: its MMAs are discarded in every member, and each survivor goes on alone (R274). -/
def dissolveGang (s : State) (h : Hart) : State :=
  match h.gang with
  | none => s
  | some g => g.members.foldl (fun s l => updHart (dropGangMmas s l) l fun m => { m with gang := none }) s

/-- What a faulted hart held: whole buffers are contained, but for one whose move goes on; units count as returned, notices end. -/
def loseHolding (by_ : Launcher) (g : Holding) (s : State) : State :=
  match capAt s g.index with
  | none => s
  | some c =>
    if c.gen != g.gen || c.state == .free || g.void then s
    else match g.kind with
      | .whole => if c.state == .moving then s else contain s g.index
      | .share | .deposit | .notice => (reclaimHolding by_ g s).1

/-- An arrival in a faulted hart's port. -/
def loseArrival (a : Arrival) (s : State) : State :=
  if staleArrival s a then s else match a.kind with | .whole => contain s a.index | .share | .deposit | .notice => reclaimArrival s a

/-- Buffers whose storage is in a tile's SRAM. -/
def storedOn (s : State) (tile : Nat) : List Nat :=
  (s.caps.filter fun c => c.2.state != .free && c.2.level == .tile && tileBase tile ≤ c.2.base && c.2.base < tileBase (tile + 1)).map (·.1)

/-- Every hart of a kernel ends without a trap: its engine commands end as on a fault, its holdings are reclaimed as at KEXIT (R314). -/
def stopHarts (s : State) (slot : Nat) (count : Bool) : State :=
  ((harts s).filter fun h => slotOf h.loc == slot).foldl (fun s h => endHart (dropCmds s h.loc) h.loc count) s

/-- A kernel becomes FAULTED: its channels become UNBOUND before its harts stop (R292); its record, if it still waits, leaves its queue; what
hart 0 was to have goes back. -/
def faultKernel (s : State) (slot : Nat) (count : Bool) : State :=
  match tget s.kernels slot with
  | none => s
  | some k =>
    if !k.running then s
    else
      let s := stopHarts (endChans (updKernel s slot fun k => { k with state := .faulted }) slot) slot count
      let (s, n) := reclaimList (reclaimHolding (.template 0)) k.own s
      let s := updKernel s slot fun k => { k with own := [], reclaimed := k.reclaimed + if count then n else 0 }
      let s := updQueue s k.queue fun q => { q with launches := q.launches.filter fun r => r.slot != slot }
      enqueue s (.kernelDone slot)

/-- The records of the copies of some harts that end with them (R237, R239): ABORTED, but for a copy that has ended and whose record is still to be
written, which reports its own status; false when a slice stalls. -/
def abortCopies (s : State) (locs : List Nat) : State × Bool :=
  let copies (loc : Nat) : List (Nat × EngCmd × CopyCmd) := match findHart s loc with
    | some h => h.cmds.filterMap fun k => match k.op with
      | .copy c => if k.fired && c.shape.crec then some (loc, k, c) else none
      | .mma _ | .mzero _ | .mldacc _ _ _ | .mstacc _ _ _ | .mdrain _ => none
    | none => []
  doAll (fun s p => match findHart s p.1 with
    | none => (s, true)
    | some h =>
      let (s, c) := if p.2.2.ended then settleRemote s h p.2.1 p.2.2 else (s, { p.2.2 with status := 5 })
      let (t, ok) := putRecord s h p.2.1 c
      if ok then (updHart t p.1 fun h => updCmd h p.2.1.id fun k => { k with op := .copy { p.2.2 with shape := { p.2.2.shape with crec := false } } }, true)
      else (t, false)) (locs.map copies).flatten s

/-- The harts that end when one faults: its kernel's, unless the descriptor sets the contain flag (R108, R314). -/
def endsWith (s : State) (loc : Nat) : List Nat :=
  match kernelOf s loc with
  | some k => if dContain k.desc then [loc] else ((harts s).filter fun h => slotOf h.loc == slotOf loc).map (·.loc)
  | none => [loc]

/-- The NOTICE of type 0 that every other hart of a kernel receives. -/
def noticeFault (s : State) (h : Hart) : State :=
  ((harts s).filter fun m => slotOf m.loc == slotOf h.loc && m.loc != h.loc).foldl (fun s m =>
    postNotice s { dest := m.loc, ntype := 0, detail := h.loc, scope := scopeTiles h.place m.place }) s

/-- Whole buffers on their way to a hart, whose rights have gone to it (R97). -/
def inFlight (s : State) (loc : Nat) : List Nat :=
  (s.sends.filter fun d => fld d.dest 52 4 == 0 && fld d.dest 0 32 == loc && d.arrival.kind == .whole && d.copy.isNone &&
    !staleArrival s d.arrival).map (·.arrival.index)

/-- A logical hart faults. Its kernel goes on under the contain flag, else it becomes FAULTED. Its `dfcnt` goes on counting the rejections of
what it issued (R157). -/
def faultHart (s : State) (loc : Nat) : State :=
  match findHart s loc with
  | none => s
  | some h =>
    let slot := slotOf loc
    let s := dissolveGang (dropCmds (withdraw s loc) loc) h
    match findHart s loc with
    | none => s
    | some h =>
      let by_ := launcherOf s h
      let s := { s with faultedDfcnt := tput s.faultedDfcnt loc h.csr.dfcnt }
      let s := h.holdings.foldl (fun s g => loseHolding by_ g s) s
      let s := (h.port ++ h.ring ++ servedCaps s loc).foldl (fun s a => loseArrival a s) (dropServed s loc)
      let s := (inFlight s loc).foldl contain s
      match tget s.kernels slot with
      | none => dropHart s loc
      | some k =>
        if dContain k.desc then
          let s := dropHart (leaveAll s h) loc
          let s := updKernel s slot fun k => { k with ended := k.ended + 1, hartFaulted := true }
          checkEnd (noticeFault s h) slot
        else faultKernel (updKernel (dropHart s loc) slot fun k => { k with ended := k.ended + 1 }) slot true

/-- A fault of a logical hart as an event: the records of the copies that it ends come first. -/
def faultAfter (s : State) (loc : Nat) (i : Instr) : Host.Outcome State Fault Refusal :=
  match abortCopies s (endsWith s loc) with
  | (t, true) => happen (faultHart t loc)
  | (u, false) => block u i

/-- TILE_FAULT: the buffers stored on the tile are contained, and the hart that it hosts faults. -/
def execTileFault (tile : Nat) (s : State) : Host.Outcome State Fault Refusal :=
  let s := (storedOn s tile).foldl contain s
  match hartOn s tile with
  | some h => faultAfter s h.loc (.tileFault tile)
  | none => happen s

/-- The pre-empted harts. -/
def savedHarts (s : State) : List Nat := ((harts s).filter fun h => h.tile.isNone).map (·.loc)

/-- SAVE_AREA_ECC: the error meets the image of a pre-empted hart, which of them a free value says (log 47). -/
def execSaveAreaEcc (s : State) : Host.Outcome State Fault Refusal :=
  let (n, t) := draw s
  let t := { t with saveEcc := none }
  match (s.saveEcc.filter (savedHarts s).contains).orElse fun _ => (savedHarts s)[(Config.freeWord n).toNat % (savedHarts s).length]? with
  | none => happen t
  | some loc => match abortCopies t (endsWith t loc) with
    | (u, true) => happen (faultHart u loc)
    | (u, false) => block { u with saveEcc := some loc } .saveAreaEcc

/-- QUEUE_ELEMENT_ECC: the element at a place of a queue goes, counted; a capability that it held becomes QUARANTINED. The kernel of a
lost launch record becomes FAULTED. -/
def execQueueElementEcc (n k : Nat) (s : State) : Host.Outcome State Fault Refusal :=
  match queueAt s n with
  | none => happen s
  | some q =>
    let t := { s with queueErrs := tput s.queueErrs (queueDie n) (tgetD s.queueErrs (queueDie n) 0 + 1) }
    match q.elems[k]?, q.launches[k]? with
    | some e, _ =>
      let t := updQueue t n fun q => { q with elems := removeAt q.elems k }
      let t := match e.cap with | some a => if staleArrival t a then t else contain t a.index | none => t
      happen (grantPush t n)
    | none, some r => happen (faultKernel t r.slot false)
    | none, none => happen s

end Sys2Proof.Machine
end

