-- ==== Sys2Proof/Machine/Kernel.lean ====
section
/-! DEFINITION. Launching kernels (R304 to R308) and placing their harts (R309 to R313). -/

namespace Sys2Proof.Machine

/-! Descriptors (R304, R310) -/

/-- The doublewords of a descriptor's record. -/
def descOf (r : List Byte) : List Word := (rangeFrom 0 8).map (recDw r)

/-- A well-formed descriptor. -/
def descOk (d : List Word) : Bool :=
  let a := dw d 1
  let b := dw d 3
  let c := dw d 4
  let ring := fld c 0 32
  !bitAt a 55 && fld a 61 3 = 0 && dEntry d % 4 = 0 && dCmask d != 0 &&
    dTsram d ≤ 1024 && fld b 11 5 = 0 && dCbufs d ≤ 16 && fld b 21 3 = 0 && dBdie d ≤ 64 && !bitAt b 31 && dBdev d ≤ 16 &&
    fld b 37 3 = 0 && dBlink d ≤ 64 && fld b 47 17 = 0 &&
    (ring = 0 || (16 ≤ ring && ring ≤ 1048576)) && dNown d ≤ 64 && fld c 55 9 = 0 &&
    dBtab d % 8 = 0 && dNbuf d ≤ 64 && fld (dw d 7) 39 25 = 0 &&
    (dGang d = 1 || (dCores d && dHarts d % dGang d = 0))

/-- Clusters of a mask that are in service, tile by tile. -/
def inMask (m : Word) (tile : Nat) : Bool := bitAt m (clusterOf tile)
/-- Tiles in service in the clusters of a mask. -/
def serviceTiles (s : State) (m : Word) : Nat := ((rangeFrom 0 1024).filter fun t => inMask m t && tileReady s t).length
/-- Tiles of a mask that are still to be settled (R377). -/
def openTiles (s : State) (m : Word) : Nat := ((rangeFrom 0 1024).filter fun t => inMask m t && !tileReady s t && !tileOut s t).length

/-- A well-formed declaration (R310). -/
def declOk (size attrs : Word) : Bool :=
  let len := alignUp size.toNat 256
  match (if attrs &&& attrReserved = 0 then allocLevel (fld attrs 0 4) else none) with
  | some l => bitAt attrs 16 && fld attrs 12 4 = 0 && 0 < len && len ≤ l.largest && layoutOk (fld attrs 8 4) len (fld attrs 24 24)
  | none => false

/-- The entry that a descriptor's code handle names, while it is the one that the handle was made for. -/
def codeEntry (s : State) (d : List Word) : Option Cap :=
  match capAt s (hIndex (dw d 0)) with
  | some c => if c.gen == hGen (dw d 0) && c.state != .free then some c else none
  | none => none

/-- The partition under which a context's REMOTE lines are read (R161). -/
def ctxPid (s : State) (x : Nat) : Nat := match ctxOf s x with | some c => c.pid | none => 0

/-- Where the declarations of a descriptor lie in the code buffer; none where they do not lie in it. -/
def declPas (s : State) (d : List Word) : Option (List Nat) :=
  (codeEntry s d).bind fun c =>
    if c.length < dBtab d + 16 * dNbuf d then none else bufPas s (hIndex (dw d 0)) c (dBtab d) (16 * dNbuf d)

/-- The declarations of a descriptor, read for a context; none where they do not lie in the code buffer or cannot be read. -/
def declsOf (s : State) (x : Nat) (d : List Word) : Option (List (Word × Word)) :=
  ((declPas s d).bind (homeBytes s (ctxPid s x))).map fun r =>
    (rangeFrom 0 (dNbuf d)).map fun k => (recDw r (2 * k), recDw r (2 * k + 1))

/-- What the reading of the declarations does to the line cache (R159, R163, R168). -/
def noteDecls (s : State) (x : Nat) (d : List Word) : State :=
  match (if dNbuf d = 0 || (codeEntry s d).any fun c => c.state == .quarantined then none else declPas s d) with
  | some pas => noteRead s (ctxPid s x) pas
  | none => s

/-! Launching (R307) -/

/-- Who launches: its holdings, its context, the priority that caps the launch, and the kernel that joins when `parent` is 0. -/
structure LaunchBy where
  launcher : Launcher
  holdings : List Holding
  ctx : Nat
  prio : Nat
  self : Option (Nat × BitVec 16)
  pins : Nat → Nat

/-- The kernel that a ticket names. -/
def ticketKernel (s : State) (v : Word) : Option (Nat × Kernel) :=
  match tget s.kernels (fld v 20 12) with
  | some k => if v == ticketOf (fld v 20 12) k.sgen then some (fld v 20 12, k) else none
  | none => none

/-- `parent` of a descriptor is 0 or a live ticket of the context (R305): its kernel's slot is not free again. -/
def parentOk (s : State) (ctx : Nat) (v : Word) : Bool :=
  v = 0 || match ticketKernel s v with | some (_, k) => k.ctx == ctx | none => false

/-- A SHARE handle of a set of holdings. -/
def shareHandle (s : State) (l : List Holding) (hv : Word) : Res Holding := do
  let (g, c) ← checkIn s l hv
  if g.kind == .share && c.state == .shared then .ok g else .error (.trap causeCapability hv)

/-- The declaration table of check 2: it lies within the code buffer, and every declaration is well formed. A table in a QUARANTINED buffer
cannot be read, and check 3 stops on its handle. -/
def declsOk (s : State) (x : Nat) (d : List Word) : Bool :=
  dNbuf d = 0 || match codeEntry s d with
    | none => false
    | some c =>
      if c.state == .quarantined then dBtab d + 16 * dNbuf d ≤ c.length
      else match declsOf s x d with | some l => l.all fun p => declOk p.1 p.2 | none => false

/-- Check 2. -/
def launchable (s : State) (b : LaunchBy) (d : List Word) : Bool :=
  descOk d && (!dCores d || dHarts d ≤ serviceTiles s (dCmask d)) && dPrio d ≤ b.prio && parentOk s b.ctx (dParent d) && declsOk s b.ctx d

/-- Check 6: the WHOLE handles at the start of the argument buffer, each of another OWNED buffer. -/
def ownHandles (s : State) (l : List Holding) : List Word → List Nat → Res (List Nat)
  | [], seen => .ok seen
  | hv :: r, seen =>
    match ownedIn s l hv with
    | .ok _ => if seen.contains (hIndex hv) then .error (.trap causeCapability hv) else ownHandles s l r (seen ++ [hIndex hv])
    | .error (.stall t) => .error (.stall t)
    | .error (.point t) => .error (.point t)
    | .error _ => .error (.trap causeCapability hv)

/-- Check 2 waits for a function that is still to be settled (R377): the table cache of a code buffer with declarations, and the tiles on which the
number in service depends. -/
def launchWaits (s : State) (va : Word) (d : List Word) : Bool :=
  let n := serviceTiles s (dCmask d)
  va.toNat % 8 = 0 && descOk d &&
    ((dNbuf d != 0 && capWaits s (hIndex (dw d 0))) || (dCores d && n < dHarts d && dHarts d ≤ n + openTiles s (dCmask d)))

/-- Check 6: the buffers that go to hart 0, named by the WHOLE handles at the start of the argument buffer. -/
def launchOwn (s : State) (b : LaunchBy) (va : Word) (d : List Word) (arg : Word) (kind : Nat) : Res (State × List Nat) :=
  match capAt s (hIndex arg) with
  | none => .error (.trap causeEngine va)
  | some c =>
    if kind != 1 || c.length < 8 * dNown d then .error (.trap causeEngine va)
    else match bufPas s (hIndex arg) c 0 (8 * dNown d) with
      | none => .error (.trap causeQuarantined arg)
      | some pas => match homeBytes s (ctxPid s b.ctx) pas with
        | some r =>
          let s := noteRead s (ctxPid s b.ctx) pas
          match ownHandles s b.holdings ((rangeFrom 0 (dNown d)).map (recDw r)) [] with
          | .ok l => .ok (s, l)
          | .error (.trap c v) => .error (.trapAt s c v)
          | .error e => .error e
        | none => .error (.trap causeQuarantined arg)

/-- Checks 2 to 6: the buffers that go to hart 0. `kind` is the argument kind of R308. -/
def launchCheck (s : State) (b : LaunchBy) (va : Word) (d : List Word) (arg : Word) (kind : Nat) : Res (State × List Nat) := do
  if launchWaits s va d then .error (.stall s)
  else if va.toNat % 8 != 0 || !launchable s b d then .error (.trap causeEngine va)
  let _ ← shareHandle s b.holdings (dw d 0)
  let lq := word (dLq d)
  match queueAt s (dLq d) with
  | none => .error (.trap causeEngine lq)
  | some q =>
    if q.qkind != 2 then .error (.trap causeEngine lq)
    if q.world != worldOf s b.ctx then .error (.trap causeCapability lq)
  if kind = 1 then
    let g ← shareHandle s b.holdings arg
    unpinned s g (hUnits arg) (b.pins g.index)
  if dNown d = 0 then .ok (s, []) else launchOwn s b va d arg kind

/-- The checks with the reading of the declarations before them; a trap keeps what the reads have done. -/
def launchAsk (s : State) (b : LaunchBy) (va : Word) (d : List Word) (arg : Word) (kind : Nat) : Res (State × List Nat) :=
  let t := if va.toNat % 8 != 0 || !descOk d || launchWaits s va d then s else noteDecls s b.ctx d
  match launchCheck t b va d arg kind with
  | .error (.trap c v) => .error (.trapAt t c v)
  | r => r

/-- The launch itself, once the queue has room and a slot is free: the launcher's holdings without what moves to the kernel. A kernel that has
ended joins none. -/
def launchNow (s : State) (b : LaunchBy) (slot : Nat) (d : List Word) (arg : Word) (kind : Nat) (own : List Nat) : State × List Holding :=
  let parent := if dParent d != 0 then (ticketKernel s (dParent d)).bind fun k => if k.2.running then some (k.1, k.2.sgen) else none else b.self
  let held := own.map (wholeOf s)
  let s := addLaunch s (dLq d) slot d arg kind b.ctx b.launcher parent
  let s := own.foldl (fun s i => updCap s i fun c => { c with okind := .hart, owner := slot * 2 ^ 20 }) s
  let s := updKernel s slot fun k => { k with own := held }
  let l := match (if kind = 1 then matching b.holdings arg else none) with
    | some g => takeUnits b.holdings g (hUnits arg)
    | none => b.holdings
  (s, own.foldl (fun l i => removeHolding l i .whole) l)

/-- Releases of several buffers (R115). -/
def releaseAll (s : State) : List Nat → Res State
  | [] => .ok s
  | i :: r => do
    let s ← release s i
    releaseAll s r

/-- The executing hart as a launcher. -/
def hartLaunch (s : State) (rd : Reg) : LaunchBy :=
  { launcher := launcherOf s s.h, holdings := s.h.holdings, ctx := s.h.ctx,
    prio := match kernelOf s s.h.loc with | some k => dPrio k.desc | none => 0,
    self := if rd = 0 then none else some (slotOf s.h.loc, tgetD s.sgens (slotOf s.h.loc) 0),
    pins := myPins s }

/-- KLAUNCH (R307). -/
def klaunchBody (rd rs1 rs2 : Reg) (s : State) : Res State := do
  let va := rx s rs1
  let arg := rx s rs2
  let kind := if arg = 0 then 0 else 1
  let (r, s) ← readHeld s va.toNat 64
  let d := descOf r
  let (s, own) ← launchAsk s (hartLaunch s rd) va d arg kind
  match queueAt s (dLq d) with
  | none => .error (.trap causeEngine (word (dLq d)))
  | some q => do
    waitMapped s (dLq d) q
    let s := grantPush (goOn s (dLq d)) (dLq d)
    let q := (queueAt s (dLq d)).getD q
    if queueRefuses s q || !queueRoomy s (dLq d) q then .ok (wx s rd 1)
    else match nextSlot s with
      | none => .ok (wx s rd 2)
      | some slot => do
        if 255 < s.h.sdOut + own.length then .error (.stall s)
        let s ← releaseAll s ((if kind = 1 then [hIndex arg] else []) ++ own)
        let s := own.foldl (fun s i => match capAt s i with | some c => dropResv s c | none => s) s
        let (t, l) := launchNow s (hartLaunch s rd) slot d arg kind own
        .ok (wx (modHoldings t fun _ => l) rd (ticketOf slot (tgetD t.sgens slot 0)))
def execKlaunch (rd rs1 rs2 : Reg) (s : State) : Host.Outcome State Fault Refusal := seq s (klaunchBody rd rs1 rs2 s)

/-! Placement (R309) -/

/-- The run of a tile's heap that a hart of a kernel takes there: offset and bytes. -/
def tileRun (s : State) (tile bytes : Nat) : Option (Nat × Nat) :=
  (firstFit (taken s .tile ++ tileRuns s tile) (tileBase tile) (tileBase tile + 0x100000) bytes).map fun a => (a - tileBase tile, bytes)

/-- Heap that a hart reserves. -/
def tsramBytes (d : List Word) : Nat := 1024 * dTsram d

/-- A tile that can take a hart of a kernel, `used` being spoken for. -/
def qualifies (s : State) (d : List Word) (used : List Nat) (tile : Nat) : Bool :=
  tile < 1024 && inMask (dCmask d) tile && tileReady s tile && (hartOn s tile).isNone && !used.contains tile &&
    (tsramBytes d = 0 || (tileRun s tile (tsramBytes d)).isSome)

/-- The dies in the order in which placement tries them. -/
def dieOrder (home : Nat) : List Nat := home :: (rangeFrom 0 4).filter (· != home)

/-- The lowest qualifying aligned run of `g` tiles on the dies of a list. -/
def findRun (s : State) (d : List Word) (dies : List Nat) (g : Nat) (used : List Nat) : Option (List Nat) :=
  firstSome (fun die => firstSome (fun k =>
    let run := rangeFrom (256 * die + g * k) g
    if run.all (qualifies s d used) then some run else none) (rangeFrom 0 (256 / g))) dies

/-- Harts that are placed together, with the tiles that they must return to, if they must. -/
structure Unit_ where
  locs : List Nat
  fixed : Option (List Nat)
  deriving DecidableEq, Repr

/-- Tiles for units in turn; none when one cannot be placed. -/
def placeUnits (s : State) (d : List Word) (dies : List Nat) : List Unit_ → List (Nat × Nat) → Option (List (Nat × Nat))
  | [], got => some got
  | u :: r, got =>
    let used := got.map (·.2)
    let run := match u.fixed with
      | some ts => if ts.all (qualifies s d used) then some ts else none
      | none => findRun s d dies u.locs.length used
    match run with
    | some ts => placeUnits s d dies r (got ++ u.locs.zip ts)
    | none => none

/-- Numbers below `lim` that are not in a list, the `n` lowest; none when there are fewer. -/
def lowestNumbers (lim n : Nat) (busy : List Nat) : Option (List Nat) :=
  let l := ((rangeFrom 0 lim).filter fun k => !busy.contains k).take n
  if l.length = n then some l else none

/-- The barrier channels that a co-resident kernel takes on the dies of its tiles, and on the device (R277). -/
def takeChans (s : State) (d : List Word) (tiles : List Nat) : Option (List Nat × List Nat) :=
  let busyDie := (s.kernels.map fun k => k.2.dieChans).flatten
  let busyDev := (s.kernels.map fun k => k.2.devChans).flatten
  let perDie (die : Nat) : Option (List Nat) :=
    (lowestNumbers 64 (dBdie d) ((busyDie.filter fun n => n / 64 == die).map (· % 64))).map fun l => l.map (64 * die + ·)
  match ((rangeFrom 0 4).filter fun die => tiles.any fun t => dieOf t == die).mapM perDie, lowestNumbers 16 (dBdev d) busyDev with
  | some a, some b => some (a.flatten, b)
  | _, _ => none

/-- Allocate one declared buffer for hart 0 on its tile (R310). -/
def declBuf (tile : Nat) (run : Option (Nat × Nat)) (ctx loc held : Nat) (size attrs : Word) (s : State) : Option (State × Nat) :=
  let alloc := match ctxOf s ctx with | some c => c.cceil | none => 0
  match allocRequest s size attrs alloc ctx with
  | .error _ => none
  | .ok b => match allocate s tile run loc (4096 ≤ held) b with
    | .error _ => none
    | .ok (i, t) => some (t, i)

/-- Allocate all of them, in order. On a failure the indices allocated so far come back with `false`. -/
def declBufs (tile : Nat) (run : Option (Nat × Nat)) (ctx loc : Nat) : List (Word × Word) → State → List Nat → State × List Nat × Bool
  | [], s, got => (s, got, true)
  | (size, attrs) :: r, s, got =>
    match declBuf tile run ctx loc got.length size attrs s with
    | some (t, i) => declBufs tile run ctx loc r t (got ++ [i])
    | none => (s, got, false)

/-- Attributes of the declaration block: TILE, LINEAR, compartment 0, zero-filled. -/
def blockAttrs : Word := word (2 ^ 16)

/-- The declared buffers and the declaration block of hart 0. When they cannot all be allocated, those that were are freed again (R310). -/
def declare (s : State) (slot tile : Nat) (run : Option (Nat × Nat)) (k : Kernel) : State × Bool :=
  let n := dNbuf k.desc
  let decls := declsOf s k.ctx k.desc
  let s := noteDecls s k.ctx k.desc
  if n = 0 then (s, true)
  else match decls with
    | none => (s, false)
    | some l =>
      let block := (word (alignUp (8 * n) 256), blockAttrs)
      match declBufs tile run k.ctx (slot * 2 ^ 20) (l ++ [block]) s (k.own.map (·.index)) with
      | (t, got, true) =>
        let mine := got.drop k.own.length
        let i := mine.getLastD 0
        let table := ((mine.take n).map fun j => leBytes 8 (wholeHandle t j).toNat).flatten
        let base := match capAt t i with | some c => c.base | none => 0
        let t := touchBanks { t with mem := Memory.putN t.mem base table } base table.length
        (updKernel t slot fun k => { k with own := k.own ++ mine.map (wholeOf t), block := wholeHandle t i }, true)
      | (t, got, false) => ((got.drop k.own.length).foldl endBuffer t, false)

/-- A hart comes onto a tile, whose L1 caches hold no line (R124). -/
def enterTile (s : State) (h : Hart) : State :=
  let s := match h.tile with | some t => updTile s t fun c => { c with l1d := [], l1i := [] } | none => s
  { s with others := s.others ++ [h] }

/-- Place a hart for the first time (R313); false when the declared buffers of hart 0 cannot be allocated. Its bank bits are those of a hart on
a tile where it has not run (R331), and no rejection counts for an earlier hart of its number. -/
def startOn (s : State) (slot : Nat) (p : Nat × Nat) : State × Bool :=
  match tget s.kernels slot with
  | none => (s, false)
  | some k =>
    let idx := p.1 % 2 ^ 20
    let run := if tsramBytes k.desc = 0 then none else tileRun s p.2 (tsramBytes k.desc)
    match (if idx = 0 then declare s slot p.2 run k else (s, true)) with
    | (s, false) => (s, false)
    | (s, true) =>
      match tget s.kernels slot with
      | none => (s, false)
      | some k =>
        let s := { s with faultedDfcnt := terase s.faultedDfcnt p.1 }
        let s := enterTile s { startHart s slot idx p.2 k with run := run, softBanks := BitVec.allOnes 512 }
        let s := updKernel s slot fun k => { k with placed := max k.placed (idx + 1), own := if idx = 0 then [] else k.own, state := .running }
        (if k.argKind = 1 then acquireOn s p.2 (hIndex k.arg) else s, true)

/-- Place harts for the first time; where hart 0 cannot have its buffers the kernel becomes FAULTED (R310). -/
def startAllOn (slot : Nat) : List (Nat × Nat) → State → State
  | [], s => s
  | p :: r, s => match startOn s slot p with
    | (t, true) => startAllOn slot r t
    | (t, false) => faultKernel t slot false

/-- Successive groups of `g` hartlocs. -/
def chunks (g first : Nat) : Nat → List Unit_
  | 0 => []
  | n + 1 => { locs := rangeFrom first g, fixed := none } :: chunks g (first + g) n

/-- Place what can be placed of a kernel that has not been placed whole: the kernel's state, and whether nothing is left. -/
def placeKernel (s : State) (slot : Nat) (k : Kernel) : State × Bool :=
  let d := k.desc
  let base := slot * 2 ^ 20
  if dCores d then
    match placeUnits s d (dieOrder k.homeDie) (chunks (dGang d) base (dHarts d / dGang d)) [] with
    | none => (s, false)
    | some l => match takeChans s d (l.map (·.2)) with
      | none => (s, false)
      | some (a, b) => (startAllOn slot l (updKernel s slot fun k => { k with dieChans := a, devChans := b }), true)
  else
    let rec go : Nat → State → State × Bool
      | 0, s => (s, true)
      | n + 1, s =>
        match tget s.kernels slot with
        | none => (s, true)
        | some k =>
          if !k.running || dHarts d ≤ k.placed then (s, true)
          else match findRun s d (dieOrder k.homeDie) 1 [] with
            | some [t] => go n (startAllOn slot [(base + k.placed, t)] s)
            | _ => (s, false)
    go (dHarts d - k.placed + 1) s

/-! Priority (R309, R312) -/

/-- Effective priority (R312). -/
def effPrio (s : State) (k : Kernel) : Nat := match ctxOf s k.ctx with | some c => min (dPrio k.desc) c.prio | none => 0

/-- A kernel whose harts are still to be placed for the first time, first in its queue or partly placed. -/
def waitsForTiles (s : State) (slot : Nat) (k : Kernel) : Bool :=
  k.running && k.state != .exiting && k.placed < dHarts k.desc &&
    (k.placed != 0 || match queueAt s k.queue with | some q => (q.launches.head?.any fun r => r.slot == slot) && q.mapped | none => false)

/-- A kernel that is served before another: higher effective priority, or the same and launched earlier. -/
def before (s : State) (a b : Kernel) : Bool := effPrio s b < effPrio s a || (effPrio s a == effPrio s b && a.order < b.order)

/-- Whether some hart of a kernel could be placed now. -/
def placeable (s : State) (k : Kernel) (slot : Nat) : Bool :=
  if dCores k.desc then
    match placeUnits s k.desc (dieOrder k.homeDie) (chunks (dGang k.desc) (slot * 2 ^ 20) (dHarts k.desc / dGang k.desc)) [] with
    | some l => (takeChans s k.desc (l.map (·.2))).isSome
    | none => false
  else (findRun s k.desc (dieOrder k.homeDie) 1 []).isSome

/-- The device as it would be if every hart of lower effective priority than a kernel had given up its tile. -/
def gaveWay (s : State) (k : Kernel) : State :=
  let lower (h : Hart) : Bool := match kernelOf s h.loc with | some v => effPrio s v < effPrio s k | none => false
  let off (h : Hart) : Hart := if lower h then { h with tile := none } else h
  { s with h := off s.h, others := s.others.map off }

/-- Another kernel that waits for the same tiles goes first: one that can be placed now, or one of higher effective priority for which tiles
are being freed (R312). -/
def outranked (s : State) (slot : Nat) (k : Kernel) : Bool :=
  s.kernels.any fun o => o.1 != slot && waitsForTiles s o.1 o.2 && before s o.2 k && dCmask o.2.desc &&& dCmask k.desc != 0 &&
    (placeable s o.2 o.1 || (effPrio s k < effPrio s o.2 && placeable (gaveWay s o.2) o.2 o.1))

/-- The hart that gives way to a waiting kernel (R312): of the kernel of lowest effective priority and youngest ticket that holds tiles of
its clusters. -/
def victim (s : State) (k : Kernel) : Option Nat :=
  let cands := (harts s).filterMap fun h => match h.tile, kernelOf s h.loc with
    | some t, some v => if inMask (dCmask k.desc) t && effPrio s v < effPrio s k then some (h.loc, v) else none
    | _, _ => none
  (cands.foldl (fun (best : Option (Nat × Kernel)) c => match best with
    | some b => if before s b.2 c.2 then some c else best
    | none => some c) none).map (·.1)

/-- A hart is to be pre-empted for a waiting kernel, unless one is already. -/
def askPreempt (s : State) (k : Kernel) : State :=
  match victim s k with
  | some loc => if s.pending.any fun i => match i with | .preempt _ => true | _ => false then s else enqueue s (.preempt loc)
  | none => s

/-- The kernels of a queue that wait for tiles: those placed in part, then the one of the first record. -/
def waitingKernels (s : State) (n : Nat) : List Nat :=
  byKey ((s.kernels.filter fun k => k.2.queue == n && waitsForTiles s k.1 k.2).map fun k => (k.2.order, k.1))

/-- Try to place a kernel; its record leaves its queue with its first hart. -/
def tryPlace (s : State) (slot : Nat) : State × Bool :=
  match tget s.kernels slot with
  | none => (s, true)
  | some k =>
    let s := if k.state == .queued then updKernel s slot fun k => { k with state := .placing } else s
    if outranked s slot k then (s, false)
    else
      let (t, done) := placeKernel s slot k
      let gone := match tget t.kernels slot with | some k => k.placed != 0 || !k.running | none => true
      let t := if gone then updQueue t k.queue fun q => { q with launches := q.launches.filter fun r => r.slot != slot } else t
      (if done then t else askPreempt t k, done)

/-- LAUNCH_PLACEMENT: placement serves the kernels of a queue that wait for tiles (R309). An unmapped queue hands on no record. -/
def execLaunchPlacement (n : Nat) (s : State) : Host.Outcome State Fault Refusal :=
  match queueAt s n with
  | none => happen s
  | some q =>
    let (t, done) := (waitingKernels s n).foldl (fun (r : State × Bool) k => let (t, d) := tryPlace r.1 k; (t, r.2 && d)) (s, true)
    if done && (q.launches.isEmpty || q.mapped) then happen t
    else block (if q.mapped then t else queueWork t n) (.launchPlacement n)

end Sys2Proof.Machine
end

