-- ==== Sys2Proof/Machine/Preempt.lean ====
section
/-! DEFINITION. Pre-emption and resumption (R23, R124, R312, R327, R328). The save area holds the image that the scheduler writes, group by
group. -/

namespace Sys2Proof.Machine

/-! Pre-emption -/

/-- A kernel whose harts are placed and pre-empted together. -/
def wholeKernel (s : State) (slot : Nat) : Bool := match tget s.kernels slot with | some k => dCores k.desc | none => false

/-- The harts that are pre-empted, and resumed, with a hart: those of its co-resident kernel, or of its gang, or the hart alone. -/
def companions (s : State) (h : Hart) : List Hart :=
  if wholeKernel s (slotOf h.loc) then byLoc ((harts s).filter fun m => slotOf m.loc == slotOf h.loc)
  else match h.gang with
    | some g => g.members.filterMap (findHart s)
    | none => [h]
where
  /-- Harts in the order of their hartlocs. -/
  byLoc (l : List Hart) : List Hart := (byKey (l.map fun h => (h.loc, h.loc))).filterMap fun n => l.find? fun h => h.loc == n

/-- A hart that leads its gang, or stands alone. -/
def leads (h : Hart) : Bool := match h.gang with | some g => g.members.headD h.loc == h.loc | none => true

/-- Suspend the direct MMAs that harts run, each with its gang (R202); none while one is in its last block. -/
def suspendDirect : List Hart → State → Option State
  | [], s => some s
  | h :: r, s =>
    if leads h then
      match switchTo s h.loc with
      | some t => (suspendMma t).bind (suspendDirect r)
      | none => suspendDirect r s
    else suspendDirect r s

/-- A hart in the middle of an instruction that completes before a pre-emption is taken (R129, R327, R343): it has begun to act, an answer is
on its way to it, or GFUSE has failed and its exception comes first. -/
def midInstruction (s : State) (h : Hart) : Bool := h.mid || replied s h.loc || sending s h.loc || h.fuse.any fun m => 2 ^ 16 ≤ m

/-- Counts that fall to zero before a pre-emption completes (R133). -/
def countsClear (h : Hart) : Bool := h.ldOut = 0 && h.stOut.isEmpty && h.dpOut = 0

/-- Write back and empty the L1 caches of tiles, and empty their TLBs (R124, R341); false when a slice stalls. -/
def emptyTiles (tiles : List Nat) (s : State) : State × Bool :=
  doAll (fun s t => match cleanL1 s t fun _ => true with
    | (s, true) => (updTile s t fun c => { c with l1d := [], l1i := [], tlb := [] }, true)
    | (s, false) => (s, false)) tiles s

/-! The scheduler's image (R328 to R331) -/

/-- A quarter of an accumulator of one hart in another's (R329). -/
def copyQuarter (q : Nat) (a b : Tbl (BitVec 32)) : Tbl (BitVec 32) :=
  (b.filter fun k => k.1 / 4096 < q) ++ (a.filter fun k => k.1 / 4096 == q) ++ b.filter fun k => q < k.1 / 4096

/-- `b` with a group of `a` (R329, R330). No group holds what stays with the logical hart: holdings, `hartloc`, port, gang, place. -/
def copyGroup (a b : Hart) (g : Nat) : Hart :=
  match g with
  | 0 => { b with pc := a.pc, x := a.x }
  | 1 => { b with f := a.f, csr := { b.csr with fflags := a.csr.fflags, frm := a.csr.frm } }
  | 2 => { b with v := a.v }
  | 3 | 4 | 5 | 6 => { b with acc0 := copyQuarter (g - 3) a.acc0 b.acc0 }
  | 7 | 8 | 9 | 10 => { b with acc1 := copyQuarter (g - 7) a.acc1 b.acc1 }
  | 11 => { b with csr := { b.csr with mprog := a.csr.mprog }, mpart := a.mpart }
  | 12 => { b with cbs := a.cbs }
  | 13 => { b with
      csr := { b.csr with
        jobseed := a.csr.jobseed, mcfg := a.csr.mcfg, mdrop := a.csr.mdrop, mamaxv := a.csr.mamaxv, vbscfg := a.csr.vbscfg,
        dflog := a.csr.dflog, dagemax := a.csr.dagemax, mcoord := a.csr.mcoord, vill := a.csr.vill, vtype := a.csr.vtype, vl := a.csr.vl,
        vstart := a.csr.vstart, vxrm := a.csr.vxrm, vxsat := a.csr.vxsat, dseq := a.csr.dseq, qkey := a.csr.qkey,
        rcvtag := a.csr.rcvtag, dfcnt := a.csr.dfcnt, rejCount := a.csr.rejCount }
      draws := a.draws, ticket := a.ticket, groups := a.groups, barRecs := a.barRecs, saveCount := a.saveCount, chain := a.chain }
  | 14 => { b with
      mode := a.mode
      csr := { b.csr with
        mstatus := a.csr.mstatus, medeleg := a.csr.medeleg, mideleg := a.csr.mideleg, mie := a.csr.mie, mip := a.csr.mip,
        mtvec := a.csr.mtvec, mscratch := a.csr.mscratch, mepc := a.csr.mepc, mcause := a.csr.mcause, mtval := a.csr.mtval,
        stvec := a.csr.stvec, sscratch := a.csr.sscratch, sepc := a.csr.sepc, scause := a.csr.scause, stval := a.csr.stval,
        mcounteren := a.csr.mcounteren, scounteren := a.csr.scounteren, satp := a.csr.satp, pmpcfg := a.csr.pmpcfg,
        pmpaddr := a.csr.pmpaddr, cycleOff := a.csr.cycleOff, instret := a.csr.instret, compAlloc := a.csr.compAlloc,
        scrubSel := a.csr.scrubSel, rdySel := a.csr.rdySel } }
  | 15 => { b with
      cmds := a.cmds, nextCmd := a.nextCmd, ldOut := a.ldOut, stOut := a.stOut, dpOut := a.dpOut, softDirty := a.softDirty,
      softBanks := a.softBanks }
  | _ => b

/-- The scheduler writes a hart's image to its save area: the groups that its dirty bits mark, all of them the first time. The retired count is
in group 14 and the suspended commands in group 15, so both are always written. -/
def saveImage (s : State) (loc : Nat) : State :=
  match findHart s loc with
  | none => s
  | some h =>
    let dirty := (rangeFrom 0 16).filter fun g => (h.schedDirty ||| 0xC001#16).getLsbD g
    let img := match tget s.saveArea loc with | some a => dirty.foldl (copyGroup h) a | none => h
    let s := updHart s loc fun h => { h with schedDirty := 1 }
    { s with saveArea := tput s.saveArea loc img }

/-- The scheduler restores a hart's image, with what hardware has changed of the hart's state while it was away (step 7 of R328). -/
def restoreImage (s : State) (loc : Nat) : State :=
  let s := saveImage s loc
  match tget s.saveArea loc with
  | some a => updHart s loc fun h => (rangeFrom 0 16).foldl (copyGroup a) h
  | none => s

/-- DEPOSIT holdings of windows that FORCE is closing are void from now on (R136): a hart that leaves its tile before the drain has reached its
cluster finds them so when it is placed again. -/
def voidClosing (s : State) (h : Hart) : Hart :=
  (s.caps.filter fun c => c.2.closing).foldl (fun h c => voidDeposits h c.1) h

/-- A hart leaves its tile (R328, step 5): a WFI ends, an arrival at GFUSE, a wait at a barrier or a variable (R292) and a reservation go. A BARR
or BARW whose channel has been unbound or broken under it still raises its exception (R285, R292). -/
def leaveTile (h : Hart) : Hart :=
  let h := endWfi h
  let at_ := h.barAt.filter fun p => p.2 != .waits
  { h with lastTile := h.place, tile := none, fuse := none, resv := none, barAt := at_, svAt := none }

/-- PREEMPT: taken once every count has fallen and every command has reached a boundary. A queued command is one step of its engine, so
it stands at a boundary between steps and stays in the queue. -/
def execPreempt (loc : Nat) (s : State) : Host.Outcome State Fault Refusal :=
  match findHart s loc with
  | none => happen s
  | some h =>
    let hs := (companions s h).filter (·.tile.isSome)
    if hs.isEmpty then happen s
    else if hs.any (midInstruction s) then block s (.preempt loc)
    else
      let u := hs.foldl flushHart s
      if !hs.all fun h => match findHart u h.loc with | some m => countsClear m | none => true then block u (.preempt loc)
      else
        let back (t : State) : State := if s.h.live then (switchTo t s.h.loc).getD t else t
        match (suspendDirect hs u).map (emptyTiles (hs.map Hart.place)) with
        | none => block u (.preempt loc)
        | some (t, false) => block (carryRolls u t) (.preempt loc)
        | some (t, true) =>
          let t := hs.foldl (fun t m => saveImage (updHart (withdraw t m.loc) m.loc fun h => leaveTile (voidClosing t h)) m.loc) (back t)
          happen (enqueue (checkPreempted t (slotOf loc)) (.resume h.loc h.place))

/-! Resumption -/

/-- A hart that must return to the tile that it left (R23): a TILE buffer in SHARED or LENT is stored there, or is held whole by it. -/
def mustReturn (s : State) (h : Hart) : Bool :=
  s.caps.any fun c => c.2.level == .tile && (c.2.state == .shared || c.2.state == .lent) &&
    ((c.2.base - 0x010000000000) / 0x100000 == h.lastTile || h.holdings.any fun g => g.kind == .whole && g.of c.1 c.2.gen)

/-- TILE buffers that a hart holds whole. -/
def ownBufs (h : Hart) : List Nat := (h.holdings.filter fun g => g.kind == .whole).map (·.index)

/-- The run of the heap that a hart has on the tile where it is placed again: its former run where no other party has taken bytes of it,
else a new one (R309). -/
def runAgain (s : State) (h : Hart) (bytes tile : Nat) : Option (Nat × Nat) :=
  let mine := ownBufs h
  let others := ((s.caps.filter fun c => c.2.state != .free && c.2.level == .tile && c.2.length != 0 && !mine.contains c.1).map
    fun c => (c.2.base, c.2.base + c.2.length)) ++ ((reserved s).filter fun r => r.2.1 == .tile).map fun r => (r.1, r.1 + r.2.2.2)
  match h.run with
  | some r =>
    if tile = h.lastTile && clear others (tileBase tile + r.1) (tileBase tile + r.1 + r.2) then some r else tileRun s tile bytes
  | none => tileRun s tile bytes

/-- A tile that can take a hart again, `used` being spoken for. -/
def takesAgain (s : State) (d : List Word) (used : List Nat) (h : Hart) (tile : Nat) : Bool :=
  tile < 1024 && inMask (dCmask d) tile && tileReady s tile && (hartOn s tile).isNone && !used.contains tile &&
    (tsramBytes d = 0 || (runAgain s h (tsramBytes d) tile).isSome)

/-- Harts with tiles for each. -/
def fitsAgain (s : State) (d : List Word) (used : List Nat) (l : List (Hart × Nat)) : Bool := l.all fun p => takesAgain s d used p.1 p.2

/-- Tiles for harts that are placed together, `g` being the gang size of their kernel: hart j of a kernel stands on tile j mod g of an
aligned run (R309). They return to their former tiles when one of them must; else they take the run of the tile that is asked for, their
former tiles or the lowest run, the first of these that qualifies. -/
def tilesAgain (s : State) (d : List Word) (dies used : List Nat) (ask : Nat × Nat) (hs : List Hart) : Option (List (Hart × Nat)) :=
  let g := dGang d
  let home := hs.map fun h => (h, h.lastTile)
  let on (first : Nat) : List (Hart × Nat) := hs.map fun h => (h, first + h.loc % 2 ^ 20 % g)
  let ok (l : List (Hart × Nat)) : Option (List (Hart × Nat)) :=
    if fitsAgain s d used l && l.all fun p => dies.contains (dieOf p.2) then some l else none
  if hs.any (mustReturn s) then (if fitsAgain s d used home then some home else none)
  else
    let asked := if hs.any fun h => h.loc == ask.1 && h.loc % 2 ^ 20 % g = ask.2 % g then ok (on (ask.2 / g * g)) else none
    match asked, ok home with
    | some l, _ => some l
    | none, some l => some l
    | none, none => firstSome (fun die => firstSome (fun k => ok (on (256 * die + g * k))) (rangeFrom 0 (256 / g))) dies

/-- Tiles for several such units, in turn. -/
def unitsAgain (s : State) (d : List Word) (dies : List Nat) (ask : Nat × Nat) : List (List Hart) → List (Hart × Nat) → Option (List (Hart × Nat))
  | [], got => some got
  | u :: r, got => (tilesAgain s d dies (got.map (·.2)) ask u).bind fun l => unitsAgain s d dies ask r (got ++ l)

/-- The harts of a list that are placed together: those that share an aligned run, or each alone. -/
def unitsOfHarts (g : Nat) (hs : List Hart) : List (List Hart) :=
  (uniq (hs.map fun h => h.loc / g)).map fun k => hs.filter fun h => h.loc / g == k

/-- A hart is on a tile again (R328, step 6; R331). -/
def comeBack (run : Option (Nat × Nat)) (tile : Nat) (h : Hart) : Hart :=
  { h with
    tile := some tile
    softBanks := if tile = h.lastTile then h.softBanks else BitVec.allOnes 512
    lastTile := tile
    run := run
    schedDirty := 1 }

/-- Place a hart again, with its image restored. -/
def placeAgain (d : List Word) (s : State) (p : Hart × Nat) : State :=
  let run := if tsramBytes d = 0 then none else runAgain s p.1 (tsramBytes d) p.2
  updHart (restoreImage (updTile s p.2 fun c => { c with l1d := [], l1i := [], tlb := [] }) p.1.loc) p.1.loc (comeBack run p.2)

/-- RESUME: the harts that were pre-empted together are placed again, on dies that the kernel's die-class channels name (R292). A
waiting kernel of higher priority goes first. -/
def execResume (loc tile : Nat) (s : State) : Host.Outcome State Fault Refusal :=
  match findHart s loc, tget s.kernels (slotOf loc) with
  | some h, some k =>
    let hs := companions s h
    if h.tile.isSome || !k.running then happen s
    else
      let dies := (dieOrder k.homeDie).filter fun d => k.dieChans.isEmpty || k.dieChans.any fun n => n / 64 == d
      if outranked s (slotOf loc) k then block s (.resume loc tile)
      else match unitsAgain s k.desc dies (loc, tile) (unitsOfHarts (dGang k.desc) (hs.filter (·.tile.isNone))) [] with
        | none => block s (.resume loc tile)
        | some l =>
          let t := l.foldl (placeAgain k.desc) s
          happen (updKernel t (slotOf loc) fun k => { k with state := if k.state == .preempted then .running else k.state })
  | _, _ => happen s

end Sys2Proof.Machine
end

