-- ==== Sys2Proof/Machine/Context.lean ====
section
/-! DEFINITION. Contexts, key slots, gates and what Yew and Larch install for them: R318, R319, R322, R323, R338, R358, R362, R366,
R368 and R371. -/

namespace Sys2Proof.Machine

/-! Installing (R318, R319) -/

/-- A FREE frame that Yew may assign: in memory, in service, and passed by the scrub of the cold boot (R338, R354). Frames ahead of the pointer
of any other scrub may be assigned at once (R352). -/
def assignable (s : State) (f : Nat) : Bool :=
  let e := tgetD s.frames f Frame.none
  f < 2 ^ 27 && e.ftype == .free && !e.retired &&
    !(scrubBlocked s (f * 4096) && (s.scrubs.get ⟨f / 2 ^ 24 % 8, Nat.mod_lt _ (by decide)⟩).boot)

/-- Frames become TABLE frames of a context, or DATA frames of its world, at Larch's request (R338). -/
def assignFrames (s : State) (l : List Nat) (t : FType) (world ctx : Nat) : State :=
  l.foldl (fun s f =>
    if assignable s f then { s with frames := tput s.frames f { Frame.none with ftype := t, world := world, ctx := ctx } } else s) s

/-- A context as its install request gives it. -/
def ctxFrom (r : CtxInit) : Ctx :=
  { life := .installed, world := r.world.val, root := r.root, asid := r.asid, pid := r.pid.val, cceil := r.cceil, prio := r.prio.val,
    pool := r.pool.take 16, regions := [], cls := 0, medeleg := r.medeleg &&& medelegMask, mideleg := r.mideleg &&& midelegMask,
    mtvec := newTvec r.mtvec, stvec := newTvec r.stvec, mie := r.mie &&& mieMask }

/-- The granules that contexts used last are no context's: whoever takes them next has them zeroed (R84). -/
def forgetGranules (s : State) (l : List Nat) : State := { s with granuleCtx := s.granuleCtx.filter fun g => !l.contains g.2 }

/-- CONTEXT_INSTALL: a FREE context becomes INSTALLED. For an installed one only the request for frames takes effect. -/
def execContextInstall (ctx : Fin 64) (r : CtxInit) (s : State) : Host.Outcome State Fault Refusal :=
  let give (s : State) (w : Nat) : State := assignFrames (assignFrames s r.tables .table w ctx.val) r.frames .data w ctx.val
  whenRuns s.larch s (.contextInstall ctx r) <| match ctxOf s ctx.val with
  | none => happen (give (forgetGranules { s with ctxs := tput s.ctxs ctx.val (ctxFrom r) } [ctx.val]) r.world.val)
  | some c => happen (if c.life == .installed && c.world == r.world.val then give s c.world else s)

/-! Teardown (R319) -/

/-- The contexts of a world. -/
def ctxsOfWorld (s : State) (w : Nat) : List Nat := (s.ctxs.filter fun c => c.2.world == w).map (·.1)

/-- The entries of a world's contexts. -/
def worldEntries (s : State) (l : List Nat) : List Nat := (s.caps.filter fun c => c.2.state != .free && l.contains c.2.ctx).map (·.1)

/-- The operations that stall in the queues of a world raise CAPABILITY, with `stval` = x[rs1] (R303). -/
def raiseStalled (s : State) (w : Nat) : State :=
  let locs := uniq (((s.queues.filter fun q => q.2.world == w).map fun q => q.2.waits ++ q.2.poppers ++ q.2.pushers.map (·.1)).flatten)
  locs.foldl (fun s loc => match switchTo (withdraw s loc) loc with
    | some t =>
      let u := takeTrap t causeCapability (rx t ⟨t.h.ir.toNat / 2 ^ 15 % 32, Nat.mod_lt _ (by decide)⟩)
      if s.h.live then (switchTo u s.h.loc).getD u else u
    | none => s) s

/-- DRAINING: stalled queue operations raise their exception, and every kernel of the contexts ends as on an uncontained fault. -/
def drainCtxs (s : State) (w : Nat) (l : List Nat) : State :=
  let drain (c : Nat × Ctx) : Nat × Ctx := if l.contains c.1 && c.2.life == .installed then (c.1, { c.2 with life := .draining }) else c
  let s := raiseStalled { s with ctxs := s.ctxs.map drain } w
  ((s.kernels.filter fun k => l.contains k.2.ctx).map (·.1)).foldl (fun s k => faultKernel s k true) s

/-- A kernel of the contexts has not been reported yet, or a move of one of their buffers is under way and not in doubt. -/
def drainBusy (s : State) (l : List Nat) : Bool :=
  (s.kernels.any fun k => l.contains k.2.ctx) ||
    s.moves.any fun m => !m.2.indoubt && match capAt s m.2.index with
      | some c => c.state != .free && l.contains c.ctx
      | none => false

/-- Free an entry for good: byte copies and moves of it end, and its export ranges go. -/
def destroyEntry (s : State) (i : Nat) : State :=
  let gone := s.sends.filter fun d => d.arrival.index == i
  let s := gone.foldl (fun s d => updHart s d.sender fun h => { h with sdOut := h.sdOut - 1 }) s
  let s := { s with
    sends := s.sends.filter fun d => d.arrival.index != i
    moves := s.moves.filter fun m => m.2.index != i
    exports := s.exports.filter fun e => e.index != i }
  endBuffer s i

/-- The frames of a world. -/
def worldFrames (s : State) (w : Nat) : List Nat :=
  (s.frames.filter fun f => f.2.world == w && (f.2.ftype == .data || f.2.ftype == .table)).map (·.1)

/-- How many numbers at the head of a list go on from one, one by one. -/
def runFrom (f : Nat) : List Nat → Nat
  | [] => 0
  | x :: r => if x = f then 1 + runFrom (f + 1) r else 0

/-- Frames leave their world; a retired frame stays retired. -/
def releaseFrames (s : State) (l : List Nat) : State :=
  l.foldl (fun s f => { s with frames := tput s.frames f { Frame.none with retired := (tgetD s.frames f Frame.none).retired } }) s

/-- An idle scrub channel takes the first run of a world's frames in its stack, which have left the world before it starts (R353). -/
def scrubRun (s : State) (w : Nat) (n : Fin 8) : State :=
  let l := (worldFrames s w).filter fun f => f / 2 ^ 24 == n.val
  match l with
  | [] => s
  | f :: _ =>
    if (s.scrubs.get n).act then s
    else
      let k := runFrom f l
      startScrub (releaseFrames s (rangeFrom f k)) n (f % 2 ^ 24) k (some w)

/-- SCRUBBING: the scrub channels take the frames of a world as they become idle (R351, R352). -/
def scrubWorld (s : State) (w : Nat) : State := (List.finRange 8).foldl (fun s n => scrubRun s w n) s

/-- Frames of a world are still to be scrubbed, or a channel scrubs some. -/
def scrubBusy (s : State) (w : Nat) : Bool :=
  !(worldFrames s w).isEmpty || (List.finRange 8).any fun n => (s.scrubs.get n).act && (s.scrubs.get n).world == some w

/-- Accumulators of a world are unbound, its fire records and the units of its profiles go (R244, R254). -/
def unbindWorld (w : Nat) (a : Aspen) : Aspen :=
  { a with
    accs := a.accs.map fun p => if p.2.bound && p.2.world == w then (p.1, { Acc.unbound with retired := p.2.retired }) else p
    profiles := a.profiles.map fun p => if p.2.world == w then (p.1, { p.2 with hasUnit := false, voided := true }) else p
    fireQ := a.fireQ.filter fun r => r.2 != w
    fires := a.fires.filter fun f => f.world != w }

/-- The queues of a world are UNASSIGNED (R295). -/
def dropQueues (s : State) (w : Nat) : State :=
  let qs := s.queues.filter fun q => q.2.world == w
  let s := qs.foldl (fun s q => reclaimElems s (q.2.elems ++ q.2.served.filterMap (·.2))) s
  { s with queues := s.queues.filter fun q => q.2.world != w }

/-- The ranges of synchronisation variables of a world are returned and zeroed (R287); posted operations in flight to them are dropped and counted
(R292). -/
def dropVars (s : State) (w : Nat) : State :=
  let rs := (s.varWorld.filter fun v => v.2 == w).map (·.1)
  let s := rs.foldl (fun s r => zeroVars s (256 * r) 256) s
  let s := { s with varWorld := s.varWorld.filter fun v => v.2 != w }
  let lost (p : SvPost) : Bool := rs.contains (p.var / 256)
  (s.svPosts.filter lost).foldl dropPost { s with svPosts := s.svPosts.filter fun p => !lost p }

/-- Every entry of the contexts is freed: SCRUBBING. -/
def emptyWorld (s : State) (w : Nat) (l : List Nat) : State :=
  let s := (worldEntries s l).foldl destroyEntry s
  scrubWorld { s with ctxs := s.ctxs.map fun c => if l.contains c.1 then (c.1, { c.2 with life := .scrubbing }) else c } w

/-- FREE. Agents and link-class channels of the contexts lose their assignment. -/
def freeWorld (s : State) (w : Nat) (l : List Nat) : State :=
  let s := dropVars (dropQueues (forgetGranules s l) w) w
  { s with
    clusters := s.clusters.map fun c => (c.1, { c.2 with aspen := unbindWorld w c.2.aspen })
    saveArea := s.saveArea.filter fun i => !l.contains i.2.ctx
    gates := s.gates.filter fun g => fld (dw g.2 0) 6 6 != w
    keys := s.keys.filter fun k => k.1 / 8 != w
    agents := s.agents.filter fun a => !(match a.2.ctx with | some c => l.contains c | none => false)
    chans := s.chans.map fun c => (c.1, { c.2 with ctx := match c.2.ctx with | some x => if l.contains x then none else some x | none => none })
    ctxs := s.ctxs.filter fun c => !l.contains c.1 }

/-- WORLD_TEARDOWN: the world's contexts drain, are scrubbed and become FREE; it waits while kernels end and while frames are scrubbed. The records
of the copies that end with it come first (R239). -/
def execWorldTeardown (world : Fin 64) (s : State) : Host.Outcome State Fault Refusal :=
  let l := ctxsOfWorld s world.val
  whenRuns s.larch s (.worldTeardown world) <| match abortCopies s (((harts s).filter fun h => l.contains h.ctx).map (·.loc)) with
  | (u, false) => block u (.worldTeardown world)
  | (s, true) =>
    let s := drainCtxs s world.val l
    if drainBusy s l then block s (.worldTeardown world)
    else
      let s := emptyWorld s world.val l
      if scrubBusy s world.val then block s (.worldTeardown world) else happen (freeWorld s world.val l)

/-! Keys and gates (R322, R323) -/

/-- KEY_SLOT_WRITE. -/
def execKeySlotWrite (slot : Fin 512) (key : BitVec 256) (s : State) : Host.Outcome State Fault Refusal :=
  whenRuns s.yew s (.keySlotWrite slot key) (happen { s with keys := tput s.keys slot.val key })

/-- A gate that Yew installs: endorsed by both owners, between two compartments, to an agent of the world that accepts `to`, with its
reserved bits zero. -/
def gateOk (s : State) (g : GateInit) : Bool :=
  g.endorsed && fld g.dw0 0 3 != fld g.dw0 3 3 && fld g.dw0 19 45 = 0 && fld g.dw1 41 23 = 0 && g.dw3 = 0 &&
    (findDest s (fld g.dw0 6 6) (fld g.dw0 3 3) g.dest).isSome

/-- GATE_INSTALL. -/
def execGateInstall (n : Fin 1024) (g : GateInit) (s : State) : Host.Outcome State Fault Refusal :=
  whenRuns s.yew s (.gateInstall n g)
    (happen (if gateOk s g then { s with gates := tput s.gates n.val [setBit g.dw0 18 true, g.dw1, g.dest, g.dw3] } else s))

/-- GATE_REMOVE: a single write of `valid`. -/
def execGateRemove (n : Fin 1024) (s : State) : Host.Outcome State Fault Refusal :=
  whenRuns s.yew s (.gateRemove n) <| match tget s.gates n.val with
  | some g => happen { s with gates := tput s.gates n.val (setAt g 0 (setBit (dw g 0) 18 false)) }
  | none => happen s

/-! Tables that Larch and Yew keep -/

/-- ROUTE_PROGRAM: port in bits [3:0], relay flag in bit [7] (R368). -/
def execRouteProgram (dest route : BitVec 8) (s : State) : Host.Outcome State Fault Refusal :=
  whenRuns s.larch s (.routeProgram dest route) (happen { s with routes := tput s.routes dest.toNat (route &&& 0x8F#8) })

/-- WORLD_MAP_INSTALL (R366). -/
def execWorldMapInstall (port : Fin 16) (src dst : Fin 64) (s : State) : Host.Outcome State Fault Refusal :=
  whenRuns s.larch s (.worldMapInstall port src dst)
    (happen (updPort s port.val fun p => { p with worldMap := tput p.worldMap src.val dst.val }))

/-- HOST_AGENT_ASSIGN (R358): an agent that holds nothing goes to an installed context. -/
def execHostAgentAssign (agent : Fin 16) (ctx : Fin 64) (s : State) : Host.Outcome State Fault Refusal :=
  let g := agentAt s agent.val
  whenRuns s.larch s (.hostAgentAssign agent ctx) <| match ctxOf s ctx.val with
  | some c =>
    happen (if c.life == .installed && g.holdings.isEmpty && g.arrivals.isEmpty && g.reports.isEmpty then
      { s with agents := tput s.agents agent.val { Agent.start with ctx := some ctx.val } } else s)
  | none => happen s

/-- Physical ranges of live publications (R361): HOST buffers, and POOL buffers that the pool frame table does not give to their
entry. -/
def publications (s : State) : List (Nat × Nat) :=
  (s.caps.filter fun c => c.2.state != .free && c.2.length != 0 && (c.2.level == .host ||
    (c.2.level == .pool && (tgetD s.poolFrames (c.2.base / 4096) PoolFrame.none).tensor != c.1))).map fun c =>
      (c.2.base, c.2.base + c.2.length)

/-- POOL_REGION_ASSIGN (R362): up to 4 regions of whole frames of pool memory that no publication covers. -/
def execPoolRegionAssign (ctx : Fin 64) (base len : Nat) (s : State) : Host.Outcome State Fault Refusal :=
  whenRuns s.larch s (.poolRegionAssign ctx base len) <| match ctxOf s ctx.val with
  | some c =>
    happen (if c.life == .installed && c.regions.length < 4 && base % 4096 = 0 && len % 4096 = 0 && len != 0 && isPoolPa base &&
        isPoolPa (base + len - 1) && clear (publications s) base (base + len) then
      { s with ctxs := tput s.ctxs ctx.val { c with regions := c.regions ++ [(base, len)] } } else s)
  | none => happen s

/-- BANDWIDTH_WEIGHT_SET (R371): a class's weight at a controller or port, or the class of a context. Bandwidth is timing, and no
result depends on it. -/
def execBandwidthWeightSet (u : BwUnit) (cls : Fin 8) (weight : BitVec 8) (s : State) : Host.Outcome State Fault Refusal :=
  whenRuns s.larch s (.bandwidthWeightSet u cls weight) <| match u with
  | .ctx n => match ctxOf s n.val with
    | some c => happen { s with ctxs := tput s.ctxs n.val { c with cls := cls.val } }
    | none => happen s
  | u => happen { s with bw := (s.bw.filter fun b => !(b.1 == u && b.2.1 == cls.val)) ++ [(u, cls.val, weight)] }

end Sys2Proof.Machine
end

