-- ==== Sys2Proof/Machine/Mailbox.lean ====
section
/-! DEFINITION. Host links: the mailbox of a host agent (R359 to R361), host accesses to DEVICE memory and to BAR 0 (R363, R376),
ATS invalidations (R364) and host reset (R372). -/

namespace Sys2Proof.Machine

/-! Rings (R359, R360) -/

/-- Ring registers that the device accepts: a 4 KiB-aligned base and a power of two from 16 to 65,536 entries. -/
def ringOk (base size : Word) : Bool :=
  base.toNat % 4096 = 0 && base.toNat < 2 ^ 51 && (rangeFrom 4 13).any fun k => size.toNat = 2 ^ k

/-- The rings as their registers give them: enabled when both are well formed, malformed when both have a size and are not. -/
def Agent.settle (g : Agent) : Agent :=
  let ok := ringOk g.sqbase g.sqsize && ringOk g.cqbase g.cqsize
  { g with enabled := ok && !g.barred, malformed := !ok && g.sqsize != 0 && g.cqsize != 0 }

/-- Physical address of the command at the head of an agent's submission ring. -/
def cmdPa (s : State) (a : Nat) : Nat := hostPa a ((agentAt s a).sqbase.toNat + 64 * (agentAt s a).sqhead)
/-- Doubleword of that command. -/
def cmdWord (s : State) (a n : Nat) : Word := word (leNat (Memory.getN s.mem (cmdPa s a + 8 * n) 8))

/-- The agent has a command that it can read: rings enabled, the link up, a command in the ring, room for its completion. -/
def cmdWaits (s : State) (a : Nat) : Bool :=
  let g := agentAt s a
  g.ctx.isSome && completionRoom s a && g.sqhead != g.sqtail

/-- The event of a mailbox opcode. -/
def cmdEvent (a : Fin 16) (op : Nat) : Option Instr :=
  match op with
  | 1 => some (.mbLaunch a)
  | 2 => some (.mbPublish a)
  | 3 => some (.mbUnpublish a)
  | 4 => some (.mbSend a)
  | 5 => some (.mbFree a)
  | 6 => some (.mbSplit a)
  | 7 => some (.mbJoin a)
  | _ => none

/-- A command ends: its completion is written and the ring advances. -/
def endMb (s : State) (a code : Nat) (r1 r2 : Word) : State :=
  let s := putCompletion s a 0 code (fld (cmdWord s a 0) 32 32) r1 r2
  updAgent s a fun g => { g with sqhead := (g.sqhead + 1) % g.sqsize.toNat }

/-- The next command of an agent is read: its event is due. A command of no opcode is malformed. `fuel` bounds the commands of a
ring. -/
def nextMb (a : Fin 16) : Nat → State → State
  | 0, s => s
  | fuel + 1, s =>
    if cmdWaits s a.val then
      match cmdEvent a (fld (cmdWord s a.val 0) 0 8) with
      | some i => if s.pending.contains i then s else enqueue s i
      | none => nextMb a fuel (endMb s a.val 0x41 (cmdWord s a.val 0) 2)
    else if (agentAt s a.val).enabled && (agentAt s a.val).sqhead != (agentAt s a.val).sqtail then
      updAgent s a.val markFull
    else s

/-- Go on with an agent's ring. -/
def pumpMb (s : State) (a : Fin 16) : State := nextMb a 65536 s

/-- A write of a register of a mailbox page. The page of an agent that is not assigned ignores writes, and none comes over a link that carries no
traffic (R356). -/
def mbPut (s : State) (a : Fin 16) (off : Nat) (v : Word) : State :=
  let n := a.val
  let g := agentAt s n
  if g.ctx.isNone || !hostUp s n then s
  else match off with
    | 0x008 => updAgent s n fun g => Agent.settle { g with sqbase := v, sqhead := 0, sqtail := 0 }
    | 0x010 => updAgent s n fun g => Agent.settle { g with sqsize := v, sqhead := 0, sqtail := 0 }
    | 0x018 => if g.enabled then pumpMb (updAgent s n fun g => { g with sqtail := v.toNat % g.sqsize.toNat }) a else s
    | 0x020 => updAgent s n fun g => Agent.settle { g with cqbase := v, cqhead := 0, cqtail := 0, phase := true }
    | 0x028 => updAgent s n fun g => Agent.settle { g with cqsize := v, cqhead := 0, cqtail := 0, phase := true }
    | 0x030 =>
      if g.enabled then
        pumpMb (deliverAgent (updAgent s n fun g => { g with cqhead := v.toNat % g.cqsize.toNat, overflowed := false }) n) a
      else s
    | _ => s

/-- SQTAIL_WRITE. -/
def execSqtailWrite (agent : Fin 16) (value : BitVec 64) (s : State) : Host.Outcome State Fault Refusal :=
  happen (mbPut s agent 0x018 value)
/-- CQHEAD_WRITE. -/
def execCqheadWrite (agent : Fin 16) (value : BitVec 64) (s : State) : Host.Outcome State Fault Refusal :=
  happen (mbPut s agent 0x030 value)

/-- A register of a mailbox page. -/
def mbGet (s : State) (a off : Nat) : Word :=
  let g := agentAt s a
  match g.ctx with
  | none => 0
  | some x => match off with
    | 0x000 => word (a + s.device % 256 * 2 ^ 8 + worldOf s x * 2 ^ 16 + x * 2 ^ 22)
    | 0x008 => g.sqbase
    | 0x010 => g.sqsize
    | 0x020 => g.cqbase
    | 0x028 => g.cqsize
    | 0x038 => word (boolNat g.enabled + 2 * boolNat g.overflowed + 4 * boolNat g.malformed)
    | _ => 0

/-! Commands (R360) -/

/-- What a command came to: a status byte with its two result doublewords, or that it waits. -/
inductive MbDone where
  | done (s : State) (code : Nat) (r1 r2 : Word)
  | wait (s : State)
  deriving DecidableEq, Repr

/-- A body of a command: state, status code and results. A check at which a hart would take an exception is MALFORMED. -/
def mbOf (s : State) (r : Res (State × Nat × Word)) : MbDone :=
  match r with
  | .ok (t, code, v) => .done t code v 0
  | .error (.trap c v) => .done s 0x41 v (word c)
  | .error (.trapAt t c v) => .done t 0x41 v (word c)
  | .error (.stall t) | .error (.point t) => .wait t

/-- Perform the command at the head of an agent's ring, if it has the opcode of the event. Larch reads the rings (R374). -/
def runMb (a : Fin 16) (op : Nat) (i : Instr) (body : State → MbDone) (s : State) : Host.Outcome State Fault Refusal :=
  if !s.larch then block s i
  else if !cmdWaits s a.val || fld (cmdWord s a.val 0) 0 8 != op then happen s
  else match body s with
    | .wait t => block t i
    | .done t code r1 r2 => happen (pumpMb (endMb t a.val code r1 r2) a)

/-- Replace an agent's holdings. -/
def putHoldings (s : State) (a : Nat) (l : List Holding) : State := updAgent s a fun g => { g with holdings := l }
/-- The context of an assigned agent. -/
def agentCtx (s : State) (a : Nat) : Nat := (agentAt s a).ctx.getD 0
/-- Units of an entry that kernels of an agent pin. -/
def agentPins (s : State) (a i : Nat) : Nat := kernelPins s (.agent a) i

/-- A status value as the completion of a command: its code, and the value itself in doubleword 1. -/
def mbStatus (v : Word) : Nat × Word := (fld v 0 8, v)

/-- The number under which an agent sends, and waits in a queue unit. -/
def agentSender (a : Nat) : Nat := 2 ^ 40 + a

/-- An agent as a launcher (R307). -/
def agentLaunch (s : State) (a : Nat) : LaunchBy :=
  { launcher := .agent a, holdings := (agentAt s a).holdings, ctx := agentCtx s a,
    prio := match ctxOf s (agentCtx s a) with | some c => c.prio | none => 0, self := none, pins := agentPins s a }

/-- LAUNCH: the descriptor is read from host memory. -/
def mbLaunchBody (a : Nat) (s : State) : MbDone :=
  let va := cmdWord s a 1
  let arg := cmdWord s a 2
  let kind := (cmdWord s a 3).toNat
  let d := descOf (Memory.getN s.mem (hostPa a va.toNat) 64)
  match (if 2 < kind then .error (.trap causeEngine va) else launchAsk s (agentLaunch s a) va d arg kind) with
  | .error (.stall t) | .error (.point t) => .wait t
  | .error (.trap c v) => .done s 0x41 v (word c)
  | .error (.trapAt t c v) => .done t 0x41 v (word c)
  | .ok (s, own) =>
    match queueAt s (dLq d) with
    | none => .done s 0x41 (word (dLq d)) (word causeEngine)
    | some q =>
      match waitAs (agentSender a) s (dLq d) q with
      | .error (.stall t) | .error (.point t) => .wait t
      | .error _ => .wait s
      | .ok _ =>
      let s := grantPush (goOnAs (agentSender a) s (dLq d)) (dLq d)
      let q := (queueAt s (dLq d)).getD q
      if queueRefuses s q || !queueRoomy s (dLq d) q then .done s 0x42 1 0
      else match nextSlot s with
        | none => .done s 0x42 2 0
        | some slot =>
          let (t, l) := launchNow s (agentLaunch s a) slot d arg kind own
          .done (putHoldings t a l) 0 (ticketOf slot (tgetD t.sgens slot 0)) 0
/-- MB_LAUNCH. -/
def execMbLaunch (agent : Fin 16) (s : State) : Host.Outcome State Fault Refusal :=
  runMb agent 1 (.mbLaunch agent) (mbLaunchBody agent.val) s

/-- The level and physical base of a publication; none for a value that is not valid. -/
def pubBase (a : Nat) (base len attrs : Word) : Option (Level × Nat) :=
  let b := base.toNat
  let n := len.toNat
  match Level.ofCode (fld attrs 0 4) with
  | some .host => if b + n ≤ 2 ^ 51 then some (.host, hostPa a b) else none
  | some .pool =>
    if isPoolPa b && isPoolPa (b + n - 1) then some (.pool, b) else if b + n ≤ 2 ^ 53 then some (.pool, 2 ^ 53 + b) else none
  | _ => none

/-- Pool regions of every context. -/
def poolRegions (s : State) : List (Nat × Nat) := (s.ctxs.map fun c => c.2.regions.map fun r => (r.1, r.1 + r.2)).flatten

/-- PUBLISH (R361). -/
def mbPublishBody (a : Nat) (s : State) : MbDone :=
  let base := cmdWord s a 1
  let len := cmdWord s a 2
  let attrs := cmdWord s a 3
  let ctx := agentCtx s a
  let comp := fld attrs 12 4
  let sized := base.toNat % 4096 = 0 && len.toNat % 4096 = 0 && 4096 ≤ len.toNat && len.toNat ≤ 2 ^ 40
  let legal := attrs &&& 0xFFFFFFFFFFFF00F0#64 = 0 && layoutOk (fld attrs 8 4) len.toNat 0 && comp < 8 &&
    (match ctxOf s ctx with | some c => c.cceil.getLsbD comp | none => false)
  match pubBase a base len attrs, sized with
  | some (l, pa), true =>
    if !legal then .done s 9 (status 9 2) 0
    else if !clear (publications s ++ poolRegions s) pa (pa + len.toNat) then .done s 0x40 0 0
    else match freeIndex s with
      | none => .done s 4 (status 4 0) 0
      | some i =>
        if capWaits s i then .wait s
        else if 4096 ≤ (agentAt s a).holdings.length then .done s 4 (status 4 1) 0
        else
          let old := tgetD s.caps i Cap.free
          let c := { Cap.free with
            state := .owned, level := l, layout := fld attrs 8 4, comp := comp, world := worldOf s ctx, gen := old.gen + 1,
            okind := .hostAgent, owner := a, base := pa, length := len.toNat, ctx := ctx, encver := old.encver }
          let s := { s with caps := tput s.caps i c }
          .done (putHoldings s a (putHolding (agentAt s a).holdings (wholeOf s i))) 0 (wholeHandle s i) 0
  | _, _ => .done s 9 (status 9 (if legal then 1 else 2)) 0
/-- MB_PUBLISH. -/
def execMbPublish (agent : Fin 16) (s : State) : Host.Outcome State Fault Refusal :=
  runMb agent 2 (.mbPublish agent) (mbPublishBody agent.val) s

/-- Whether an entry is a publication. -/
def isPublication (s : State) (i : Nat) (c : Cap) : Bool :=
  c.level == .host || (c.level == .pool && (tgetD s.poolFrames (c.base / 4096) PoolFrame.none).tensor != i)

/-- UNPUBLISH: the WHOLE handle of a publication in OWNED. -/
def mbUnpublishBody (a : Nat) (s : State) : MbDone := mbOf s (do
  let hv := cmdWord s a 1
  let l := (agentAt s a).holdings
  let c ← ownedIn s l hv
  if !isPublication s (hIndex hv) c then .error (.trap causeCapability hv)
  .ok (putHoldings (freeEntry s (hIndex hv)) a (removeHolding l (hIndex hv) .whole), 0, 0))
/-- MB_UNPUBLISH. -/
def execMbUnpublish (agent : Fin 16) (s : State) : Host.Outcome State Fault Refusal :=
  runMb agent 3 (.mbUnpublish agent) (mbUnpublishBody agent.val) s

/-- SEND: as a plain BSEND. A move to another device completes when its answer has come. -/
def mbSendBody (a : Nat) (s : State) : MbDone :=
  match ownMove s (agentSender a) with
  | some m =>
    match m.2.answer with
    | none => .wait s
    | some v => .done (tellMove s m) (mbStatus v).1 (mbStatus v).2 0
  | none =>
    let hv := cmdWord s a 1
    let w : Sender := { id := agentSender a, hart := none, holdings := (agentAt s a).holdings, pins := agentPins s a (hIndex hv) }
    match sendable s w hv with
    | .error (.stall t) | .error (.point t) => .wait t
    | .error (.trap c v) => .done s 0x41 v (word c)
    | .error (.trapAt t c v) => .done t 0x41 v (word c)
    | .ok (g, c) =>
      match sendChecked s w g c hv (cmdWord s a 2) (cmdWord s a 3) 0 c.comp with
      | .status v => .done s (mbStatus v).1 (mbStatus v).2 0
      | .gone t l => .done (putHoldings t a l) 0 0 0
      | .asked t l => .wait (putHoldings t a l)
/-- MB_SEND. -/
def execMbSend (agent : Fin 16) (s : State) : Host.Outcome State Fault Refusal :=
  runMb agent 4 (.mbSend agent) (mbSendBody agent.val) s

/-- FREE: as BFREE. -/
def mbFreeBody (a : Nat) (s : State) : MbDone := mbOf s (do
  let hv := cmdWord s a 1
  let (t, l) ← freeIn s (agentAt s a).holdings hv (agentPins s a (hIndex hv))
  .ok (putHoldings t a l, 0, 0))
/-- MB_FREE. -/
def execMbFree (agent : Fin 16) (s : State) : Host.Outcome State Fault Refusal :=
  runMb agent 5 (.mbFree agent) (mbFreeBody agent.val) s

/-- SPLIT: as BSPLIT. -/
def mbSplitBody (a : Nat) (s : State) : MbDone := mbOf s (do
  let (t, l, v) ← splitIn s (agentAt s a).holdings (cmdWord s a 1) (cmdWord s a 2)
  .ok (putHoldings t a l, if isStatus v then (mbStatus v).1 else 0, v))
/-- MB_SPLIT. -/
def execMbSplit (agent : Fin 16) (s : State) : Host.Outcome State Fault Refusal :=
  runMb agent 6 (.mbSplit agent) (mbSplitBody agent.val) s

/-- JOIN: as BJOIN. -/
def mbJoinBody (a : Nat) (s : State) : MbDone := mbOf s (do
  let hv := cmdWord s a 1
  let (t, l, v) ← joinIn s (agentAt s a).holdings hv (cmdWord s a 2) (agentPins s a (hIndex hv))
  .ok (putHoldings t a l, if isStatus v then (mbStatus v).1 else 0, v))
/-- MB_JOIN. -/
def execMbJoin (agent : Fin 16) (s : State) : Host.Outcome State Fault Refusal :=
  runMb agent 7 (.mbJoin agent) (mbJoinBody agent.val) s

/-! Host accesses (R363, R376) -/

/-- Whether an agent of a port may read, or write, bytes of a DEVICE frame. -/
def hostMay (s : State) (port : Nat) (write : Bool) (pa : Nat) : Bool :=
  let i := (frameOf s pa).tensor
  match (if isDevicePa pa && i != 0 && !scrubBlocked s pa then capAt s i else none) with
  | none => false
  | some c => (rangeFrom (8 * port) 8).any fun a => (agentAt s a).holdings.any fun g => g.of i c.gen && !g.void && match g.kind with
    | .whole => g.susp = 0 && c.state == .owned
    | .share => !write && c.state == .shared && g.units != 0
    | .deposit | .notice => false

/-- `fwstat` (R376). -/
def fwstatOf (s : State) : Word :=
  if s.tripped then 0
  else word (boolNat s.yew + 2 * boolNat s.larch + 4 * boolNat s.settled + fld Config.mimpid 0 8 * 2 ^ 8)

/-- The doubleword at an aligned offset of BAR 0 of a port. -/
def barWord (s : State) (port off : Nat) : Word :=
  if off < 0x8000 then mbGet s (8 * port + off / 4096) (off % 4096)
  else if off < 0x8098 then
    let k := (off - 0x8000) / 8
    word ((tgetD s.ready (2 * k) 0#32).toNat + (tgetD s.ready (2 * k + 1) 0#32).toNat * 2 ^ 32)
  else if off = 0x8100 then fwstatOf s
  else 0

/-- A byte of BAR 0. -/
def barByte (s : State) (port off : Nat) : Byte := BitVec.ofNat 8 ((barWord s port (off / 8 * 8)).toNat / 2 ^ (8 * (off % 8)))

/-- Bytes of DEVICE memory wait for a function that is not settled (R377). -/
def hostWaits (s : State) (pas : List Nat) : Bool := pas.any (lineWaits s)

/-- HOST_MEM_READ. The bytes are those of the home slices. A refused read is aborted over PCIe, and over CXL.mem its data are poisoned. After a trip
only BAR 0 answers (R378). Nothing comes over a link that carries no traffic (R356). -/
def execHostMemRead (port : Fin 2) (pa len : Nat) (via : HostVia) (s : State) : Host.Outcome State Fault Refusal :=
  let p := 16 + port.val
  if !(portAt s p).carries || (s.tripped && via != .bar0) then happen s else
  match via with
  | .bar0 => happen (sendOut s none (.readReply p .done ((rangeFrom pa len).map (barByte s port.val))))
  | .pcie | .cxl =>
    let pas := rangeFrom pa len
    if !pas.all (hostMay s port.val false) then happen (sendOut s none (.readReply p (if via == .cxl then .poisoned else .aborted) []))
    else if hostWaits s pas then block s (.hostMemRead port pa len via)
    else match homeBytes s 0 pas with
      | some b => happen (sendOut (noteRead s 0 pas) none (.readReply p .done b))
      | none =>
        let bad := (pas.filter fun a => (linePlain s 0 a).isNone).map lineOf
        happen (sendOut ((uniq bad).foldl lineError s) none (.readReply p .ecc []))

/-- HOST_MEM_WRITE. A refused write over CXL.mem is dropped and counted for Larch. On BAR 0 an aligned doubleword writes a register. -/
def execHostMemWrite (port : Fin 2) (pa : Nat) (bytes : List Byte) (via : HostVia) (s : State) : Host.Outcome State Fault Refusal :=
  let p := 16 + port.val
  let pas := rangeFrom pa bytes.length
  if !(portAt s p).carries then happen s else
  match via with
  | .bar0 =>
    happen (if pa < 0x8000 && pa % 8 = 0 && bytes.length = 8 then
      mbPut s ⟨(8 * port.val + pa / 4096) % 16, Nat.mod_lt _ (by decide)⟩ (pa % 4096) (word (leNat bytes)) else s)
  | .pcie | .cxl =>
    if !pas.all (hostMay s port.val true) then
      happen (if via == .cxl then { s with hostDrops := s.hostDrops + 1 } else sendOut s none (.writeReply p .aborted))
    else if hostWaits s pas then block s (.hostMemWrite port pa bytes via)
    else match writeHome s 0 (pas.zip bytes) with
      | (t, true) => happen (sendOut t none (.writeReply p .done))
      | (u, false) => block (carryRolls s u) (.hostMemWrite port pa bytes via)

/-- ATS_INVALIDATION (R364): it waits for the harts' stores to a named page that are still counted, and for their counted loads, any of which may be
of one. A segment of a copy is one step, so none is under way. -/
def execAtsInvalidation (port : Fin 2) (addr size : Nat) (s : State) : Host.Outcome State Fault Refusal :=
  let lo := hostPa (8 * port.val) addr
  let keep (page : Nat) : Bool := page * 4096 + 4096 ≤ lo || lo + size ≤ page * 4096
  if (harts s).any fun h => h.ldOut != 0 || h.stOut.any fun e => e.hosts.any fun p => !keep p then block s (.atsInvalidation port addr size)
  else happen (updPort s (16 + port.val) fun p => { p with ats := p.ats.filter keep })

/-! Reset and restoration (R372) -/

/-- The agents of a host port. -/
def portAgents (port : Nat) : List Nat := rangeFrom (8 * port) 8

/-- HOST_RESET: the agents' HOST buffers are QUARANTINED and their rings disabled. -/
def execHostReset (port : Fin 2) (s : State) : Host.Outcome State Fault Refusal :=
  let mine := (s.caps.filter fun c => c.2.state != .free && c.2.level == .host && (portAgents port.val).any fun a =>
    (c.2.okind == .hostAgent && c.2.owner == a) || (agentAt s a).holdings.any fun g => g.kind == .whole && g.of c.1 c.2.gen).map (·.1)
  let s := mine.foldl contain s
  happen ((portAgents port.val).foldl (fun s a =>
    if (tget s.agents a).isSome then updAgent s a fun g => { g with enabled := false, barred := true } else s) s)

/-- RINGS_RESTORED. -/
def execRingsRestored (port : Fin 2) (s : State) : Host.Outcome State Fault Refusal :=
  whenRuns s.larch s (.ringsRestored port) (happen ((portAgents port.val).foldl (fun s a =>
    if (tget s.agents a).isSome then
      let s := deliverAgent (updAgent s a fun g => Agent.settle { g with barred := false }) a
      pumpMb s ⟨a % 16, Nat.mod_lt _ (by decide)⟩
    else s) s))

end Sys2Proof.Machine
end

