-- ==== Sys2Proof/Machine/Moves.lean ====
section
/-! DEFINITION. Moves between devices at both ends (R103, R104, R365 to R367, R370), reads and writes of exported ranges (R367), and events
of a peer device (R256). -/

namespace Sys2Proof.Machine

/-! Records (R370) -/

/-- A move that goes on, at the sending or at the receiving end. -/
def moveAt (s : State) (id : Nat) (sending : Bool) : Option Move :=
  match tget s.moves id with
  | some m => if m.sending == sending && !m.closed && !m.indoubt then some m else none
  | none => none

/-- A move with further steps reached. -/
def Move.reach (m : Move) (steps : BitVec 5) : Move := { m with steps := m.steps ||| steps }

/-- The end of a move: its record stays in the log. BSEND's answer, if it is not yet written, waits for it. -/
def endMove (s : State) (id : Nat) (m : Move) : State :=
  { s with
    moves := if m.sending && !m.told then tput s.moves id { m with closed := true } else terase s.moves id
    moveLog := tput s.moveLog id { m with closed := true } }

/-- Whether the link of a move carries traffic. -/
def Move.linked (s : State) (m : Move) : Bool := (portAt s m.port).carries

/-- Units that the export table counts for a move. -/
def Move.count (m : Move) : Nat := match m.kind with | .share | .deposit => m.units | .whole | .notice => 1

/-- Take units from the export range at an export address; the last one frees it (R367). -/
def lowerExport (s : State) (base n : Nat) : State :=
  { s with exports := s.exports.filterMap fun e =>
      if e.base == base then (if e.units ≤ n then none else some { e with units := e.units - n }) else some e }

/-! The sender's end (R103, steps 1 and 3) -/

/-- The holdings of a party, while it is there. -/
def partyHoldings (s : State) (id : Nat) : Option (List Holding) :=
  match agentNo id with
  | some a => (tget s.agents a).map (·.holdings)
  | none => (findHart s id).map (·.holdings)

/-- The holding of a move's sender that the move took from; none when the sender is no more. -/
def senderHolding (s : State) (m : Move) : Option Holding :=
  (partyHoldings s m.sender).bind fun l => l.find? fun g => g.of m.index m.gen && g.kind == m.kind

/-- Change the holdings of a move's sender. -/
def modSender (s : State) (id : Nat) (f : List Holding → List Holding) : State :=
  match agentNo id with
  | some a => if (tget s.agents a).isSome then updAgent s a fun g => { g with holdings := f g.holdings } else s
  | none => updHart s id fun h => { h with holdings := f h.holdings }

/-- The suspended units of a move go back into their holding, or out of it. Units voided meanwhile (R135) do neither. -/
def settleUnits (m : Move) (back : Bool) (g : Holding) (l : List Holding) : List Holding :=
  if g.void || m.void || g.susp < m.units then l
  else putHolding l { g with units := g.units + (if back then m.units else 0), susp := g.susp - m.units }

/-- The WHOLE holding that a move had suspended, as it was. -/
def unsuspend (s : State) (m : Move) : State :=
  modSender s m.sender fun l => l.map fun g => if g.of m.index m.gen && g.kind == .whole then { g with susp := 0 } else g

/-- What a sender suspended is its own again. What a sender that is no more had goes the way of its other holdings: a whole buffer is
contained (R108), units return. -/
def restoreSender (s : State) (m : Move) : State :=
  match m.kind, senderHolding s m with
  | .whole, some _ | .notice, some _ =>
    let s := updCap s m.index fun c =>
      if c.gen == m.gen && (c.state == .moving || c.indoubt) then { c with state := .owned, indoubt := false } else c
    unsuspend s m
  | .whole, none | .notice, none => updCap (contain s m.index) m.index fun c => { c with indoubt := false }
  | .share, some g | .deposit, some g => modSender s m.sender (settleUnits m true g)
  | .share, none | .deposit, none =>
    match capAt s m.index with
    | some c => if c.gen == m.gen && c.state != .free && !m.void then giveBack s m.index m.units else s
    | none => s

/-- The pass under which BGATE took the move's buffer into another compartment still runs. -/
def gateBusy (s : State) (m : Move) : Bool :=
  m.gate.isSome && (capAt s m.index).any fun c => c.gen == m.gen && c.pass.isSome

/-- A buffer that BGATE was to deliver, and that its sender has again, is back in the compartment that it came from (R105; log 85). -/
def regate (s : State) (m : Move) : State :=
  match m.gate, capAt s m.index with
  | some comp, some c =>
    if c.gen == m.gen && c.state != .free then closePass (retag (updCap s m.index fun c => { c with comp := comp }) m.index comp) m.index c.comp
    else s
  | _, _ => s

/-- A move that has not been acknowledged reverts: an export range made for it is freed, and BSEND has its answer. -/
def revertMove (s : State) (id : Nat) (m : Move) (answer : Word) : State :=
  let s := regate (restoreSender s m) m
  let s := match m.exportBase with | some b => lowerExport s b m.count | none => s
  endMove s id { m with answer := some answer, told := m.told || (partyHoldings s m.sender).isNone }

/-- The bytes of a buffer that leave in a move, and what the reading of them does to the line cache, under the partition of the sender's
context (R161); none when they cannot be read, or a link or a host keeps them away (R356, R364). -/
def moveBytes (s : State) (m : Move) : State × Option (List Byte) :=
  match capAt s m.index with
  | none => (s, none)
  | some c =>
    let q := senderPid s m.sender
    match reachBuf s c with
    | .error (.trapAt t _ _) => (t, none)
    | .error _ => (s, none)
    | .ok s => match bufBytes s m.index c q with
      | some b => (noteBuf s m.index c q, some b)
      | none => (s, none)

/-- Step 3: BSEND writes OK and SD rises (R130); the bytes go, then the commit. Bytes that cannot be read leave the buffer QUARANTINED
(R108). -/
def ackMove (s : State) (id : Nat) (m : Move) : State :=
  let m := { m with answer := some stOk, told := m.told || (partyHoldings s m.sender).isNone }
  let s := match agentNo m.sender with
    | some _ => s
    | none => updHart s m.sender fun h => { h with sdOut := h.sdOut + 1 }
  let commit (s : State) : State :=
    sendOut (putMove s id (m.reach 0x0E#5)) (entryWorld s m.index) (.move m.port 4 m.audit (handle s.device m.index m.gen m.kind m.units) m.dest)
  if m.ref then commit s
  else match moveBytes s m with
    | (s, some b) => commit (sendOut s (entryWorld s m.index) (.moveData m.port m.audit b))
    | (s, none) =>
      let s := unsuspend (lowerSd (contain s m.index) m.sender) m
      sendOut (endMove s id (m.reach 0x02#5)) (entryWorld s m.index) (.move m.port 6 m.audit (handle s.device m.index m.gen m.kind m.units) m.dest)

/-- MOVE_ACK. -/
def execMoveAck (id : Nat) (s : State) : Host.Outcome State Fault Refusal :=
  match moveAt s id true with
  | some m => happen (if m.steps.getLsbD 1 || !m.linked s then s else ackMove s id m)
  | none => happen s

/-- A status with which a receiver refuses a move (R365): NOSPACE, NOCAP, PORT_FULL or BADDEST. -/
def refusalStatus (v : Word) : Bool := v.toNat < 2 ^ 32 && (fld v 0 8 = 3 || fld v 0 8 = 4 || fld v 0 8 = 5 || fld v 0 8 = 7)

/-- MOVE_REFUSAL. It waits for the pass that BGATE has begun, as does the revert of such a move whose link has failed (LINK). -/
def execMoveRefusal (id : Nat) (status : BitVec 64) (s : State) : Host.Outcome State Fault Refusal :=
  match moveAt s id true with
  | some m =>
    let lost : Bool := m.gate.isSome && status == Machine.status 6 m.port
    if m.steps.getLsbD 1 || !(lost || (m.linked s && refusalStatus status)) then happen s
    else if gateBusy s m then block s (.moveRefusal id status)
    else happen (revertMove s id m status)
  | none => happen s

/-- What has been given up leaves the sender (R103, R370): the entry becomes FREE after a copy, the link's for a reference that this device
stores; units leave their holding, and a reference to another device's buffer counts them no more. -/
def giveUp (s : State) (m : Move) : State :=
  let live := match capAt s m.index with | some c => c.gen == m.gen && c.state != .free | none => false
  if !live then s
  else match m.kind with
    | .whole | .notice =>
      let s := modSender s m.sender fun l => l.filter fun g => !(g.of m.index m.gen && g.kind == m.kind)
      let s := updCap s m.index fun c => { c with indoubt := false }
      if !m.ref then endBuffer s m.index
      else if m.exportBase.isNone then freeEntry s m.index
      else updCap s m.index fun c => { c with state := .owned, okind := .link, owner := m.port }
    | .share | .deposit =>
      let s := match senderHolding s m with | some g => modSender s m.sender (settleUnits m false g) | none => s
      if m.exportBase.isSome then s
      else
        let s := if m.void then s else returnUnits s m.index m.units
        match capAt s m.index with
        | some c => if c.outst = 0 && c.state != .free then freeEntry s m.index else s
        | none => s

/-- The end of a committed move at its sender. -/
def completeSend (s : State) (id : Nat) (m : Move) : State := endMove (giveUp s m) id m

/-- COMMIT_ACK: the link acknowledges the commit flit (R370). -/
def execCommitAck (id : Nat) (s : State) : Host.Outcome State Fault Refusal :=
  match moveAt s id true with
  | some m => happen (if m.steps.getLsbD 3 && m.linked s then completeSend (lowerSd s m.sender) id (m.reach 0x10#5) else s)
  | none => happen s

/-! The receiver's end (R103, steps 2 and 4) -/

/-- The kind of the rights that a request moves. -/
def reqKind (r : MoveReq) : HKind := match r.kind.val with | 0 => .whole | 1 => .share | _ => .deposit

/-- The context of a destination within the device (R97). -/
def Dest.ctx : Dest → Nat
  | .hart h => h.ctx
  | .queue _ q => q.ctx
  | .agent _ x => x
  | .far _ _ => 0

/-- The base of a remote reference (R367). -/
def remoteBase (device addr : Nat) : Nat := 2 ^ 55 + 2 ^ 47 * (device % 256) + addr % 2 ^ 47

/-- The export that rights coming home belong to, with its entry (R367): one of the buffer's own kind of rights. -/
def homeExport (s : State) (r : MoveReq) : Option (Export × Cap) :=
  match s.exports.find? fun e => e.base ≤ r.expAddr && r.expAddr < e.base + e.len && e.device == r.src.toNat with
  | some e =>
    match capAt s e.index with
    | some c =>
      let fits : Bool := match reqKind r with
        | .whole => c.state == .owned && c.okind == .link
        | .share => c.state == .shared && r.units.toNat ≤ e.units
        | .deposit => c.state == .collecting && r.units.toNat ≤ e.units
        | .notice => false
      if c.gen == e.gen && fits then some (e, c) else none
    | none => none
  | none => none

/-- Rights that a holder on another device freed: units return, a whole buffer is freed, and so is an export range with nothing left
(R367). -/
def freedAbroad (s : State) (r : MoveReq) : State :=
  match homeExport s r with
  | none => s
  | some (e, _) =>
    match reqKind r with
    | .whole | .notice => endBuffer (lowerExport s e.base e.units) e.index
    | .share | .deposit => giveBack (lowerExport s e.base r.units.toNat) e.index r.units.toNat

/-- The record of a move at its receiver, with the steps that an acknowledgement reaches: data are complete at once where none are to
come. Units are void from the first when the window that they come to is closing (R135). -/
def moveRecord (r : MoveReq) (i : Nat) (gen : BitVec 16) (home : Option Nat) (old void : Bool) : Move :=
  let none_ : Bool := r.ref || r.home
  { sending := false, port := r.port.val, peer := r.src.toNat, audit := r.audit.toNat, index := i, gen := gen,
    kind := reqKind r, units := r.units.toNat, void := void, ref := none_, sender := 0, dest := r.dest, tag := r.tag,
    scope := r.scope.val, steps := if none_ then 7 else 3, got := 0, exportBase := home, gate := none, indoubt := false, answer := none, told := old,
    closed := false, length := r.length }

/-- Acknowledge a request: the record is kept under this device's own audit sequence, which the peer learns. -/
def acknowledge (s : State) (r : MoveReq) (i : Nat) (gen : BitVec 16) (home : Option Nat) (old void : Bool) : State :=
  let id := s.audit
  let s := putMove { s with audit := id + 1 } id (moveRecord r i gen home old void)
  sendOut s (entryWorld s i) (.move r.port.val 2 r.audit.toNat (word id) r.dest)

/-- A new entry for what a request brings, ARRIVING. -/
def arrivingEntry (s : State) (r : MoveReq) (i world ctx base : Nat) (l : Level) : State :=
  let b : NewBuf :=
    { level := l, layout := r.layout.val, comp := r.comp.val, lparam := r.lparam.toNat, zero := false, length := r.length, ctx := ctx }
  updCap (makeBuf s i base b r.port.val) i fun c => { c with
    state := .arriving
    world := world
    okind := .link
    audit := r.audit.toNat }

/-- The REMOTE entry that already refers to the units' buffer. -/
def knownEntry (s : State) (r : MoveReq) (world : Nat) : Option (Nat × Cap) :=
  if reqKind r == .whole then none
  else s.caps.find? fun c => c.2.level == .remote && c.2.world == world && c.2.base == remoteBase r.src.toNat r.expAddr &&
    c.2.state == (if reqKind r == .deposit then .collecting else .shared)

/-- Step 2 for rights that come from a device that they are new on, or for a copy: entry, storage, room, acknowledgement. -/
def takeAway (s : State) (r : MoveReq) (world : Nat) (dst : Dest) : Except Word State :=
  match knownEntry s r world with
  | some (i, c) =>
    if destRoom s (reqKind r) i c.gen dst then .ok (acknowledge s r i c.gen none true c.closing) else .error (status 5 0)
  | none =>
    match freeIndex s with
    | none => .error (status 4 0)
    | some i =>
      let gen := (tgetD s.caps i Cap.free).gen + 1
      match (if r.ref then some (remoteBase r.src.toNat r.expAddr, Level.remote)
             else (deviceAlloc s dst.ctx r.length).map fun a => (a, Level.device)) with
      | none => .error (status 3 2)
      | some (base, l) =>
        if destRoom s (reqKind r) i gen dst then
          .ok (acknowledge (arrivingEntry s r i world dst.ctx base l) r i gen none false false)
        else .error (status 5 0)

/-- Step 2 for rights that come home to the device that stores their buffer. -/
def takeHome (s : State) (r : MoveReq) (dst : Dest) : Except Word State :=
  match homeExport s r with
  | none => .error (status 7 0)
  | some (e, c) =>
    if destRoom s (reqKind r) e.index c.gen dst then .ok (acknowledge s r e.index c.gen (some e.base) true (reqKind r == .deposit && c.closing))
    else .error (status 5 0)

/-- Take a request, in the local world that the port's map gives (R366), or refuse it. -/
def takeRequest (s : State) (r : MoveReq) : Except Word State :=
  match tget (portAt s r.port.val).worldMap r.world.val with
  | none => .error (status 7 0)
  | some w =>
    if r.home && fld r.dest 52 4 = 15 then .ok (freedAbroad s r)
    else match findDest s w r.comp.val r.dest with
      | none | some (.far _ _) => .error (status 7 0)
      | some dst => if r.home then takeHome s r dst else takeAway s r w dst

/-- MOVE_REQUEST. -/
def execMoveRequest (r : MoveReq) (s : State) : Host.Outcome State Fault Refusal :=
  if !(portAt s r.port.val).carries then happen s
  else match takeRequest s r with
    | .ok t => happen t
    | .error st => happen (sendOut s (tget (portAt s r.port.val).worldMap r.world.val) (.move r.port.val 3 r.audit.toNat st r.dest))

/-- MOVE_DATA: bytes go into the storage that was reserved; with the last of them step [2] is reached. -/
def execMoveData (id off : Nat) (bytes : List Byte) (s : State) : Host.Outcome State Fault Refusal :=
  match moveAt s id false with
  | none => happen s
  | some m =>
    if m.ref || !m.linked s || m.length < off + bytes.length || m.steps.getLsbD 2 then happen s
    else match (capAt s m.index).bind fun c => bufPas s m.index c off bytes.length with
      | none => happen s
      | some pas =>
        match writeHome s 0 (pas.zip bytes) with
        | (u, false) => block (carryRolls s u) (.moveData id off bytes)
        | (t, true) =>
          let m := { m with got := m.got + bytes.length }
          happen (putMove t id (if m.length ≤ m.got then m.reach 0x04#5 else m))

/-- Owner kind and number of a whole buffer at a destination of this device (R78). -/
def ownerAt (dest : Word) : OKind × Nat :=
  match fld dest 52 4 with
  | 0 => (.hart, fld dest 0 32)
  | 1 => (.queue, fld dest 0 32)
  | _ => (.hostAgent, fld dest 0 32)

/-- The arrival that a move brings. -/
def moveArrival (s : State) (m : Move) : Arrival :=
  { device := s.device, index := m.index, gen := m.gen, kind := m.kind, units := match m.kind with | .share | .deposit => m.units | _ => 0,
    void := m.void, scope := m.scope, tag := m.tag }

/-- The number under which the moves of a peer device are sends on their way. -/
def peerSender (device : Nat) : Nat := 2 ^ 41 + device

/-- The entry of a received move takes the state of step 4: OWNED by its receiver, or SHARED or COLLECTING with the units counted. Units
that come home are the storing entry's own, and leave the export range. -/
def takeEffect (s : State) (m : Move) (collecting : Bool) : State :=
  let s := match m.exportBase with | some b => lowerExport s b m.count | none => s
  match m.kind with
  | .whole | .notice => updCap s m.index fun c => { c with
      state := .owned
      indoubt := false
      okind := (ownerAt m.dest).1
      owner := (ownerAt m.dest).2 }
  | .share | .deposit =>
    if m.exportBase.isSome then s
    else updCap s m.index fun c => { c with
      state := if collecting then .collecting else .shared
      indoubt := false
      okind := .link
      owner := m.port
      outst := c.outst + if m.void then 0 else m.units }

/-- The entry is still the one that the move reserved. -/
def Move.entryLives (s : State) (m : Move) : Bool :=
  match capAt s m.index with
  | some c => c.gen == m.gen && c.state != .free
  | none => false

/-- Step 4: the entry, and the arrival on its way. -/
def commitReceive (s : State) (id : Nat) (m : Move) : State :=
  if !m.entryLives s then endMove s id m
  else
    let s := takeEffect s m (m.kind == .deposit)
    let s := { s with sends := s.sends ++ [Send.mk (peerSender m.peer) m.dest (moveArrival s m) none true] }
    endMove (enqueue s (.arrivalWrite 0)) id m

/-- MOVE_COMMIT. -/
def execMoveCommit (id : Nat) (s : State) : Host.Outcome State Fault Refusal :=
  match moveAt s id false with
  | some m =>
    if m.steps.getLsbD 2 && m.linked s then
      happen (sendOut (commitReceive s id m) (entryWorld s m.index) (.move m.port 5 m.audit (handle s.device m.index m.gen m.kind m.units) m.dest))
    else happen s
  | none => happen s

/-! In doubt (R104, R370) -/

/-- The entry of a move is QUARANTINED in doubt. -/
def doubtEntry (s : State) (i : Nat) : State := updCap s i fun c => { c with state := .quarantined, indoubt := true }

/-- A move becomes in doubt at the sender, whose commit may or may not have arrived: a whole entry is QUARANTINED; units stay set apart. SD
falls (R130). -/
def doubtSend (s : State) (id : Nat) (m : Move) : State :=
  let s := if m.kind == .whole && m.entryLives s then doubtEntry s m.index else s
  putMove (lowerSd s m.sender) id { m with indoubt := true }

/-- A move becomes in doubt at the receiver. A reference entry that other units keep is as it was. -/
def doubtReceive (s : State) (id : Nat) (m : Move) : State :=
  let s := if m.entryLives s && (m.kind == .whole || !m.told) then doubtEntry s m.index else s
  putMove s id { m with indoubt := true }

/-- A receiver's part of a move is dropped: the entry made for it is FREE again; a buffer that was to come home stays the link's. -/
def dropReceive (s : State) (id : Nat) (m : Move) : State :=
  let s := if !m.entryLives s then s
    else if m.exportBase.isSome then
      (if m.kind == .whole then updCap s m.index fun c => { c with state := .owned, indoubt := false } else s)
    else if m.told then s else freeEntry s m.index
  endMove s id m

/-- A link fails under a move (R104). Before any byte has come, the receiver can not tell whether its acknowledgement had reached the
sender: a free value says (log 34). -/
def failMove (s : State) (p : Nat × Move) : State :=
  let (id, m) := p
  if m.sending then
    if m.steps.getLsbD 1 then doubtSend s id m
    else if gateBusy s m then enqueue s (.moveRefusal id (status 6 m.port))
    else revertMove s id m (status 6 m.port)
  else
    let (n, s) := draw s
    if m.got != 0 || Config.ackReached n then doubtReceive s id m else dropReceive s id m

/-- A NOTICE of type 3 for the party whose entry becomes OWNED (R102, R370), from the capability-table cache that is home to the entry. -/
def noticeResolved (s : State) (party : Nat) (m : Move) : State :=
  let scope := match agentNo party, findHart s party with
    | none, some h => scopeTileDie h.place (m.index / 2 ^ 22 % 4)
    | _, _ => 5
  postNotice s { dest := party, ntype := 3, detail := noticeOf m.index m.gen, scope := scope }

/-- A whole buffer that a resolution gives to its receiver: a hart or an agent holds it and has a NOTICE; a queue takes its arrival. What
a party that is no more was to have is freed. -/
def grantWhole (s : State) (m : Move) : State :=
  let a := moveArrival s m
  let n := fld m.dest 0 32
  match fld m.dest 52 4 with
  | 0 =>
    match findHart s n with
    | some h =>
      if holdingFull h m.index .whole || 4096 ≤ h.holdings.length + (servedCaps s n).length then noticeResolved (postArrival s n a) n m
      else noticeResolved (updHart s n fun h => { h with holdings := install h.holdings a }) n m
    | none => reclaimArrival s a
  | 1 => enqueue { s with sends := s.sends ++ [Send.mk (peerSender m.peer) m.dest a none true] } (.arrivalWrite 0)
  | _ =>
    if (tget s.agents n).isSome then noticeResolved (updAgent s n fun g => { g with holdings := install g.holdings a }) (2 ^ 40 + n) m
    else reclaimArrival s a

/-- Resolution at the sender. -/
def resolveSend (s : State) (id : Nat) (m : Move) (committed : Bool) : State :=
  if committed then completeSend s id m
  else
    let alive := (senderHolding s m).isSome
    let s := regate (restoreSender s m) m
    let s := match m.exportBase with | some b => lowerExport s b m.count | none => s
    let s := if m.kind == .whole && alive then noticeResolved s m.sender m else s
    endMove s id m

/-- Resolution at the receiver. -/
def resolveReceive (s : State) (id : Nat) (m : Move) (committed : Bool) : State :=
  if !committed then dropReceive s id m
  else if !m.entryLives s then endMove s id m
  else if m.kind == .whole then grantWhole (endMove (takeEffect s m false) id m) m
  else commitReceive s id m

/-- INDOUBT_RESOLVE: Yew resolves a move in doubt at Larch's direction (R370); it waits while Larch does not run (R374). What the receiver's
record shows of step [2] decides: here that is the device's own record, and for a sender `committed` says what the peer's shows. -/
def execIndoubtResolve (id : Nat) (committed : Bool) (s : State) : Host.Outcome State Fault Refusal :=
  if !s.larch then block s (.indoubtResolve id committed)
  else match tget s.moves id with
    | some m =>
      if !m.indoubt || m.closed then happen s
      else
        let m := { m with indoubt := false }
        if m.sending && !committed && gateBusy s m then block s (.indoubtResolve id committed)
        else happen (if m.sending then resolveSend s id m committed else resolveReceive s id m (m.steps.getLsbD 2))
    | none => happen s

/-! Exported ranges (R365, R367) -/

/-- The physical address of a byte of an exported buffer, through the owning context's page tables: the leaf is accessed and admits the read or
the write (R337, R340). -/
def exportPa (s : State) (c : Cap) (va : Nat) (write : Bool) : Except WalkErr Nat :=
  if inTileAperture va || inClusterAperture va then .ok va
  else match ctxOf s c.ctx with
    | none => .error .page
    | some x => match walk s (fun _ => true) c.ctx (ctxSatp x) va with
      | .ok e =>
        if e.flags.getLsbD 6 && (if write then e.flags.getLsbD 2 && e.flags.getLsbD 7 else e.flags.getLsbD 1) then .ok (e.pa va) else .error .page
      | .error w => .error w

/-- The bytes of an exported range that a peer names. A range, a world or a state that refuses them aborts the access, and a page that does is
a page fault, of which Larch is told where a TABLE frame could not be read (R355). -/
def exportPas (s : State) (port : Fin 16) (world : Fin 64) (addr len : Nat) (write : Bool) : Except (State × Answer) (List Nat) :=
  match tget (portAt s port.val).worldMap world.val,
      s.exports.find? fun e => e.base ≤ addr && addr + len ≤ e.base + e.len with
  | some w, some e =>
    match capAt s e.index with
    | some c =>
      let off := addr - e.base
      let may : Bool := (c.state == .owned && c.okind == .link) || (!write && c.state == .shared)
      if c.gen == e.gen && c.world == w && may && off + len ≤ c.length then
        match (rangeFrom off len).mapM fun k => exportPa s c (c.base + k) write with
        | .ok pas => .ok pas
        | .error w => .error (tellWalk s w, .pageFault)
      else .error (s, .aborted)
    | none => .error (s, .aborted)
  | _, _ => .error (s, .aborted)

/-- The local world of a peer's message, for its answer. -/
def mappedWorld (s : State) (port : Fin 16) (world : Fin 64) : Option Nat := tget (portAt s port.val).worldMap world.val

/-- XRD. An uncorrectable error goes back as one, and its line has the outcome of R172. -/
def execXrd (port : Fin 16) (world : Fin 64) (addr len : Nat) (s : State) : Host.Outcome State Fault Refusal :=
  let w := mappedWorld s port world
  if !(portAt s port.val).carries then happen s
  else match exportPas s port world addr len false with
    | .error (t, a) => happen (sendOut t w (.readReply port.val a []))
    | .ok pas =>
      if hostWaits s pas then block s (.xrd port world addr len)
      else match homeBytes s 0 pas with
        | some b => happen (sendOut (noteRead s 0 pas) w (.readReply port.val .done b))
        | none =>
          let bad := (pas.filter fun a => (linePlain s 0 a).isNone).map lineOf
          happen (sendOut ((uniq bad).foldl lineError s) w (.readReply port.val .ecc []))

/-- A line that a write of some of its bytes must read, and cannot (R165, R172). -/
def meetsBad (s : State) (cells : List Host.Cell) : Bool :=
  (byLine cells).any fun l => linePa l.1 && l.2.length < 128 && (linePlain s 0 l.1).isNone

/-- XWR. An uncorrectable error that it meets goes back as one. -/
def execXwr (port : Fin 16) (world : Fin 64) (addr : Nat) (bytes : List Byte) (s : State) : Host.Outcome State Fault Refusal :=
  let w := mappedWorld s port world
  if !(portAt s port.val).carries then happen s
  else match exportPas s port world addr bytes.length true with
    | .error (t, a) => happen (sendOut t w (.writeReply port.val a))
    | .ok pas =>
      if hostWaits s pas then block s (.xwr port world addr bytes)
      else match writeHome s 0 (pas.zip bytes) with
        | (t, true) => happen (sendOut t w (.writeReply port.val (if meetsBad s (pas.zip bytes) then .ecc else .done)))
        | (u, false) => block (carryRolls s u) (.xwr port world addr bytes)

/-! Events of a peer (R256, R366) -/

/-- An event that is answered with FAULT: a posted one counts in the destination cluster, or for NODEST at its poster, and a returning one has its
reply. -/
def refuseEvent (s : State) (w : Option Nat) (port cluster reason : Nat) (returning : Bool) : State :=
  if returning then sendOut s w (.eventReply port (evFault reason)) else if reason = 3 then s else countFault s cluster

/-- EVT_MESSAGE. -/
def execEvtMessage (port : Fin 16) (m : EvtMsg) (s : State) : Host.Outcome State Fault Refusal :=
  if !(portAt s port.val).carries then happen s
  else match m with
    | .event poster world addr delay weight returning =>
      let cl := addr.toNat / 2 ^ 18 % 64
      match tget (portAt s port.val).worldMap world.val with
      | none => happen (refuseEvent s none port.val cl 2 returning)
      | some w =>
        if addr.toNat / 2 ^ 24 != s.device || addr.toNat / 2 ^ 16 % 4 != 0 || 1023 < delay then
          happen (refuseEvent s (some w) port.val cl 3 returning)
        else
          let e : Event :=
            { cluster := cl, acc := addr.toNat % 2 ^ 16, weight := weight, delay := delay, world := w, poster := poster.map fun p => (p.1.toNat, p.2.toNat), home := none,
              replyTo := if returning then some port.val else none }
          happen (enqueue { s with events := s.events ++ [e] } (.eventDeliver 0))
    | .reply hartloc status =>
      happen (updHart s hartloc.toNat fun h =>
        if h.evWait == some (port.val, none) then { h with evWait := some (port.val, some status) } else h)

end Sys2Proof.Machine
end

