-- ==== Sys2Proof/Machine/Links.lean ====
section
/-! DEFINITION. Link states (R356), what a failing link takes with it (R104, R150, R155, R256, R277), encryption under replay (R369) and
relays (R368). -/

namespace Sys2Proof.Machine

/-! When a link fails -/

/-- Events that have left over a port and are not answered: returning EPOSTs have FAULT, reason LINK; posted ones are lost, and count in the poster's
cluster (R256). -/
def failEvents (s : State) (p : Nat) : State :=
  let s := (s.postedOut.filter fun e => e.1 == p).foldl (fun s e => countFault s e.2) s
  let s := { s with postedOut := s.postedOut.filter fun e => e.1 != p }
  ((harts s).filter fun h => h.evWait == some (p, none)).foldl (fun s h =>
    updHart s h.loc fun h => { h with evWait := some (p, some (evFault 4)) }) s

/-- Deposit slots whose acknowledgement is still to come over a port are rejected with reason LINK (R150). -/
def failDeposits (s : State) (p : Nat) : State :=
  let lost := s.acks.filter fun r => r.fromPort == some p
  let s := { s with acks := s.acks.filter fun r => r.fromPort != some p }
  postReplies s (lost.map fun r => { r with reason := 7, seq := 0 })

/-- Drain requests that a link has relayed have their response (R155, step 4). -/
def failDrains (s : State) (p : Nat) : State :=
  (s.caps.filter fun c => match c.2.drain with
    | some d => d.waiting.any fun a => match a with | .port q => q.val == p | .cluster _ => false
    | none => false).foldl (fun s c => enqueue s (.drainResponse c.1 (.port ⟨p % 16, Nat.mod_lt _ (by decide)⟩))) s

/-- Open link-class channels with a device behind a port become BROKEN, and the harts that stall at them raise LINK (R277, R292). -/
def failChans (s : State) (p : Nat) : State :=
  (s.chans.filter fun c => isLinkChan c.1 && c.2.state == .open && (c.2.peers s.device).any fun d => routePort s d == p).foldl
    (fun s c => tellStalled (putChan s c.1 { chanAt s c.1 with state := .broken }) c.1 .broken) s

/-- Packets of the peers behind a port may be lost: their slices take the next that comes, whatever its number (R146; log 102). -/
def forgetSeries (s : State) (p : Nat) : State :=
  let behind (d : Nat) : Bool := d != s.device && routePort s d == p
  { s with
    expected := s.expected.filter fun e => !behind (e.1 / 4096)
    relinked := uniq (s.relinked ++ (rangeFrom 0 256).filter behind) }

/-- Every request that has not been answered fails on a link that enters RETRAIN or DOWN (R356). Those of a host port are answered in the step
that makes them. -/
def failLink (s : State) (p : Nat) : State :=
  let mine := s.moves.filter fun m => m.2.port == p && !m.2.closed && !m.2.indoubt
  forgetSeries (failChans (failDrains (failDeposits (failEvents (mine.foldl failMove s) p) p) p) p) p

/-- A link stops carrying: its keys and lanes go, and a running MMA that reads over it fails (R201). -/
def dropLink (s : State) (p : Nat) (dst : LinkState) : State :=
  failLink (failMmas s (updPort s p fun k => { k with
    state := dst
    key := none
    selective := []
    lanes := 0 })) p

/-! Relays (R368) -/

/-- Bytes of a relay buffer. -/
def relayBytes : Nat := 524288
/-- Bytes in a relay buffer. -/
def relayUsed (k : Port) : Nat := k.relay.foldl (fun n r => n + r.2) 0

/-- A link carries traffic: what waits in its relay buffer and for its port goes on, in order, and what waits for the agents of a host port. With a peer link
UP the device identifier is fixed (R13). -/
def linkUp (s : State) (p : Nat) : State :=
  let waits := (portAt s p).relay
  let s := updPort s p fun k => { k with
    state := .up
    relay := [] }
  let s := sendWaiting (waits.foldl (fun s r => sendOut s none (.relay p r.1 r.2)) s) p
  if p < 16 then { s with deviceFixed := true }
  else (portAgents (p - 16)).foldl (fun s a =>
    if (tget s.agents a).isSome then pumpMb (deliverAgent s a) ⟨a % 16, Nat.mod_lt _ (by decide)⟩ else s) s

/-- RELAY_PACKET: a packet that came in over a peer port for another device goes into the relay buffer of the port that the route gives,
and on as soon as that port carries. While the buffer is full the packet is held back. No packet crosses a third link. -/
def execRelayPacket (port : Fin 16) (dest : BitVec 8) (size : Nat) (s : State) : Host.Outcome State Fault Refusal :=
  let d := dest.toNat
  if d = s.device || !(portAt s port.val).carries || (tgetD s.routes d 0#8).getLsbD 7 then happen s
  else
    let q := routePort s d
    let k := portAt s q
    if relayBytes < relayUsed k + size then block s (.relayPacket port dest size)
    else if k.carries then happen (sendOut s none (.relay q d size))
    else happen (updPort s q fun k => { k with relay := k.relay ++ [(d, size)] })

/-! Encryption under replay (R369) -/

/-- FLIT_RECEIVE: a flit is accepted when its counter is the next and its tag authenticates; any other sends the link to RETRAIN. The
first one makes a KEYED link UP, with this direction's own first flit. A host link with IDE numbers its flits by the IDE specification. -/
def execFlitReceive (port : PortId) (counter : BitVec 64) (auth : Bool) (s : State) : Host.Outcome State Fault Refusal :=
  let p := portNo port
  let k := portAt s p
  if k.key.isNone || !(k.carries || k.state == .keyed) then happen s
  else if !auth || (p < 16 && counter != k.rx) then happen (dropLink s p .retrain)
  else
    let t := updPort s p fun k => { k with rx := k.rx + 1 }
    happen (if k.state == .keyed then linkUp (sendOut t none (.flit p k.tx false)) p else t)

/-- LINK_REPLAY: the last flit goes out again as it was; the counter stays. -/
def execLinkReplay (port : Fin 16) (s : State) : Host.Outcome State Fault Refusal :=
  let k := portAt s port.val
  happen (if k.carries && k.tx != 0 then { s with linkOut := s.linkOut ++ [(none, .flit port.val (k.tx - 1) true)] } else s)

/-! Link states (R356) -/

/-- Lanes of a port at full width. -/
def fullLanes (p : Nat) : Nat := if p < 16 then 4 else 16

/-- TRAINING_START: Larch trains a port that has passed its self-test; it waits for one that is not settled, and while Larch does not run (R374, R377). -/
def execTrainingStart (p : PortId) (s : State) : Host.Outcome State Fault Refusal :=
  let n := portNo p
  if (portAt s n).state != .down then happen s
  else if !s.larch || unsettled s 37 n then block s (.trainingStart p)
  else happen (if isReady s 37 n then updPort s n fun k => { k with state := .training, key := none, lanes := 0 } else s)

/-- A link in training, or again in training. -/
def training (k : Port) : Bool := k.state == .training || k.state == .retrain

/-- LANES_LOCKED: with keys the link is KEYED; a host link without IDE, which has none, is UP. -/
def execLanesLocked (p : PortId) (s : State) : Host.Outcome State Fault Refusal :=
  let n := portNo p
  let k := portAt s n
  if !training k then happen s
  else
    let t := updPort s n fun k => { k with
      lanes := fullLanes n
      state := if k.key.isSome then .keyed else k.state }
    happen (if k.key.isNone && 16 ≤ n && k.state == .training then linkUp t n else t)

/-- LINK_KEYS_INSTALLED: new keys for both directions, and both counters at zero (R369; the keys are free values, log 18). With its lanes
locked the link is KEYED. -/
def execLinkKeysInstalled (p : PortId) (s : State) : Host.Outcome State Fault Refusal :=
  let n := portNo p
  if !training (portAt s n) then happen s
  else whenRuns s.yew s (.linkKeysInstalled p) <|
    let (a, s) := draw s
    let (b, s) := draw s
    happen (updPort s n fun k => { k with
      key := some (Config.linkKey a, Config.linkKey b)
      tx := 0
      rx := 0
      state := if k.lanes != 0 then .keyed else k.state })

/-- The widths at which a port runs: ×4, ×2 and ×1 for a peer port (R356), ×16, ×8 and ×4 for a host port (R357). -/
def portLanes (p : Nat) : List Nat := if p < 16 then [1, 2, 4] else [4, 8, 16]

/-- LANE_FAIL: fewer lanes, or a lower rate with all of them. A width that the port does not support
is no such event. -/
def execLaneFail (p : PortId) (lanes : Nat) (s : State) : Host.Outcome State Fault Refusal :=
  let n := portNo p
  happen (if (portAt s n).carries && (portLanes n).contains lanes then
    updPort s n fun k => { k with state := .degraded, lanes := lanes } else s)

/-- LANES_RECOVERED. -/
def execLanesRecovered (p : PortId) (s : State) : Host.Outcome State Fault Refusal :=
  let n := portNo p
  happen (if (portAt s n).state == .degraded then updPort s n fun k => { k with state := .up, lanes := fullLanes n } else s)

/-- LINK_FAILURE: replay exhausted, an authentication failure or a counter mismatch. -/
def execLinkFailure (p : PortId) (s : State) : Host.Outcome State Fault Refusal :=
  happen (if (portAt s (portNo p)).carries then dropLink s (portNo p) .retrain else s)

/-- TRAINING_TIMEOUT. -/
def execTrainingTimeout (p : PortId) (s : State) : Host.Outcome State Fault Refusal :=
  let k := portAt s (portNo p)
  happen (if training k || k.state == .keyed then dropLink s (portNo p) .down else s)

/-- PORT_DISABLE. -/
def execPortDisable (p : PortId) (s : State) : Host.Outcome State Fault Refusal := happen (dropLink s (portNo p) .down)

end Sys2Proof.Machine
end

