-- ==== Sys2Proof/Machine/Device.lean ====
section
/-! DEFINITION. The device in its package (R354, R373 to R378): self-tests, monitors, resets and restarts of the management firmware. -/

namespace Sys2Proof.Machine

/-! Readiness (R375, R377) -/

/-- A readiness bit that stands for a function (R375). -/
def isFunction (f : FnBit) : Bool :=
  if f.window.val < 36 then true else if f.window.val = 36 then f.bit.val < 25 else f.bit.val < 18

/-- SELF_TEST_COMPLETE: the function's own test ends; a pass sets its bit. A function has one test after a reset. -/
def execSelfTestComplete (f : FnBit) (pass : Bool) (s : State) : Host.Outcome State Fault Refusal :=
  let w := f.window.val
  let mask := 1#32 <<< f.bit.val
  if !isFunction f || isSettled s w f.bit.val then happen s
  else
    let s := { s with tested := tput s.tested w (tgetD s.tested w 0#32 ||| mask) }
    happen (if pass then { s with ready := tput s.ready w (tgetD s.ready w 0#32 ||| mask) } else s)

/-- SETTLE_TIMEOUT: a function that has not passed by now is out of service. A cold boot has ended. -/
def execSettleTimeout (s : State) : Host.Outcome State Fault Refusal := happen { s with settled := true, booting := false }

/-- OUT_OF_SERVICE: Larch takes a function out of service, and its bit is clear until the next reset. A port that is out of service carries nothing. -/
def execOutOfService (f : FnBit) (s : State) : Host.Outcome State Fault Refusal :=
  let w := f.window.val
  if !s.larch then block s (.outOfService f)
  else if isReady s w f.bit.val then
    let s := { s with
      ready := tput s.ready w (tgetD s.ready w 0#32 &&& ~~~(1#32 <<< f.bit.val))
      tested := tput s.tested w (tgetD s.tested w 0#32 ||| (1#32 <<< f.bit.val)) }
    happen (if w = 37 then dropLink s f.bit.val .down else s)
  else happen s

/-! Monitors (R378) -/

/-- POWER_CAP_SET: from 1,200 W to 2,400 W. -/
def execPowerCapSet (watts : Nat) (s : State) : Host.Outcome State Fault Refusal :=
  whenRuns s.larch s (.powerCapSet watts) (happen (if 1200 ≤ watts && watts ≤ 2400 then { s with powerCap := watts } else s))

/-- The device after a reset of everything but the always-on register block and what is outside the dies: the scrub channels, memory with its
metadata and the sums that images refer to, the identifier, and the model's own record. -/
def afterReset (s : State) : State :=
  { State.reset with
    mem := s.mem
    lmeta := s.lmeta
    sums := s.sums
    scrubs := s.scrubs
    device := s.device
    deviceFixed := s.deviceFixed
    booting := false
    linkOut := s.linkOut
    told := s.told
    schedule := s.schedule
    fresh := s.fresh
    pending := [] }

/-- What stays until a cold reset, in a slice: its partition width (R160), what is retired (R172) and the key of its hash (R163). Its counters start
again (log 100). -/
def keepSlice (n : Nat) (sl : Slice) : Slice :=
  { Slice.start n with
    width := sl.width
    retiredWays := sl.retiredWays
    retiredEntries := sl.retiredEntries
    hashKey := sl.hashKey }

/-- Retired accumulators of an Aspen (R261). -/
def keepCluster (c : Cluster) : Cluster :=
  { Cluster.start with aspen := { Aspen.start with
      accs := (c.aspen.accs.filter fun a => a.2.retired).map fun a => (a.1, { Acc.unbound with retired := true }) } }

/-- What a reset that is not a cold one keeps: in the slices, the Aspens, the synchronisation engines and the frame tables what is retired or set until a
cold reset (R160, R172, R261, R292, R355), and the use of kernel slots, of which those in use are free now (R305; log 105). The links have failed, so
that their peers' series are as after a failure (log 102). -/
def keepLasting (s t : State) : State :=
  { t with
    slices := s.slices.map fun p => (p.1, keepSlice p.1 p.2)
    clusters := (s.clusters.map fun p => (p.1, keepCluster p.2)).filter fun p => p.2 != Cluster.start
    vars := (s.vars.filter fun v => v.2.retired).map fun v => (v.1, { Var.start with retired := true })
    frames := (s.frames.filter fun f => f.2.retired).map fun f => (f.1, { Frame.none with retired := true })
    usedSlots := s.usedSlots
    sgens := s.sgens
    freeSlots := s.freeSlots ++ s.kernels.map (·.1)
    relinked := (rangeFrom 0 256).filter (· != s.device) }

/-- A trip: every die is held in reset. The host ports go on to answer the host (R376, R378). -/
def trip (s : State) : State :=
  { keepLasting s (afterReset s) with
    ports := s.ports.filter fun p => 16 ≤ p.1
    tripped := true
    yew := false
    larch := false }

/-- MONITOR_SAMPLE: throttling begins at 95 °C or above the power cap, and ends below 90 °C and below the cap; at 110 °C, or with a rail out
of its range, the package trips. -/
def execMonitorSample (cluster : Fin 64) (temp power : Nat) (railOk : Bool) (s : State) : Host.Outcome State Fault Refusal :=
  let s := { s with monitors := tput s.monitors cluster.val (temp, power, railOk) }
  if 110 ≤ temp || !railOk then happen (trip s)
  else
    let above : Bool := s.powerCap < power
    let s := updCluster { s with overCap := above } cluster.val fun c => { c with
      throttled := if 95 ≤ temp || above then true else if temp < 90 && power < s.powerCap then false else c.throttled }
    happen s

/-! Resets (R354, R377) -/

/-- The scrub of every active channel goes on. -/
def scrubEvents (s : State) : List Instr := ((List.finRange 8).filter fun n => (s.scrubs.get n).act).map .scrubFrame

/-- COLD_RESET: every self-test is to run again, Yew starts every scrub channel over its whole stack, each slice has a new hash key (R163),
and the device has identifier 0 until Larch assigns one (R13). -/
def execColdReset (s : State) : Host.Outcome State Fault Refusal :=
  let t := afterReset { s with scrubs := State.reset.scrubs }
  let t := (rangeFrom 0 64).foldl (fun t n =>
    let (k, t) := draw t
    { t with slices := tput t.slices n { Slice.start n with hashKey := Config.hashKey (64 + k) } }) t
  happen { t with relinked := (rangeFrom 0 256).filter (· != s.device), pending := State.reset.pending, device := 0, deviceFixed := false, booting := true }

/-- WARM_RESET: every self-test is to run again; the scrub channels go on from where they are, and what is retired until a cold reset stays
so (R172, R261, R292, R355). -/
def execWarmReset (s : State) : Host.Outcome State Fault Refusal :=
  happen { keepLasting s (afterReset s) with pending := scrubEvents s ++ [.settleTimeout] }

/-! Firmware restarts (R374) -/

/-- LARCH_RESTART: Larch stops, and its next occurrence, which is then due, has it running again. All that runs is kept; what waits on Larch
stalls between the two. -/
def execLarchRestart (s : State) : Host.Outcome State Fault Refusal :=
  if s.tripped then happen s
  else if s.larch then happen (enqueue { s with larch := false } .larchRestart)
  else happen (if s.yew then { s with larch := true } else s)

/-- YEW_RESTART: the management harts take a warm reset, Larch's among them; the scrub channels and all that runs go on. -/
def execYewRestart (s : State) : Host.Outcome State Fault Refusal :=
  if s.tripped then happen s
  else if s.yew then happen (enqueue { s with yew := false, larch := false } .yewRestart)
  else happen { s with yew := true, larch := true }

/-! Inputs without a row of their own (log 73) -/

/-- What an input of Yew, of Larch or of the hardware around the machine does. What waits on Larch or Yew is given again once they run. -/
def deviceInput (i : DevInput) (s : State) : State :=
  match i with
  | .assignDevice n => if s.deviceFixed || !s.larch then s else { s with device := n.toNat, deviceFixed := true }
  | .setWidth n p => if s.booting && s.yew && (sliceAt s n.val).tags.isEmpty then updSlice s n.val fun sl => { sl with width := p.val } else s
  | .invpg rs1 rs2 => larchInvpg rs1 rs2 s
  | .reserveFrame f => if s.yew && assignable s f then { s with frames := tput s.frames f { Frame.none with ftype := .reserved } } else s
  | .readCounter n name pid => if s.larch then { s with told := s.told ++ [.counter (lcCounter s n.val name.val pid.val)] } else s
  | .readGauge n g =>
    let sl := sliceAt s n.val
    let v := match g with
      | .entries => lcEntries sl | .tags => lcTags sl | .ztags => lcZtags sl | .rtags => lcRtags sl | .markers => markerCount sl
    if s.larch then { s with told := s.told ++ [.counter v] } else s
  | .holdStack n held => { s with stacksHeld := if held then s.stacksHeld ||| (1#8 <<< n.val) else s.stacksHeld &&& ~~~(1#8 <<< n.val) }
  | .eventAck p => match findIdx (fun e => e.1 == p.val) s.postedOut 0 with
    | some (k, _) => { s with postedOut := removeAt s.postedOut k }
    | none => s
  | .ideStream p n =>
    if s.yew && (portAt s (16 + p.val)).key.isSome then
      let (a, s) := draw s
      let (b, s) := draw s
      updPort s (16 + p.val) fun k => { k with selective := tput k.selective n.val (Config.linkKey a, Config.linkKey b) }
    else s
  | .payloadError k n => match s.packets[k]? with
    | some p => match p.slots[n]? with
      | some x => { s with packets := setAt s.packets k { p with slots := setAt p.slots n { x with lost := true } } }
      | none => s
    | none => s
  | .returningError loc => { s with payloadLost := s.payloadLost ++ [loc] }
  | .startScrub n first count =>
    let taken : Bool := s.frames.any fun f => n.val * 2 ^ 24 + first ≤ f.1 && f.1 < n.val * 2 ^ 24 + first + count &&
      (f.2.ftype == .data || f.2.ftype == .table)
    if s.yew && !(s.scrubs.get n).act && 0 < count && first + count ≤ 2 ^ 24 && !taken then startScrub s n first count none else s
  | .copyFrame old new => if s.yew && s.larch then copyFrame s (4096 * old) (4096 * new) else s
  | .retireFrame f => if s.larch then retireFree s f else s
  | .readEvents c name =>
    let a := aspenAt s c.val
    let v := match name.val with | 0 => a.posted | 1 => a.refused | 2 => a.faults | 3 => a.firedCnt | _ => a.lost
    if s.larch then { s with told := s.told ++ [.counter v] } else s
  | .readMonitor c => match tget s.monitors c.val with
    | some (temp, power, railOk) => if s.larch then { s with told := s.told ++ [.monitor temp power railOk] } else s
    | none => s
  | .readDrops what die =>
    let v := match what.val with | 0 => tgetD s.svDrops die.val 0 | 1 => tgetD s.queueErrs die.val 0 | _ => s.hostDrops
    if s.larch then { s with told := s.told ++ [.counter v] } else s

end Sys2Proof.Machine
end

