-- ==== Sys2Proof/Machine/Cache.lean ====
section
/-! DEFINITION. Events of the line cache (R163, R165, R172) and of encryption passes (R347 to R349). -/

namespace Sys2Proof.Machine

/-- LINE_FILL: a line that a read missed comes in from HBM, or over the link, under the partition identifier of the reader (R161, R163). While the
set has no way or the slice no entry for it, it waits. -/
def execLineFill (l : FillOf) (s : State) : Host.Outcome State Fault Refusal :=
  if (tensorOf s l.pa).1 != 0 || isRemotePa l.pa then
    match fillLine s l.pa l.pid with
    | (t, true) => happen t
    | (t, false) => block (carryRolls s t) (.lineFill l)
  else happen s

/-- SLICE_WRITE: a dirty line of a tile's data L1 is written back to its home slice (R165); it waits while the slice stalls. -/
def execSliceWrite (tile line : Nat) (s : State) : Host.Outcome State Fault Refusal :=
  match cleanL1 s tile fun a => lineOf a == lineOf line with
  | (t, true) => happen t
  | (t, false) => block (carryRolls s t) (.sliceWrite tile line)

/-- Write back what a pass has held, where it is still dirty (R349). -/
def releaseHeld (s : State) (held : List Nat) : State :=
  held.foldl (fun s pa => match findTag s pa 0 with | some (key, _) => (cleanTag s (homeSlice pa) key).1 | none => s) s

/-- The end of a pass (R349): a close pass closes the period; a roll leaves a fresh one open. -/
def endPass (s : State) (i : Nat) (p : Pass) : State :=
  let s := dropMarkers (updCap s i fun c => { c with
    encver := p.target
    encOpen := p.roll
    encRoll := false
    pass := none }) i
  let s := releaseHeld s p.held
  if p.thenClose then (match capAt s i with | some c => closePass s i c.comp | none => s) else s

/-- One line of a pass: decrypted under R348, written under the target version, its marker released, and the pointer advanced. A line
with the zero code keeps it. -/
def passOne (s : State) (i : Nat) (c : Cap) (p : Pass) : State :=
  match tensorLinePa s i p.ptr with
  | none => updCap s i fun c => { c with pass := some { p with ptr := p.ptr + 1 } }
  | some pa =>
    match memLine s pa with
    | none => quarantine s i
    | some bytes =>
      let key := tgetD s.keys (8 * c.world + c.comp) 0
      let s := if (metaOf s pa).zero then s else putLine s key i p.target pa bytes
      updCap (dropMarker s pa i) i fun c => { c with pass := c.pass.map fun p => { p with ptr := p.ptr + 1 } }

/-- PASS_LINE: the pass goes on until it ends, or stops at a line that it cannot read (R355). -/
def execPassLine (i : Nat) (s : State) : Host.Outcome State Fault Refusal :=
  match capAt s i with
  | none => happen s
  | some c =>
    match c.pass with
    | none => happen s
    | some p =>
      if c.length / 128 ≤ p.ptr then happen (endPass s i p)
      else
        let t := passOne s i c p
        happen (if (capAt t i).any fun d => d.pass.any fun q => q.ptr == p.ptr then t else enqueue t (.passLine i))

/-- The tag of a slice that holds a line, whatever partition it lies in. -/
def lineTag (s : State) (pa : Nat) : Option Tag :=
  ((sliceAt s (homeSlice pa)).tags.find? fun t => t.2.kind == .data && tagPa (homeSlice pa) t.2 == lineOf pa).map (·.2)

/-- A dirty line that is lost (R172): a DEVICE line is marked, and its buffer meets the error; so do the buffers that a REMOTE line is of. -/
def loseLine (s : State) (pa : Nat) : State :=
  if isRemotePa pa then
    ((s.caps.filter fun c => c.2.level == .remote && c.2.base ≤ pa && pa < c.2.base + c.2.length).map (·.1)).foldl
      (fun s i => updCap s i fun c =>
        if c.state == .collecting then { c with marked := (pa - c.base) / 128 :: c.marked }
        else if c.state == .free then c else { c with state := .quarantined }) s
  else lineError (setMeta s pa { metaOf s pa with bad := true }) pa

/-- An uncorrectable error in the data entry that caches a line (R172). -/
def entryError (s : State) (pa : Nat) : State :=
  match lineTag s pa with
  | none => s
  | some t =>
    let n := homeSlice pa
    let keys := tagKeys (sliceAt s n) fun g => g.kind == .data && g.entry == t.entry
    let s := keys.foldl (fun s k => dropTag s n k) (countLc s n cntUncorr t.pid)
    let s := updSlice s n fun sl => { sl with retiredEntries := sl.retiredEntries ++ [t.entry] }
    if t.dirty then loseLine s (lineOf pa) else s

/-- Contexts whose partition identifier maps to a set of a slice (R160). -/
def ctxsOfSet (s : State) (n set : Nat) : List Nat :=
  let p := (sliceAt s n).width
  (s.ctxs.filter fun c => p = 0 || c.2.pid % 2 ^ p == set / 2 ^ (13 - p)).map (·.1)

/-- Whether a tag might be that of a dirty line: its entry is its own and is not listed (R159; log 84). -/
def mightBeDirty (sl : Slice) (t : Tag) : Bool :=
  t.kind == .data && (t.dirty || (tget sl.entries t.entry).any fun e => e.count == 1 && !e.listed)

/-- An uncorrectable error in a tag (R172): the way is retired; for a DATA tag that might have been dirty Larch is told, and the DEVICE buffers of
every context of the set are QUARANTINED. An error in a way without a tag is counted under partition identifier 0 (log 88). -/
def tagError (s : State) (n set way : Nat) : State :=
  let key := set * 16 + way
  let tag := tget (sliceAt s n).tags key
  let lost : Bool := tag.any (mightBeDirty (sliceAt s n))
  let s := dropTag (countLc s n cntUncorr ((tag.map (·.pid)).getD 0)) n key
  let s := updSlice s n fun sl => { sl with retiredWays := sl.retiredWays ++ [key] }
  if lost then
    let ctxs := ctxsOfSet s n set
    let s : State := { s with told := s.told ++ [.tagError n set] }
    ((s.caps.filter fun c => c.2.state != .free && c.2.level == .device && ctxs.contains c.2.ctx).map (·.1)).foldl quarantine s
  else s

/-- LINE_ECC_ERROR. -/
def execLineEccError (e : LineErr) (s : State) : Host.Outcome State Fault Refusal :=
  match e with
  | .entry pa => happen (entryError s pa)
  | .tag n set way => happen (if n < 64 && set < 8192 && way < 16 then tagError s n set way else s)
  | .entryFixed pa => happen (match lineTag s pa with | some t => countLc s (homeSlice pa) cntCorr t.pid | none => s)
  | .tagFixed n set way => happen (if n < 64 && set < 8192 && way < 16 then
      countLc s n cntCorr (((tget (sliceAt s n).tags (set * 16 + way)).map (·.pid)).getD 0) else s)
  | .memory pa => happen (if isDevicePa pa || isPoolPa pa then setMeta s pa { metaOf s pa with bad := true } else s)

end Sys2Proof.Machine
end

