-- ==== Sys2Proof/Machine/Order.lean ====
section
/-! DEFINITION. Range cache maintenance (R126 to R129), WAIT (R132), and the events by which counted loads and stores are performed
(R130). -/

namespace Sys2Proof.Machine

/-- What a CMO does to a copy (R126). -/
inductive CmoKind where
  | clean | inv | clinv
  deriving DecidableEq, Repr

/-- Whether a CMO needs the store right on its lines: it may discard a line at levels 2 to 4 (R128). -/
def cmoStores (k : CmoKind) (level : Nat) : Bool := k != .clean && 2 ≤ level

/-- The checks of R128 on `n` lines from `l` up; `base` is x[rs1]. The physical addresses of the lines. A range that passes the last address
fails at 2^57 when the checks reach it, after those of the lines below (log 83). -/
def cmoLines (store : Bool) (base : Nat) : Nat → Nat → State → Res (List Nat × State)
  | 0, _, s => .ok ([], s)
  | n + 1, l, s => do
    if 2 ^ 57 ≤ l then .error (.trap causeOwnership (word (2 ^ 57)))
    let r := rightAt s l
    if r == .quarantined then .error (.trap causeQuarantined (word l))
    else if r == .lent then .error (.stall s)
    else if !r.allows store then .error (.trap causeOwnership (word (max l base)))
    else do
      let (pa, s) ← translate s (if store then .store else .load) l
      let (r, s) ← cmoLines store base n (l + 128) s
      .ok (pa :: r, s)

/-- A line's dirty bytes in the tile's data L1 go to the read point. `count`: the write-back counts in ST (R129). -/
def cmoL1Line (k : CmoKind) (count : Bool) (va : Nat) (s : State) (l : Nat) : State × Bool :=
  let t := myTile s
  let on (a : Nat) : Bool := lineOf a == l
  if !(tileOf s t).l1d.any fun c => on c.1 then (s, true)
  else if k == .inv then (updTile s t fun c => { c with l1d := c.l1d.filter fun b => !on b.1 }, true)
  else if count && 255 ≤ s.h.stOut.length then (s, false)
  else match cleanL1 s t on with
    | (s, true) => (if count then raiseOut s { va := va, lines := [], hosts := [], drop := false } else s, true)
    | (s, false) => (s, false)

/-- Level 0: the tile's data L1, and with the flag its instruction L1, for which the hart waits until its write-backs are performed. -/
def cmoHart (k : CmoKind) (flag : Bool) (va : Nat) (lines : List Nat) (s : State) : State × Bool :=
  match doAll (cmoL1Line k (!flag) va) lines s with
  | (s, true) =>
    (if flag then updTile s (myTile s) fun c => { c with l1i := c.l1i.filter fun b => !lines.contains (lineOf b.1) } else s, true)
  | (s, false) => (s, false)

/-- Levels 2 and 4: a line at its home slice. A write-back counts in ST; one that cannot be done yet, while a pass holds it or its link carries
nothing, is performed later, and the hart goes on (R129). -/
def cmoSliceLine (k : CmoKind) (q va : Nat) (s : State) (l : Nat) : State × Bool :=
  let dirty := (findTag s l q).any fun t => t.2.dirty
  let out : OutStore := { va := va, lines := [], hosts := [], drop := false }
  if k == .inv then (sliceDrop s l q, true)
  else if dirty && 255 ≤ s.h.stOut.length then (s, false)
  else match sliceClean s l q with
    | (s, true) =>
      let s := if k == .clinv then sliceDrop s l q else s
      (if dirty then raiseOut s out else s, true)
    | (s, false) => (raiseOut s { out with lines := [l], drop := k == .clinv }, true)

/-- The copies of a level (R127): what a CMO does to the lines. The staging and host-line buffers of level 1 hold nothing between steps. False
when the instruction waits in the middle. -/
def cmoAct (k : CmoKind) (level : Nat) (flag : Bool) (va : Nat) (lines : List Nat) (s : State) : State × Bool :=
  let slices (p : Nat → Bool) (s : State) : State × Bool := doAll (cmoSliceLine k (myPid s) va) (lines.filter p) s
  let then_ (r : State × Bool) (f : State → State × Bool) : State × Bool := if r.2 then f r.1 else r
  match level with
  | 0 => cmoHart k flag va lines s
  | 1 => (s, true)
  | 2 => slices isDevicePa s
  | 3 => then_ (then_ (cmoHart k false va lines s) (slices isDevicePa)) (slices isRemotePa)
  | _ => slices isRemotePa s

/-- A CMO (R128, R129). What it has done when it waits stays done. -/
def cmoBody (k : CmoKind) (level : Nat) (rs1 rs2 : Reg) (s : State) : Res State :=
  let len := fld (rx s rs2) 0 63
  let base := addrReg s rs1
  if len = 0 then .ok s
  else
    let first := base / 128 * 128
    let last := (base + len - 1) / 128 * 128
    match cmoLines (cmoStores k level) base ((last - first) / 128 + 1) first s with
    | .error e => .error e
    | .ok (pas, t) =>
      match cmoAct k level (level = 0 && bitAt (rx s rs2) 63) first (uniq (pas.map lineOf)) t with
      | (u, true) => .ok u
      | (u, false) => .error (.stall u)

/-- CMO.CLEAN at level 0. -/
def execCmoCleanHart (rs1 rs2 : Reg) (s : State) : Host.Outcome State Fault Refusal := seq s (cmoBody .clean 0 rs1 rs2 s)
/-- CMO.CLEAN at level 1. -/
def execCmoCleanCluster (rs1 rs2 : Reg) (s : State) : Host.Outcome State Fault Refusal := seq s (cmoBody .clean 1 rs1 rs2 s)
/-- CMO.CLEAN at level 2. -/
def execCmoCleanLcache (rs1 rs2 : Reg) (s : State) : Host.Outcome State Fault Refusal := seq s (cmoBody .clean 2 rs1 rs2 s)
/-- CMO.CLEAN at level 3. -/
def execCmoCleanAll (rs1 rs2 : Reg) (s : State) : Host.Outcome State Fault Refusal := seq s (cmoBody .clean 3 rs1 rs2 s)
/-- CMO.CLEAN at level 4. -/
def execCmoCleanRemote (rs1 rs2 : Reg) (s : State) : Host.Outcome State Fault Refusal := seq s (cmoBody .clean 4 rs1 rs2 s)
/-- CMO.INV at level 0. -/
def execCmoInvHart (rs1 rs2 : Reg) (s : State) : Host.Outcome State Fault Refusal := seq s (cmoBody .inv 0 rs1 rs2 s)
/-- CMO.INV at level 1. -/
def execCmoInvCluster (rs1 rs2 : Reg) (s : State) : Host.Outcome State Fault Refusal := seq s (cmoBody .inv 1 rs1 rs2 s)
/-- CMO.INV at level 2. -/
def execCmoInvLcache (rs1 rs2 : Reg) (s : State) : Host.Outcome State Fault Refusal := seq s (cmoBody .inv 2 rs1 rs2 s)
/-- CMO.INV at level 3. -/
def execCmoInvAll (rs1 rs2 : Reg) (s : State) : Host.Outcome State Fault Refusal := seq s (cmoBody .inv 3 rs1 rs2 s)
/-- CMO.INV at level 4. -/
def execCmoInvRemote (rs1 rs2 : Reg) (s : State) : Host.Outcome State Fault Refusal := seq s (cmoBody .inv 4 rs1 rs2 s)
/-- CMO.CLINV at level 0. -/
def execCmoClinvHart (rs1 rs2 : Reg) (s : State) : Host.Outcome State Fault Refusal := seq s (cmoBody .clinv 0 rs1 rs2 s)
/-- CMO.CLINV at level 1. -/
def execCmoClinvCluster (rs1 rs2 : Reg) (s : State) : Host.Outcome State Fault Refusal := seq s (cmoBody .clinv 1 rs1 rs2 s)
/-- CMO.CLINV at level 2. -/
def execCmoClinvLcache (rs1 rs2 : Reg) (s : State) : Host.Outcome State Fault Refusal := seq s (cmoBody .clinv 2 rs1 rs2 s)
/-- CMO.CLINV at level 3. -/
def execCmoClinvAll (rs1 rs2 : Reg) (s : State) : Host.Outcome State Fault Refusal := seq s (cmoBody .clinv 3 rs1 rs2 s)
/-- CMO.CLINV at level 4. -/
def execCmoClinvRemote (rs1 rs2 : Reg) (s : State) : Host.Outcome State Fault Refusal := seq s (cmoBody .clinv 4 rs1 rs2 s)

/-- A counter at or below its field, or ignored (R132). -/
def atMost (field noWait count : Nat) : Bool := field == noWait || count ≤ field

/-- WAIT (R132). A stall on CP or MX whose counted commands are all queued and unfired, on a starved tile, is CB_DEADLOCK (R187). -/
def waitBody (n : WaitArg) (s : State) : Res State :=
  let h := s.h
  let cp := atMost n.cp.val 63 (cpCount h)
  let mx := atMost n.mx.val 7 (mxCount h)
  if atMost n.ld.val 7 h.ldOut && atMost n.st.val 7 h.stOut.length && cp && mx && atMost n.dp.val 7 h.dpOut &&
      atMost n.sd.val 7 h.sdOut then .ok s
  else if (!cp && allUnfired h true) || (!mx && allUnfired h false) then stallOrDeadlock s 0
  else .error (.point s)
def execWait (n : WaitArg) (s : State) : Host.Outcome State Fault Refusal := seq s (waitBody n s)

/-- LOAD_DATA_RETURN: LD falls (R130). The register was written when the load was issued: no rule lets a program tell the two apart. -/
def execLoadDataReturn (hartloc : Nat) (s : State) : Host.Outcome State Fault Refusal :=
  happen (updHart s hartloc fun h => { h with ldOut := h.ldOut - 1 })

/-- A line of a counted store or write-back goes to its backing memory, and its copy goes with `drop`. -/
def performLine (drop : Bool) (s : State) (l : Nat) : State × Bool :=
  let keys := tagKeys (sliceAt s (homeSlice l)) fun t => t.kind == .data && tagPa (homeSlice l) t == l
  match (if isRemotePa l then cleanRemotes s (· == l) else sliceClean s l 0) with
  | (s, true) => (if drop then keys.foldl (fun s k => dropTag s (homeSlice l) k) s else s, true)
  | (s, false) => (s, false)

/-- STORE_PERFORMED: the oldest store or write-back of a hart is performed, and ST falls (R130); it waits while a pass holds a line of it or a
line's link carries nothing. -/
def execStorePerformed (hartloc : Nat) (s : State) : Host.Outcome State Fault Refusal :=
  match (findHart s hartloc).bind fun h => h.stOut.head? with
  | none => happen s
  | some e =>
    match doAll (performLine e.drop) e.lines s with
    | (t, true) => happen (updHart t hartloc fun h => { h with stOut := h.stOut.drop 1 })
    | (t, false) => block t (.storePerformed hartloc)

end Sys2Proof.Machine
end

