-- ==== Sys2Proof/Machine/Image.lean ====
section
/-! DEFINITION. Software images of a logical hart (R329 to R332): CTXSAVE (R334) and CTXLOAD (R335). -/

namespace Sys2Proof.Machine

/-! The partial state P (R329, R335; log 20) -/

/-- Whether 28 bytes hold a sum: 208 bits of mantissa and 12 of exponent. -/
def Dyad.fits (d : Dyad) : Bool :=
  decide (-(2 ^ 207 : Int) ≤ d.m) && decide (d.m < 2 ^ 207) && decide (-2048 ≤ d.e) && decide (d.e < 2048)

/-- The content of the 32-byte word of one output, with its top 32 bits zero: flags, and the sum itself, or with bit 3 the number under
which the device keeps a sum that does not fit. -/
def cellPlain (c : PCell) (key : Nat) : Nat :=
  boolNat c.nan + 2 * boolNat c.pinf + 4 * boolNat c.ninf +
    if c.sum.fits then wrap 12 c.sum.e * 2 ^ 4 + wrap 208 c.sum.m * 2 ^ 16 else 8 + key * 2 ^ 16

/-- The contents of the words of P. A sum is exact whatever its magnitude (R62), so that one that does not fit is kept beside the image. -/
def keepCells (p : Tbl PCell) : List Nat → State → List Nat × State
  | [], s => ([], s)
  | k :: r, s =>
    let c := tgetD p k PCell.zero
    let (n, s) := if c.sum.fits then (0, s) else draw s
    let s := if c.sum.fits then s else { s with sums := tput s.sums n c.sum }
    let (l, s) := keepCells p r s
    (cellPlain c n :: l, s)

/-- One output from such a content, with the sums that this device has kept; `lost` stands for one of another device. -/
def cellOf (sums : Tbl Dyad) (n : Nat) (lost : Int × Int) : PCell :=
  { nan := n % 2 = 1, pinf := n / 2 % 2 = 1, ninf := n / 4 % 2 = 1,
    sum := if n / 8 % 2 = 1 then tgetD sums (n / 2 ^ 16) { m := lost.1, e := lost.2 }
      else { m := signed 208 (n / 2 ^ 16 % 2 ^ 208), e := signed 12 (n / 2 ^ 4 % 2 ^ 12) } }

/-- A round of the permutation, and its inverse. -/
def pStep (k : Nat) (w : BitVec 128 × BitVec 128) : BitVec 128 × BitVec 128 := (w.2, w.1 ^^^ Config.pRound k w.2)
def pBack (k : Nat) (w : BitVec 128 × BitVec 128) : BitVec 128 × BitVec 128 := (w.2 ^^^ Config.pRound k w.1, w.1)

/-- The 32 bytes in which an image holds such a content. -/
def cellBytes (n : Nat) : List Byte :=
  let w := pStep 2 (pStep 1 (pStep 0 (BitVec.ofNat 128 (n / 2 ^ 128), BitVec.ofNat 128 n)))
  leBytes 16 w.2.toNat ++ leBytes 16 w.1.toNat

/-- The content of 32 bytes. -/
def bytesPlain (b : List Byte) : Nat :=
  let w := pBack 0 (pBack 1 (pBack 2 (BitVec.ofNat 128 (leNat (b.drop 16)), BitVec.ofNat 128 (leNat (b.take 16)))))
  w.1.toNat * 2 ^ 128 + w.2.toNat

/-- Successive pieces of a list. -/
def pieces {α : Type} (n : Nat) : Nat → List α → List (List α)
  | 0, _ => []
  | k + 1, l => l.take n :: pieces n k (l.drop n)

/-- The contents of a P section; none when its check fails. -/
def readP (b : List Byte) : Option (List Nat) :=
  let l := (pieces 32 16384 b).map bytesPlain
  if l.all fun n => n < 2 ^ 224 then some l else none

/-- The P that the executing hart's matrix unit keeps, while `mprog` records progress (R200). -/
def keptP (h : Hart) : Tbl PCell := match suspendedDirect h with | some c => c.part | none => h.mpart

/-! Groups (R329, R330) -/

/-- Bytes of a group. -/
def groupSize (pact : Bool) (g : Nat) : Nat :=
  match g with
  | 0 => 256
  | 1 => 512
  | 2 => 2048
  | 11 => if pact then 524544 else 256
  | 12 => 512
  | 13 | 14 => 1024
  | 15 => 8192
  | _ => 16384

/-- Extend with zeros. -/
def padTo (n : Nat) (l : List Byte) : List Byte := l ++ List.replicate (n - l.length) 0
/-- Doublewords in order. -/
def wordBytes (l : List Word) : List Byte := (l.map fun w => leBytes 8 w.toNat).flatten

/-- A circular buffer as an image has it: without the claims of a suspended direct MMA, which claims anew after a load (R335). -/
def imageCb (h : Hart) (n : CbN) : Cb :=
  let b := cbAt h n
  match suspendedDirect h with | some c => b.cancel c.id | none => b

/-- Group 12: the four doublewords of a circular buffer. -/
def cbWords (b : Cb) : List Word :=
  if b.bound then
    [b.handle, b.geom, word (b.pushed.toNat * 2 ^ 32 + b.popped.toNat), word (b.resv * 2 ^ 14 + b.held * 2 + 1)]
  else [0, 0, 0, 0]

/-- A circular buffer from its doublewords. -/
def cbOfWords (l : List Word) : Cb :=
  let d := dw l 3
  if bitAt d 0 then
    { Cb.unbound with
      bound := true
      handle := dw l 0
      geom := dw l 1
      pushed := BitVec.ofNat 32 (fld (dw l 2) 32 32)
      popped := BitVec.ofNat 32 (fld (dw l 2) 0 32)
      resv := fld d 14 13
      held := fld d 1 13 }
  else Cb.unbound

/-- The 256 bits of the group membership mask. -/
def maskWords (l : List Nat) : List Word := (rangeFrom 0 4).map fun k => bitMask ((l.filter fun g => g / 64 == k).map (· % 64))

/-- Five bytes of an arrival record: phase, then whether it stands, is done, and its flag. -/
def recBytes (h : Hart) (k : Nat) : List Byte :=
  match tget h.barRecs k with
  | some r => leBytes 4 r.phase.toNat ++ leBytes 1 (1 + 2 * boolNat r.done + 4 * boolNat r.flag)
  | none => List.replicate 5 0

/-- The channels whose records an image has: those of the hart's die, of the device and of the link class. -/
def imageChans (h : Hart) : List Nat :=
  rangeFrom (64 * dieOf h.place) 64 ++ rangeFrom 1024 16 ++ rangeFrom 2048 64

/-- The position of a hart in its chain; its own latest full save where no image has been loaded. -/
def chainOf (h : Hart) : Word × Nat := h.chain.getD (word (h.loc * 2 ^ 32 + h.saveCount), 0)

/-- The doublewords of group 13. -/
def userWords (h : Hart) : List Word :=
  let c := h.csr
  [c.jobseed, c.mcfg, c.mdrop, c.mamaxv, c.vbscfg, c.dflog, word c.dagemax, c.mcoord, vtypeOf c, word c.vl, word c.vstart,
    word c.vxrm.toNat, word (boolNat c.vxsat), word h.draws, c.dseq, c.qkey, c.rcvtag, c.dfcnt, word c.rejCount, word h.ticket.toNat] ++
    maskWords h.groups ++ [word h.loc, (chainOf h).1, word (chainOf h).2]

/-- The rows of a quarter of an accumulator (R189). -/
def quarterBytes (t : Tbl (BitVec 32)) (q : Nat) : List Byte :=
  ((rangeFrom (4096 * q) 4096).map fun k => leBytes 4 (tgetD t k 0).toNat).flatten

/-- A group of the executing hart, groups 0 to 13; `p` are the contents of P. -/
def imageGroup (h : Hart) (pact : Bool) (p : List Nat) (g : Nat) : List Byte :=
  padTo (groupSize pact g) (match g with
    | 0 => leBytes 8 h.csr.sepc.toNat ++ wordBytes (h.x.toList.drop 1)
    | 1 => wordBytes h.f.toList ++ leBytes 8 (fcsrOf h.csr).toNat
    | 2 => (h.v.toList.map fun w => leBytes 64 w.toNat).flatten
    | 3 | 4 | 5 | 6 => quarterBytes h.acc0 (g - 3)
    | 7 | 8 | 9 | 10 => quarterBytes h.acc1 (g - 7)
    | 11 =>
      padTo 256 (leBytes 8 h.csr.mprog.toNat ++ leBytes 8 (boolNat pact)) ++
        if pact then (p.map cellBytes).flatten else []
    | 12 => ((List.finRange 16).map fun n => wordBytes (cbWords (imageCb h n))).flatten
    | _ => wordBytes (userWords h) ++ ((imageChans h).map (recBytes h)).flatten)

/-! Banks (R331) -/

/-- The TILE buffers on the hosting tile that the executing hart holds WHOLE, in OWNED or LENT: start and length in the tile's SRAM. -/
def coveredBufs (s : State) : List (Nat × Nat) :=
  let base := tileBase (myTile s)
  s.h.holdings.filterMap fun g => match g.kind, capAt s g.index with
    | .whole, some c =>
      if c.gen == g.gen && (c.state == .owned || c.state == .lent) && c.level == .tile && base ≤ c.base && c.base < base + 0x100000 then
        some (c.base - base, c.length)
      else none
    | _, _ => none

/-- Whether an offset of the tile's SRAM lies in a covered buffer. -/
def coveredByte (l : List (Nat × Nat)) (a : Nat) : Bool := l.any fun r => r.1 ≤ a && a < r.1 + r.2
/-- The covered banks. -/
def coveredBanks (s : State) : List Nat :=
  let l := coveredBufs s
  (rangeFrom 0 512).filter fun b => l.any fun r => r.1 < 2048 * (b + 1) && 2048 * b < r.1 + r.2

/-! Headers (R332) -/

/-- What an image holds: groups, banks, and the header's other fields. -/
structure ImgHead where
  incr : Bool
  pact : Bool
  imaj : Nat
  hartloc : Nat
  tile : Nat
  device : Nat
  ctx : Nat
  chain : Word
  cseq : Nat
  groups : List Nat
  banks : List Nat
  ilen : Nat
  deriving DecidableEq, Repr

/-- Length of an image with its sections. -/
def imageLength (pact : Bool) (groups banks : List Nat) : Nat :=
  groups.foldl (fun n g => n + groupSize pact g) 256 + 2048 * banks.length

/-- The numbers below `n` of the bits set in a value. -/
def bitsOf (n v : Nat) : List Nat := (rangeFrom 0 n).filter fun k => v / 2 ^ k % 2 = 1

/-- The 256 bytes of a header. -/
def headBytes (d : ImgHead) : List Byte :=
  let bits (l : List Nat) : Nat := l.foldl (fun m n => m + 2 ^ n) 0
  padTo 256 (padTo 64 (leBytes 8 (1 + boolNat d.incr * 2 ^ 16 + boolNat d.pact * 2 ^ 18 + d.imaj * 2 ^ 24) ++
    leBytes 8 (d.hartloc + d.tile * 2 ^ 32 + d.device % 256 * 2 ^ 42 + d.ctx * 2 ^ 50) ++
    leBytes 8 d.chain.toNat ++
    leBytes 8 (d.cseq % 2 ^ 32 + bits d.groups * 2 ^ 32) ++
    leBytes 8 d.ilen) ++ leBytes 64 (bits d.banks))

/-- A header from its bytes; none when `fmt`, `sched`, a reserved bit or `gmask` is not that of a software image (R335, check 2). -/
def parseHead (b : List Byte) : Option ImgHead :=
  let w (n : Nat) : Word := recDw b n
  let zeros (lo n : Nat) : Bool := ((b.drop lo).take n).all (· == 0)
  let g := fld (w 3) 32 16
  if fld (w 0) 0 16 = 1 && !bitAt (w 0) 17 && fld (w 0) 19 5 = 0 && fld (w 0) 32 32 = 0 && fld (w 1) 56 8 = 0 && fld (w 3) 48 16 = 0 &&
      zeros 40 24 && zeros 128 128 && g % 2 = 1 && g < 2 ^ 14 then
    some { incr := bitAt (w 0) 16, pact := bitAt (w 0) 18, imaj := fld (w 0) 24 8, hartloc := fld (w 1) 0 32, tile := fld (w 1) 32 10,
           device := fld (w 1) 42 8, ctx := fld (w 1) 50 6, chain := w 2, cseq := fld (w 3) 0 32, groups := bitsOf 14 g,
           banks := bitsOf 512 (leNat ((b.drop 64).take 64)), ilen := (w 4).toNat }
  else none

/-- `mimpid`[7:4] (R32). -/
def majorField : Nat := fld Config.mimpid 4 4

/-! CTXSAVE -/

/-- The header of the image that the executing hart would save. A save writes the chain, so that group 13 is dirty (R331). -/
def saveHead (s : State) (incr : Bool) : ImgHead :=
  let h := s.h
  let groups := if incr then (rangeFrom 0 14).filter fun g => g == 0 || g == 13 || h.softDirty.getLsbD g else rangeFrom 0 14
  let banks := (coveredBanks s).filter fun b => !incr || h.softBanks.getLsbD b
  let pact := bitAt h.csr.mprog 63 && groups.contains 11
  { incr := incr
    pact := pact
    imaj := majorField
    hartloc := h.loc
    tile := myTile s
    device := s.device
    ctx := h.ctx
    chain := word (h.loc * 2 ^ 32 + (h.saveCount + boolNat (!incr)) % 2 ^ 32)
    cseq := if incr then (chainOf h).2 + 1 else 0
    groups := groups
    banks := banks
    ilen := imageLength pact groups banks }

/-- The stall of CTXSAVE and CTXLOAD: every command but a suspended direct MMA has completed, and LD, ST and DP are 0. -/
def waitIdle (s : State) : Res Unit :=
  let h := s.h
  let cp := cpCount h != 0
  let mx := h.cmds.any fun c => !c.isCopy && !(c.direct && c.susp)
  if h.ldOut = 0 && h.stOut.isEmpty && !cp && !mx && h.dpOut = 0 then .ok ()
  else if (cp && allUnfired h true) || (mx && allUnfired h false) then stallOrDeadlock s 0
  else .error (.point s)

/-- The bytes of a bank of the hosting tile. -/
def bankBytes (s : State) (b : Nat) : List Byte := Memory.getN s.mem (tileBase (myTile s) + 2048 * b) 2048

/-- The executing hart after a save: count, position, and software bits that the save has cleared. Group 0 is always dirty. -/
def afterSave (d : ImgHead) (h : Hart) : Hart :=
  let gs := d.groups.foldl (fun (m : BitVec 16) g => m ||| (1#16 <<< g)) 0
  let bs := d.banks.foldl (fun (m : BitVec 512) b => m ||| (1#512 <<< b)) 0
  { h with softDirty := (h.softDirty &&& ~~~gs) ||| 1#16, softBanks := h.softBanks &&& ~~~bs }

/-- The count and the position that a save sets before it writes. -/
def startSave (d : ImgHead) (h : Hart) : Hart :=
  Hart.touch { h with saveCount := h.saveCount + boolNat (!d.incr), chain := some (d.chain, d.cseq) } 13

/-- Physical addresses of `n` bytes of an image buffer, which the hart reaches line by line as its own accesses do (R334, R336). -/
def savedPas (k : Access) : Nat → Nat → Nat → State → Res (List Nat × State)
  | 0, _, _, s => .ok ([], s)
  | fuel + 1, va, n, s =>
    if n = 0 then .ok ([], s)
    else do
      let m := min n (128 - va % 128)
      let (l, s) ← translateRange s k va m
      let (r, s) ← savedPas k fuel (va + m) (n - m) s
      .ok (l ++ r, s)

/-- The same, with enough fuel. -/
def imageRange (s : State) (k : Access) (va n : Nat) : Res (List Nat × State) := savedPas k (n / 128 + 2) va n s

/-- The bytes of the image of header `d`, with the sums of P that do not fit kept. -/
def savedBytes (d : ImgHead) (s : State) : List Byte × State :=
  let (p, s) := if d.pact then keepCells (keptP s.h) (rangeFrom 0 16384) s else ([], s)
  (headBytes d ++ (d.groups.map (imageGroup s.h d.pact p)).flatten ++ (d.banks.map (bankBytes s)).flatten, s)

/-- An image is written to buffer `i` as the hart's stores write, and its bytes are performed at the read point. -/
def putImage (s : State) (i : Nat) (pas : List Nat) (bytes : List Byte) : State × Bool :=
  match cleanCopies s (myTile s) i with
  | (s, true) =>
    match writeHome s (myPid s) (pas.zip bytes) with
    | (s, true) => cleanCopies s (myTile s) i
    | (s, false) => (s, false)
  | (s, false) => (s, false)

/-- CTXSAVE. -/
def ctxsaveBody (rs1 rs2 : Reg) (s : State) : Res State := do
  needMode s .s
  if bitAt s.h.csr.mstatus 8 then .error (.trap causeEngine 0)
  let hv := rx s rs1
  let c ← needOwned s hv
  if c.level == .tile && (c.base - 0x010000000000) / 0x100000 == myTile s then .error (.trap causeEngine hv)
  if c.layout != 0 then .error (.trap causeLayout hv)
  let incr := rx s rs2 != 0
  if incr && s.h.saveCount = 0 then .error (.trap causeEngine hv)
  let d := saveHead s incr
  if c.length < d.ilen then .error (.trap causeEngine hv)
  waitIdle s
  let (pas, s) ← imageRange s .store c.base d.ilen
  let (bytes, t) := savedBytes d (modH s (startSave d))
  match putImage t (hIndex hv) pas bytes with
  | (u, true) => .ok (modH u (afterSave d))
  | (u, false) => .error (.stall (carryRolls s u))
def execCtxsave (rs1 rs2 : Reg) (s : State) : Host.Outcome State Fault Refusal := seq s (ctxsaveBody rs1 rs2 s)

/-! CTXLOAD -/

/-- Check 1 of R335. -/
def loadable (s : State) (hv : Word) : Res Cap := do
  let (g, c) ← checkHandle s hv true
  match g.kind with
  | .whole => if c.state == .owned then .ok c else if c.state == .lent && !c.lendcb then .error (.stall s) else .error (.trap causeCapability hv)
  | .share => if c.state == .shared then .ok c else .error (.trap causeCapability hv)
  | .deposit | .notice => .error (.trap causeCapability hv)

/-- Bytes of an image buffer, read as the hart's loads read; an uncorrectable error raises QUARANTINED with the handle (R336). -/
def imageRead (s : State) (hv : Word) (c : Cap) (off n : Nat) : Res (List Byte × State) := do
  let (pas, s) ← match imageRange s .load (c.base + off) n with
    | .error (.trapAt t 31 _) => .error (.trapAt t causeQuarantined hv)
    | r => r
  match readPas s (myTile s) (myPid s) pas with
  | some b => .ok (b, noteRead s (myPid s) (pas.filter fun p => (tget (tileOf s (myTile s)).l1d p).isNone))
  | none => .error (.trapAt (quarantine s (hIndex hv)) causeQuarantined hv)

/-- The section of a group, in the bytes after the header. -/
def sectionOf (d : ImgHead) (body : List Byte) (g : Nat) : List Byte :=
  let off := (d.groups.filter (· < g)).foldl (fun n k => n + groupSize d.pact k) 0
  (body.drop off).take (groupSize d.pact g)

/-- The section of a bank. -/
def bankOf (d : ImgHead) (body : List Byte) (b : Nat) : List Byte :=
  let off := d.groups.foldl (fun n k => n + groupSize d.pact k) 0 + 2048 * (d.banks.filter (· < b)).length
  (body.drop off).take 2048

/-- The circular buffers of group 12. -/
def loadedCbs (b : List Byte) : Vector Cb 16 := Vector.ofFn fun n : Fin 16 => cbOfWords ((rangeFrom (4 * n.val) 4).map (recDw b))

/-- The counts of R176 stand, with claims that stay. -/
def countsOk (b w : Cb) (keep : Bool) : Bool :=
  let k := if keep then (b.inClaims.foldl (fun n c => n + c.slots) 0, b.outClaims.foldl (fun n c => n + c.slots) 0) else (0, 0)
  w.held + k.1 ≤ w.filled && w.filled + w.resv + k.2 ≤ gCount w.geom

/-- Check 6 of R335 on one circular buffer; `img` is the hart with the image's circular buffers. -/
def cbLoadable (s : State) (img : Hart) (keep : Bool) (n : CbN) : Res Unit := do
  let b := cbAt s.h n
  let w := cbAt img n
  if w.bound then
    if s.h.cbufs ≤ n.val then .error (.trap causeCapability 0)
    if b.bound && !(b.handle == w.handle && b.geom == w.geom) then .error (.trap causeCapability b.handle)
    let c ← bindable s w.handle
    if c.level != .tile || (c.base - 0x010000000000) / 0x100000 != myTile s then .error (.trap causeCapability w.handle)
    check (geomOk img n w.handle w.geom c.length && countsOk b w keep) causeLayout w.geom
  else check (!(b.bound && ((s.h.cmds.any fun c => c.op.names n) || b.resv != 0 || b.held != 0))) causeCapability b.handle

/-- Group 12 is applied: circular buffers are bound with their counts, the others unbound. -/
def applyCb (img : Hart) (s : State) (n : CbN) : Res State :=
  let b := cbAt s.h n
  let w := cbAt img n
  let put (s : State) : State := modH s fun h => setCb h n
    { w with
      inClaims := b.inClaims
      outClaims := b.outClaims
      held := w.held + b.inClaims.foldl (fun n c => n + c.slots) 0
      resv := w.resv + b.outClaims.foldl (fun n c => n + c.slots) 0 }
  if !w.bound then .ok (unbindCb s n)
  else if b.bound then .ok (put s)
  else do
    let i := hIndex w.handle
    let s ← release s i
    let s := match capAt s i with | some c => dropResv s c | none => s
    .ok (put (updCap s i fun c => { c with state := .lent, lendcb := true, lends := c.lends + 1 }))

/-- Fold over a list, a stall or exception ending it. -/
def foldRes {α : Type} (f : State → α → Res State) : List α → State → Res State
  | [], s => .ok s
  | a :: r, s => do
    let s ← f s a
    foldRes f r s

/-- Group 13: the fields that CTXLOAD applies (R330). A `vtype` that no vsetvl would set is taken as `vill`. -/
def applyUser (b : List Byte) (h : Hart) : Hart :=
  let w (n : Nat) : Word := recDw b n
  let vt := (w 8).toNat
  let c := h.csr
  { h with
    draws := (w 13).toNat
    csr := { c with
      jobseed := w 0
      mcfg := w 1 &&& 0xFFFFFFFFFF00F73F#64
      mdrop := w 2 &&& 0xFFFF7FFFFFFFFFFF#64
      mamaxv := w 3 &&& 0x80000000FFFFFFFF#64
      vbscfg := w 4 &&& 0xF1#64
      dflog := w 5
      dagemax := fld (w 6) 0 16
      mcoord := w 7
      vill := !vtypeOk vt
      vtype := if vtypeOk vt then BitVec.ofNat 8 vt else 0
      vl := if vtypeOk vt then min (w 9).toNat (vlmaxOf vt) else 0
      vstart := fld (w 10) 0 9
      vxrm := BitVec.ofNat 2 (w 11).toNat
      vxsat := bitAt (w 12) 0
      dseq := w 14
      qkey := w 15
      rcvtag := w 16 } }

/-- Bits of `mprog` (R200). -/
def mprogMask : Word := 0x80000000003F7F7F#64

/-- Group 11: any suspended MMA is discarded, `mprog` and P are the image's. The sums that another device kept are free values (log 20). -/
def applyProg (d : ImgHead) (b : List Byte) (s : State) : State :=
  let s := abandonMma s s.h.loc
  let (n, s) := draw s
  let v := recDw b 0 &&& mprogMask
  let sums := if d.device = s.device % 256 then s.sums else []
  let part := match (if d.pact then readP (b.drop 256) else none) with
    | some l => ((rangeFrom 0 16384).zip l).map fun p => (p.1, cellOf sums p.2 (Config.lostSum n p.1))
    | none => if bitAt v 63 then (rangeFrom 0 16384).map fun k => (k, cellOf [] 8 (Config.lostSum n k)) else []
  modH s fun h => Hart.putMprog { h with mpart := part } v

/-- An accumulator with a quarter replaced. -/
def putQuarter (t : Tbl (BitVec 32)) (q : Nat) (b : List Byte) : Tbl (BitVec 32) :=
  accTbl ((rangeFrom 0 16384).map fun k =>
    if k / 4096 = q then leNat ((b.drop (4 * (k % 4096))).take 4) else (tgetD t k 0).toNat)

/-- One group is applied. -/
def applyGroup (d : ImgHead) (body : List Byte) (s : State) (g : Nat) : Res State :=
  let b := sectionOf d body g
  match g with
  | 0 => .ok (mark (mark (modH s fun h => { h with
      x := Vector.ofFn fun r : Fin 32 => if r = 0 then 0 else recDw b r.val
      csr := { h.csr with sepc := newEpc (recDw b 0), mstatus := setBit h.csr.mstatus 8 false } }) 0) 14)
  | 1 => .ok (dirtyF (modH s fun h => { h with
      f := Vector.ofFn fun r : Fin 32 => recDw b r.val
      csr := { h.csr with fflags := BitVec.ofNat 5 (recDw b 32).toNat, frm := BitVec.ofNat 3 ((recDw b 32).toNat / 32) } }))
  | 2 => .ok (mark (dirtyV (modH s fun h => { h with
      v := Vector.ofFn fun r : Fin 32 => BitVec.ofNat 512 (leNat ((b.drop (64 * r.val)).take 64)) })) 2)
  | 3 => .ok (modH s fun h => Hart.touch { h with acc0 := putQuarter h.acc0 0 b } 3)
  | 4 => .ok (modH s fun h => Hart.touch { h with acc0 := putQuarter h.acc0 1 b } 4)
  | 5 => .ok (modH s fun h => Hart.touch { h with acc0 := putQuarter h.acc0 2 b } 5)
  | 6 => .ok (modH s fun h => Hart.touch { h with acc0 := putQuarter h.acc0 3 b } 6)
  | 7 => .ok (modH s fun h => Hart.touch { h with acc1 := putQuarter h.acc1 0 b } 7)
  | 8 => .ok (modH s fun h => Hart.touch { h with acc1 := putQuarter h.acc1 1 b } 8)
  | 9 => .ok (modH s fun h => Hart.touch { h with acc1 := putQuarter h.acc1 2 b } 9)
  | 10 => .ok (modH s fun h => Hart.touch { h with acc1 := putQuarter h.acc1 3 b } 10)
  | 11 => .ok (applyProg d b s)
  | 12 => foldRes (applyCb { s.h with cbs := loadedCbs b }) (List.finRange 16) s
  | _ => .ok (mark (modH s (applyUser b)) 13)

/-- One bank is applied: the bytes that lie in covered buffers. -/
def applyBank (d : ImgHead) (body : List Byte) (s : State) (b : Nat) : State :=
  let l := coveredBufs s
  ((rangeFrom (2048 * b) 2048).zip (bankOf d body b)).foldl (fun s p =>
    if coveredByte l p.1 then putMem s (tileBase (myTile s) + p.1) p.2 else s) s

/-- Checks 2 to 6 of R335 on an image of a buffer of `length` bytes: the bytes after the header. -/
def imageOkFor (s : State) (hv : Word) (c : Cap) (d : ImgHead) : Res (List Byte × State) := do
  let own := chainOf s.h
  if d.ctx != s.h.ctx then .error (.trap causeCapability hv)
  if d.incr && !(d.chain == own.1 && d.cseq == own.2 + 1) then .error (.trap causeEngine hv)
  if !d.banks.isEmpty && !(d.device == s.device % 256 && d.tile == myTile s) then .error (.trap causeEngine hv)
  let (body, s) ← imageRead s hv c 256 (imageLength d.pact d.groups d.banks - 256)
  if d.pact && (d.imaj != majorField || (d.groups.contains 11 && (readP ((sectionOf d body 11).drop 256)).isNone)) then
    .error (.trap causeEngine hv)
  if d.groups.contains 12 then
    each (cbLoadable s { s.h with cbs := loadedCbs (sectionOf d body 12) } (!d.groups.contains 11)) (List.finRange 16)
  .ok (body, s)

/-- CTXLOAD. -/
def ctxloadBody (rs1 : Reg) (s : State) : Res State := do
  needMode s .s
  let hv := rx s rs1
  let c ← loadable s hv
  if c.layout != 0 then .error (.trap causeLayout hv)
  if c.length < 256 then .error (.trap causeEngine hv)
  let (hb, s) ← imageRead s hv c 0 256
  match parseHead hb with
  | none => .error (.trap causeEngine hv)
  | some d => do
    if c.length < d.ilen || d.ilen < imageLength d.pact d.groups d.banks then .error (.trap causeEngine hv)
    let (body, s) ← imageOkFor s hv c d
    waitIdle s
    let t ← foldRes (applyGroup d body) d.groups s
    let t := d.banks.foldl (applyBank d body) t
    .ok (modH t fun h => Hart.touch { h with chain := some (d.chain, d.cseq) } 13)
def execCtxload (rs1 : Reg) (s : State) : Host.Outcome State Fault Refusal := seq s (ctxloadBody rs1 s)

end Sys2Proof.Machine
end

