-- ==== Sys2Proof/Machine/VectorNarrow.lean ====
section
/-! DEFINITION. The vector extensions for narrow formats (R211 to R221): VDOTB, VBSCALE, VCVTN, VCVTW, VPLN, VRNG and VAMAX. -/

namespace Sys2Proof.Machine

/-- Check 1 of R213. -/
def needVstart0 (s : State) : Res Unit := if s.h.csr.vstart = 0 then .ok () else illegal s

/-- Check 2 of R213. -/
def needCount (s : State) (ok : Bool) : Res Unit := check ok causeEngine (word s.h.csr.vl)

/-- `vbscfg.bsf`: the block-scale format is E5M2. -/
def bsf (s : State) : Bool := bitAt s.h.csr.vbscfg 0

/-- Registers that `n` elements of `bits` bits take, from register `r`, do not pass v31. -/
def groupFits (r : Reg) (n bits : Nat) : Bool := r.val + (n * bits + 511) / 512 ≤ 32

/-- FP32 element `k` of a group, as a code. -/
def fp32Elem (s : State) (r : Reg) (k : Nat) : Nat := vElem s r 4 k

/-- Narrow element `k` of a group. -/
def narrowElem (s : State) (r : Reg) (fmt : NarrowFmt) (k : Nat) : FV :=
  let per := 512 / fmt.bits
  fmt.value ((rv s (regPlus r (k / per))).toNat / 2 ^ (k % per * fmt.bits) % 2 ^ fmt.bits)

/-- Scale of block `b`, from byte `b` of a register. -/
def scaleElem (s : State) (r : Reg) (b : Nat) : FV := scaleValue (bsf s) (vElem s r 1 b)

/-! VDOTB (R215) -/

/-- The sum of R62 over `n` elements. -/
def dotSum (s : State) (fmt : NarrowFmt) (vs1 vs2 : Reg) (n : Nat) : PCell :=
  (rangeFrom 0 n).foldl (fun c k =>
    let p := scaleProduct (scaleElem s (regPlus vs1 1) (k / 8)) (scaleElem s (regPlus vs2 1) (k / 8))
    c.addTerm p (narrowElem s vs1 fmt k) (narrowElem s vs2 fmt k)) PCell.zero

/-- VDOTB of a format. -/
def vdotb (fmt : NarrowFmt) (vd vs1 vs2 fs3 : Reg) (s : State) : Res State := do
  if vs1.val % 2 != 0 || vs2.val % 2 != 0 then illegal s
  needF s
  needVl s
  needVstart0 s
  let n := s.h.csr.vl
  needCount s (n % 8 = 0 && n ≤ (if fmt.bits = 4 then 128 else 64))
  .ok (setElem s vd 4 0 ((dotSum s fmt vs1 vs2 n).finish (readF s .s fs3) 0))

def execVdotbFp4 (vd vs1 vs2 fs3 : Reg) (s : State) : Host.Outcome State Fault Refusal := seq s (vdotb .fp4 vd vs1 vs2 fs3 s)
def execVdotbE4m3 (vd vs1 vs2 fs3 : Reg) (s : State) : Host.Outcome State Fault Refusal := seq s (vdotb .e4m3 vd vs1 vs2 fs3 s)
def execVdotbE5m2 (vd vs1 vs2 fs3 : Reg) (s : State) : Host.Outcome State Fault Refusal := seq s (vdotb .e5m2 vd vs1 vs2 fs3 s)
def execVdotbInt8 (vd vs1 vs2 fs3 : Reg) (s : State) : Host.Outcome State Fault Refusal := seq s (vdotb .int8 vd vs1 vs2 fs3 s)

/-! VBSCALE (R216) -/

/-- The target format by its code. -/
def targetFmt : Nat → Option NarrowFmt
  | 0 => some .fp4 | 1 => some .e4m3 | 2 => some .e5m2 | 3 => some .bf16 | 4 => some .fp16 | 5 => some .int8 | 6 => some .int4
  | _ => none

/-- emax of the table of R216. -/
def targetEmax : NarrowFmt → Int
  | .fp4 => 2 | .e4m3 => 8 | .e5m2 => 15 | .bf16 => 127 | .fp16 => 15 | .int8 => 6 | .int4 => 2

/-- Largest magnitude code among FP32 codes; NaN codes are above infinity. -/
def maxMag (l : List Nat) : Nat := l.foldl (fun m c => max m (c % 2 ^ 31)) 0

/-- The scale code of a block whose largest magnitude has the code `a`. -/
def blockScale (sf : ScaleFmt) (tgt : NarrowFmt) (a : Nat) : Nat :=
  match sf, FFmt.fp32.value a with
  | .e8m0, .nan | .e8m0, .inf _ => 0xFF
  | .e5m2, .nan | .e5m2, .inf _ => 0x7E
  | .e8m0, .fin _ m e =>
    if m = 0 then 0
    else (min (max ((Nat.log2 m : Int) + e - targetEmax tgt + 127) 0) 254).toNat
  | .e5m2, .fin _ m e =>
    if m = 0 then 1
    else
      let mx := tgt.maxmag false
      min (max (FFmt.e5m2.encode .rup false { num := m, den := mx.m.toNat, e := e - mx.e }).1 1) 0x7B

def vbscaleBody (sf : ScaleFmt) (vd vs1 : Reg) (s : State) : Res State := do
  needVl s
  needVstart0 s
  let n := s.h.csr.vl
  needCount s (n % 8 = 0 && n ≤ 64 && groupFits vs1 n 32)
  match targetFmt (fld s.h.csr.vbscfg 4 3) with
  | none => .error (.trap causeEngine s.h.csr.vbscfg)
  | some tgt =>
    let scales := (rangeFrom 0 (n / 8)).map fun b =>
      BitVec.ofNat 8 (blockScale sf tgt (maxMag ((rangeFrom (8 * b) 8).map (fp32Elem s vs1))))
    .ok (setGroup s vd scales)

def execVbscale (sf : ScaleFmt) (vd vs1 : Reg) (s : State) : Host.Outcome State Fault Refusal := seq s (vbscaleBody sf vd vs1 s)

/-! VCVTN and VCVTW (R217, R218) -/

/-- The conversion of one element under its scale. -/
def cvtScaled (fmt : NarrowFmt) (rm : RM) (sat : Bool) (v sc : FV) : Coded :=
  match sc with
  | .nan | .inf _ => (fmt.nanOut, FFlags.invalid)
  | .fin sn sm se =>
    if sm = 0 then
      (if v.isZero || v == .nan then fmt.nanOut else fmt.infOut v.isNeg, FFlags.invalid)
    else match v with
      | .nan => fmt.cvt rm sat .nan
      | .inf n => fmt.cvt rm sat (.inf (n != sn))
      | .fin n m e =>
        if m = 0 then fmt.cvt rm sat (.fin (n != sn) 0 0) else fmt.cvtMag rm sat (n != sn) { num := m, den := sm, e := e - se }

/-- The generator word of element `k` of a VCVTN (R71). -/
def cvtWord (s : State) (k : Nat) : Word32 :=
  hartWord s.h.csr.jobseed s.h.loc 1 ((s.h.draws * 16 + k / 4) % 2 ^ 64) (k % 4)

def vcvtnBody (fmt : NarrowFmt) (rnd : Rnd) (vd vs1 vs2 : Reg) (s : State) : Res State := do
  needVl s
  needVstart0 s
  let n := s.h.csr.vl
  needCount s (n % 8 = 0 && n ≤ 64 && groupFits vs1 n 32 && groupFits vd n fmt.bits)
  let out := (rangeFrom 0 n).map fun k =>
    cvtScaled fmt (rnd.mode (if rnd = .sr then cvtWord s k else 0)) (bitAt s.h.csr.vbscfg 7)
      (FFmt.fp32.value (fp32Elem s vs1 k)) (scaleElem s vs2 (k / 8))
  let t := raise (setGroup s vd (packElems fmt.bits (out.map (·.1)))) (out.foldl (fun f c => f.or c.2) FFlags.none)
  .ok (if rnd = .sr then mark (modH t fun h => { h with draws := (h.draws + 1) % 2 ^ 64 }) 13 else t)

def execVcvtn (fmt : NarrowFmt) (rnd : Rnd) (vd vs1 vs2 : Reg) (s : State) : Host.Outcome State Fault Refusal :=
  seq s (vcvtnBody fmt rnd vd vs1 vs2 s)

/-- One widened element. -/
def widenScaled (x sc : FV) : Coded :=
  match sc with
  | .inf _ => (FFmt.fp32.nanCode, FFlags.none)
  | _ => if x == .nan || sc == .nan then (FFmt.fp32.nanCode, FFlags.none) else FFmt.fp32.mulV .rne false x sc

def vcvtwBody (fmt : NarrowFmt) (vd vs1 vs2 : Reg) (s : State) : Res State := do
  needVl s
  needVstart0 s
  let n := s.h.csr.vl
  needCount s (n % 8 = 0 && n ≤ 64 && groupFits vs1 n fmt.bits && groupFits vd n 32)
  let out := (rangeFrom 0 n).map fun k => widenScaled (narrowElem s vs1 fmt k) (scaleElem s vs2 (k / 8))
  .ok (raise (setGroup s vd (packElems 32 (out.map (·.1)))) (out.foldl (fun f c => f.or c.2) FFlags.none))

def execVcvtw (fmt : NarrowFmt) (vd vs1 vs2 : Reg) (s : State) : Host.Outcome State Fault Refusal := seq s (vcvtwBody fmt vd vs1 vs2 s)

/-! Bit planes (R219) -/

/-- The checks of VPLN: the register pairs stand below v32 and the plane count is 2 to 8 (R212). -/
def vplnOk (vd vs1 : Reg) (n : Fin 32) : Bool := vd.val != 31 && vs1.val != 31 && 2 ≤ n.val && n.val ≤ 8

def vplnPackBody (vd vs1 : Reg) (n : Fin 32) (s : State) : Res State := do
  if !vplnOk vd vs1 n then illegal s
  needV s
  needVstart0 s
  .ok (setGroup s vd (packPlanes (groupBytes s vs1 2) n.val))

def execVplnPack (vd vs1 : Reg) (n : Fin 32) (s : State) : Host.Outcome State Fault Refusal := seq s (vplnPackBody vd vs1 n s)

def vplnGetBody (vd vs1 : Reg) (n : Fin 32) (s : State) : Res State := do
  if !vplnOk vd vs1 n then illegal s
  needV s
  needVstart0 s
  let group := groupBytes s vs1 2
  .ok (setGroup s vd ((rangeFrom 0 128).map fun e => BitVec.ofNat 8 (planeCode group n.val e)))

def execVplnGet (vd vs1 : Reg) (n : Fin 32) (s : State) : Host.Outcome State Fault Refusal := seq s (vplnGetBody vd vs1 n s)

/-! VRNG and VAMAX (R220, R221) -/

def vrngBody (vd rs1 : Reg) (s : State) : Res State := do
  needV s
  needVstart0 s
  let x := rx s rs1
  let stream := fld x 0 16
  check (2 ≤ stream && stream ≤ 0x7FFF) causeEngine x
  let words := (rangeFrom 0 16).map fun m =>
    (hartWord s.h.csr.jobseed s.h.loc stream (4 * fld x 16 48 + m / 4) (m % 4)).toNat
  .ok (setGroup s vd (packElems 32 words))

def execVrng (vd rs1 : Reg) (s : State) : Host.Outcome State Fault Refusal := seq s (vrngBody vd rs1 s)

def vamaxBody (fd vs1 : Reg) (s : State) : Res State := do
  needF s
  needVl s
  needVstart0 s
  let n := s.h.csr.vl
  needCount s (n ≤ 64 && groupFits vs1 n 32)
  let m := maxMag ((rangeFrom 0 n).map (fp32Elem s vs1))
  .ok (writeF s .s fd (if FFmt.fp32.infCode < m then FFmt.fp32.nanCode else m))

def execVamax (fd vs1 : Reg) (s : State) : Host.Outcome State Fault Refusal := seq s (vamaxBody fd vs1 s)

end Sys2Proof.Machine
end

