-- ==== Sys2Proof/Machine/Dispatch.lean ====
section
/-! DEFINITION. One arm for each constructor of `Instr`: its meaning. -/

namespace Sys2Proof.Machine

/-- The meaning of an instruction word or an event. -/
def exec (i : Instr) (s : State) : Host.Outcome State Fault Refusal :=
  match i with
  | .balloc rd rs1 rs2 => Sys2Proof.Machine.execBalloc rd rs1 rs2 s
  | .bfree rs1 => Sys2Proof.Machine.execBfree rs1 s
  | .bsplit rd rs1 rs2 => Sys2Proof.Machine.execBsplit rd rs1 rs2 s
  | .bjoin rd rs1 rs2 => Sys2Proof.Machine.execBjoin rd rs1 rs2 s
  | .bbase rd rs1 => Sys2Proof.Machine.execBbase rd rs1 s
  | .blen rd rs1 => Sys2Proof.Machine.execBlen rd rs1 s
  | .bprobe rd rs1 => Sys2Proof.Machine.execBprobe rd rs1 s
  | .blayout rd rs1 rs2 => Sys2Proof.Machine.execBlayout rd rs1 rs2 s
  | .bmove rd rs1 rs2 => Sys2Proof.Machine.execBmove rd rs1 rs2 s
  | .bopen rd rs1 rs2 => Sys2Proof.Machine.execBopen rd rs1 rs2 s
  | .bclose rd rs1 rs2 => Sys2Proof.Machine.execBclose rd rs1 rs2 s
  | .bgate rd rs1 rs2 => Sys2Proof.Machine.execBgate rd rs1 rs2 s
  | .brecv rd => Sys2Proof.Machine.execBrecv rd s
  | .brecvNb rd => Sys2Proof.Machine.execBrecvNb rd s
  | .brevoke rd rs1 => Sys2Proof.Machine.execBrevoke rd rs1 s
  | .bsend rd rs1 rs2 rs3 => Sys2Proof.Machine.execBsend rd rs1 rs2 rs3 s
  | .bsendLocal rd rs1 rs2 rs3 => Sys2Proof.Machine.execBsendLocal rd rs1 rs2 rs3 s
  | .bsendRef rd rs1 rs2 rs3 => Sys2Proof.Machine.execBsendRef rd rs1 rs2 rs3 s
  | .dsb rs2 rs1 imm => Sys2Proof.Machine.execDsb rs2 rs1 imm s
  | .dsh rs2 rs1 imm => Sys2Proof.Machine.execDsh rs2 rs1 imm s
  | .dsw rs2 rs1 imm => Sys2Proof.Machine.execDsw rs2 rs1 imm s
  | .dsd rs2 rs1 imm => Sys2Proof.Machine.execDsd rs2 rs1 imm s
  | .dsn rs2 rs1 imm => Sys2Proof.Machine.execDsn rs2 rs1 imm s
  | .daAddW rd rs1 rs2 => Sys2Proof.Machine.execDaAddW rd rs1 rs2 s
  | .daMinW rd rs1 rs2 => Sys2Proof.Machine.execDaMinW rd rs1 rs2 s
  | .daMaxW rd rs1 rs2 => Sys2Proof.Machine.execDaMaxW rd rs1 rs2 s
  | .daMinuW rd rs1 rs2 => Sys2Proof.Machine.execDaMinuW rd rs1 rs2 s
  | .daMaxuW rd rs1 rs2 => Sys2Proof.Machine.execDaMaxuW rd rs1 rs2 s
  | .daAndW rd rs1 rs2 => Sys2Proof.Machine.execDaAndW rd rs1 rs2 s
  | .daOrW rd rs1 rs2 => Sys2Proof.Machine.execDaOrW rd rs1 rs2 s
  | .daXorW rd rs1 rs2 => Sys2Proof.Machine.execDaXorW rd rs1 rs2 s
  | .daXchgW rd rs1 rs2 => Sys2Proof.Machine.execDaXchgW rd rs1 rs2 s
  | .daCasW rd rs1 rs2 => Sys2Proof.Machine.execDaCasW rd rs1 rs2 s
  | .daFaddW rd rs1 rs2 => Sys2Proof.Machine.execDaFaddW rd rs1 rs2 s
  | .daAddD rd rs1 rs2 => Sys2Proof.Machine.execDaAddD rd rs1 rs2 s
  | .daMinD rd rs1 rs2 => Sys2Proof.Machine.execDaMinD rd rs1 rs2 s
  | .daMaxD rd rs1 rs2 => Sys2Proof.Machine.execDaMaxD rd rs1 rs2 s
  | .daMinuD rd rs1 rs2 => Sys2Proof.Machine.execDaMinuD rd rs1 rs2 s
  | .daMaxuD rd rs1 rs2 => Sys2Proof.Machine.execDaMaxuD rd rs1 rs2 s
  | .daAndD rd rs1 rs2 => Sys2Proof.Machine.execDaAndD rd rs1 rs2 s
  | .daOrD rd rs1 rs2 => Sys2Proof.Machine.execDaOrD rd rs1 rs2 s
  | .daXorD rd rs1 rs2 => Sys2Proof.Machine.execDaXorD rd rs1 rs2 s
  | .daXchgD rd rs1 rs2 => Sys2Proof.Machine.execDaXchgD rd rs1 rs2 s
  | .daCasD rd rs1 rs2 => Sys2Proof.Machine.execDaCasD rd rs1 rs2 s
  | .dflush rd rs1 => Sys2Proof.Machine.execDflush rd rs1 s
  | .mmaF4f4 m a b fs3 => Sys2Proof.Machine.execMmaF4f4 m a b fs3 s
  | .mmaF4e4 m a b fs3 => Sys2Proof.Machine.execMmaF4e4 m a b fs3 s
  | .mmaE4e4 m a b fs3 => Sys2Proof.Machine.execMmaE4e4 m a b fs3 s
  | .mmaE4e5 m a b fs3 => Sys2Proof.Machine.execMmaE4e5 m a b fs3 s
  | .mmaE5e4 m a b fs3 => Sys2Proof.Machine.execMmaE5e4 m a b fs3 s
  | .mmaE5e5 m a b fs3 => Sys2Proof.Machine.execMmaE5e5 m a b fs3 s
  | .mmaBfbf m a b fs3 => Sys2Proof.Machine.execMmaBfbf m a b fs3 s
  | .mmaHfhf m a b fs3 => Sys2Proof.Machine.execMmaHfhf m a b fs3 s
  | .mmaI8i8 m a b fs3 => Sys2Proof.Machine.execMmaI8i8 m a b fs3 s
  | .mmaI8i4 m a b fs3 => Sys2Proof.Machine.execMmaI8i4 m a b fs3 s
  | .mmaBpi8 m a b fs3 => Sys2Proof.Machine.execMmaBpi8 m a b fs3 s
  | .mmaBpbp m a b fs3 => Sys2Proof.Machine.execMmaBpbp m a b fs3 s
  | .mzero m => Sys2Proof.Machine.execMzero m s
  | .mcfg rs1 => Sys2Proof.Machine.execMcfg rs1 s
  | .mldacc m cb => Sys2Proof.Machine.execMldacc m cb s
  | .mstacc m cb => Sys2Proof.Machine.execMstacc m cb s
  | .mdrain m fmt rnd out scale => Sys2Proof.Machine.execMdrain m fmt rnd out scale s
  | .vdotbFp4 vd vs1 vs2 fs3 => Sys2Proof.Machine.execVdotbFp4 vd vs1 vs2 fs3 s
  | .vdotbE4m3 vd vs1 vs2 fs3 => Sys2Proof.Machine.execVdotbE4m3 vd vs1 vs2 fs3 s
  | .vdotbE5m2 vd vs1 vs2 fs3 => Sys2Proof.Machine.execVdotbE5m2 vd vs1 vs2 fs3 s
  | .vdotbInt8 vd vs1 vs2 fs3 => Sys2Proof.Machine.execVdotbInt8 vd vs1 vs2 fs3 s
  | .vcvtn fmt rnd vd vs1 vs2 => Sys2Proof.Machine.execVcvtn fmt rnd vd vs1 vs2 s
  | .vcvtw fmt vd vs1 vs2 => Sys2Proof.Machine.execVcvtw fmt vd vs1 vs2 s
  | .vbscale sf vd vs1 => Sys2Proof.Machine.execVbscale sf vd vs1 s
  | .vplnPack vd vs1 n => Sys2Proof.Machine.execVplnPack vd vs1 n s
  | .vplnGet vd vs1 n => Sys2Proof.Machine.execVplnGet vd vs1 n s
  | .vrng vd rs1 => Sys2Proof.Machine.execVrng vd rs1 s
  | .vamax fd vs1 => Sys2Proof.Machine.execVamax fd vs1 s
  | .cbcfg cb rs1 rs2 => Sys2Proof.Machine.execCbcfg cb rs1 rs2 s
  | .cbacq cb rs1 => Sys2Proof.Machine.execCbacq cb rs1 s
  | .cbrel cb rs1 => Sys2Proof.Machine.execCbrel cb rs1 s
  | .cbqry rd cb => Sys2Proof.Machine.execCbqry rd cb s
  | .copy rd rs1 rs2 rs3 => Sys2Proof.Machine.execCopy rd rs1 rs2 rs3 s
  | .red rd rs1 rs2 rs3 => Sys2Proof.Machine.execRed rd rs1 rs2 rs3 s
  | .gath rd rs1 rs2 rs3 => Sys2Proof.Machine.execGath rd rs1 rs2 rs3 s
  | .scat rd rs1 rs2 rs3 => Sys2Proof.Machine.execScat rd rs1 rs2 rs3 s
  | .fill rd rs1 rs2 rs3 => Sys2Proof.Machine.execFill rd rs1 rs2 rs3 s
  | .cmp rd rs1 rs2 rs3 => Sys2Proof.Machine.execCmp rd rs1 rs2 rs3 s
  | .ecfg p rs1 => Sys2Proof.Machine.execEcfg p rs1 s
  | .ebind rs1 rs2 => Sys2Proof.Machine.execEbind rs1 rs2 s
  | .epost rd rs1 rs2 => Sys2Proof.Machine.execEpost rd rs1 rs2 s
  | .erecv rd => Sys2Proof.Machine.execErecv rd s
  | .erecvNb rd => Sys2Proof.Machine.execErecvNb rd s
  | .etick rs1 => Sys2Proof.Machine.execEtick rs1 s
  | .erd rd rs1 => Sys2Proof.Machine.execErd rd rs1 s
  | .ewr rs1 rs2 => Sys2Proof.Machine.execEwr rs1 rs2 s
  | .qpush rd rs1 rs2 rs3 => Sys2Proof.Machine.execQpush rd rs1 rs2 rs3 s
  | .qpushW rd rs1 rs2 rs3 => Sys2Proof.Machine.execQpushW rd rs1 rs2 rs3 s
  | .qpop rd rs1 => Sys2Proof.Machine.execQpop rd rs1 s
  | .qpopNb rd rs1 => Sys2Proof.Machine.execQpopNb rd rs1 s
  | .klaunch rd rs1 rs2 => Sys2Proof.Machine.execKlaunch rd rs1 rs2 s
  | .kjoin rd rs1 => Sys2Proof.Machine.execKjoin rd rs1 s
  | .gjoin rd rs1 => Sys2Proof.Machine.execGjoin rd rs1 s
  | .gleave rs1 => Sys2Proof.Machine.execGleave rs1 s
  | .gsize rd rs1 => Sys2Proof.Machine.execGsize rd rs1 s
  | .gfuse rd rs1 => Sys2Proof.Machine.execGfuse rd rs1 s
  | .grank rd => Sys2Proof.Machine.execGrank rd s
  | .barr rs1 rs2 => Sys2Proof.Machine.execBarr rs1 rs2 s
  | .barw rd rs1 => Sys2Proof.Machine.execBarw rd rs1 s
  | .bart rd rs1 => Sys2Proof.Machine.execBart rd rs1 s
  | .barc rs1 rs2 => Sys2Proof.Machine.execBarc rs1 rs2 s
  | .svAdd rd rs1 rs2 => Sys2Proof.Machine.execSvAdd rd rs1 rs2 s
  | .svMin rd rs1 rs2 => Sys2Proof.Machine.execSvMin rd rs1 rs2 s
  | .svMax rd rs1 rs2 => Sys2Proof.Machine.execSvMax rd rs1 rs2 s
  | .svMinu rd rs1 rs2 => Sys2Proof.Machine.execSvMinu rd rs1 rs2 s
  | .svMaxu rd rs1 rs2 => Sys2Proof.Machine.execSvMaxu rd rs1 rs2 s
  | .svAnd rd rs1 rs2 => Sys2Proof.Machine.execSvAnd rd rs1 rs2 s
  | .svOr rd rs1 rs2 => Sys2Proof.Machine.execSvOr rd rs1 rs2 s
  | .svXchg rd rs1 rs2 => Sys2Proof.Machine.execSvXchg rd rs1 rs2 s
  | .svCas rd rs1 rs2 => Sys2Proof.Machine.execSvCas rd rs1 rs2 s
  | .svMaxrst rd rs1 rs2 => Sys2Proof.Machine.execSvMaxrst rd rs1 rs2 s
  | .svWaitge rd rs1 rs2 => Sys2Proof.Machine.execSvWaitge rd rs1 rs2 s
  | .cmoCleanHart rs1 rs2 => Sys2Proof.Machine.execCmoCleanHart rs1 rs2 s
  | .cmoCleanCluster rs1 rs2 => Sys2Proof.Machine.execCmoCleanCluster rs1 rs2 s
  | .cmoCleanLcache rs1 rs2 => Sys2Proof.Machine.execCmoCleanLcache rs1 rs2 s
  | .cmoCleanAll rs1 rs2 => Sys2Proof.Machine.execCmoCleanAll rs1 rs2 s
  | .cmoCleanRemote rs1 rs2 => Sys2Proof.Machine.execCmoCleanRemote rs1 rs2 s
  | .cmoInvHart rs1 rs2 => Sys2Proof.Machine.execCmoInvHart rs1 rs2 s
  | .cmoInvCluster rs1 rs2 => Sys2Proof.Machine.execCmoInvCluster rs1 rs2 s
  | .cmoInvLcache rs1 rs2 => Sys2Proof.Machine.execCmoInvLcache rs1 rs2 s
  | .cmoInvAll rs1 rs2 => Sys2Proof.Machine.execCmoInvAll rs1 rs2 s
  | .cmoInvRemote rs1 rs2 => Sys2Proof.Machine.execCmoInvRemote rs1 rs2 s
  | .cmoClinvHart rs1 rs2 => Sys2Proof.Machine.execCmoClinvHart rs1 rs2 s
  | .cmoClinvCluster rs1 rs2 => Sys2Proof.Machine.execCmoClinvCluster rs1 rs2 s
  | .cmoClinvLcache rs1 rs2 => Sys2Proof.Machine.execCmoClinvLcache rs1 rs2 s
  | .cmoClinvAll rs1 rs2 => Sys2Proof.Machine.execCmoClinvAll rs1 rs2 s
  | .cmoClinvRemote rs1 rs2 => Sys2Proof.Machine.execCmoClinvRemote rs1 rs2 s
  | .invpg rs1 rs2 => Sys2Proof.Machine.execInvpg rs1 rs2 s
  | .ctxsave rs1 rs2 => Sys2Proof.Machine.execCtxsave rs1 rs2 s
  | .ctxload rs1 => Sys2Proof.Machine.execCtxload rs1 s
  | .scrub rs1 => Sys2Proof.Machine.execScrub rs1 s
  | .wait n => Sys2Proof.Machine.execWait n s
  | .fence w => Sys2Proof.Machine.execFence w s
  | .fenceI w => Sys2Proof.Machine.execFenceI w s
  | .sfenceVma w => Sys2Proof.Machine.execSfenceVma w s
  | .lr sz aq rl rd rs1 => Sys2Proof.Machine.execLr sz aq rl rd rs1 s
  | .sc sz aq rl rd rs1 rs2 => Sys2Proof.Machine.execSc sz aq rl rd rs1 rs2 s
  | .amo op sz aq rl rd rs1 rs2 => Sys2Proof.Machine.execAmo op sz aq rl rd rs1 rs2 s
  | .scalarLoad op rd rs1 imm => Sys2Proof.Machine.execScalarLoad op rd rs1 imm s
  | .scalarStore op rs2 rs1 imm => Sys2Proof.Machine.execScalarStore op rs2 rs1 imm s
  | .vectorLoad v => Sys2Proof.Machine.execVectorLoad v s
  | .vectorStore v => Sys2Proof.Machine.execVectorStore v s
  | .reservedEncoding w => Sys2Proof.Machine.execReservedEncoding w s
  | .mprogWrite c => Sys2Proof.Machine.execMprogWrite c s
  | .ctxpidWrite c => Sys2Proof.Machine.execCtxpidWrite c s
  | .etickCsrWrite c => Sys2Proof.Machine.execEtickCsrWrite c s
  | .ctxcompWrite c => Sys2Proof.Machine.execCtxcompWrite c s
  | .satpWrite c => Sys2Proof.Machine.execSatpWrite c s
  | .csrWrite csr c => Sys2Proof.Machine.execCsrWrite csr c s
  | .sqtailWrite agent value => Sys2Proof.Machine.execSqtailWrite agent value s
  | .cqheadWrite agent value => Sys2Proof.Machine.execCqheadWrite agent value s
  | .mbLaunch agent => Sys2Proof.Machine.execMbLaunch agent s
  | .mbPublish agent => Sys2Proof.Machine.execMbPublish agent s
  | .mbUnpublish agent => Sys2Proof.Machine.execMbUnpublish agent s
  | .mbSend agent => Sys2Proof.Machine.execMbSend agent s
  | .mbFree agent => Sys2Proof.Machine.execMbFree agent s
  | .mbSplit agent => Sys2Proof.Machine.execMbSplit agent s
  | .mbJoin agent => Sys2Proof.Machine.execMbJoin agent s
  | .hostMemRead port pa len via => Sys2Proof.Machine.execHostMemRead port pa len via s
  | .hostMemWrite port pa bytes via => Sys2Proof.Machine.execHostMemWrite port pa bytes via s
  | .atsInvalidation port addr size => Sys2Proof.Machine.execAtsInvalidation port addr size s
  | .hostReset port => Sys2Proof.Machine.execHostReset port s
  | .engineCommandFire hartloc id => Sys2Proof.Machine.execEngineCommandFire hartloc id s
  | .engineCommandComplete hartloc id => Sys2Proof.Machine.execEngineCommandComplete hartloc id s
  | .mmaPanelFault hartloc blk why => Sys2Proof.Machine.execMmaPanelFault hartloc blk why s
  | .copySegment hartloc ticket => Sys2Proof.Machine.execCopySegment hartloc ticket s
  | .copyComplete hartloc ticket => Sys2Proof.Machine.execCopyComplete hartloc ticket s
  | .ageLimitReached cluster buf => Sys2Proof.Machine.execAgeLimitReached cluster buf s
  | .depositPacket k => Sys2Proof.Machine.execDepositPacket k s
  | .depositAck k => Sys2Proof.Machine.execDepositAck k s
  | .depositRejection k => Sys2Proof.Machine.execDepositRejection k s
  | .drainRequest index dest => Sys2Proof.Machine.execDrainRequest index dest s
  | .drainResponse index dest => Sys2Proof.Machine.execDrainResponse index dest s
  | .lineFill l => Sys2Proof.Machine.execLineFill l s
  | .sliceWrite tile line => Sys2Proof.Machine.execSliceWrite tile line s
  | .passLine index => Sys2Proof.Machine.execPassLine index s
  | .scrubFrame stack => Sys2Proof.Machine.execScrubFrame stack s
  | .tickBoundary cluster => Sys2Proof.Machine.execTickBoundary cluster s
  | .eventDeliver k => Sys2Proof.Machine.execEventDeliver k s
  | .wheelDeliver cluster k => Sys2Proof.Machine.execWheelDeliver cluster k s
  | .fireAction cluster => Sys2Proof.Machine.execFireAction cluster s
  | .launchPlacement queue => Sys2Proof.Machine.execLaunchPlacement queue s
  | .kernelDone slot => Sys2Proof.Machine.execKernelDone slot s
  | .preempt hartloc => Sys2Proof.Machine.execPreempt hartloc s
  | .resume hartloc tile => Sys2Proof.Machine.execResume hartloc tile s
  | .arrivalWrite k => Sys2Proof.Machine.execArrivalWrite k s
  | .noticeWrite k => Sys2Proof.Machine.execNoticeWrite k s
  | .byteCopyCommit index ok => Sys2Proof.Machine.execByteCopyCommit index ok s
  | .moveRequest r => Sys2Proof.Machine.execMoveRequest r s
  | .moveAck id => Sys2Proof.Machine.execMoveAck id s
  | .moveRefusal id status => Sys2Proof.Machine.execMoveRefusal id status s
  | .moveData id off bytes => Sys2Proof.Machine.execMoveData id off bytes s
  | .moveCommit id => Sys2Proof.Machine.execMoveCommit id s
  | .commitAck id => Sys2Proof.Machine.execCommitAck id s
  | .xrd port world addr len => Sys2Proof.Machine.execXrd port world addr len s
  | .xwr port world addr bytes => Sys2Proof.Machine.execXwr port world addr bytes s
  | .evtMessage port m => Sys2Proof.Machine.execEvtMessage port m s
  | .barMessage channel m => Sys2Proof.Machine.execBarMessage channel m s
  | .relayPacket port dest size => Sys2Proof.Machine.execRelayPacket port dest size s
  | .flitReceive port counter auth => Sys2Proof.Machine.execFlitReceive port counter auth s
  | .linkReplay port => Sys2Proof.Machine.execLinkReplay port s
  | .trainingStart p => Sys2Proof.Machine.execTrainingStart p s
  | .lanesLocked p => Sys2Proof.Machine.execLanesLocked p s
  | .linkKeysInstalled p => Sys2Proof.Machine.execLinkKeysInstalled p s
  | .laneFail p lanes => Sys2Proof.Machine.execLaneFail p lanes s
  | .lanesRecovered p => Sys2Proof.Machine.execLanesRecovered p s
  | .linkFailure p => Sys2Proof.Machine.execLinkFailure p s
  | .trainingTimeout p => Sys2Proof.Machine.execTrainingTimeout p s
  | .portDisable p => Sys2Proof.Machine.execPortDisable p s
  | .phaseComplete channel => Sys2Proof.Machine.execPhaseComplete channel s
  | .indoubtResolve id committed => Sys2Proof.Machine.execIndoubtResolve id committed s
  | .contextInstall ctx r => Sys2Proof.Machine.execContextInstall ctx r s
  | .worldTeardown world => Sys2Proof.Machine.execWorldTeardown world s
  | .queueAssign n r => Sys2Proof.Machine.execQueueAssign n r s
  | .variableAssign ctx first count => Sys2Proof.Machine.execVariableAssign ctx first count s
  | .gateInstall n g => Sys2Proof.Machine.execGateInstall n g s
  | .gateRemove n => Sys2Proof.Machine.execGateRemove n s
  | .keySlotWrite slot key => Sys2Proof.Machine.execKeySlotWrite slot key s
  | .routeProgram dest route => Sys2Proof.Machine.execRouteProgram dest route s
  | .worldMapInstall port src dst => Sys2Proof.Machine.execWorldMapInstall port src dst s
  | .hostAgentAssign agent ctx => Sys2Proof.Machine.execHostAgentAssign agent ctx s
  | .poolRegionAssign ctx base len => Sys2Proof.Machine.execPoolRegionAssign ctx base len s
  | .linkChannelReserve num ctx devices => Sys2Proof.Machine.execLinkChannelReserve num ctx devices s
  | .pageTableWrite pa value => Sys2Proof.Machine.execPageTableWrite pa value s
  | .pageMigrate ctx va newpa => Sys2Proof.Machine.execPageMigrate ctx va newpa s
  | .bandwidthWeightSet u cls weight => Sys2Proof.Machine.execBandwidthWeightSet u cls weight s
  | .powerCapSet watts => Sys2Proof.Machine.execPowerCapSet watts s
  | .selfTestComplete f pass => Sys2Proof.Machine.execSelfTestComplete f pass s
  | .monitorSample cluster temp power railOk => Sys2Proof.Machine.execMonitorSample cluster temp power railOk s
  | .tileFault tile => Sys2Proof.Machine.execTileFault tile s
  | .lineEccError e => Sys2Proof.Machine.execLineEccError e s
  | .accumulatorEcc e => Sys2Proof.Machine.execAccumulatorEcc e s
  | .variableEcc n => Sys2Proof.Machine.execVariableEcc n s
  | .queueElementEcc n k => Sys2Proof.Machine.execQueueElementEcc n k s
  | .frameTableEcc frame => Sys2Proof.Machine.execFrameTableEcc frame s
  | .loadDataReturn hartloc => Sys2Proof.Machine.execLoadDataReturn hartloc s
  | .storePerformed hartloc => Sys2Proof.Machine.execStorePerformed hartloc s
  | .postedSvOperation k => Sys2Proof.Machine.execPostedSvOperation k s
  | .outOfService f => Sys2Proof.Machine.execOutOfService f s
  | .ringsRestored port => Sys2Proof.Machine.execRingsRestored port s
  | .kexit => Sys2Proof.Machine.execKexit s
  | .gsplit => Sys2Proof.Machine.execGsplit s
  | .wfi => Sys2Proof.Machine.execWfi s
  | .slotRotation => Sys2Proof.Machine.execSlotRotation s
  | .qpushWTimeout => Sys2Proof.Machine.execQpushWTimeout s
  | .takeInterrupt => Sys2Proof.Machine.execTakeInterrupt s
  | .coldReset => Sys2Proof.Machine.execColdReset s
  | .warmReset => Sys2Proof.Machine.execWarmReset s
  | .settleTimeout => Sys2Proof.Machine.execSettleTimeout s
  | .larchRestart => Sys2Proof.Machine.execLarchRestart s
  | .yewRestart => Sys2Proof.Machine.execYewRestart s
  | .saveAreaEcc => Sys2Proof.Machine.execSaveAreaEcc s
  | .unansweredRead => Sys2Proof.Machine.execUnansweredRead s

end Sys2Proof.Machine
end

