-- ==== Sys2Proof/Machine/Turns.lean ====
section
/-! DEFINITION. Whose turn it is (log 2), what an instruction fetch does to a gang, and time (log 7). -/

namespace Sys2Proof.Machine

/-- Each step takes a free number of main-clock cycles (log 7). -/
def passTime (s : State) : State :=
  let (n, s) := draw s
  { s with cycle := s.cycle + Config.stepCycles n }

/-- The word being executed, in every member: the instruction begins, or begins again. -/
def setIr (s : State) (w : Word32) : State :=
  (gangLocs s).foldl (fun s l => updHart s l fun h => { h with ir := w, mid := false }) s

/-- The leader of a hart's gang, or the hart itself. -/
def leaderOf (h : Hart) : Nat := match h.gang with | some g => g.members.headD h.loc | none => h.loc

/-- Make the hart of a hartloc, or the leader of its gang, the executing one; it must be on a tile. -/
def toHart (s : State) (loc : Nat) : Option State :=
  match findHart s loc with
  | some h => if h.tile.isSome then switchTo s (leaderOf h) else none
  | none => none

/-- The executing hart if it is on a tile, else the first other one that is. -/
def toRunning (s : State) : Option State :=
  if s.h.live && s.h.tile.isSome then toHart s s.h.loc
  else match s.others.find? fun h => h.tile.isSome with
    | some h => toHart s h.loc
    | none => none

/-- After a stall the next hart on a tile becomes the executing one. -/
def giveWay (s : State) : State :=
  if s.note == .stalled || !s.h.live || s.h.tile.isNone then
    match s.others.find? fun h => h.tile.isSome with
    | some h => (toHart s h.loc).getD s
    | none => s
  else s

/-- A fetch that fails: every member traps, the leader with its own `tval`, or the fetch stalls. -/
def failFetch (s : State) (e : Exc) : Host.Outcome State Fault Refusal :=
  let trap (t : State) (c : Nat) (v : Word) : Host.Outcome State Fault Refusal :=
    .next { enterAll t false c ((gangLocs t).mapIdx fun k _ => if k = 0 then v else 0) with note := .trapped (word c) v }
  match e with
  | .trap c v => trap s c v
  | .trapAt t c v => trap t c v
  | .stall t | .point t => .next { t with note := .stalled }

/-- A base instruction in a gang's member other than the leader: the link is written, the target is the leader's (R270). -/
def followBase (b : Base) (s : State) : Host.Outcome State Fault Refusal :=
  match b with
  | .branch _ _ _ _ => finish s (.ok (advance s))
  | .jalr rd _ _ => finish s (.ok (advance (wx s rd (nextPc s))))
  | b => execBase b s

/-- SRET and MRET. -/
def isReturn (b : Base) : Bool := match b with | .sret | .mret => true | _ => false

/-- An input is an event: it has no instruction word, reserved or not. -/
def isInput (i : Instr) : Bool :=
  match i with
  | .reservedEncoding _ => false
  | i => (encode i).isNone

/-- While a trip holds every die in reset, only a reset or a host's read of `fwstat` comes through (R378); and no message of a device behind a link
that carries nothing does (R356). -/
def comesThrough (s : State) (i : Instr) : Bool :=
  match i with
  | .coldReset | .warmReset | .hostMemRead _ _ _ _ => true
  | .barMessage _ (.done _ device _ _) => !s.tripped && (portAt s (routePort s device.toNat)).carries
  | _ => !s.tripped

/-- A peer's deposit packet joins the packets on their way to their slice (R146, R150), in the local world that the port's map gives (R366). -/
def packetIn (s : State) (port : Nat) (p : Packet) : State :=
  if (portAt s port).carries then
    let p := { p with fromPort := some port, world := p.world.bind (tget (portAt s port).worldMap) }
    enqueue { s with packets := s.packets ++ [p] } (.depositPacket 0)
  else s

/-- Bytes that the outside world writes in its own HOST, POOL or REMOTE memory (R113). -/
def outsideWrites (s : State) (ws : List (Nat × Byte)) : State :=
  { s with mem := ws.foldl (fun m w => if isHostPa w.1 || isPoolPa w.1 || isRemotePa w.1 then Memory.put m w.1 w.2 else m) s.mem }

end Sys2Proof.Machine
end

