-- ==== Sys2Proof/Machine/Step.lean ====
section
/-! DEFINITION. One step of the device: the agent whose turn it is moves (log 2). -/

namespace Sys2Proof.Machine

/-- What a fetched word does on one hart. -/
def runWord (w : Word32) (s : State) : Host.Outcome State Fault Refusal :=
  match decode32 w with
  | .instr i => exec i s
  | .base b => execBase b s
  | .reserved => exec (.reservedEncoding w) s

/-- The part of a gang's member other than the leader, in the leader's mode. -/
def runFollower (md : Mode) (w : Word32) (s : State) : Host.Outcome State Fault Refusal :=
  match decode32 w with
  | .instr i => inMode md false (exec i) s
  | .base b => inMode md (isReturn b) (followBase b) s
  | .reserved => inMode md false (exec (.reservedEncoding w)) s

/-- The executing hart, with its gang, takes an interrupt or executes its next instruction. An instruction that runs to its end lets no
interrupt in before (R129, R343). -/
def hartStep (s : State) : Host.Outcome State Fault Refusal :=
  match (if (gangHarts s s.h).any (·.mid) then none else takeIntr s) with
  | some t => .next t
  | none =>
    match fetchWord s with
    | .error e => failFetch s e
    | .ok (w, t) =>
      let t := setIr t w
      match gangLocs t with
      | l :: m :: r => lockstep t ((l, runWord w) :: (m :: r).map fun k => (k, runFollower t.h.mode w))
      | _ => runWord w t

/-- The turn of an agent. -/
def turn (t : Turn) (s : State) : Host.Outcome State Fault Refusal :=
  match t with
  | .hart loc =>
    match toHart s loc with
    | some u => hartStep u
    | none => .fault (.noSuchHart loc)
  | .event k =>
    match s.pending[k]? with
    | some i => exec i { s with pending := removeAt s.pending k }
    | none => .next s
  | .input i => if isInput i && comesThrough s i then exec i s else .next s
  | .outside ws => .next (outsideWrites s ws)
  | .packet port p => .next (packetIn s port p)
  | .device i => if s.tripped then .next s else .next (deviceInput i s)

/-- Without a schedule: the first event that is due, else a running hart; after an event that had to wait again, a running hart comes
first. -/
def freeTurn (s : State) : Host.Outcome State Fault Refusal :=
  match s.pending, (if s.note == .blocked || s.pending.isEmpty then toRunning s else none) with
  | _, some u => hartStep u
  | i :: r, none => exec i { s with pending := r }
  | [], none => .next s

/-- A hart that stalls or leaves its tile gives way to the next one. -/
def settle (o : Host.Outcome State Fault Refusal) : Host.Outcome State Fault Refusal :=
  match o with
  | .next s => .next (giveWay s)
  | o => o

/-- One step. -/
def step (s : State) : Host.Outcome State Fault Refusal :=
  let s := passTime s
  match s.schedule with
  | t :: r => settle (turn t { s with schedule := r })
  | [] => settle (freeTurn s)

/-- `s` with an instruction stored where `step` fetches next (log 4). -/
def State.withFetchWord (s : State) (nbits w : Nat) : State := placeWord s nbits w

end Sys2Proof.Machine
end

