-- ==== Sys2Proof/Safety.lean ====
section
/-! DEFINITION. What counts as a safe step, and the two ways in which a meaning completes, in the terms that the statements use. -/

namespace Sys2Proof

open Machine

/-- The step answers a next state. -/
def Completes (o : Host.Outcome State Fault Refusal) : Prop := ∃ t, o = .next t

/-- The step raises no fault and is not refused: what every step whose schedule names harts that run does. -/
def SafeStep (s : State) : Prop := Completes (step s)

/-- The state in which an instruction that has made `t` of the state before it retires: pc and retired count advance (R28). -/
def retired (t : State) : State := { advance t with note := .clear }

/-- The state in which an event that has made `t` of the state before it ends. -/
def occur (t : State) : State := { t with note := .clear }

/-- The state in which an instruction stalls. -/
def stalled (t : State) : State := { t with note := .stalled }

end Sys2Proof
end

