-- ==== Sys2Proof/Certificates/Slice0/Obligations.lean ====
section
/-! DEFINITION. The statements for the provers. Each says in its docstring which rules it formalises. `retired t` is the state in
which an instruction retires that has made `t`, `occur t` that in which an event ends: a conclusion `exec i s = .next (retired t)` with
`t` an update of `s` says the whole frame of the instruction. -/

open Sys2Proof Sys2Proof.Machine

/-! Steps, words and exceptions -/

/-- A step whose turn is a hart's (its schedule names the hart, or nothing is scheduled and no event is pending) and that takes no
interrupt (none is admitted, or an instruction that runs to its end is in the middle) runs the instruction that the bytes at the pc decode to:
`step` is `exec` of it, in the state that fetching has left, and a hart that stalls gives way. R28, R33. The schedule is the model's own
(log 2). -/
def Obligations.StepRunsDecodedInstruction : Prop :=
  ∀ (s u t : State) (loc : Nat) (r : List Turn) (w : Word32),
    (s.schedule = .hart loc :: r ∧ toHart { passTime s with schedule := r } loc = some u ∨
      s.schedule = [] ∧ s.pending = [] ∧ toRunning (passTime s) = some u) →
    takeIntr u = none ∨ (gangHarts u u.h).any (·.mid) = true → fetchWord u = .ok (w, t) → (gangLocs (setIr t w)).length ≤ 1 →
    (∀ i, decode32 w = .instr i → step s = settle (exec i (setIr t w))) ∧
    (∀ b, decode32 w = .base b → step s = settle (execBase b (setIr t w))) ∧
    (decode32 w = .reserved → step s = settle (exec (.reservedEncoding w) (setIr t w)))

/-- The encoder's word of every well-formed instruction decodes to that instruction, with every operand at every value that its field
admits; and a word that decodes to an instruction is that instruction's word. Events have no word. R33 to R44. -/
def Obligations.DecodeEncode : Prop :=
  (∀ (i : Instr) (w : Word32), i.wf = true → encode i = some w → decode32 w = .instr i) ∧
  (∀ (i : Instr) (w : Word32), decode32 w = .instr i → i.wf = true ∧ encode i = some w)

/-- Words written out from the formats and maps decode to the instructions that they stand for: those of the example of R44, one of each
custom opcode's other formats, and standard words; a circular-buffer field below 16, a zero field that is not zero, x0 as the destination of
BALLOC and a 16-bit encoding are reserved (R28, R33 to R37, R39 to R44). -/
def Obligations.DecodeWords : Prop :=
  decode32 0x68C5950B#32 = .instr (.bsend 10 11 12 13) ∧
  decode32 0x6AC5950B#32 = .instr (.bsendLocal 10 11 12 13) ∧
  decode32 0x00C5C40B#32 = .instr (.dsw 12 11 8#12) ∧
  decode32 0x192882AB#32 = .instr (.mmaE4e4 1 (.cb 1) (.cb 2) 3) ∧
  decode32 0x03FE777B#32 = .instr (.wait { ld := 7, st := 0, cp := 0, mx := 7, dp := 7, sd := 7 }) ∧
  decode32 0x192082AB#32 = .reserved ∧
  decode32 0x1B2082AB#32 = .instr (.mmaE4e4 1 (.handle 1) (.cb 2) 3) ∧
  decode32 (0x00#7 ++ 12#5 ++ 11#5 ++ 0#3 ++ 10#5 ++ 0x0B#7) = .instr (.balloc 10 11 12) ∧
  decode32 (0x00#7 ++ 12#5 ++ 11#5 ++ 0#3 ++ 0#5 ++ 0x0B#7) = .reserved ∧
  decode32 (0x01#7 ++ 12#5 ++ 11#5 ++ 0#3 ++ 0#5 ++ 0x0B#7) = .reserved ∧
  decode32 (0x29#7 ++ 12#5 ++ 11#5 ++ 7#3 ++ 10#5 ++ 0x0B#7) = .instr (.daCasD 10 11 12) ∧
  decode32 (0x23#7 ++ 0#5 ++ 17#5 ++ 2#3 ++ 1#5 ++ 0x2B#7) = .instr (.mdrain 1 .fp16 .rup 1 none) ∧
  decode32 (3#5 ++ 2#2 ++ 6#5 ++ 4#5 ++ 4#3 ++ 2#5 ++ 0x2B#7) = .instr (.vdotbE5m2 2 4 6 3) ∧
  decode32 (0x05#7 ++ 0#5 ++ 18#5 ++ 0#3 ++ 10#5 ++ 0x5B#7) = .instr (.cbqry 10 2) ∧
  decode32 (0x08#7 ++ 12#5 ++ 11#5 ++ 5#3 ++ 10#5 ++ 0x5B#7) = .instr (.klaunch 10 11 12) ∧
  decode32 (0x08#7 ++ 12#5 ++ 11#5 ++ 2#3 ++ 10#5 ++ 0x7B#7) = .instr (.svCas 10 11 12) ∧
  decode32 (0x23#7 ++ 12#5 ++ 11#5 ++ 4#3 ++ 0#5 ++ 0x7B#7) = .instr (.cmoClinvAll 11 12) ∧
  decode32 (0x180#12 ++ 11#5 ++ 1#3 ++ 0#5 ++ 0x73#7) = .instr (.satpWrite { op := .rw, src := .reg 11, rd := 0 }) ∧
  decode32 (16#12 ++ 2#5 ++ 3#3 ++ 10#5 ++ 0x03#7) = .instr (.scalarLoad .ld 10 2 16#12) ∧
  decode32 (2#5 ++ 1#1 ++ 0#1 ++ 0#5 ++ 11#5 ++ 3#3 ++ 10#5 ++ 0x2F#7) = .instr (.lr .d true false 10 11) ∧
  decode32 0x10500073#32 = .instr .wfi ∧
  decode32 (0#7 ++ 12#5 ++ 11#5 ++ 0#3 ++ 10#5 ++ 0x33#7) = .base (.alu .add false 10 11 12) ∧
  decode32 0x00004501#32 = .reserved

/-- Memory is in its canonical form and the tables of tiles and of clusters rise: a step keeps them so, whatever the turn and
whatever the instruction or event. Statements that need these forms take them as premises. The forms are the model's own choice (log 8):
R4 says what a byte and its address are, and no more. -/
def Obligations.StepKeepsCanonicalForms : Prop :=
  ∀ s t : State, Memory.wf s.mem = true ∧ risesFrom 0 s.tiles = true ∧ risesFrom 0 s.clusters = true → step s = .next t →
    Memory.wf t.mem = true ∧ risesFrom 0 t.tiles = true ∧ risesFrom 0 t.clusters = true

/-- After a cold reset memory and the tables are in their canonical forms; no logical hart exists and nothing is assigned, every readiness bit
reads 0 and `settled` is 0, every link is DOWN, every scrub channel runs from frame 0 to its last frame, and `dagemax` is 256 (R144, R313,
R351, R354, R356, R377). -/
def Obligations.ResetState : Prop :=
  let r := State.reset
  Memory.wf r.mem = true ∧ risesFrom 0 r.tiles = true ∧ risesFrom 0 r.clusters = true ∧ harts r = [] ∧ r.caps = [] ∧ r.kernels = [] ∧
    r.ctxs = [] ∧ r.queues = [] ∧ (∀ w b, isReady r w b = false) ∧ r.settled = false ∧ (∀ p, (portAt r p).state = .down) ∧
    (∀ k, r.scrubs.get k = { boot := true, world := none, act := true, ptr := 0, last := 0xFFFFFF }) ∧ r.h.csr.dagemax = 256

/-- No instruction and no event stops the machine: every meaning answers a next state, since each failure that the spec names is a
trap, a status or an event (R8, R36, R77, R324). -/
def Obligations.EveryMeaningAnswers : Prop := ∀ (i : Instr) (s : State), ∃ t, exec i s = .next t

/-- A synchronous exception saves the pc, the cause and the value in the handler mode's registers, makes the handler's vector the pc,
and puts the interrupt enable and the mode away; it goes to S-mode exactly when it is raised in U or S with its delegation bit set (R324,
R325). It clears the reservation (R30). Of the model's choosing: the layout of the status register (log 6). -/
def Obligations.ExceptionEntry : Prop :=
  ∀ (s : State) (code : Nat) (tval : Word), code < 64 →
    let t := takeTrap s code tval
    (s.h.mode ≠ .m ∧ bitAt s.h.csr.medeleg code = true →
      t.h.mode = .s ∧ t.h.csr.sepc = s.h.pc ∧ t.h.csr.scause = BitVec.ofNat 64 code ∧ t.h.csr.stval = tval ∧
      t.h.pc = BitVec.ofNat 64 (s.h.csr.stvec.toNat / 4 * 4) ∧
      bitAt t.h.csr.mstatus 5 = bitAt s.h.csr.mstatus 1 ∧ bitAt t.h.csr.mstatus 1 = false ∧
      bitAt t.h.csr.mstatus 8 = (s.h.mode == .s) ∧
      t.h.csr.mepc = s.h.csr.mepc ∧ t.h.csr.mcause = s.h.csr.mcause ∧ t.h.csr.mtval = s.h.csr.mtval) ∧
    (s.h.mode = .m ∨ bitAt s.h.csr.medeleg code = false →
      t.h.mode = .m ∧ t.h.csr.mepc = s.h.pc ∧ t.h.csr.mcause = BitVec.ofNat 64 code ∧ t.h.csr.mtval = tval ∧
      t.h.pc = BitVec.ofNat 64 (s.h.csr.mtvec.toNat / 4 * 4) ∧
      bitAt t.h.csr.mstatus 7 = bitAt s.h.csr.mstatus 3 ∧ bitAt t.h.csr.mstatus 3 = false ∧
      t.h.csr.mstatus.toNat / 2 ^ 11 % 4 = s.h.mode.rank ∧
      t.h.csr.sepc = s.h.csr.sepc ∧ t.h.csr.scause = s.h.csr.scause ∧ t.h.csr.stval = s.h.csr.stval) ∧
    t.h.resv = none ∧ t.h.x = s.h.x ∧ t.h.f = s.h.f ∧ t.h.v = s.h.v ∧ t.mem = s.mem ∧ t.others = s.others ∧ t.caps = s.caps

/-! The base set -/

/-- A retired instruction leaves the machine as its effect has made it, but that the pc has moved to the next word and the retired count
has risen by one (R28). x0 reads zero and a write of it is discarded; a write of any other x register is what a read of it then gives, and no
other register changes (R28). -/
def Obligations.RetirementAndRegisters : Prop :=
  (∀ t : State, (retired t).h.pc = t.h.pc + 4 ∧ (retired t).h.csr.instret = t.h.csr.instret + 1 ∧
    { retired t with h := { (retired t).h with pc := t.h.pc, csr := t.h.csr }, note := t.note } = t) ∧
  (∀ (s : State) (r q : Reg) (v : Word),
    rx s 0 = 0 ∧ wx s 0 v = s ∧ (r ≠ 0 → rx (wx s r v) r = v) ∧ (q ≠ r → rx (wx s r v) q = rx s q))

/-- The scalar base instructions that have no row of their own. Those of RV64IM write `rd` and nothing else; division by zero gives all ones
and leaves the dividend as the remainder; the signed overflow gives the dividend and remainder 0. JAL and JALR write the address of the next
word to `rd` and go to their target, a branch goes to its target when its condition holds and to the next word when it does not, and a target
that is not 4-byte aligned raises instruction-address-misaligned with the target, with nothing written. Those of F and D, with FS not Off and
a legal rounding mode, read their operands under NaN boxing, write what the operation gives to `rd` and its flags to `fflags`, and no other
register; with FS Off or a reserved rounding mode they are illegal instructions (R28, R36, R61). -/
def Obligations.ScalarBaseResults : Prop :=
  (∀ (s : State) (op : AluOp) (w : Bool) (rd rs1 rs2 : Reg) (i12 : BitVec 12) (i20 : BitVec 20),
    execBase (.alu op w rd rs1 rs2) s = .next (retired (wx s rd (alu op w (rx s rs1) (rx s rs2)))) ∧
    execBase (.aluImm op w rd rs1 i12) s = .next (retired (wx s rd (alu op w (rx s rs1) (i12.signExtend 64)))) ∧
    execBase (.lui rd i20) s = .next (retired (wx s rd ((i20 ++ 0#12).signExtend 64))) ∧
    execBase (.auipc rd i20) s = .next (retired (wx s rd (s.h.pc + (i20 ++ 0#12).signExtend 64)))) ∧
  (∀ a : Word,
    alu .div false a 0 = BitVec.allOnes 64 ∧ alu .divu false a 0 = BitVec.allOnes 64 ∧
    alu .rem false a 0 = a ∧ alu .remu false a 0 = a ∧
    alu .div false (BitVec.intMin 64) (BitVec.allOnes 64) = BitVec.intMin 64 ∧
    alu .rem false (BitVec.intMin 64) (BitVec.allOnes 64) = 0 ∧
    alu .div true a 0 = BitVec.allOnes 64 ∧ alu .rem true a 0 = (a.setWidth 32).signExtend 64) ∧
  (∀ (s : State) (op : BrOp) (rd rs1 rs2 : Reg) (i12 : BitVec 12) (i13 : BitVec 13) (i21 : BitVec 21),
    let a := rx s rs1
    let b := rx s rs2
    let goes (i : Base) (t : State) (target : Word) : Prop :=
      (target.toNat % 4 = 0 → execBase i s = .next (occur
        { t with h := { t.h with pc := target, csr := { t.h.csr with instret := t.h.csr.instret + 1 } } })) ∧
      (target.toNat % 4 ≠ 0 → execBase i s = .next (takeTrap s 0 target))
    let taken : Prop := match op with
      | .beq => a = b
      | .bne => a ≠ b
      | .blt => a.toInt < b.toInt
      | .bge => b.toInt ≤ a.toInt
      | .bltu => a.toNat < b.toNat
      | .bgeu => b.toNat ≤ a.toNat
    goes (.jal rd i21) (wx s rd (s.h.pc + 4)) (s.h.pc + i21.signExtend 64) ∧
    goes (.jalr rd rs1 i12) (wx s rd (s.h.pc + 4)) ((a + i12.signExtend 64) &&& 0xFFFFFFFFFFFFFFFE#64) ∧
    (taken → goes (.branch op rs1 rs2 i13) s (s.h.pc + i13.signExtend 64)) ∧
    (¬ taken → execBase (.branch op rs1 rs2 i13) s = .next (retired s))) ∧
  (∀ (s : State) (fmt : FpFmt) (rd rs1 rs2 rs3 : Reg) (rm : Fin 8),
    let f := fmtOf fmt
    let a := readF s fmt rs1
    let b := readF s fmt rs2
    let c := readF s fmt rs3
    let rest (t : State) : Prop := t.h.v = s.h.v ∧ t.mem = s.mem ∧ t.caps = s.caps ∧ t.h.mode = s.h.mode ∧ t.h.pc = s.h.pc + 4
    let toF (i : Base) (g : FpFmt) (r : Coded) : Prop := ∃ t, execBase i s = .next t ∧ readF t g rd = r.1 % 2 ^ (fmtOf g).bits ∧
      (g = .s → (rf t rd).toNat / 2 ^ 32 = 2 ^ 32 - 1) ∧ t.h.csr.fflags = s.h.csr.fflags ||| r.2.toBits ∧ fld t.h.csr.mstatus 13 2 = 3 ∧
      (∀ q, q ≠ rd → rf t q = rf s q) ∧ t.h.x = s.h.x ∧ rest t
    let toX (i : Base) (v : Word) (fl : FFlags) : Prop := ∃ t, execBase i s = .next t ∧ (rd ≠ 0 → rx t rd = v) ∧
      t.h.csr.fflags = s.h.csr.fflags ||| fl.toBits ∧ (∀ q, q ≠ rd → rx t q = rx s q) ∧ t.h.f = s.h.f ∧ rest t
    let mode : Option RM := match (if rm.val = 7 then s.h.csr.frm.toNat else rm.val) with
      | 0 => some .rne | 1 => some .rtz | 2 => some .rdn | 3 => some .rup | 4 => some .rmm | _ => none
    let ill : Host.Outcome State Fault Refusal := .next (takeTrap s 2 (BitVec.ofNat 64 s.h.ir.toNat))
    (∀ m, fld s.h.csr.mstatus 13 2 ≠ 0 → mode = some m →
      toF (.farith .add fmt rd rs1 rs2 rm) fmt (f.add m a b) ∧ toF (.farith .sub fmt rd rs1 rs2 rm) fmt (f.sub m a b) ∧
      toF (.farith .mul fmt rd rs1 rs2 rm) fmt (f.mul m a b) ∧ toF (.farith .div fmt rd rs1 rs2 rm) fmt (f.div m a b) ∧
      toF (.fsqrt fmt rd rs1 rm) fmt (f.sqrt m a) ∧
      toF (.fma .madd fmt rd rs1 rs2 rs3 rm) fmt (f.fma m false false a b c) ∧ toF (.fma .msub fmt rd rs1 rs2 rs3 rm) fmt (f.fma m false true a b c) ∧
      toF (.fma .nmsub fmt rd rs1 rs2 rs3 rm) fmt (f.fma m true false a b c) ∧ toF (.fma .nmadd fmt rd rs1 rs2 rs3 rm) fmt (f.fma m true true a b c) ∧
      toF (.fcvtFmt .d rd rs1 rm) .d (FFmt.fp32.convert FFmt.fp64 m (readF s .s rs1)) ∧
      toF (.fcvtFmt .s rd rs1 rm) .s (FFmt.fp64.convert FFmt.fp32 m (readF s .d rs1)) ∧
      toF (.fcvtFromInt fmt .w rd rs1 rm) fmt (f.ofInt m ((rx s rs1).setWidth 32).toInt) ∧
      toF (.fcvtFromInt fmt .wu rd rs1 rm) fmt (f.ofInt m (((rx s rs1).setWidth 32).toNat : Int)) ∧
      toF (.fcvtFromInt fmt .l rd rs1 rm) fmt (f.ofInt m (rx s rs1).toInt) ∧ toF (.fcvtFromInt fmt .lu rd rs1 rm) fmt (f.ofInt m ((rx s rs1).toNat : Int)) ∧
      toX (.fcvtToInt fmt .w rd rs1 rm) ((BitVec.ofNat 32 (f.toInt m true 32 a).1).signExtend 64) (f.toInt m true 32 a).2 ∧
      toX (.fcvtToInt fmt .wu rd rs1 rm) ((BitVec.ofNat 32 (f.toInt m false 32 a).1).signExtend 64) (f.toInt m false 32 a).2 ∧
      toX (.fcvtToInt fmt .l rd rs1 rm) (BitVec.ofNat 64 (f.toInt m true 64 a).1) (f.toInt m true 64 a).2 ∧
      toX (.fcvtToInt fmt .lu rd rs1 rm) (BitVec.ofNat 64 (f.toInt m false 64 a).1) (f.toInt m false 64 a).2) ∧
    (fld s.h.csr.mstatus 13 2 ≠ 0 →
      (∀ op, toF (.fsgnj op fmt rd rs1 rs2) fmt (f.inject op a b, FFlags.none)) ∧ (∀ mx, toF (.fminmax mx fmt rd rs1 rs2) fmt (f.minmax mx a b)) ∧
      toX (.fcmp .eq fmt rd rs1 rs2) (if (f.eq a b).1 then 1 else 0) (f.eq a b).2 ∧ toX (.fcmp .lt fmt rd rs1 rs2) (if (f.lt a b).1 then 1 else 0) (f.lt a b).2 ∧
      toX (.fcmp .le fmt rd rs1 rs2) (if (f.le a b).1 then 1 else 0) (f.le a b).2 ∧ toX (.fclass fmt rd rs1) (BitVec.ofNat 64 (f.classify a)) FFlags.none ∧
      toX (.fmvToX .s rd rs1) (((rf s rs1).setWidth 32).signExtend 64) FFlags.none ∧ toX (.fmvToX .d rd rs1) (rf s rs1) FFlags.none ∧
      toF (.fmvFromX fmt rd rs1) fmt ((rx s rs1).toNat, FFlags.none)) ∧
    (fld s.h.csr.mstatus 13 2 = 0 ∨ mode = none → ∀ op, execBase (.farith op fmt rd rs1 rs2 rm) s = ill ∧
      (∀ fo, execBase (.fma fo fmt rd rs1 rs2 rs3 rm) s = ill) ∧ execBase (.fsqrt fmt rd rs1 rm) s = ill ∧ execBase (.fcvtFmt fmt rd rs1 rm) s = ill ∧
      (∀ z, execBase (.fcvtToInt fmt z rd rs1 rm) s = ill ∧ execBase (.fcvtFromInt fmt z rd rs1 rm) s = ill)) ∧
    (fld s.h.csr.mstatus 13 2 = 0 → (∀ op, execBase (.fsgnj op fmt rd rs1 rs2) s = ill) ∧ (∀ mx, execBase (.fminmax mx fmt rd rs1 rs2) s = ill) ∧
      (∀ op, execBase (.fcmp op fmt rd rs1 rs2) s = ill) ∧ execBase (.fclass fmt rd rs1) s = ill ∧ execBase (.fmvToX fmt rd rs1) s = ill ∧
      execBase (.fmvFromX fmt rd rs1) s = ill)) ∧
  (∀ (s : State) (r : Reg), (rf s r).toNat / 2 ^ 32 ≠ 2 ^ 32 - 1 → readF s .s r = 0x7FC00000)

/-- ECALL raises the environment call of the mode, EBREAK a breakpoint; SRET and MRET restore what the entry has saved (R28, R325). FENCE has
no effect. FENCE.I, SFENCE.VMA and every unassigned word raise illegal instruction in every mode, with the word in `stval`. WFI goes on
when an interrupt is pending and enabled (R29, R36, R44). Of the model's choosing: the trap values of ECALL and EBREAK (log 36). -/
def Obligations.EnvironmentCallsAndReturns : Prop :=
  (∀ s : State,
     execBase .ecall s = .next (takeTrap s (match s.h.mode with | .u => 8 | .s => 9 | .m => 11) 0) ∧
     execBase .ebreak s = .next (takeTrap s 3 s.h.pc) ∧
     (s.h.mode = .m → ∃ t, execBase .mret s = .next t ∧ t.h.pc = s.h.csr.mepc ∧
       t.h.mode = Mode.ofCode (fld s.h.csr.mstatus 11 2) ∧ bitAt t.h.csr.mstatus 3 = bitAt s.h.csr.mstatus 7 ∧
       bitAt t.h.csr.mstatus 7 = true ∧ t.h.x = s.h.x ∧ t.mem = s.mem ∧ t.caps = s.caps) ∧
     (s.h.mode = .m ∨ s.h.mode = .s ∧ bitAt s.h.csr.mstatus 22 = false → ∃ t, execBase .sret s = .next t ∧ t.h.pc = s.h.csr.sepc ∧
       t.h.mode = (if bitAt s.h.csr.mstatus 8 then .s else .u) ∧ bitAt t.h.csr.mstatus 1 = bitAt s.h.csr.mstatus 5 ∧
       bitAt t.h.csr.mstatus 5 = true ∧ t.h.x = s.h.x ∧ t.mem = s.mem ∧ t.caps = s.caps)) ∧
  (∀ (s : State) (w : Word32),
     exec (.fence w) s = .next (retired s) ∧
     exec (.fenceI w) s = .next (takeTrap s 2 (BitVec.ofNat 64 w.toNat)) ∧
     exec (.sfenceVma w) s = .next (takeTrap s 2 (BitVec.ofNat 64 w.toNat)) ∧
     exec (.reservedEncoding w) s = .next (takeTrap s 2 (BitVec.ofNat 64 w.toNat)) ∧
     (bitAt s.h.csr.mstatus 21 = false ∨ s.h.mode = .m →
       (wakes s s.h = true → exec .wfi s = .next (retired { s with h := { s.h with wfi := false } })) ∧
       (wakes s s.h = false → exec .wfi s = .next (stalled { s with h := { s.h with wfi := true } }))))

/-- Scalar loads and stores and the A extension complete when the access is admitted: LR reserves the doubleword, SC stores under a valid
reservation and clears it, an AMO reads, operates and writes and returns the old value (R19, R29, R30, R31, R130). -/
def Obligations.ScalarMemory : Prop :=
  (∀ (s t : State) (op : LoadOp) (rd rs1 : Reg) (imm : BitVec 12) (bytes : List Byte),
    (LoadIsF op = true → fld s.h.csr.mstatus 13 2 ≠ 0) →
    loadScalar s (rx s rs1 + imm.signExtend 64).toNat (loadWidth op) = .ok (bytes, t) →
    exec (.scalarLoad op rd rs1 imm) s = .next (retired (loadResult t op rd (leNat bytes)))) ∧
  (∀ (s t : State) (op : StoreOp) (rs2 rs1 : Reg) (imm : BitVec 12),
    let va := (rx s rs1 + imm.signExtend 64).toNat
    let v := if StoreIsF op then rf s rs2 else rx s rs2
    (StoreIsF op = true → fld s.h.csr.mstatus 13 2 ≠ 0) →
    storeBytes s va (leBytes (storeWidth op) v.toNat) (BitVec.ofNat 64 va) = .ok t →
    exec (.scalarStore op rs2 rs1 imm) s = .next (retired t)) ∧
  (∀ (s t : State) (sz : AmoW) (aq rl : Bool) (rd rs1 : Reg) (bytes : List Byte),
    let va := (rx s rs1).toNat
    va % AmoW.bytes sz = 0 → loadScalar s va (AmoW.bytes sz) = .ok (bytes, t) →
    exec (.lr sz aq rl rd rs1) s =
      .next (retired (wx { t with h := { t.h with resv := some (capAddr s va / 8 * 8) } } rd (amoExt sz (leNat bytes))))) ∧
  (∀ (s t : State) (sz : AmoW) (aq rl : Bool) (rd rs1 rs2 : Reg),
    let va := (rx s rs1).toNat
    va % AmoW.bytes sz = 0 → inHole va = false → needWhole s va = .ok () →
    (s.h.resv = some (capAddr s va / 8 * 8) →
      storeBytes s va (leBytes (AmoW.bytes sz) (rx s rs2).toNat) (BitVec.ofNat 64 va) = .ok t →
      exec (.sc sz aq rl rd rs1 rs2) s = .next (retired (wx { t with h := { t.h with resv := none } } rd 0))) ∧
    (s.h.resv ≠ some (capAddr s va / 8 * 8) →
      exec (.sc sz aq rl rd rs1 rs2) s = .next (retired (wx { s with h := { s.h with resv := none } } rd 1)))) ∧
  (∀ (s t u : State) (op : AmoOp) (sz : AmoW) (aq rl : Bool) (rd rs1 rs2 : Reg) (pas : List Nat) (bytes : List Byte),
    let va := (rx s rs1).toNat
    let n := AmoW.bytes sz
    va % n = 0 → inHole va = false → needWhole s va = .ok () → translateRange s .store va n = .ok (pas, t) →
    readPas t (myTile t) (myPid t) pas = some bytes →
    storeBytes (noteRead t (myPid t) (pas.filter fun p => (tget (tileOf t (myTile t)).l1d p).isNone)) va
      (leBytes n (amoOp op (8 * n) (leNat bytes) ((rx s rs2).toNat % 2 ^ (8 * n)))) (BitVec.ofNat 64 va) = .ok u →
    exec (.amo op sz aq rl rd rs1 rs2) s = .next (retired (wx u rd (amoExt sz (leNat bytes)))))

/-- A load of bytes of a tile's or a cluster's SRAM that the hart may load writes them, little-endian and extended as the instruction says, to
its register, and changes nothing else (R4, R18, R19, R28, R115). A scalar store to SRAM puts the low bytes of its source at its address,
and every other byte of memory reads as before; ST rises by one until the store is performed; no register changes (R4, R18, R19, R130). -/
def Obligations.SramAccesses : Prop :=
  (∀ (s : State) (op : LoadOp) (rd rs1 : Reg) (imm : BitVec 12),
     let va := (rx s rs1 + imm.signExtend 64).toNat
     (LoadIsF op = true → fld s.h.csr.mstatus 13 2 ≠ 0) →
     inTileAperture va = true ∨ inClusterAperture va = true → va % 4096 + loadWidth op ≤ 4096 →
     checkRights s va (loadWidth op) false (BitVec.ofNat 64 va) = .ok () →
     (∀ k < loadWidth op, tget (tileOf s (myTile s)).l1d (va + k) = none) →
     exec (.scalarLoad op rd rs1 imm) s = .next (retired (loadResult s op rd (leNat (Memory.getN s.mem va (loadWidth op)))))) ∧
  (∀ (s : State) (op : StoreOp) (rs2 rs1 : Reg) (imm : BitVec 12),
     let va := (rx s rs1 + imm.signExtend 64).toNat
     let n := storeWidth op
     let v := if StoreIsF op then rf s rs2 else rx s rs2
     (StoreIsF op = true → fld s.h.csr.mstatus 13 2 ≠ 0) → Memory.wf s.mem = true →
     inTileAperture va = true ∨ inClusterAperture va = true → va % 4096 + n ≤ 4096 →
     checkRights s va n true (BitVec.ofNat 64 va) = .ok () → s.h.stOut.length < 255 →
     ∃ t, exec (.scalarStore op rs2 rs1 imm) s = .next t ∧
       Memory.getN t.mem va n = leBytes n v.toNat ∧
       (∀ a, a < va ∨ va + n ≤ a → Memory.get t.mem a = Memory.get s.mem a) ∧
       t.h.x = s.h.x ∧ t.h.f = s.h.f ∧ t.h.v = s.h.v ∧ t.h.pc = s.h.pc + 4 ∧
       t.h.stOut = s.h.stOut ++ [{ va := va, lines := [], hosts := [], drop := false }] ∧
       t.h.holdings = s.h.holdings ∧ t.caps = s.caps ∧ t.slices = s.slices ∧ t.clusters = s.clusters)

/-- What a scalar store, an SC or an AMO stores to is what the translation of its address gives: where it stores to SRAM and HOST memory, and to
DEVICE lines for which its tile's data L1 has room, every other byte that any hart reads, at every tile, reads as before. Wherever it stores,
no register, mode, CSR or holding of the hart changes (R115, R130). Of the model's choosing: the form of the data L1 (log 11). -/
def Obligations.StoreFrame : Prop :=
  ∀ (s t : State) (va : Nat) (bytes : List Byte) (tval : Word), storeBytes s va bytes tval = .ok t →
    (t.h.x = s.h.x ∧ t.h.f = s.h.f ∧ t.h.v = s.h.v ∧ t.h.pc = s.h.pc ∧ t.h.mode = s.h.mode ∧ t.h.csr = s.h.csr ∧
      t.h.holdings = s.h.holdings) ∧
    (∀ (u : State) (pas : List Nat) (a tile q : Nat), Memory.wf s.mem = true → risesFrom 0 s.tiles = true →
      translateRange s .store va bytes.length = .ok (pas, u) → a ∉ pas →
      (∀ p ∈ pas, isRemotePa p = false ∧ isPoolPa p = false) →
      (uniq ((tileOf s (myTile s)).l1d.map fun c => lineOf c.1)).length + (uniq (pas.map lineOf)).length ≤ 512 →
      readPas t tile q [a] = readPas s tile q [a])

/-! Control and status registers -/

/-- A Zicsr word on a register without a row of its own reads the register into `rd` and, where it writes, puts the value that its operation
makes of the old one; a register that is missing or out of reach in the mode raises illegal instruction (R28, R45). Registers keep what is
written to them, but for their reserved bits, and a read gives it back; a write of one changes no other and nothing outside the hart.
`jobseed`, `mcfg`, `mdrop`, `mamaxv`, `vbscfg`, `dflog`, `dagemax` and `mcoord` are written at every mode (R7, R69, R144, R152, R191, R192,
R204, R211). A write of `scrubptr` selects a scrub channel, whose activity, pointer and last frame a read shows; a write of `rdyfn`
selects a readiness window, and is ignored when it names none; both are illegal below M-mode (R45, R351, R375). Of the model's choosing: the
layouts of the standard registers (log 6). -/
def Obligations.CsrReadsAndWrites : Prop :=
  (∀ (s : State) (n : BitVec 12) (c : CsrArg),
     (∀ old t, csrRead s n.toNat = some old → csrWrites c = true →
       csrPut s n.toNat (match c.op with | .rw => csrSrc s c | .rs => old ||| csrSrc s c | .rc => old &&& ~~~csrSrc s c) = .ok t →
       exec (.csrWrite n c) s = .next (retired (wx t c.rd old))) ∧
     (∀ old, csrRead s n.toNat = some old → csrWrites c = false → exec (.csrWrite n c) s = .next (retired (wx s c.rd old))) ∧
     (csrRead s n.toNat = none → exec (.csrWrite n c) s = .next (takeTrap s 2 (BitVec.ofNat 64 s.h.ir.toNat)))) ∧
  (∀ (s : State) (v : Word), ∃ t0 t1 t2 t3 t4 t5 t6 t7 : State,
     csrPut s 0x800 v = .ok t0 ∧ csrRead t0 0x800 = some v ∧
     csrPut s 0x801 v = .ok t1 ∧ csrRead t1 0x801 = some (v &&& 0xFFFFFFFFFF00F73F#64) ∧
     csrPut s 0x802 v = .ok t2 ∧ csrRead t2 0x802 = some (v &&& 0xFFFF7FFFFFFFFFFF#64) ∧
     csrPut s 0x805 v = .ok t3 ∧ csrRead t3 0x805 = some v ∧
     csrPut s 0x806 v = .ok t4 ∧ csrRead t4 0x806 = some (v &&& 0xFFFF#64) ∧
     csrPut s 0x809 v = .ok t5 ∧ csrRead t5 0x809 = some v ∧
     csrPut s 0x803 v = .ok t6 ∧ csrRead t6 0x803 = some (v &&& 0x80000000FFFFFFFF#64) ∧
     csrPut s 0x804 v = .ok t7 ∧ csrRead t7 0x804 = some (v &&& 0xF1#64) ∧
     (∀ t ∈ [t0, t1, t2, t3, t4, t5, t6, t7], t.h.x = s.h.x ∧ t.h.pc = s.h.pc ∧ t.h.mode = s.h.mode ∧ t.h.csr.mstatus = s.h.csr.mstatus ∧
       t.mem = s.mem ∧ t.caps = s.caps ∧ t.others = s.others ∧ t.clusters = s.clusters)) ∧
  (∀ (s : State) (v : Word),
     (s.h.mode ≠ .m → csrRead s 0x7C0 = none ∧ csrRead s 0x7C1 = none) ∧
     (s.h.mode = .m →
       (∃ t r, csrPut s 0x7C0 v = .ok t ∧ t = { s with h := { s.h with csr := { s.h.csr with scrubSel := t.h.csr.scrubSel } } } ∧
         t.h.csr.scrubSel.val = fld v 60 3 ∧ csrRead t 0x7C0 = some r ∧
         (let c := s.scrubs.get t.h.csr.scrubSel
          c.ptr < 2 ^ 24 → c.last < 2 ^ 24 → fld r 0 12 = 0 ∧ fld r 12 24 = c.ptr ∧ fld r 36 24 = c.last ∧ fld r 60 3 = fld v 60 3 ∧
            bitAt r 63 = c.act)) ∧
       (fld v 58 6 ≤ 37 → ∃ t r, csrPut s 0x7C1 v = .ok t ∧ t = { s with h := { s.h with csr := { s.h.csr with rdySel := t.h.csr.rdySel } } } ∧
         t.h.csr.rdySel.val = fld v 58 6 ∧ csrRead t 0x7C1 = some r ∧ fld r 0 32 = (tgetD s.ready (fld v 58 6) 0#32).toNat ∧
         fld r 32 26 = 0 ∧ fld r 58 6 = fld v 58 6) ∧
       (37 < fld v 58 6 → csrPut s 0x7C1 v = .ok s)))

/-- The registers whose writes have a row: a value written to `satp` takes effect in mode Sv57 only and empties the tile's TLB;
`ctxcomp` keeps the allocation bits that the ceiling has; a write of `etick` sets the cluster's period; `ctxpid` sets the context's
partition identifier once its tags under the old one are gone, and waits while a write-back of them cannot proceed; `mprog` ignores every
value but 0, and 0 abandons a suspended direct MMA (R28, R162, R200, R245, R320, R341). Of the model's choosing: fills of REMOTE lines that
still await under the old identifier come no more (log 89). -/
def Obligations.OwnRowRegisters : Prop :=
  ∀ (s : State) (c : CsrArg) (old : Word), csrWrites c = true →
    (csrRead s 0x180 = some old →
      let v := csrValue c.op old (csrSrc s c)
      (fld v 60 4 = 10 → ∃ t, exec (.satpWrite c) s = .next t ∧ t.h.csr.satp = v ∧ (risesFrom 0 s.tiles = true → (tileOf t (myTile s)).tlb = []) ∧
        t.h.pc = s.h.pc + 4 ∧ (c.rd ≠ 0 → rx t c.rd = old) ∧ (∀ r, r ≠ c.rd → rx t r = rx s r) ∧ t.mem = s.mem ∧ t.caps = s.caps) ∧
      (fld v 60 4 ≠ 10 → exec (.satpWrite c) s = .next (retired (wx s c.rd old)))) ∧
    (csrRead s 0x5C1 = some old →
      let v := csrValue c.op old (csrSrc s c)
      ∃ t, exec (.ctxcompWrite c) s = .next t ∧
        t.h.csr.compAlloc = BitVec.ofNat 8 v.toNat &&& (match tget s.ctxs s.h.ctx with | some k => k.cceil | none => 0) ∧
        t.h.pc = s.h.pc + 4 ∧ (c.rd ≠ 0 → rx t c.rd = old) ∧ (∀ r, r ≠ c.rd → rx t r = rx s r) ∧ t.mem = s.mem ∧ t.caps = s.caps) ∧
    (csrRead s 0x807 = some old →
      let p := fld (csrValue c.op old (csrSrc s c)) 0 32
      let a := (clusterAt s (myCluster s)).aspen
      ∃ t, exec (.etickCsrWrite c) s = .next t ∧
        (risesFrom 0 s.clusters = true → (clusterAt t (myCluster s)).aspen = { a with
          period := p
          boundary := if p = 0 then none else if a.period = 0 then some (s.cycle + max p 4096) else a.boundary }) ∧
        t.h.pc = s.h.pc + 4 ∧ (c.rd ≠ 0 → rx t c.rd = old) ∧ (∀ r, r ≠ c.rd → rx t r = rx s r) ∧ t.mem = s.mem ∧ t.caps = s.caps) ∧
    (csrRead s 0x5C0 = some old →
      let v := csrValue c.op old (csrSrc s c)
      (∀ u, emptyPartition s (myPid s) s.h.ctx = (u, true) → markedTensors u (myPid s) s.h.ctx = [] →
        ∃ w, exec (.ctxpidWrite c) s = .next (retired (wx w c.rd old)) ∧ w = { u with ctxs := w.ctxs, pending := w.pending } ∧
          w.ctxs = (match tget u.ctxs s.h.ctx with
            | some k => tput u.ctxs s.h.ctx { k with pid := fld v 0 4 }
            | none => u.ctxs) ∧
          (∀ i, i ∈ w.pending ↔ i ∈ u.pending ∧ ∀ l b, i = .lineFill l → isRemotePa l.pa = true → l.pid = myPid s → lineBuf u l.pa = some b →
            b.ctx ≠ s.h.ctx)) ∧
      (∀ u, emptyPartition s (myPid s) s.h.ctx = (u, false) → exec (.ctxpidWrite c) s = .next (stalled (holdOff u)))) ∧
    (csrRead s 0x808 = some old →
      (csrValue c.op old (csrSrc s c) ≠ 0 → exec (.mprogWrite c) s = .next (retired (wx s c.rd old))) ∧
      (csrValue c.op old (csrSrc s c) = 0 → exec (.mprogWrite c) s = .next (retired (wx (abandonMma s s.h.loc) c.rd old))))

/-! Range operations, waits and pages -/

/-- The fifteen range operations. With length 0 each retires and changes nothing; else, when every line passes its check, each acts on the copies
of its level, line by line, and retires when no slice and no full count of ST holds it up, in which case it waits (R126 to R129). At the
tile, none of the three leaves a byte of the range in the data L1, and INV drops the range's bytes without a write: bytes outside the range
stay, and no slice and no memory changes. Of the model's choosing: the form of the data L1 (log 11), the end of the address range (log 83),
and that level 1, whose staging and host-line buffers R127 names, has no copies between steps, so that the operations of that level change
nothing (log 106). -/
def Obligations.RangeOperations : Prop :=
  (∀ (s t u : State) (rs1 rs2 : Reg) (pas : List Nat),
     ∀ p ∈ [(Instr.cmoCleanHart, CmoKind.clean, 0), (.cmoCleanCluster, .clean, 1), (.cmoCleanLcache, .clean, 2), (.cmoCleanAll, .clean, 3),
       (.cmoCleanRemote, .clean, 4), (.cmoInvHart, .inv, 0), (.cmoInvCluster, .inv, 1), (.cmoInvLcache, .inv, 2), (.cmoInvAll, .inv, 3),
       (.cmoInvRemote, .inv, 4), (.cmoClinvHart, .clinv, 0), (.cmoClinvCluster, .clinv, 1), (.cmoClinvLcache, .clinv, 2),
       (.cmoClinvAll, .clinv, 3), (.cmoClinvRemote, .clinv, 4)],
     let len := fld (rx s rs2) 0 63
     let base := (rx s rs1).toNat
     let first := base / 128 * 128
     let lines := ((base + len - 1) / 128 * 128 - first) / 128 + 1
     (len = 0 → exec (p.1 rs1 rs2) s = .next (retired s)) ∧
     (len ≠ 0 → cmoLines (cmoStores p.2.1 p.2.2) base lines first s = .ok (pas, t) →
       (cmoAct p.2.1 p.2.2 (decide (p.2.2 = 0) && bitAt (rx s rs2) 63) first (uniq (pas.map lineOf)) t = (u, true) →
         exec (p.1 rs1 rs2) s = .next (retired u)) ∧
       (cmoAct p.2.1 p.2.2 (decide (p.2.2 = 0) && bitAt (rx s rs2) 63) first (uniq (pas.map lineOf)) t = (u, false) →
         exec (p.1 rs1 rs2) s = .next (stalled (holdOff u))) ∧
       (p.2.2 = 1 → exec (p.1 rs1 rs2) s = .next (retired t)))) ∧
  (∀ (s t : State) (k : CmoKind) (flag : Bool) (va : Nat) (lines : List Nat), risesFrom 0 s.tiles = true →
     cmoHart k flag va lines s = (t, true) →
     (∀ c ∈ (tileOf t (myTile s)).l1d, lines.contains (lineOf c.1) = false) ∧
     (k = .inv → (∀ c ∈ (tileOf s (myTile s)).l1d, lines.contains (lineOf c.1) = false → c ∈ (tileOf t (myTile s)).l1d) ∧
       t.slices = s.slices ∧ t.mem = s.mem))

/-- WAIT retires exactly when each counter is at or below its field, or the field is the value that waits for nothing; LOAD_DATA_RETURN
lowers LD of its hart by one and changes nothing else; STORE_PERFORMED performs the lines of the hart's oldest counted store at their backing
memory, and then lowers ST by one; a store with no such line has none to perform (R130, R132). -/
def Obligations.WaitsAndCounters : Prop :=
  (∀ (s : State) (n : WaitArg),
    let met : Prop := (n.ld = 7 ∨ s.h.ldOut ≤ n.ld.val) ∧ (n.st = 7 ∨ s.h.stOut.length ≤ n.st.val) ∧ (n.cp = 63 ∨ cpCount s.h ≤ n.cp.val) ∧
      (n.mx = 7 ∨ mxCount s.h ≤ n.mx.val) ∧ (n.dp = 7 ∨ s.h.dpOut ≤ n.dp.val) ∧ (n.sd = 7 ∨ s.h.sdOut ≤ n.sd.val)
    (met → exec (.wait n) s = .next (retired s)) ∧
    (¬ met → (n.cp = 63 ∨ cpCount s.h ≤ n.cp.val ∨ allUnfired s.h true = false) → (n.mx = 7 ∨ mxCount s.h ≤ n.mx.val ∨ allUnfired s.h false = false) →
      exec (.wait n) s = .next (stalled s)) ∧
    (¬ met → ∃ t, exec (.wait n) s = .next t ∧ t.note ≠ .clear ∧ t.mem = s.mem ∧ t.caps = s.caps ∧ t.h.x = s.h.x)) ∧
  (decode32 0xFFFFFF7B#32 = .instr (.wait { ld := 7, st := 7, cp := 63, mx := 7, dp := 7, sd := 7 }) ∧
    decode32 0xFC7FFF7B#32 = .instr (.wait { ld := 7, st := 7, cp := 63, mx := 0, dp := 7, sd := 7 }) ∧
    decode32 0x03FE777B#32 = .instr (.wait { ld := 7, st := 0, cp := 0, mx := 7, dp := 7, sd := 7 })) ∧
  (∀ (s : State) (l : Nat),
    exec (.loadDataReturn l) s = .next (occur (updHart s l fun h => { h with ldOut := h.ldOut - 1 })) ∧
    (∀ h e, findHart s l = some h → h.stOut.head? = some e →
      (e.lines = [] → exec (.storePerformed l) s = .next (occur (updHart s l fun h => { h with stOut := h.stOut.drop 1 }))) ∧
      (∀ t, doAll (performLine e.drop) e.lines s = (t, true) →
        exec (.storePerformed l) s = .next (occur (updHart t l fun h => { h with stOut := h.stOut.drop 1 }))) ∧
      (∀ t, doAll (performLine e.drop) e.lines s = (t, false) →
        exec (.storePerformed l) s = .next { t with pending := t.pending ++ [.storePerformed l], note := .blocked })) ∧
    ((∀ h, findHart s l = some h → h.stOut = []) → exec (.storePerformed l) s = .next (occur s)))

/-- INVPG, in S-mode or above, with its reserved bits 0 and nothing left to wait for, drops every translation that it names from every TLB of the
device, and its context's commands' pins on the named pages; it waits while a running direct MMA pins a named page or a load or store of the
context is still counted; in U-mode it is an illegal instruction (R36, R343, R344). SCRUB, in M-mode, starts its stack's channel over the
range; below M-mode it is an illegal instruction, and while the channel is active it stalls. SCRUB_FRAME, unless the stack is held in
reset, zeroes the channel's next frame and moves the pointer, and ends the channel after its last frame (R36, R351, R352, R355). Firmware's
page-table write reaches an entry of a TABLE frame and no other memory; a frame-table error quarantines the frame's buffer and retires the
frame (R340, R355). A migration first takes W from the leaf and drops the page's translations; when what they were used for has ended and the
old lines whose home slice changes are clean, it moves the frames and writes the leaf to the new ones (R345); a frame without markers and
dirty lines moves with its bytes. Of the
model's choosing: a migration in two occurrences (log 58). -/
def Obligations.Pages : Prop :=
  (∀ (s : State) (rs1 rs2 : Reg),
     let v := rx s rs2
     let page := fld (rx s rs1) 12 45
     let arg : InvArg := { allAsids := bitAt v 63, allPages := bitAt v 62, asid := fld v 0 16, page := page }
     let named (e : TlbEntry) : Prop := e.ctx = s.h.ctx ∧ (bitAt v 63 = true ∨ e.asid = fld v 0 16) ∧
       (bitAt v 62 = true ∨ e.vpn ≤ page ∧ page < e.vpn + e.pages)
     (s.h.mode = .u → exec (.invpg rs1 rs2) s = .next (takeTrap s 2 (BitVec.ofNat 64 s.h.ir.toNat))) ∧
     (s.h.mode ≠ .u → fld v 16 46 ≠ 0 → exec (.invpg rs1 rs2) s = .next (takeTrap s 28 v)) ∧
     (s.h.mode ≠ .u → fld v 16 46 = 0 →
       (mmaPins s s.h.ctx arg = false → (∀ h ∈ harts s, h.ctx = s.h.ctx → h.ldOut = 0 ∧ h.stOut = []) →
         ∃ t, exec (.invpg rs1 rs2) s = .next t ∧
         (∀ n k, tget t.tiles n = some k → ∃ k0, tget s.tiles n = some k0 ∧ k.l1d = k0.l1d ∧ k.l1i = k0.l1i ∧
           ∀ e, e ∈ k.tlb ↔ e ∈ k0.tlb ∧ ¬ named e) ∧
         (∀ n k, tget t.clusters n = some k → ∃ k0, tget s.clusters n = some k0 ∧ k.aspen = k0.aspen ∧ ∀ e, e ∈ k.tlb ↔ e ∈ k0.tlb ∧ ¬ named e) ∧
         t.h.pc = s.h.pc + 4 ∧ t.h.x = s.h.x ∧ t.mem = s.mem ∧ t.caps = s.caps ∧ t.slices = s.slices) ∧
       (mmaPins s s.h.ctx arg = true ∨ (∃ h ∈ harts s, h.ctx = s.h.ctx ∧ (h.ldOut ≠ 0 ∨ h.stOut ≠ [])) →
         ∃ t, exec (.invpg rs1 rs2) s = .next t ∧ t.note = .stalled ∧ t.h.pc = s.h.pc ∧ t.h.x = s.h.x ∧ t.mem = s.mem))) ∧
  ((∀ (s : State) (rs1 : Reg),
     let v := rx s rs1
     let n : Fin 8 := ⟨fld v 60 3 % 8, Nat.mod_lt _ (by decide)⟩
     let first := fld v 12 24
     (s.h.mode ≠ .m → exec (.scrub rs1) s = .next (takeTrap s 2 (BitVec.ofNat 64 s.h.ir.toNat))) ∧
     (s.h.mode = .m → bitAt v 63 = true ∨ fld v 0 12 ≠ 0 ∨ 2 ^ 24 < first + (fld v 36 24 + 1) → exec (.scrub rs1) s = .next (takeTrap s 28 v)) ∧
     (s.h.mode = .m → bitAt v 63 = false → fld v 0 12 = 0 → first + (fld v 36 24 + 1) ≤ 2 ^ 24 →
       ((s.scrubs.get n).act = true → exec (.scrub rs1) s = .next (stalled s)) ∧
       ((s.scrubs.get n).act = false → exec (.scrub rs1) s = .next (retired
         { s with
           scrubs := s.scrubs.set n { boot := false, world := none, act := true, ptr := first, last := first + fld v 36 24 }
           pending := s.pending ++ [.scrubFrame n] })))) ∧
   (∀ (s : State) (n : Fin 8), Memory.wf s.mem = true → (s.scrubs.get n).act = true → s.stacksHeld.getLsbD n.val = false →
     ∃ t, exec (.scrubFrame n) s = .next t ∧
       (∀ a, n.val * 2 ^ 36 + (s.scrubs.get n).ptr * 4096 ≤ a ∧ a < n.val * 2 ^ 36 + (s.scrubs.get n).ptr * 4096 + 4096 → Memory.get t.mem a = 0) ∧
       (∀ a, ¬ (n.val * 2 ^ 36 + (s.scrubs.get n).ptr * 4096 ≤ a ∧ a < n.val * 2 ^ 36 + (s.scrubs.get n).ptr * 4096 + 4096) →
         Memory.get t.mem a = Memory.get s.mem a) ∧
       ((s.scrubs.get n).last ≤ (s.scrubs.get n).ptr → (t.scrubs.get n).act = false ∧ (t.scrubs.get n).ptr = (s.scrubs.get n).last) ∧
       ((s.scrubs.get n).ptr < (s.scrubs.get n).last → (t.scrubs.get n).act = true ∧ (t.scrubs.get n).ptr = (s.scrubs.get n).ptr + 1) ∧
       t.h = s.h ∧ t.caps = s.caps)) ∧
  ((∀ (s : State) (pa : Nat) (v : BitVec 64),
     s.larch = true →
     (pa % 8 = 0 ∧ pa < 2 ^ 39 ∧ (frameOf s pa).ftype = .table ∧ (frameOf s pa).retired = false →
       exec (.pageTableWrite pa v) s = .next (occur { s with mem := Memory.putN s.mem pa (leBytes 8 v.toNat) })) ∧
     ((frameOf s pa).ftype ≠ .table → exec (.pageTableWrite pa v) s = .next (occur s))) ∧
   (∀ (s : State) (n : Nat), n < 2 ^ 27 → ∃ t, exec (.frameTableEcc n) s = .next t ∧
     (tget t.frames n).all (·.retired) = true ∧ (tget t.frames n).isSome = true ∧
     (∀ i c, (tgetD s.frames n Frame.none).tensor = i → i ≠ 0 → capAt s i = some c → c.state ≠ .free →
       (capAt t i).map (·.state) = some .quarantined) ∧
     t.mem = s.mem ∧ t.h = s.h)) ∧
  (∀ (s : State) (n : Fin 64) (c : Ctx) (e : TlbEntry) (va new leaf : Nat),
     let satp := ctxSatp c
     let old := e.ppn * 4096
     let p := readPte s leaf
     let ev : Instr := .pageMigrate n va new
     let found := s.migrations.find? fun m => m.ctx == n.val && m.va == va && m.new == new
     s.larch = true → ctxOf s n.val = some c → walk s (fun _ => true) n.val satp va = .ok e →
     leafAddr s (va % 2 ^ 57) 4 (fld satp 0 44 * 4096) = some leaf →
     (found = none → isDevicePa old = true → new % (e.pages * 4096) = 0 → framesFree s new e.pages = true →
       ∃ t, exec ev s = .next t ∧ t.mem = Memory.putN s.mem leaf (leBytes 8 (setBit p 2 false).toNat) ∧ t.frames = s.frames ∧
         t.pending = s.pending ++ [ev] ∧ t.migrations = s.migrations ++ [{ ctx := n.val, va := va, new := new, w := bitAt p 2 }] ∧
         (∀ q k e', tget t.tiles q = some k → e' ∈ k.tlb → e'.ctx = n.val → ¬ (e'.vpn ≤ va % 2 ^ 57 / 4096 ∧ va % 2 ^ 57 / 4096 < e'.vpn + e'.pages))) ∧
     (∀ m t u, found = some m →
       invBusy s n.val { allAsids := true, allPages := false, asid := 0, page := va % 2 ^ 57 / 4096 } = false → framesFree s new e.pages = true →
       doAll (fun s k => cleanFrame s (old + 4096 * k) (new + 4096 * k)) (rangeFrom 0 e.pages) s = (t, true) →
       doAll (fun s k => moveFrame s (old + 4096 * k) (new + 4096 * k)) (rangeFrom 0 e.pages) t = (u, true) →
       ∃ v, exec ev s = .next v ∧ v.frames = u.frames ∧ v.migrations = u.migrations.erase m ∧
         v.mem = Memory.putN u.mem leaf (leBytes 8 (setBit (setFld p 10 44 (new / 4096 + if bitAt p 63 then 8 else 0)) 2 m.w).toNat) ∧
         (∀ q k e', tget v.tiles q = some k → e' ∈ k.tlb → e'.ctx = n.val → ¬ (e'.vpn ≤ va % 2 ^ 57 / 4096 ∧ va % 2 ^ 57 / 4096 < e'.vpn + e'.pages)))) ∧
  (∀ (s : State) (old new : Nat), Memory.wf s.mem = true → old % 4096 = 0 → new % 4096 = 0 → old ≠ new →
     (∀ l ∈ linesOf old 4096, findMarker s l (frameOf s old).tensor = none) →
     (∀ l ∈ linesOf old 4096, ∀ k, findTag s l 0 = some k → k.2.dirty = false) →
     ∃ t, moveFrame s old new = (t, true) ∧ Memory.getN t.mem new 4096 = Memory.getN s.mem old 4096 ∧
       (frameOf t new).ftype = (frameOf s old).ftype ∧ (frameOf t new).tensor = (frameOf s old).tensor ∧ (frameOf t old).ftype = Frame.none.ftype)

/-! Buffers -/

/-- A handle is accepted where OWNED is needed exactly as its holding and its entry allow: a WHOLE holding of the same device, index and
generation, not suspended, of an entry in OWNED. A value that matches no holding traps with CAPABILITY, a quarantined buffer with
QUARANTINED, a stale generation or a state without the right with CAPABILITY, and a buffer lent to a command stalls (R80, R81). -/
def Obligations.HandleCheck : Prop :=
  ∀ (s : State) (hv : Word),
    (matching s.h.holdings hv = none → needOwned s hv = .error (.trap 25 hv)) ∧
    (∀ g c, matching s.h.holdings hv = some g → g.kind = .whole → hIndex hv ≠ 0 → capWaits s (hIndex hv) = false →
      capAt s (hIndex hv) = some c →
      (c.gen ≠ hGen hv ∨ c.state = .free → needOwned s hv = .error (.trap 25 hv)) ∧
      (c.gen = hGen hv → c.state = .quarantined → needOwned s hv = .error (.trap 31 hv)) ∧
      (c.gen = hGen hv → g.susp = 0 → c.state = .owned → needOwned s hv = .ok c) ∧
      (c.gen = hGen hv → g.susp = 0 → c.state = .lent → c.lendcb = false → needOwned s hv = .error (.stall s)) ∧
      (c.gen = hGen hv → c.state = .shared ∨ c.state = .collecting ∨ c.state = .moving → needOwned s hv = .error (.trap 25 hv)))

/-- BALLOC. A status goes to `rd` and nothing else changes where the attributes have a reserved bit set or name no level for BALLOC (BADARG, 2), where the
size, rounded up to 256 bytes, is 0 or above the level's bound (BADARG, 1), where the layout or the compartment does not suit (BADARG, 2),
where no entry is free (NOCAP, 0), where the holding set is full (NOCAP, 1) and where the level has no storage (NOMEM and the level). Else
the least free entry becomes OWNED by the hart, with the next generation and the attributes asked for, the hart holds it WHOLE, `rd` gets its
handle, and SRAM that was to be zeroed reads zero. It waits for the entry's bank of the capability unit to pass its self-test (R77, R84,
R85, R377). BLAYOUT sets the layout of an OWNED buffer held WHOLE and returns the former code, raises LAYOUT with the handle on a layout that does
not fit, and on any other state or kind raises CAPABILITY, or stalls (R83, R89). Of the model's choosing: taking the least free entry
(log 25), and that an `lparam` other than 0 fits no layout but BLK8 (log 95). -/
def Obligations.Allocation : Prop :=
  (∀ (s : State) (rd rs1 rs2 : Reg),
     let a := rx s rs2
     let len := ((rx s rs1).toNat + 255) / 256 * 256
     let answers (v : Word) : Prop := exec (.balloc rd rs1 rs2) s = .next (retired (wx s rd v))
     (a &&& 0xFFFF000000FE00F0#64 ≠ 0 ∨ allocLevel (fld a 0 4) = none → answers 0x209#64) ∧
     (∀ l, a &&& 0xFFFF000000FE00F0#64 = 0 → allocLevel (fld a 0 4) = some l →
       let fits : Bool := layoutOk (fld a 8 4) len (fld a 24 24) && compOk s s.h.csr.compAlloc (myWorld s) (fld a 12 4) l
       let b : NewBuf :=
         { level := l, layout := fld a 8 4, comp := fld a 12 4, lparam := fld a 24 24, zero := bitAt a 16, length := len, ctx := s.h.ctx }
       (len = 0 ∨ l.largest < len → answers 0x109#64) ∧
       (len ≠ 0 → len ≤ l.largest →
         (fits = false → answers 0x209#64) ∧
         (fits = true → freeIndex s = none → answers 4#64) ∧
         (∀ i, fits = true → freeIndex s = some i →
           (4096 ≤ s.h.holdings.length → answers 0x104#64) ∧
           (s.h.holdings.length < 4096 → storage s (myTile s) s.h.run b = none → answers (BitVec.ofNat 64 (3 + 256 * l.code))) ∧
           (∀ base, s.h.holdings.length < 4096 → storage s (myTile s) s.h.run b = some base →
             (capWaits s i = true → exec (.balloc rd rs1 rs2) s = .next (stalled (holdOff s))) ∧
             (capWaits s i = false →
               let old := tgetD s.caps i Cap.free
               ∃ t, exec (.balloc rd rs1 rs2) s = .next t ∧
                 capAt t i = some { Cap.free with
                   state := .owned, level := l, layout := fld a 8 4, comp := fld a 12 4, world := myWorld s, gen := old.gen + 1, okind := .hart,
                   owner := s.h.loc, base := base, length := len, lparam := fld a 24 24, ctx := s.h.ctx, encver := old.encver } ∧
                 (∀ j, j ≠ i → capAt t j = capAt s j) ∧
                 t.h.holdings = putHolding s.h.holdings
                   { device := s.device, index := i, gen := old.gen + 1, kind := .whole, units := 0, void := false, susp := 0 } ∧
                 (rd ≠ 0 → rx t rd = handle s.device i (old.gen + 1) .whole 0) ∧ (∀ r, r ≠ rd → rx t r = rx s r) ∧ t.h.pc = s.h.pc + 4 ∧
                 (bitAt a 16 = true → l = .tile ∨ l = .cluster → base % 256 = 0 → ∀ k < len, Memory.get t.mem (base + k) = 0))))))) ∧
  (∀ (s : State) (rd rs1 rs2 : Reg),
     let hv := rx s rs1
     (∀ c, needOwned s hv = .ok c → rx s rs2 &&& 0xFFFF000000FFFFF0#64 = 0 →
       layoutOk (fld (rx s rs2) 0 4) c.length (fld (rx s rs2) 24 24) = true →
       exec (.blayout rd rs1 rs2) s = .next (retired (wx
         { s with caps := tput s.caps (hIndex hv) { c with layout := fld (rx s rs2) 0 4, lparam := fld (rx s rs2) 24 24 } } rd (BitVec.ofNat 64 c.layout)))) ∧
     (∀ c, needOwned s hv = .ok c → rx s rs2 &&& 0xFFFF000000FFFFF0#64 ≠ 0 ∨ layoutOk (fld (rx s rs2) 0 4) c.length (fld (rx s rs2) 24 24) = false →
       exec (.blayout rd rs1 rs2) s = .next (takeTrap s 26 hv)) ∧
     (∀ p, needOwned s hv = .error p → exec (.blayout rd rs1 rs2) s = .next (match p with
       | .trap k v => takeTrap s k v
       | .trapAt t k v => takeTrap t k v
       | .stall t => stalled (holdOff t)
       | .point t => stalled t)) ∧
     (∀ g c, checkIn s s.h.holdings hv = .ok (g, c) →
       (g.kind = .whole → c.state = .lent → c.lendcb = false → needOwned s hv = .error (.stall s)) ∧
       (g.kind = .whole → c.state = .lent → c.lendcb = true → needOwned s hv = .error (.trap 25 hv)) ∧
       (g.kind ≠ .whole ∨ c.state ≠ .owned ∧ c.state ≠ .lent → needOwned s hv = .error (.trap 25 hv))))

/-- BFREE of a whole buffer leaves its entry FREE with its generation kept and the holding gone; of share units, returns them; a handle that
fails the check traps (R79, R86). A reservation in the buffer is cleared (R30). -/
def Obligations.GivingUp : Prop :=
  ∀ (s : State) (rs1 : Reg),
    let hv := rx s rs1
    let i := hIndex hv
    (∀ c, hKind hv = some .whole → needOwned s hv = .ok c →
      ∃ t, exec (.bfree rs1) s = .next t ∧ (capAt t i).map (·.state) = some .free ∧ (capAt t i).map (·.gen) = some c.gen ∧
        t.h.holdings = removeHolding s.h.holdings i .whole ∧ (∀ j, j ≠ i → capAt t j = capAt s j) ∧ t.h.x = s.h.x ∧ t.h.pc = s.h.pc + 4) ∧
    (∀ g c, hKind hv = some .share → checkIn s s.h.holdings hv = .ok (g, c) → c.state = .shared → c.orph = false → c.closing = false →
      c.level ≠ .remote → g.index = i → hUnits hv + myPins s i ≤ g.units →
      exec (.bfree rs1) s = .next (retired { s with
        caps := tput s.caps i { c with outst := c.outst - hUnits hv }
        h := { s.h with
          holdings := putHolding s.h.holdings { g with units := g.units - hUnits hv }
          resv := match s.h.resv with
            | some a => if c.base ≤ a ∧ a < c.base + c.length then none else some a
            | none => none } })) ∧
    (∀ g c, hKind hv = some .notice → checkIn s s.h.holdings hv = .ok (g, c) → g.index = i →
      ∃ t, exec (.bfree rs1) s = .next t ∧ (capAt t i).map (·.state) = some .free ∧
        t.h.holdings = removeHolding s.h.holdings i .notice ∧ t.h.x = s.h.x ∧ t.h.pc = s.h.pc + 4) ∧
    (matching s.h.holdings hv = none → exec (.bfree rs1) s = .next (takeTrap s 25 hv))

/-- BBASE and BLEN write base and length of a held buffer; BPROBE reports on any value and never traps: 15 where no holding matches, else
the fields of the entry (R87, R88). -/
def Obligations.Inspection : Prop :=
  ∀ (s : State) (rd rs1 : Reg),
    let hv := rx s rs1
    (∀ g c, checkHandle s hv true = .ok (g, c) → g.kind ≠ .notice →
      exec (.bbase rd rs1) s = .next (retired (wx s rd (BitVec.ofNat 64 c.base))) ∧
      exec (.blen rd rs1) s = .next (retired (wx s rd (BitVec.ofNat 64 c.length)))) ∧
    (∃ v, exec (.bprobe rd rs1) s = .next (retired (wx s rd v)) ∧
      (matching (s.h.holdings ++ kernelHoldings s s.h.loc) hv = none → v = 15) ∧
      (∀ g c, matching (s.h.holdings ++ kernelHoldings s s.h.loc) hv = some g → capAt s g.index = some c → c.layout < 16 → c.comp < 8 →
        g.units < 4096 → c.outst < 4096 →
        fld v 0 4 = c.state.code ∧ fld v 4 4 = c.level.code ∧ fld v 8 4 = c.layout ∧ fld v 12 3 = c.comp ∧ bitAt v 15 = c.indoubt ∧
          fld v 16 12 = (match g.kind with | .share | .deposit => g.units | .whole | .notice => 0) ∧ fld v 28 12 = c.outst ∧
          bitAt v 40 = (c.gen != g.gen) ∧
          bitAt v 41 = (c.state != .free && c.okind == .hart && c.owner == s.h.loc ||
            s.h.holdings.any fun k => k.kind == .whole && k.index == g.index && k.gen == c.gen) ∧ fld v 42 22 = 0))

/-- BSPLIT makes the buffer SHARED with all its units outstanding and gives the hart a holding of them beside its pending one; BJOIN
returns units and yields the WHOLE handle and OWNED when none is left, PARTIAL with the number left otherwise (R91, R93). -/
def Obligations.SplittingAndJoining : Prop :=
  (∀ (s u : State) (rd rs1 rs2 : Reg) (c d : Cap),
    let hv := rx s rs1
    let n := rx s rs2
    rd ≠ 0 → needOwned s hv = .ok c → n ≠ 0 → n.toNat ≤ 4095 → s.h.holdings.length < 4096 → release s (hIndex hv) = .ok u →
    needOwned u hv = .ok d → u.h.holdings.length < 4096 →
    ∃ t e, exec (.bsplit rd rs1 rs2) s = .next t ∧ capAt t (hIndex hv) = some e ∧
      e.state = .shared ∧ e.total = n.toNat ∧ e.outst = n.toNat ∧ e.gen = d.gen ∧ e.base = d.base ∧ e.length = d.length ∧
      t.h.holdings = putHolding u.h.holdings
        { device := u.device, index := hIndex hv, gen := d.gen, kind := .share, units := n.toNat, void := false, susp := 0 } ∧
      rx t rd = handle u.device (hIndex hv) d.gen .share n.toNat ∧ t.h.pc = u.h.pc + 4) ∧
  (∀ (s : State) (rd rs1 rs2 : Reg) (g k : Holding) (c d : Cap),
    let hv := rx s rs1
    let sv := rx s rs2
    let i := hIndex hv
    let n := if sv = 0 then 0 else hUnits sv
    rd ≠ 0 → checkIn s s.h.holdings hv = .ok (g, c) → g.kind = .whole → c.state = .shared →
    (sv = 0 ∨ checkIn s s.h.holdings sv = .ok (k, d) ∧ k.kind = .share ∧ k.index = i ∧ k.gen = hGen hv ∧ hUnits sv + myPins s i ≤ k.units) →
    ∃ t e, exec (.bjoin rd rs1 rs2) s = .next t ∧ capAt t i = some e ∧ t.h.pc = s.h.pc + 4 ∧
      (c.outst - n = 0 → e.state = .owned ∧ e.outst = 0 ∧ rx t rd = handle s.device i c.gen .whole 0) ∧
      (c.outst - n ≠ 0 → e = { c with outst := c.outst - n } ∧ rx t rd = BitVec.ofNat 64 (2 + 256 * (c.outst - n))))

/-- BMOVE writes BADARG (2) where the level is none that it takes or is too small, the handle where the buffer is at that level already, and NOSPACE
with the level where there is no storage; else it writes the buffer's lines back, moves its bytes to the new storage, drops the copies of
the old, and writes the handle (R90, R97); a move clears a reservation in the buffer (R30); a buffer behind a link that carries nothing
raises LINK (R356). Between stores of SRAM the move always completes: the new storage has
the bytes, no byte elsewhere changes, and the entry keeps state, generation, length and layout. BOPEN writes BADARG (1) at a level that has no windows,
BADARG (2) for a number of units out of range and NOCAP (1) with a full holding set; else, the hart's lines written back (R115), the buffer is
COLLECTING under its home slice with its units outstanding and no element counted, and the hart holds them beside its pending holding (R106). BCLOSE in WAIT mode waits
while units are out; else it starts the drain, in FORCE mode with `outst` at 0, and waits; once the drain has ended it writes
the count, with bit 63 for a quarantined window, and the entry is the hart's again (R107). Of the model's choosing: that a source of BMOVE that
cannot be read becomes QUARANTINED and the hart takes trap 31 (log 55). -/
def Obligations.MovingAndWindows : Prop :=
  (∀ (s : State) (rd rs1 rs2 : Reg) (c : Cap), needOwned s (rx s rs1) = .ok c →
    let hv := rx s rs1
    let i := hIndex hv
    let answers (v : Word) : Prop := exec (.bmove rd rs1 rs2) s = .next (retired (wx s rd v))
    (3 ≤ (rx s rs2).toNat → answers 0x209#64) ∧
    (∀ l, (rx s rs2 = 0 ∧ l = .tile ∨ rx s rs2 = 1 ∧ l = .cluster ∨ rx s rs2 = 2 ∧ l = .device) →
      let b : NewBuf := { level := l, layout := c.layout, comp := c.comp, lparam := c.lparam, zero := false, length := c.length, ctx := s.h.ctx }
      (l.largest < c.length → answers 0x209#64) ∧
      (c.length ≤ l.largest → c.level = l → exec (.bmove rd rs1 rs2) s = .next (retired (wx (dropResv s c) rd hv))) ∧
      (c.length ≤ l.largest → c.level ≠ l →
        (storage s (myTile s) s.h.run b = none → answers (BitVec.ofNat 64 (3 + 256 * l.code))) ∧
        (∀ base, storage s (myTile s) s.h.run b = some base → (c.level = .host ∨ c.level = .pool ∨ c.level = .remote) →
          linkDead s c.base = true → exec (.bmove rd rs1 rs2) s = .next (takeTrap s 29 (BitVec.ofNat 64 c.base))) ∧
        (∀ base v u, storage s (myTile s) s.h.run b = some base → reachBuf s c = .ok v → release v i = .ok u →
          (bufBytes u i c (myPid v) = none → exec (.bmove rd rs1 rs2) s = .next (takeTrap (quarantine u i) 31 hv)) ∧
          (∀ bytes w, bufBytes u i c (myPid v) = some bytes →
            (relocate (noteBuf u i c (myPid v)) i base l v.h.ctx bytes = (w, true) →
              exec (.bmove rd rs1 rs2) s = .next (retired (wx (acquire (dropResv w c) i) rd hv))) ∧
            (relocate (noteBuf u i c (myPid v)) i base l v.h.ctx bytes = (w, false) →
              exec (.bmove rd rs1 rs2) s = .next (stalled (holdOff (carryRolls u w))))))))) ∧
  (∀ (s : State) (c : Cap), c.level = .tile ∨ c.level = .cluster ∨ c.level = .device ∨
    (c.level = .pool ∨ c.level = .remote) ∧ linkDead s c.base = false → reachBuf s c = .ok s) ∧
  (∀ (s : State) (c : Cap),
    (∀ a, s.h.resv = some a → c.base ≤ a → a < c.base + c.length → (dropResv s c).h.resv = none) ∧
    dropResv s c = { s with h := { s.h with resv := (dropResv s c).h.resv } }) ∧
  (∀ (s : State) (i base ctx : Nat) (l : Level) (c : Cap) (bytes : List Byte), Memory.wf s.mem = true → capAt s i = some c →
    (c.level = .tile ∨ c.level = .cluster) → (l = .tile ∨ l = .cluster) → bytes.length = c.length → c.length % 256 = 0 → base % 256 = 0 →
    (∀ a, base ≤ a → a < base + c.length → inTileAperture a = true ∨ inClusterAperture a = true) →
    ∃ w, relocate s i base l ctx bytes = (w, true) ∧ Memory.getN w.mem base c.length = bytes ∧
      (∀ a, a < base ∨ base + c.length ≤ a → Memory.get w.mem a = Memory.get s.mem a) ∧
      capAt w i = some { c with
        level := l, base := base, ctx := ctx, encver := c.nextVersion, encOpen := false, encRoll := false, pass := none } ∧
      w.h.x = s.h.x ∧ w.h.holdings = s.h.holdings ∧ w.h.pc = s.h.pc) ∧
  (∀ (s : State) (rd rs1 rs2 : Reg) (c : Cap), needOwned s (rx s rs1) = .ok c →
    let hv := rx s rs1
    let i := hIndex hv
    let n := (rx s rs2).toNat
    let answers (v : Word) : Prop := exec (.bopen rd rs1 rs2) s = .next (retired (wx s rd v))
    (windowHome s i c = none → answers 0x109#64) ∧
    (∀ home, windowHome s i c = some home →
      (n = 0 ∨ 4095 < n → answers 0x209#64) ∧
      (1 ≤ n → n ≤ 4095 → 4096 ≤ s.h.holdings.length → answers 0x104#64) ∧
      (∀ u d, 1 ≤ n → n ≤ 4095 → s.h.holdings.length < 4096 → release s i = .ok u → capAt u i = some d →
        ∃ t, exec (.bopen rd rs1 rs2) s = .next t ∧
          capAt t i = some { d with
            state := .collecting, okind := .slice, owner := home, seq := 0, total := n, outst := n, marked := [], ports := [], drain := none,
            closing := false } ∧
          t.h.holdings = putHolding u.h.holdings
            { device := u.device, index := i, gen := d.gen, kind := .deposit, units := n, void := false, susp := 0 } ∧
          (rd ≠ 0 → rx t rd = handle u.device i d.gen .deposit n) ∧ (∀ r, r ≠ rd → rx t r = rx u r) ∧ t.h.pc = u.h.pc + 4 ∧ t.mem = u.mem))) ∧
  (∀ (s : State) (rd rs1 rs2 : Reg) (g : Holding) (c : Cap), matching s.h.holdings (rx s rs1) = some g → capAt s (hIndex (rx s rs1)) = some c →
    let hv := rx s rs1
    let i := hIndex hv
    (g.kind = .whole → g.gen = c.gen → c.drained = true →
      let t := { s with caps := tput s.caps i { c with drain := none, okind := .hart, owner := s.h.loc } }
      exec (.bclose rd rs1 rs2) s = .next (retired (wx (if c.state = .quarantined then t else acquire t i) rd
        (BitVec.ofNat 64 ((if c.state = .quarantined then 2 ^ 63 else 0) + c.seq % 2 ^ 32))))) ∧
    (checkHandle s hv false = .ok (g, c) → c.drained = false →
      (g.kind ≠ .whole ∨ c.state ≠ .collecting ∨ 1 < (rx s rs2).toNat → exec (.bclose rd rs1 rs2) s = .next (takeTrap s 25 hv)) ∧
      (g.kind = .whole → c.state = .collecting →
        (c.drain.isSome = true → (rx s rs2).toNat ≤ 1 → exec (.bclose rd rs1 rs2) s = .next (stalled (holdOff s))) ∧
        (c.drain = none → rx s rs2 = 0 → c.outst ≠ 0 → exec (.bclose rd rs1 rs2) s = .next (stalled s)) ∧
        (c.drain = none → rx s rs2 = 1 ∨ rx s rs2 = 0 ∧ c.outst = 0 →
          ∃ t e, exec (.bclose rd rs1 rs2) s = .next t ∧ t.note = .stalled ∧ t.h.pc = s.h.pc ∧ t.h.x = s.h.x ∧ t.mem = s.mem ∧
            capAt t i = some e ∧ e.state = .collecting ∧ e.outst = 0 ∧ e.seq = c.seq ∧ e.closing = decide (rx s rs2 = 1) ∧
            e.drain.isSome = true))))

/-- BREVOKE, in S-mode or above, takes a buffer of its context from every party, once the private copies of its lines are written back: the entry
is OWNED by the hart with the next generation and no unit outstanding, the hart holds it WHOLE, and no other hart holds it whole or shared. It
waits while the buffer moves, while it is lent to commands, and for the drain of a window, which it starts. In U-mode it is an illegal
instruction (R36, R110). Of the model's choosing: what becomes of DEPOSIT holdings (log 55). -/
def Obligations.Revocation : Prop :=
  ∀ (s : State) (rd rs1 : Reg),
    let hv := rx s rs1
    let i := hIndex hv
    (s.h.mode = .u → exec (.brevoke rd rs1) s = .next (takeTrap s 2 (BitVec.ofNat 64 s.h.ir.toNat))) ∧
    (∀ c d, s.h.mode ≠ .u → rd ≠ 0 → capAt s i = some c → hDevice hv = s.device → i ≠ 0 → i < noticeBase → c.state ≠ .free →
      c.gen = hGen hv → c.ctx = s.h.ctx → c.indoubt = false → s.h.holdings.length < 4096 → s.h.live = true →
      capAt (dropSuspended s i) i = some d →
      let v := dropSuspended s i
      (∀ u k, d.state = .owned ∨ d.state = .shared ∨ d.state = .quarantined → cleanEverywhere v i = (u, true) → capAt u i = some k →
        ∃ t e, exec (.brevoke rd rs1) s = .next t ∧ capAt t i = some e ∧
          e.state = .owned ∧ e.gen = k.gen + 1 ∧ e.owner = u.h.loc ∧ e.outst = 0 ∧ e.base = k.base ∧ e.length = k.length ∧
          (∃ g ∈ t.h.holdings, g.index = i ∧ g.gen = k.gen + 1 ∧ g.kind = .whole ∧ g.susp = 0) ∧
          (∀ o ∈ t.others, ∀ g ∈ o.holdings, g.index = i → g.kind = .deposit ∧ g.void = true) ∧
          rx t rd = handle u.device i (k.gen + 1) .whole 0) ∧
      (∀ u, d.state = .owned ∨ d.state = .shared ∨ d.state = .quarantined → cleanEverywhere v i = (u, false) →
        exec (.brevoke rd rs1) s = .next (stalled (holdOff u))) ∧
      (d.state = .moving ∨ d.state = .arriving ∨ d.state = .lent ∧ c.lendcb = false ∨ d.state = .collecting ∧ c.drain.isSome = true →
        exec (.brevoke rd rs1) s = .next (stalled (holdOff v))) ∧
      (d.state = .collecting → c.drain = none → exec (.brevoke rd rs1) s = .next (stalled (holdOff (startDrain v i true)))))

/-! Sends -/

/-- BSEND, BSEND.LOCAL and BSEND.REF: rights that can go leave the sender's holdings at once, a send record carries them, SD rises and OK is
written; a destination that cannot be reached is BADDEST, and a full one FULL, with nothing changed (R94 to R97, R130). The status of a
destination within the device: one that names no hart, assigned queue or agent is BADDEST; one without room is FULL (R77, R94, R96). -/
def Obligations.Sending : Prop :=
  (∀ (s : State) (rd rs1 rs2 rs3 : Reg),
     ∀ p ∈ [(Instr.bsend, 0), (.bsendLocal, 1), (.bsendRef, 2)],
     let hv := rx s rs1
     let dest := rx s rs2
     let tag := rx s rs3
     ∀ (s1 : State) (g : Holding) (c : Cap), ownMove s s.h.loc = none → sendable s (hartSender s hv) hv = .ok (g, c) →
       settleDeposits s g = .ok s1 → s1.h.sdOut < 255 →
       (∀ v, sendChecked s1 (hartSender s1 hv) g c hv dest tag p.2 c.comp = .status v →
         exec (p.1 rd rs1 rs2 rs3) s = .next (retired (wx s1 rd v))) ∧
       (∀ u l s2 u' l', sendChecked s1 (hartSender s1 hv) g c hv dest tag p.2 c.comp = .gone u l → release s1 g.index = .ok s2 →
         sendChecked s2 (hartSender s2 hv) g c hv dest tag p.2 c.comp = .gone u' l' →
         ∃ t, exec (p.1 rd rs1 rs2 rs3) s = .next t ∧ t.h.holdings = l' ∧
           (∃ d, t.sends = s2.sends ++ [d] ∧ d.sender = s2.h.loc ∧ d.dest = dest ∧ d.arrival.index = g.index ∧ d.arrival.gen = g.gen ∧
             d.arrival.kind = g.kind ∧ d.arrival.tag = BitVec.ofNat 60 tag.toNat) ∧
           t.h.sdOut = u'.h.sdOut + 1 ∧ (rd ≠ 0 → rx t rd = 0) ∧ t.h.pc = u'.h.pc + 4)) ∧
  (∀ (s : State) (w : Sender) (g : Holding) (c : Cap) (hv dest tag : Word) (mode : Nat),
     (findDest s c.world c.comp dest = none → sendChecked s w g c hv dest tag mode c.comp = .status 7) ∧
     (∀ h, findDest s c.world c.comp dest = some (.hart h) → copyStores c g.kind mode (.hart h) = none →
       destRoom s g.kind g.index g.gen (.hart h) = false → sendChecked s w g c hv dest tag mode c.comp = .status 5) ∧
     (fld dest 56 8 = s.device → fld dest 52 4 = 0 → findHart s (fld dest 0 32) = none → findDest s c.world c.comp dest = none))

/-- BGATE. The first gate check that fails gives GATE with its number: no gate (1), another compartment or world (2), a level that the gate does not
take (3), a buffer too long (4); a status of the delivery is written too; and nothing else changes. A buffer that passes, for a
destination in the device that has room, goes there in the gate's compartment: the entry is OWNED by the destination, a send carries the
WHOLE rights under the gate's number, the sender holds them no more, SD rises and OK is written (R96, R105, R323). -/
def Obligations.Gates : Prop :=
  ∀ (s : State) (rd rs1 rs2 : Reg) (g : Holding) (c : Cap),
    let hv := rx s rs1
    let gate := gateAt s (rx s rs2)
    let answers (v : Word) : Prop := exec (.bgate rd rs1 rs2) s = .next (retired (wx s rd v))
    ownMove s s.h.loc = none → needOwned s hv = .ok c → checkHandle s hv false = .ok (g, c) → c.pass = none → s.h.sdOut < 255 →
    (gate = none → answers 0x108#64) ∧
    (∀ d, gate = some d →
      let same : Prop := fld (dw d 0) 0 3 = c.comp ∧ fld (dw d 0) 6 6 = c.world
      let takes : Prop := bitAt (dw d 0) (12 + c.level.code) = true
      let into := fld (dw d 0) 3 3
      let dest := dw d 2
      (¬ same → answers 0x208#64) ∧ (same → ¬ takes → answers 0x308#64) ∧ (same → takes → fld (dw d 1) 0 41 < c.length → answers 0x408#64) ∧
      (same → takes → c.length ≤ fld (dw d 1) 0 41 →
        (∀ v, sendChecked s (hartSender s hv) g c hv dest (rx s rs2) 0 into = .status v → answers v) ∧
        (∀ v k m, release s g.index = .ok v → capAt v g.index = some k →
          let t := closePass (updCap v g.index fun k => { k with comp := into }) g.index c.comp
          let goes (x : State) : Prop := ∃ dst, findDest x c.world into dest = some dst ∧ (∀ a b, dst ≠ .far a b) ∧
            copyStores c .whole 0 dst = none ∧ destRoom x .whole g.index g.gen dst = true ∧ destOwner dst = m
          goes s → goes t →
          ∃ y e a, exec (.bgate rd rs1 rs2) s = .next y ∧ capAt y g.index = some e ∧ e.comp = into ∧ e.state = .owned ∧ e.gen = k.gen ∧
            (e.okind, e.owner) = m ∧ y.h.holdings = removeHolding t.h.holdings g.index .whole ∧ y.sends = t.sends ++ [a] ∧ a.sender = t.h.loc ∧
            a.dest = dest ∧ a.ready = true ∧ a.arrival.index = g.index ∧ a.arrival.gen = g.gen ∧ a.arrival.kind = .whole ∧
            a.arrival.tag = BitVec.ofNat 60 (rx s rs2).toNat ∧ y.h.sdOut = t.h.sdOut + 1 ∧ (rd ≠ 0 → rx y rd = 0) ∧
            (∀ r, r ≠ rd → rx y r = rx t r) ∧ y.h.pc = t.h.pc + 4)))

/-- BRECV and BRECV.NB take the oldest arrival of the port: its holding is installed, `rcvtag` holds its scope and tag, and `rd` its handle; with no
room for the holding both write NOCAP (1) and leave the port; on an empty port BRECV stalls and BRECV.NB writes EMPTY (R99, R100).
ARRIVAL_WRITE writes the arrival of a send that may be written, and lowers SD of its sender; one for the executing hart, no unit of a window of its own,
goes behind the others of its port (R96, R98, R101). NOTICE_WRITE writes a notice as a record of its own, OWNED by its hart, and an
arrival of kind NOTICE with its type and detail; one for a hart that has ended is discarded (R102). A byte copy that fails quarantines
its buffer, drops the send and posts a notice of type 2 with the scope between the sender's copy path and the receiver; one that succeeds
moves the bytes, and the buffer is OWNED (R25, R97, R100, R108). Of the model's choosing: what a notice record holds beside its owner
(log 77), and the places of index and generation in its detail (log 76). -/
def Obligations.Receiving : Prop :=
  (∀ (s : State) (rd : Reg),
     (∀ a h, portTake s.h = some (a, h) → discarded s s.h.holdings a = false →
       (holdingFull s.h a.index a.kind = false →
         ∃ t, exec (.brecv rd) s = .next t ∧ exec (.brecvNb rd) s = .next t ∧ t.h.holdings = install s.h.holdings a ∧
           t.h.port = h.port ∧ t.h.ring = h.ring ∧ t.h.csr.rcvtag = BitVec.ofNat 64 (a.scope % 16 * 2 ^ 60 + a.tag.toNat) ∧
           (rd ≠ 0 → rx t rd = a.handle) ∧ (∀ r, r ≠ rd → rx t r = rx s r) ∧ t.h.pc = s.h.pc + 4 ∧ t.caps = s.caps ∧ t.mem = s.mem) ∧
       (holdingFull s.h a.index a.kind = true →
         exec (.brecv rd) s = .next (retired (wx s rd 0x104)) ∧ exec (.brecvNb rd) s = .next (retired (wx s rd 0x104)))) ∧
     (portTake s.h = none →
       exec (.brecv rd) s = .next (stalled s) ∧ exec (.brecvNb rd) s = .next (retired (wx s rd 1)))) ∧
  (∀ (s : State) (k : Nat) (d : Send), (readySends s)[k]? = some d →
     exec (.arrivalWrite k) s =
       .next (occur (lowerSd (arrive (sendsWork { s with sends := s.sends.erase d }) d.dest d.arrival) d.sender))) ∧
  (∀ (s : State) (dest : Word) (a : Arrival), fld dest 52 4 = 0 → s.h.live = true → s.h.loc = fld dest 0 32 → a.kind ≠ .deposit →
     ∃ h, arrive s dest a = { s with h := h } ∧ h.port ++ h.ring = s.h.port ++ s.h.ring ++ [a] ∧ h.x = s.h.x ∧ h.pc = s.h.pc ∧
       h.holdings = s.h.holdings) ∧
  (∀ (s : State) (k i : Nat) (n : Notice), (s.notices.filter (noticeReady s))[k]? = some n → freeNotice s = some i → agentNo n.dest = none →
     (s.h.live = true → n.dest = s.h.loc →
       ∃ t a, exec (.noticeWrite k) s = .next t ∧ t.notices = s.notices.erase n ∧
         capAt t i = some { Cap.free with
           state := .owned, gen := (tgetD s.caps i Cap.free).gen + 1, world := myWorld s, ctx := s.h.ctx, okind := .hart, owner := s.h.loc } ∧
         (∀ j, j ≠ i → capAt t j = capAt s j) ∧ t.h.port ++ t.h.ring = s.h.port ++ s.h.ring ++ [a] ∧
         a.device = s.device ∧ a.index = i ∧ a.gen = (tgetD s.caps i Cap.free).gen + 1 ∧ a.kind = .notice ∧ a.scope = n.scope ∧
         a.tag = BitVec.ofNat 60 (n.ntype * 2 ^ 56 + n.detail % 2 ^ 56) ∧ t.h.x = s.h.x ∧ t.h.pc = s.h.pc ∧ t.mem = s.mem) ∧
     (findHart s n.dest = none → exec (.noticeWrite k) s = .next (occur { s with notices := s.notices.erase n }))) ∧
  (∀ (s : State) (i n : Nat) (d : Send) (c : Cap), copyOf s i = some (n, d) → capAt s i = some c →
     (c.state ≠ .free → d.arrival.index = i → ∃ t a, exec (.byteCopyCommit i false) s = .next t ∧ capAt t i = some { c with state := .quarantined } ∧
       t.sends = removeAt s.sends n ∧ t.notices = s.notices ++ [a] ∧ a.dest = fld d.dest 0 32 ∧ a.ntype = 2 ∧ a.scope = max 2 d.arrival.scope ∧
       a.detail = i * 2 ^ 16 + d.arrival.gen.toNat ∧ t.mem = s.mem) ∧
     (∀ v base l x bytes t,
       let q := senderPid s d.sender
       let s' := { v with sends := setAt v.sends n { d with ready := true } }
       reachBuf s c = .ok v → d.copy = some (base, l, x) → bufBytes v i c q = some bytes →
       relocate (noteBuf s' i c q) i base l x bytes = (t, true) →
       exec (.byteCopyCommit i true) s = .next (occur (updCap t i fun c => { c with state := if c.state = .moving then .owned else c.state }))))

/-! Deposits -/

/-- The posted deposit stores: an admitted store enters the cluster's aggregation buffers as one element with its offset in the window, its
size and the low bits of its value, DP rises by one, and no register and no byte of memory changes; without a DEPOSIT holding that covers
the address it traps with OWNERSHIP, and misaligned with a store-misaligned exception (R130, R137, R138, R142, R143). DSN takes the nibble
and its place from `rs2`. The deposited atomics: with `rd` x0 each is posted as a deposit store is; else it waits for its reply, writes the
old value that the slice read (a word sign-extended) to `rd` and the place of the element in the window's order to `dseq`, and DP is as
before (R139 to R141). -/
def Obligations.Deposits : Prop :=
  ((∀ (s : State) (rs2 rs1 : Reg) (imm : BitVec 12) (g : Holding) (c : Cap),
     let va := (rx s rs1 + imm.signExtend 64).toNat
     let off := capAddr s va - c.base
     let raised := { s with h := { s.h with dpOut := s.h.dpOut + 1 } }
     let elem (size v : Nat) : Slot :=
       { mult := 0, elems := 1, size := size, returning := false, void := g.void, lost := false, op := 0x10, offset := off,
         value := BitVec.ofNat 64 v, expect := 0, hart := s.h.loc, device := s.device, born := s.cycle }
     depositAt s va = some (g, c) → s.h.dpOut < 255 →
     (∀ p ∈ [(Instr.dsb, 0), (.dsh, 1), (.dsw, 2), (.dsd, 3)], va % 2 ^ p.2 = 0 →
       exec (p.1 rs2 rs1 imm) s = .next (retired (placeElem raised (myCluster s) g.index g.gen s.device (lineHome s g.index c off)
         (elem p.2 ((rx s rs2).toNat % 2 ^ (8 * 2 ^ p.2)))))) ∧
     exec (.dsn rs2 rs1 imm) s = .next (retired (placeElem raised (myCluster s) g.index g.gen s.device (lineHome s g.index c off)
       (elem (if bitAt (rx s rs2) 4 then 5 else 4) (fld (rx s rs2) 0 4))))) ∧
   (∀ (s : State) (rs2 rs1 : Reg) (imm : BitVec 12),
     let va := (rx s rs1 + imm.signExtend 64).toNat
     ∀ p ∈ [(Instr.dsb, 0), (.dsh, 1), (.dsw, 2), (.dsd, 3)],
       (va % 2 ^ p.2 ≠ 0 → exec (p.1 rs2 rs1 imm) s = .next (takeTrap s 6 (BitVec.ofNat 64 va))) ∧
       (va % 2 ^ p.2 = 0 → depositAt s va = none → exec (p.1 rs2 rs1 imm) s = .next (takeTrap s 24 (BitVec.ofNat 64 va))))) ∧
  (∀ (s : State) (rd rs1 rs2 : Reg) (g : Holding) (c : Cap),
     ∀ p ∈ [(Instr.daAddW, 0, 2), (.daMinW, 1, 2), (.daMaxW, 2, 2), (.daMinuW, 3, 2), (.daMaxuW, 4, 2), (.daAndW, 5, 2), (.daOrW, 6, 2),
       (.daXorW, 7, 2), (.daXchgW, 8, 2), (.daCasW, 9, 2), (.daFaddW, 10, 2), (.daAddD, 0, 3), (.daMinD, 1, 3), (.daMaxD, 2, 3),
       (.daMinuD, 3, 3), (.daMaxuD, 4, 3), (.daAndD, 5, 3), (.daOrD, 6, 3), (.daXorD, 7, 3), (.daXchgD, 8, 3), (.daCasD, 9, 3)],
     let va := (rx s rs1).toNat
     let off := capAddr s va - c.base
     let home := lineHome s g.index c off
     let m := 2 ^ (8 * 2 ^ p.2.2)
     let lost := decide (rd ≠ 0) && s.payloadLost.contains s.h.loc
     let placed := placeElem { s with
         h := { s.h with dpOut := s.h.dpOut + 1 }
         payloadLost := if lost then s.payloadLost.erase s.h.loc else s.payloadLost } (myCluster s) g.index g.gen s.device home
       { mult := 0, elems := 1, size := p.2.2, returning := decide (rd ≠ 0), void := g.void, lost := lost, op := p.2.1, offset := off,
         value := BitVec.ofNat 64 ((rx s rs2).toNat % m), expect := BitVec.ofNat 64 (if p.2.1 = 9 then (rx s rd).toNat % m else 0),
         hart := s.h.loc, device := s.device, born := s.cycle }
     va % 2 ^ p.2.2 = 0 → depositAt s va = some (g, c) → s.h.dpOut < 255 →
     (rd = 0 → exec (p.1 rd rs1 rs2) s = .next (retired placed)) ∧
     (∀ u a, rd ≠ 0 → awaitReply placed home = .ok (u, some a) → a.reason = 0 → a.slot.hart = u.h.loc → u.h.live = true → a.slot.elems = 1 →
       ∃ t, exec (p.1 rd rs1 rs2) s = .next t ∧
         rx t rd = (if p.2.2 = 2 then (a.old.setWidth 32).signExtend 64 else a.old) ∧ t.h.csr.dseq = BitVec.ofNat 64 (a.seq % 2 ^ 32) ∧
         t.h.dpOut = u.h.dpOut - 1 ∧ (∀ r, r ≠ rd → rx t r = rx u r) ∧ t.h.pc = u.h.pc + 4 ∧ t.mem = u.mem))

/-- What a slice makes of the bytes of an element: stores put their value, nibble stores their half of the byte, the atomics the result of
their operation on the old value; CAS keeps the old value when it is not the expected one; FADD gives the FP32 sum, rounded to nearest even,
and the canonical NaN of a NaN (R54, R138, R139). -/
def Obligations.DepositedValues : Prop :=
  ∀ (k : Slot) (old : Nat),
    let n := 8 * sizeBytes k.size
    let v := k.value.toNat % 2 ^ n
    (k.size = 4 → elemValue k old = old / 16 * 16 + k.value.toNat % 16) ∧
    (k.size = 5 → elemValue k old = old % 16 + k.value.toNat % 16 * 16) ∧
    (k.size < 4 →
      (k.op = 0x10 → elemValue k old = v) ∧ (k.op = 0 → elemValue k old = (old + v) % 2 ^ n) ∧
      (k.op = 3 → elemValue k old = min old v) ∧ (k.op = 4 → elemValue k old = max old v) ∧
      (k.op = 1 → signed n (elemValue k old) = min (signed n old) (signed n v)) ∧
      (k.op = 2 → signed n (elemValue k old) = max (signed n old) (signed n v)) ∧
      (k.op = 5 → elemValue k old = old &&& v) ∧ (k.op = 6 → elemValue k old = old ||| v) ∧ (k.op = 7 → elemValue k old = old ^^^ v) ∧
      (k.op = 8 → elemValue k old = v) ∧
      (k.op = 9 → elemValue k old = if old = k.expect.toNat % 2 ^ n then v else old) ∧
      (k.op = 10 → elemValue k old = (FFmt.fp32.add .rne old v).1 ∧
        (FFmt.fp32.value old = .nan ∨ FFmt.fp32.value v = .nan → elemValue k old = 0x7FC00000)))

/-- DEPOSIT_PACKET performs the slots of the packet, the first of its series, in order, and their answers go to the depositors or back over the link;
while a slice stalls, or is held in reset, it waits. A packet of a peer is performed when it has the number that the slice expects of its
series, and the next number is expected then. A slot is rejected, with nothing written, in this order: CLOSED, and `seq` 0, where the entry holds no such buffer;
ECC where its payload was lost; QUARANTINED; CLOSED where the window is not open; VOIDED; BOUNDS; LIMIT. One that is accepted in SRAM,
on a line that is not marked, changes the bytes that it covers as its operation says, no other byte, and counts (R147 to R149, R157). DEPOSIT_ACK
lowers DP of the depositor by the elements of the slot. DEPOSIT_REJECTION writes the record, counts in `dfcnt`, makes DEPOSIT_FAULT
pending and then lowers DP. AGE_LIMIT_REACHED sends an aggregation buffer that has a slot of its age limit (R143, R149, R151, R153). Of the
model's choosing: elements that meet no window or no page (log 79, log 80), and where a peer's series starts (log 102). -/
def Obligations.DepositPackets : Prop :=
  (∀ (s : State) (k : Nat) (p : Packet), (frontPackets s)[k]? = some p →
    (∀ t rs, performSlots s p p.slots = .ok (t, rs) →
      exec (.depositPacket k) s = .next (occur (deliverReplies (expectNext { t with packets := t.packets.erase p } p) rs))) ∧
    (∀ t, performSlots s p p.slots = .error t → exec (.depositPacket k) s =
      .next { carryRolls s t with pending := (carryRolls s t).pending ++ [.depositPacket k], note := .blocked })) ∧
  (∀ (s : State) (p : Packet),
    (p ∈ frontPackets s ↔ p ∈ s.packets ∧ expectedNow s p = true ∧ ∀ q ∈ s.packets, q.earlier p = false) ∧
    (p.fromPort = none → expectedNow s p = true ∧ expectNext s p = s) ∧
    (p.fromPort ≠ none →
      (∀ n, tget s.expected p.peerSeries = some n → (expectedNow s p = true ↔ p.num = n)) ∧
      expectNext s p = { s with expected := tput s.expected p.peerSeries (p.num + 1) })) ∧
  (∀ (s : State) (p : Packet) (k : Slot),
    let rejects (reason seq : Nat) : Prop := ∃ a, performSlot s p k = .ok (s, a) ∧ a.reason = reason ∧ a.seq = seq ∧ a.slot = k
    (capAt s p.index = none → rejects 1 0) ∧
    (∀ c, capAt s p.index = some c →
      (c.had p.gen = false ∨ c.state = .free ∨ p.world ≠ some c.world → rejects 1 0) ∧
      (c.had p.gen = true → c.state ≠ .free → p.world = some c.world →
        (k.lost = true → rejects 4 c.seq) ∧
        (k.lost = false → c.state = .quarantined → rejects 5 c.seq) ∧
        (k.lost = false → c.state ≠ .quarantined → c.state ≠ .collecting → rejects 1 c.seq) ∧
        (k.lost = false → c.state = .collecting →
          (k.void = true ∨ c.gen ≠ p.gen → rejects 3 c.seq) ∧
          (k.void = false → c.gen = p.gen →
            (c.length < k.offset + sizeBytes k.size → rejects 2 c.seq) ∧
            (k.offset + sizeBytes k.size ≤ c.length → 0xFFFFFFFE < c.seq + k.mult → rejects 6 c.seq) ∧
            (k.offset + sizeBytes k.size ≤ c.length → c.seq + k.mult ≤ 0xFFFFFFFE → c.marked.contains (k.offset / 128) = true →
              ∃ t a, performSlot s p k = .ok (t, a) ∧ a.reason = 4 ∧ a.seq = c.seq ∧ a.slot = k ∧ t.mem = s.mem ∧ capAt t p.index = some c) ∧
            (k.offset + sizeBytes k.size ≤ c.length → c.seq + k.mult ≤ 0xFFFFFFFE → c.marked.contains (k.offset / 128) = false →
              (c.level = .tile ∨ c.level = .cluster) → sliceHeld s (lineHome s p.index c k.offset) = true → performSlot s p k = .error s) ∧
            (k.offset + sizeBytes k.size ≤ c.length → c.seq + k.mult ≤ 0xFFFFFFFE → c.marked.contains (k.offset / 128) = false →
              (c.level = .tile ∨ c.level = .cluster) → sliceHeld s (lineHome s p.index c k.offset) = false → Memory.wf s.mem = true →
              (∀ a, c.base + k.offset ≤ a → a < c.base + k.offset + sizeBytes k.size → inTileAperture a = true ∨ inClusterAperture a = true) →
              let n := sizeBytes k.size
              let at_ := c.base + k.offset
              let old := leNat (Memory.getN s.mem at_ n)
              ∃ t a, performSlot s p k = .ok (t, a) ∧ a.reason = 0 ∧ a.seq = c.seq ∧ a.slot = k ∧ a.old = BitVec.ofNat 64 old ∧
                Memory.getN t.mem at_ n = leBytes n (elemValue k old) ∧
                (∀ b, b < at_ ∨ at_ + n ≤ b → Memory.get t.mem b = Memory.get s.mem b) ∧
                capAt t p.index = some { c with seq := c.seq + k.mult + 1 })))))) ∧
  (∀ (s : State) (k : Nat) (r : Reply), s.acks[k]? = some r → s.h.live = true → r.slot.hart = s.h.loc →
    exec (.depositAck k) s = .next (occur { s with
      acks := removeAt s.acks k
      h := { s.h with dpOut := s.h.dpOut - r.slot.elems } })) ∧
  (∀ (s t : State) (k : Nat) (r : Reply), s.rejections[k]? = some r → s.h.live = true → r.slot.hart = s.h.loc →
    writeRecord { s with rejections := removeAt s.rejections k } s.h r = .ok t → t.h.live = true → t.h.loc = s.h.loc →
    ∃ u, exec (.depositRejection k) s = .next u ∧ u.rejections = t.rejections ∧ u.h.csr.dfcnt = t.h.csr.dfcnt + 1 ∧
      u.h.csr.rejCount = t.h.csr.rejCount + 1 ∧ bitAt u.h.csr.mip 16 = true ∧ u.h.dpOut = t.h.dpOut - r.slot.elems ∧ u.h.x = t.h.x ∧
      u.h.pc = t.h.pc ∧ u.h.holdings = t.h.holdings ∧ u.mem = t.mem ∧ u.caps = t.caps) ∧
  (∀ (s : State) (c k : Nat) (b : AggBuf), (clusterAt s c).bufs[k]? = some b → aged s b = true →
    exec (.ageLimitReached c k) s = .next (occur (watchAge (sendBuf s c k) c)))

/-- DFLUSH raises OWNERSHIP where no DEPOSIT holding covers the address; else it sends the hart's elements for the window and stalls until each has its
answer, then removes a void holding, writes to `rd` how many of its elements have been rejected since the last DFLUSH, and starts that
number again from 0 (R154). DRAIN_REQUEST sends the agent's buffers of the window, in a FORCE close voids the units that the cluster's
harts hold of it, and makes the cluster respond; the request goes out by a port that carries, and one that does not responds by itself.
DRAIN_RESPONSE waits for the cluster's packets of the window; the last one ends the drain: `seq` stays, and the window is OWNED, or
QUARANTINED when a line of it is marked or it has been quarantined; it waits while the window's home slice is held in reset (R136, R155,
R157). A request over a port for a window of which this device has no unit is answered at once (R155). That a port which carries nothing
responds by itself is the model's choice (log 60). -/
def Obligations.FlushingAndDraining : Prop :=
  (∀ (s : State) (rd rs1 : Reg),
    (depositAt s (rx s rs1).toNat = none → exec (.dflush rd rs1) s = .next (takeTrap s 24 (rx s rs1))) ∧
    (∀ g c, depositAt s (rx s rs1).toNat = some (g, c) →
      let u := flushWindow s s.h g.index g.gen
      (unanswered u u.h.loc g.index g.gen = true → exec (.dflush rd rs1) s = .next (stalled u)) ∧
      (unanswered u u.h.loc g.index g.gen = false →
        ∃ t, exec (.dflush rd rs1) s = .next t ∧ (rd ≠ 0 → rx t rd = BitVec.ofNat 64 u.h.csr.rejCount) ∧ (∀ r, r ≠ rd → rx t r = rx u r) ∧
          t.h.csr.rejCount = 0 ∧ t.h.holdings = (if g.void then u.h.holdings.filter (· != g) else u.h.holdings) ∧ t.h.pc = u.h.pc + 4 ∧
          t.mem = u.mem ∧ t.caps = u.caps ∧ t.h.dpOut = u.h.dpOut ∧ t.clusters = u.clusters ∧ t.packets = u.packets))) ∧
  (∀ (s : State) (i : Nat) (c : Cap) (d : Drain), capAt s i = some c → c.drain = some d →
    (∀ k : Fin 64, d.unasked.contains (.cluster k) = true →
      let t := { s with caps := tput s.caps i { c with drain := some (Drain.mk (d.unasked.erase (.cluster k)) (d.waiting ++ [.cluster k])) } }
      exec (.drainRequest i (.cluster k)) s = .next (occur (enqueue
        (sendBufs (if c.closing then voidCluster t i k.val else t) k.val fun b => b.index == i && b.gen == c.gen) (.drainResponse i (.cluster k))))) ∧
    (∀ p : Fin 16, d.unasked.contains (.port p) = true →
      let t := { s with caps := tput s.caps i { c with drain := some (Drain.mk (d.unasked.erase (.port p)) (d.waiting ++ [.port p])) } }
      exec (.drainRequest i (.port p)) s = .next (occur (if (portAt s p.val).carries then sendOut t (some c.world) (.drain p.val i false)
        else enqueue t (.drainResponse i (.port p)))))) ∧
  (∀ (s : State) (i : Nat) (k : Fin 64), ∀ g ∈ (voidCluster s i k.val).h.holdings, s.h.tile.any (fun t => clusterOf t == k.val) = true →
    g.index = i → g.kind = .deposit → g.void = true ∧ g.units = 0) ∧
  (∀ (s : State) (i : Nat) (k : Fin 64) (c : Cap) (d : Drain), capAt s i = some c → c.drain = some d → d.waiting.contains (.cluster k) = true →
    (clusterBusy s i c.gen k.val = true → exec (.drainResponse i (.cluster k)) s =
      .next { s with pending := s.pending ++ [.drainResponse i (.cluster k)], note := .blocked }) ∧
    (d = Drain.mk [] [.cluster k] → clusterBusy s i c.gen k.val = false → (windowHome s i c).any (sliceHeld s) = true →
      exec (.drainResponse i (.cluster k)) s = .next { s with pending := s.pending ++ [.drainResponse i (.cluster k)], note := .blocked }) ∧
    (d = Drain.mk [] [.cluster k] → clusterBusy s i c.gen k.val = false → (windowHome s i c).any (sliceHeld s) = false → c.level ≠ .remote →
      c.orph = false →
      ∃ t e, exec (.drainResponse i (.cluster k)) s = .next t ∧ capAt t i = some e ∧
        e.state = (if c.marked = [] ∧ c.state ≠ .quarantined then .owned else .quarantined) ∧ e.seq = c.seq ∧ e.gen = c.gen ∧
        e.drain = some (Drain.mk [] []) ∧ t.mem = s.mem ∧ t.h = s.h)) ∧
  (∀ (s : State) (i : Nat) (p : Fin 16), capAt s i = none → (portAt s p.val).carries = true →
    exec (.drainRequest i (.port p)) s = .next (occur (sendOut { s with moves := s.moves.map fun m =>
      if m.2.sending = false ∧ m.2.index = i ∧ m.2.kind = .deposit then (m.1, { m.2 with void := true }) else m } none (.drain p.val i true))))

/-! Circular buffers -/

/-- CBCFG raises CAPABILITY where the kernel has no such circular buffer, or it is in use, or the buffer is not a TILE buffer of the hart's own tile, and LAYOUT
with the geometry where that does not suit; with handle 0 it unbinds the circular buffer, and its buffer is OWNED again after the last; else it is a
release, unbinds the circular buffer and binds it anew, empty, and lends the buffer to it (R178, R179). CBACQ of n slots, which are at most its
slots, opens the producer's window once there is room for them and the consumer's once they are filled; CBREL hands n slots of the window
across, and raises CAPABILITY for more than the window has; n = 0 changes nothing (R180). Neither changes a register, a byte of memory or another
circular buffer. CBQRY writes the counts (R176, R182). -/
def Obligations.CircularBuffers : Prop :=
  (∀ (s : State) (n : CbN) (rs1 rs2 : Reg),
     let hv := rx s rs1
     let g := rx s rs2
     let i := hIndex hv
     let old := cbAt s.h n
     let busy : Prop := old.bound = true ∧ ((s.h.cmds.any fun c => c.op.names n) = true ∨ old.resv ≠ 0 ∨ old.held ≠ 0)
     (s.h.cbufs ≤ n.val → exec (.cbcfg n rs1 rs2) s = .next (takeTrap s 25 0)) ∧
     (n.val < s.h.cbufs → busy → exec (.cbcfg n rs1 rs2) s = .next (takeTrap s 25 old.handle)) ∧
     (n.val < s.h.cbufs → ¬ busy →
       (hv = 0 → exec (.cbcfg n rs1 rs2) s = .next (retired (unbindCb s n))) ∧
       (∀ c, hv ≠ 0 → bindable s hv = .ok c →
         let here : Prop := c.level = .tile ∧ (c.base - 0x010000000000) / 0x100000 = myTile s
         (¬ here → exec (.cbcfg n rs1 rs2) s = .next (takeTrap s 25 hv)) ∧
         (here → geomOk s.h n hv g c.length = false → exec (.cbcfg n rs1 rs2) s = .next (takeTrap s 26 g)) ∧
         (∀ u, here → geomOk s.h n hv g c.length = true → release s i = .ok u →
           ∃ t, exec (.cbcfg n rs1 rs2) s = .next t ∧ cbAt t.h n = { Cb.unbound with bound := true, handle := hv, geom := g } ∧
             (∀ m, m ≠ n → cbAt t.h m = cbAt u.h m) ∧
             capAt t i = (capAt (unbindCb u n) i).map (fun d => { d with state := .lent, lendcb := true, lends := d.lends + 1 }) ∧
             t.h.x = u.h.x ∧ t.h.holdings = u.h.holdings ∧ t.h.pc = u.h.pc + 4 ∧ t.mem = u.mem)))) ∧
  (∀ (s : State) (n : CbN),
     let b := cbAt s.h n
     (b.bound = false → unbindCb s n = s) ∧
     (∀ c, b.bound = true → capAt s (hIndex b.handle) = some c →
       cbAt (unbindCb s n).h n = Cb.unbound ∧ (∀ m, m ≠ n → cbAt (unbindCb s n).h m = cbAt s.h m) ∧
       (c.state = .lent → c.lends = 1 → capAt (unbindCb s n) (hIndex b.handle) = some { c with state := .owned, lends := 0, lendcb := false }) ∧
       (c.state = .lent → 1 < c.lends → capAt (unbindCb s n) (hIndex b.handle) = some { c with lends := c.lends - 1 }))) ∧
  (∀ (s : State) (n : CbN) (rs1 rd : Reg),
     let b := cbAt s.h n
     let k := (rx s rs1).toNat
     let put (b : Cb) : State := { s with h := setCb s.h n b }
     (b.bound = true → gProd b.geom ≠ 2 → k = 0 →
       exec (.cbacq n rs1) s = .next (retired s) ∧ exec (.cbrel n rs1) s = .next (retired s)) ∧
     (b.bound = true → gProd b.geom ≠ 2 → 1 ≤ k →
       (gCount b.geom < k → exec (.cbacq n rs1) s = .next (takeTrap s 25 b.handle)) ∧
       (gProd b.geom = 0 → b.filled + k ≤ gCount b.geom →
         exec (.cbacq n rs1) s = .next (retired (openWindow s n { b with resv := max b.resv k }))) ∧
       (gProd b.geom ≠ 0 → k ≤ gCount b.geom → k ≤ b.filled →
         exec (.cbacq n rs1) s = .next (retired (openWindow s n { b with held := max b.held k }))) ∧
       (k ≤ gCount b.geom → (if gProd b.geom = 0 then gCount b.geom < b.filled + k else b.filled < k) → starvedOn s s.h n.val = none →
         exec (.cbacq n rs1) s = .next (stalled s)) ∧
       (gProd b.geom = 0 → k ≤ b.resv →
         exec (.cbrel n rs1) s = .next (retired (put { b with pushed := b.pushed + BitVec.ofNat 32 k, resv := b.resv - k }))) ∧
       (gProd b.geom ≠ 0 → k ≤ b.held →
         exec (.cbrel n rs1) s = .next (retired (put { b with popped := b.popped + BitVec.ofNat 32 k, held := b.held - k }))) ∧
       ((if gProd b.geom = 0 then b.resv else b.held) < k → exec (.cbrel n rs1) s = .next (takeTrap s 25 b.handle))) ∧
     (∀ c : Cb, let t := openWindow s n c
       cbAt t.h n = c ∧ (∀ m, m ≠ n → cbAt t.h m = cbAt s.h m) ∧ t.h.x = s.h.x ∧ t.h.pc = s.h.pc ∧ t.mem = s.mem ∧ t.caps = s.caps) ∧
     (∃ v, exec (.cbqry rd n) s = .next (retired (wx s rd v)) ∧ (b.bound = false → v = 0) ∧
       (b.bound = true → fld v 0 13 = b.avail % 2 ^ 13 ∧ fld v 13 13 = b.room % 2 ^ 13 ∧ fld v 26 13 = b.resv % 2 ^ 13 ∧
         fld v 39 13 = b.held % 2 ^ 13 ∧ (gProd b.geom ≤ 2 → bitAt v 54 = true))))

/-! The matrix unit -/

/-- An MMA on circular buffers whose checks pass enters the tile's queue as one command of its pair of formats, and the hart goes on; MX counts
it; no register and no byte of memory changes. An MMA on a handle, in a hart of no gang, starts at once and the hart stalls at it until it
completes (R183, R186, R195 to R197). The K-blocks of an MMA may be summed in parts: what a suspended MMA has summed, taken up again, gives
the sums of the whole (R197, R200). Of the model's choosing: the tensor scale of unscaled pairs (log 74). -/
def Obligations.MmaIssue : Prop :=
  (∀ (s t : State) (m : Fin 2) (a b : MatSrc) (fs3 : Reg) (c : EngCmd),
     ∀ p ∈ [(Instr.mmaF4f4, (0 : Fin 12)), (.mmaF4e4, 1), (.mmaE4e4, 2), (.mmaE4e5, 3), (.mmaE5e4, 4), (.mmaE5e5, 5), (.mmaBfbf, 6),
       (.mmaHfhf, 7), (.mmaI8i8, 8), (.mmaI8i4, 9), (.mmaBpi8, 10), (.mmaBpbp, 11)],
     runningDirect s.h = none → planMma s p.2 m a b fs3 = .ok (c, t) →
     (∃ k, c.op = .mma k ∧ k.pair = p.2 ∧ k.acc = m ∧ k.ts = BitVec.ofNat 32 (readF s .s fs3)) ∧
     (c.direct = false → (t.h.cmds.filter (·.queued)).length < 32 →
       ∃ u, exec (p.1 m a b fs3) s = .next u ∧ u.h.cmds = t.h.cmds ++ [c] ∧ u.pending = t.pending ++ [.engineCommandFire t.h.loc c.id] ∧
         u.h.pc = t.h.pc + 4 ∧ u.h.x = t.h.x ∧ u.h.f = t.h.f ∧ u.h.acc0 = t.h.acc0 ∧ u.h.acc1 = t.h.acc1 ∧ u.mem = t.mem ∧
         mxCount u.h = mxCount t.h + 1) ∧
     (∀ u v e, c.direct = true → s.h.gang = none → startAll s.h.mode p.2 m a b fs3 [s.h.loc] s = .ok u → switchTo u s.h.loc = some v →
       runningDirect v.h = some e →
       exec (p.1 m a b fs3) s = .next (stalled (enqueue (firstPanels v s.h.loc) (.engineCommandComplete s.h.loc e.id))))) ∧
  (∀ (ca cb : MmaCmd) (a b : Array Byte) (i j lo n k : Nat) (p : PCell),
     sumBlocks ca cb a b i j lo (n + k) p = sumBlocks ca cb a b i j (lo + n) k (sumBlocks ca cb a b i j lo n p))

/-- MZERO, MLDACC, MSTACC and MDRAIN whose checks pass enter the queue as one command each, with the accumulator, the circular buffers and, for
MDRAIN, the registers as they are at issue; on the accumulator of a suspended MMA they trap with ENGINE (R183, R186, R200, R203, R205).
MCFG writes `mcfg` when the value's reserved bits are 0 and its plane codes are ones that are assigned, and else traps with ENGINE, the
value in `stval`, and `mcfg` unchanged (R192). -/
def Obligations.DrainPathIssue : Prop :=
  (∀ (s : State) (m : Fin 2) (cb out : CbN) (fmt : DrainFmt) (rnd : Rnd) (res : Option CbN) (need rneed : Nat),
     let free : Prop := bitAt s.h.csr.mprog 63 = false ∨ fld s.h.csr.mprog 12 1 ≠ m.val
     let issue (op : EngOp) : State := retired (issueCmd s (newCmd s op true))
     (free → (s.h.cmds.filter (·.queued)).length < 32 →
       exec (.mzero m) s = .next (issue (.mzero m)) ∧
       (checkCb s cb 65536 false 0 = .ok need → exec (.mldacc m cb) s = .next (issue (.mldacc m cb need))) ∧
       (checkCb s cb 65536 true 0 = .ok need → exec (.mstacc m cb) s = .next (issue (.mstacc m cb need))) ∧
       (bitAt s.h.csr.mamaxv 63 = false ∨ fld s.h.csr.mamaxv 24 8 = 0 → checkCb s out (drainBytes fmt) true (drainLayout fmt) = .ok need →
         (match res with | some n => checkCb s n (drainBytes fmt) false (drainLayout fmt) | none => .ok 0) = .ok rneed →
         exec (.mdrain m fmt rnd out res) s = .next (issue (.mdrain
           { acc := m, fmt := fmt, rnd := rnd, out := out, outNeed := need, res := res, resNeed := rneed, sat := bitAt s.h.csr.mcfg 15,
             mdrop := s.h.csr.mdrop, mamaxv := s.h.csr.mamaxv, mcoord := s.h.csr.mcoord, jobseed := s.h.csr.jobseed })))) ∧
     (¬ free → exec (.mzero m) s = .next (takeTrap s 28 s.h.csr.mprog) ∧ exec (.mldacc m cb) s = .next (takeTrap s 28 s.h.csr.mprog) ∧
       exec (.mstacc m cb) s = .next (takeTrap s 28 s.h.csr.mprog) ∧ exec (.mdrain m fmt rnd out res) s = .next (takeTrap s 28 s.h.csr.mprog))) ∧
  (∀ (s : State) (rs1 : Reg),
     let v := rx s rs1
     (v &&& 0x0000000000FF08C0#64 = 0 → fld v 8 3 ≠ 7 → fld v 12 3 ≠ 7 →
       ∃ t, exec (.mcfg rs1) s = .next t ∧ t.h.csr.mcfg = v ∧ t.h.pc = s.h.pc + 4 ∧ t.h.x = s.h.x ∧ t.h.cmds = s.h.cmds ∧ t.mem = s.mem ∧
         t.caps = s.caps ∧ t.h.csr.mprog = s.h.csr.mprog) ∧
     (v &&& 0x0000000000FF08C0#64 ≠ 0 ∨ fld v 8 3 = 7 ∨ fld v 12 3 = 7 → exec (.mcfg rs1) s = .next (takeTrap s 28 v)))

/-- ENGINE_COMMAND_FIRE: a queued command of one hart that may fire, while the hart is on a tile, claims its slots and is marked as fired; one that may
not waits (R184). ENGINE_COMMAND_COMPLETE, of a fired command of one hart before which its path and its accumulator are done: MZERO leaves its
accumulator with nothing but +0, MSTACC writes its image to the claimed slots, MLDACC reads one, MDRAIN writes its output and, where it
posts a maximum, completes once that is performed, and an MMA whose operands are local and can be read writes each output's sum to its
accumulator; then the command is gone, its claims are done and its lends return (R185, R190, R197, R203, R206, R207). MMA_PANEL_FAULT
and UNANSWERED_READ: a read of a REMOTE B that fails stops the direct MMA at its block and traps; in a hart outside a gang the progress is
in `mprog` and the handler is entered with the cause of the failure (R200, R201). Which block an unanswered read was for is a free value. -/
def Obligations.EngineCommands : Prop :=
  (∀ (s : State) (loc id : Nat) (h : Hart) (c : EngCmd), cmdOf s loc id = some (h, c) → c.gangOf = none →
    let blocks : State := { s with pending := s.pending ++ [.engineCommandComplete h.loc c.id], note := .blocked }
    (c.fired = false →
      (h.tile.isSome = true → mayFire h c = true →
        exec (.engineCommandFire loc id) s = .next (occur (enqueue (updHart s h.loc fun h => fireCmd h c) (afterFire h.loc c)))) ∧
      (h.tile = none ∨ mayFire h c = false → exec (.engineCommandFire loc id) s =
        .next { s with pending := s.pending ++ [.engineCommandFire loc id], note := .blocked })) ∧
    (c.fired = true → c.susp = false → c.isCopy = false → mayEnd (h, c) = true →
      (∀ a, c.op = .mzero a → exec (.engineCommandComplete loc id) s = .next (occur (endCmd (updHart s h.loc fun h => setAcc h a []) h.loc c true))) ∧
      (∀ a n k, c.op = .mldacc a n k → ∃ l : Tbl (BitVec 32), exec (.engineCommandComplete loc id) s =
          .next (occur (endCmd (updHart s h.loc fun h => setAcc h a l) h.loc c true)) ∧
        ∀ e < 16384, (tgetD l e 0).toNat = leNat (((cbRead s (cbAt h n) (startOf c 0) 65536).drop (4 * e)).take 4)) ∧
      (∀ a n k, c.op = .mstacc a n k → exec (.engineCommandComplete loc id) s =
        .next (occur (endCmd (cbWrite s (cbAt h n) (startOf c 0) (packElems 32 (accList (accOf h a)))) h.loc c true))) ∧
      (∀ d, c.op = .mdrain d →
        (drainPosted s h.loc = true → exec (.engineCommandComplete loc id) s = .next blocks) ∧
        (drainPosted s h.loc = false → c.done = 64 → exec (.engineCommandComplete loc id) s = .next (occur (endCmd s h.loc c true))) ∧
        (drainPosted s h.loc = false → c.done ≠ 64 → bitAt d.mamaxv 63 = false →
          exec (.engineCommandComplete loc id) s = .next (occur (endCmd (drainOut s h c d) h.loc c true)))) ∧
      (∀ k, c.op = .mma k → mmaFails s [(h, c)] = none → remoteB s k = none →
        exec (.engineCommandComplete loc id) s = .next (occur (finishMma s [(h, c)])) ∧
        (s.h.live = true → s.h = h →
          accOf (finishMma s [(h, c)]).h k.acc = accTbl (((sumAll k k (lineBytes (aLines s (h, c) k)) (lineBytes (bLines s (h, c) k)) c.done
            (k.blocks - c.done) c.part).zip (accList (accOf h k.acc))).map fun q => q.1.2.finish k.ts.toNat q.2) ∧
          (finishMma s [(h, c)]).h.cmds = h.cmds.filter (fun e => e.id != c.id) ∧
          (finishMma s [(h, c)]).h.pc = (if c.direct then h.pc + 4 else h.pc) ∧ (finishMma s [(h, c)]).h.x = h.x)))) ∧
  (∀ (s : State) (loc : Nat) (ms : List (Hart × EngCmd)) (c : MmaCmd) (hv : Word) (va : Nat), remoteMma s loc = some (ms, c, hv, va) →
    let done := match ms.head? with | some l => l.2.done | none => 0
    (∀ blk why, done ≤ blk → blk < c.blocks →
      exec (.mmaPanelFault loc blk why) s = .next (occur (panelFails s ms c hv va blk why))) ∧
    (loc = s.h.loc → done < c.blocks → ∃ blk, done ≤ blk ∧ blk < c.blocks ∧
      exec .unansweredRead s = .next (occur (panelFails { s with fresh := s.fresh + 1 } ms c hv va blk .link)))) ∧
  (∀ (s : State) (e : EngCmd) (c : MmaCmd) (hv : Word) (va blk : Nat) (why : PanelFail), s.h.live = true → s.h.gang = none →
    e ∈ s.h.cmds → e.mma? = some c → blk < c.blocks →
    let kb := max e.done (reportBlock c blk)
    let u := stopMma { s with fresh := s.fresh + 1 } [(s.h, e)] kb
    ∃ v, panelFails s [(s.h, e)] c hv va blk why = { takeTrap u (match why with
        | .page => 13
        | .link => 29
        | .ecc => 31
        | .revoked => 25) v with note := .clear } ∧
      (why = .revoked → v = hv) ∧ u.h.csr.mprog = mprogOf c kb ∧ u.h.pc = s.h.pc ∧ u.h.x = s.h.x)

/-! Copies -/

/-- The six copy commands. A record of 160 bytes that the hart may read and that is malformed traps with ENGINE at its address; one whose shape,
handles, layouts, ranges, circular buffers and pages pass their checks lends its buffers, enters the engine as one command with the hart's
next ticket, which `rd` gets, and CP counts it; it is due to fire where a circular buffer is named, and has begun where none is. No byte
of memory changes at its issue (R226 to R228). Of the model's choosing: the readings of log 52. -/
def Obligations.CopyIssue : Prop :=
  ∀ (s t : State) (rd rs1 rs2 rs3 : Reg) (r : List Byte), readHeld s (rx s rs3).toNat 160 = .ok (r, t) →
    ∀ p ∈ [(Instr.copy, CopyKind.copy), (.red, .red), (.gath, .gath), (.scat, .scat), (.fill, .fill), (.cmp, .cmp)],
    let va := (rx s rs3).toNat
    let dst := rx s rs1
    let src := rx s rs2
    let c := parseShape r
    let args := sideArgs t p.2 c dst src ++ otherArgs t p.2 c
    let queued : Bool := c.scb != 0 || c.dcb != 0
    let whole := args.filter fun a => hKind a.hv == some .whole
    (shapeOk p.2 va r c = false ∨ blkOk t p.2 c dst src = false → exec (p.1 rd rs1 rs2 rs3) s = .next (takeTrap s 28 (rx s rs3))) ∧
    (∀ u v pages dneed sneed, shapeOk p.2 va r c = true → blkOk t p.2 c dst src = true →
      (∀ a ∈ args, borrow t a.hv a.share = .ok ()) → sameBufOk p.2 c dst src = true →
      (∀ a ∈ args, ∀ l, a.layout = some l → (capOf t a.hv).layout = l) → (∀ a ∈ args, ∃ l, a.bytes = some l ∧ (bounds l).2 < a.limit) →
      sideCb t c true dst = .ok dneed → sideCb t c false (if p.2 = .fill then 0 else src) = .ok sneed →
      (∀ a ∈ args, (argPages t a).length ≤ 65536) → probeArgs t args = .ok (pages, u) → cpCount u.h < 64 →
      (queued = true → (u.h.cmds.filter (·.queued)).length < 32) → lendAll u (uniq (whole.map fun a => hIndex a.hv)) = .ok v →
      ∃ w k o, exec (p.1 rd rs1 rs2 rs3) s = .next w ∧ w.h.cmds = v.h.cmds ++ [k] ∧ k.op = .copy o ∧ o.kind = p.2 ∧ o.shape = c ∧
        o.ticket = v.h.ticket ∧ o.pos = 0 ∧ o.dst = dst ∧ o.src = src ∧ o.ended = false ∧ k.queued = queued ∧ k.fired = !queued ∧
        k.lends = uniq (whole.map fun a => hIndex a.hv) ∧ k.pages = pages.eraseDups ∧ cpCount w.h = cpCount v.h + 1 ∧
        w.pending = v.pending ++ [if queued then .engineCommandFire v.h.loc k.id else .copySegment v.h.loc v.h.ticket.toNat] ∧
        w.h.ticket = v.h.ticket + 1 ∧ (rd ≠ 0 → rx w rd = BitVec.ofNat 64 v.h.ticket.toNat) ∧ (∀ q, q ≠ rd → rx w q = rx v q) ∧
        w.h.pc = v.h.pc + 4 ∧ w.mem = v.mem ∧ w.caps = v.caps)

/-- COPY_SEGMENT performs the next positions of a copy that has fired, while its hart is on a tile, in order until it ends; here no HBM
controller performs it and no REMOTE operand is met, so that no free value is (R230, R236). COPY_COMPLETE writes the record, gives the buffers
back and, where a queued copy has failed, discards the unfired commands (R120, R188, R237). Positions between SRAM buffers: the destination
element of a position, at the byte offsets that its layout gives, becomes the source element, converted, of COPY; the result of RED's operation
on it and the source element; the source element of the row that the index list gives for GATH and in the row that it gives for SCAT; and the
fill value of FILL; no other byte changes. CMP writes nothing and counts the positions whose elements differ, and keeps the first (R224, R232
to R235). Of the model's choosing: the readings of log 52. -/
def Obligations.CopyProgress : Prop :=
  (∀ (s : State) (loc ticket : Nat) (h : Hart) (k : EngCmd) (c : CopyCmd), copyCmd s loc ticket = some (h, k, c) →
    (k.fired = true → c.ended = false → h.tile.isSome = true → outsideStatus s h k c false 0 = none → hbmAble s h k c = false →
      let r := copyRun h false (segmentLen c) s k c
      let t := updHart r.s loc fun g => updCmd g k.id fun _ => { keepPins r.s g r.k r.c with op := .copy r.c }
      (r.done = true → exec (.copySegment loc ticket) s = .next (occur (enqueue t (if r.c.ended then .copyComplete loc ticket
        else .copySegment loc ticket)))) ∧
      (r.done = false → exec (.copySegment loc ticket) s = .next { t with pending := t.pending ++ [.copySegment loc ticket], note := .blocked })) ∧
    (∀ t d u, c.ended = true → settleRemote s h k c = (t, d) →
      (putRecord t h k d = (u, true) → exec (.copyComplete loc ticket) s =
        .next (occur (if k.queued = true ∧ d.status ≠ 0 then failCmd u loc k else endCmd u loc k true))) ∧
      (putRecord t h k d = (u, false) → exec (.copyComplete loc ticket) s =
        .next { carryRolls s u with pending := (carryRolls s u).pending ++ [.copyComplete loc ticket], note := .blocked }))) ∧
  (∀ (h : Hart) (n : Nat) (s : State) (k : EngCmd) (c : CopyCmd),
    (c.shape.total ≤ c.pos → copyRun h false n s k c = { s := s, k := k, c := { c with ended := true }, done := true }) ∧
    (∀ t d, c.pos < c.shape.total → copyPos s { h := h, k := k, c := c, hbm := false } c c.pos = .ok (t, d) →
      copyRun h false (n + 1) s k c = copyRun h false n t k { d with pos := d.pos + 1 }) ∧
    (∀ st t, c.pos < c.shape.total → copyPos s { h := h, k := k, c := c, hbm := false } c c.pos = .error (.fails st t) →
      copyRun h false (n + 1) s k c = { s := t, k := k, c := { c with status := st, ended := true }, done := true })) ∧
  (∀ (s : State) (w : Runner) (c : CopyCmd) (p x : Nat) (bd bs bi : Cap),
    let sh := c.shape
    let o := copyOffs c p x
    let dOffs := elemOffs sh.dlay sh.ed o.2.toNat
    let sOffs := elemOffs sh.slay sh.es o.1.toNat
    let iOffs := rangeFrom (sh.ioff + 4 * (p / sh.ext.getD 0 1)) 4
    let bytesOf (m : List Host.Cell) (b : Cap) (l : List Nat) : List Byte := l.map fun k => Memory.get m (b.base + k)
    let inSram (hv : Word) (b : Cap) (l : List Nat) : Prop := capAt s (hIndex hv) = some b ∧ (b.level = .tile ∨ b.level = .cluster) ∧
      b.state ≠ .quarantined ∧ ∀ k ∈ l, inTileAperture (b.base + k) = true ∨ inClusterAperture (b.base + k) = true
    let byList : Bool := c.kind == .gath || c.kind == .scat
    let v := if c.kind = .fill then c.fill.toNat % 16 ^ sh.es else elemGet sh.slay sh.es o.1.toNat (bytesOf s.mem bs sOffs)
    let d := elemGet sh.dlay sh.ed o.2.toNat (bytesOf s.mem bd dOffs)
    w.hbm = false → sh.scb = 0 → sh.dcb = 0 → Memory.wf s.mem = true → inSram c.dst bd dOffs → (c.kind ≠ .fill → inSram c.src bs sOffs) →
    (byList = true → inSram sh.ixh bi iOffs ∧ x = leNat (bytesOf s.mem bi iOffs)) → (byList = false → x = 0) →
    let inRow : Prop := byList = true → rowOk s c (p / sh.ext.getD 0 1) x = true
    (inRow → c.kind ≠ .cmp → ∃ t, copyPos s w c p = .ok (t, c) ∧
      bytesOf t.mem bd dOffs = elemPut sh.dlay sh.ed o.2.toNat (bytesOf s.mem bd dOffs)
        (if c.kind = .red then reduce sh.rop sh.rtyp d v else convertElem sh v) ∧
      ∀ a, (∀ k ∈ dOffs, a ≠ bd.base + k) → Memory.get t.mem a = Memory.get s.mem a) ∧
    (c.kind = .cmp → copyPos s w c p =
      .ok (s, if d = v then c else { c with unequal := c.unequal + 1, least := some (c.least.getD p) })) ∧
    (¬ inRow → copyPos s w c p = .error (.fails 1 s)))

/-- The new destination element of RED: sums wrap in their width, minimum and maximum are of the type's order, the bit operations are bit by
bit; a NaN gives the canonical NaN of the floating type, and the other floating results are the sum rounded once to the type, and the
lesser and the greater value with -0 below +0 (R233). -/
def Obligations.ReducedElements : Prop :=
  ∀ (rtyp d x : Nat),
    (rtyp ≤ 3 → reduce 0 rtyp d x = (d + x) % 2 ^ (4 * rtypSize rtyp) ∧
      reduce 3 rtyp d x = d &&& x ∧ reduce 4 rtyp d x = d ||| x ∧ reduce 5 rtyp d x = d ^^^ x) ∧
    (rtyp ≤ 1 → signed (4 * rtypSize rtyp) (reduce 1 rtyp d x) = min (signed (4 * rtypSize rtyp) d) (signed (4 * rtypSize rtyp) x) ∧
      signed (4 * rtypSize rtyp) (reduce 2 rtyp d x) = max (signed (4 * rtypSize rtyp) d) (signed (4 * rtypSize rtyp) x)) ∧
    ((rtyp = 2 ∨ rtyp = 3) → reduce 1 rtyp d x = min d x ∧ reduce 2 rtyp d x = max d x) ∧
    (3 < rtyp → let f := redFmt rtyp
      (f.value d = .nan ∨ f.value x = .nan → ∀ rop, reduce rop rtyp d x = f.nanCode) ∧
      (f.value d ≠ .nan → f.value x ≠ .nan → reduce 0 rtyp d x = (f.add .rne d x).1 ∧
        (let dFirst : Bool := (f.value d).lt (f.value x) || (f.value d).same (f.value x) && (f.value d).isNeg
         reduce 1 rtyp d x = (if dFirst then d else x) ∧ reduce 2 rtyp d x = (if dFirst then x else d))))

/-! Vectors -/

/-- The vector instructions of the base set. VSETVLI, VSETIVLI and VSETVL install a supported `vtype` and the `vl` of their AVL, or set
`vill` and `vl` 0, and write `vl` to `rd`. Every vector word is an illegal instruction with VS Off or `vill` set. One whose register groups are
legal writes, of each active body element, what its operation gives; inactive and tail elements keep their values, or under an agnostic policy
may be all ones; no other register changes. Shapes: integer operations of one width, carries and merges, widening, narrowing, extensions,
gathers, FP32 and FP64 operations and comparisons, which raise the flags of their active elements, mask results, reductions and moves of
element 0 (R28, R36, R210). VDOTB: the dot product of vl elements under their block scales, added to the f operand, is written to element 0 of
`vd`; the other elements and registers stay; an odd source register is an illegal instruction, and a count that the format does not admit traps
with ENGINE and the count (R213, R215). Of the model's choosing: the supported values of `vtype` (log 6) and what an agnostic element
takes (log 14). -/
def Obligations.VectorArithmetic : Prop :=
  (∀ (s : State) (rd rs1 rs2 : Reg) (u : Fin 32) (z : BitVec 11) (y : BitVec 10),
    let asked : Option Nat := if rs1 ≠ 0 then some (rx s rs1).toNat else if rd ≠ 0 then some (2 ^ 64 - 1) else none
    ∀ p ∈ [(Base.vsetvli rd rs1 z, z.toNat, asked), (.vsetivli rd u y, y.toNat, some u.val), (.vsetvl rd rs1 rs2, (rx s rs2).toNat, asked)],
    let vt := p.2.1
    let same : Prop := s.h.csr.vill = false ∧ vlmaxOf vt = vlmaxOf s.h.csr.vtype.toNat
    (fld s.h.csr.mstatus 9 2 = 0 → execBase p.1 s = .next (takeTrap s 2 (BitVec.ofNat 64 s.h.ir.toNat))) ∧
    (fld s.h.csr.mstatus 9 2 ≠ 0 → ∃ t, execBase p.1 s = .next t ∧ t.h.csr.vstart = 0 ∧ t.h.pc = s.h.pc + 4 ∧ t.mem = s.mem ∧ t.h.v = s.h.v ∧
      t.h.f = s.h.f ∧ (rd ≠ 0 → rx t rd = BitVec.ofNat 64 t.h.csr.vl) ∧ (∀ r, r ≠ rd → rx t r = rx s r) ∧
      (vtypeOk vt = false ∨ p.2.2 = none ∧ ¬ same → t.h.csr.vill = true ∧ t.h.csr.vtype = 0 ∧ t.h.csr.vl = 0) ∧
      (vtypeOk vt = true → p.2.2 = none → same → t.h.csr.vill = false ∧ t.h.csr.vtype.toNat = vt ∧ t.h.csr.vl = s.h.csr.vl) ∧
      (∀ avl, vtypeOk vt = true → p.2.2 = some avl → t.h.csr.vill = false ∧ t.h.csr.vtype.toNat = vt ∧
        (avl ≤ vlmaxOf vt → t.h.csr.vl = avl) ∧ (2 * vlmaxOf vt ≤ avl → t.h.csr.vl = vlmaxOf vt) ∧
        (vlmaxOf vt < avl → avl < 2 * vlmaxOf vt → (avl + 1) / 2 ≤ t.h.csr.vl ∧ t.h.csr.vl ≤ vlmaxOf vt)))) ∧
  (∀ (old s : State) (c : VCfg) (vd : Reg) (w regs : Nat) (vm : Bool) (f : Nat → ERes),
    let t := putElems old s c vd w regs vm f
    let runs (k : Nat) : Prop := c.vstart ≤ k ∧ k < c.vl ∧ active old vm k = true
    let left (agn : Bool) (k : Nat) : Prop := vElem t vd w k = vElem s vd w k ∨ agn = true ∧ vElem t vd w k = 256 ^ w - 1
    (w = 1 ∨ w = 2 ∨ w = 4 ∨ w = 8) → vd.val + regs ≤ 32 → c.vl ≤ regs * 64 / w →
    (c.vl ≤ c.vstart → t.h.v = s.h.v ∧ t.h.csr.fflags = s.h.csr.fflags) ∧
    (∀ k < regs * 64 / w, c.vstart < c.vl →
      (k < c.vstart → vElem t vd w k = vElem s vd w k) ∧ (runs k → vElem t vd w k = (f k).v % 256 ^ w) ∧
      (c.vstart ≤ k → k < c.vl → active old vm k = false → left c.vma k) ∧ (c.vl ≤ k → left c.vta k)) ∧
    (∀ r, r.val < vd.val ∨ vd.val + regs ≤ r.val → rv t r = rv s r) ∧
    (∀ i < 5, t.h.csr.fflags.getLsbD i = true ↔
      s.h.csr.fflags.getLsbD i = true ∨ ∃ k, c.vstart < c.vl ∧ runs k ∧ (f k).f.toBits.getLsbD i = true) ∧
    t.h.x = s.h.x ∧ t.h.f = s.h.f ∧ t.mem = s.mem ∧ t.caps = s.caps ∧ t.h.pc = s.h.pc ∧ t.h.csr.vl = s.h.csr.vl ∧ 
    t.h.csr.vstart = 0) ∧
  (∀ (old s : State) (c : VCfg) (vd : Reg) (vm : Bool) (lim : Nat) (f : Nat → Bool × FFlags),
    let t := putMask old s c vd vm lim f
    (c.vl ≤ c.vstart → t.h.v = s.h.v) ∧
    (c.vl ≤ 512 → c.vstart < c.vl → ∀ k < c.vl,
      (k < c.vstart → vBit t vd k = vBit s vd k) ∧ (c.vstart ≤ k → active old vm k = true → vBit t vd k = (f k).1) ∧
      (c.vstart ≤ k → active old vm k = false → vBit t vd k = vBit s vd k ∨ c.vma = true ∧ vBit t vd k = true)) ∧
    (∀ r, r ≠ vd → rv t r = rv s r) ∧ t.h.x = s.h.x ∧ t.h.f = s.h.f ∧ t.mem = s.mem ∧ t.h.pc = s.h.pc) ∧
  (∀ (s : State) (a : VArith),
    let c := vcfg s
    let n := c.sew
    let ans (t : State) : Prop := execBase (.varith a) s = .next (retired t)
    let one (r : Reg) : VGroup := { r := r, eew := n, em := c.lm }
    let wide (r : Reg) : VGroup := { r := r, eew := 2 * n, em := c.lm + 1 }
    let legal (apart : Bool) (d : VDest) (l : List VGroup) : Prop := groupsOk (!a.vm) apart d l = true
    let put (g : VGroup) (vm : Bool) (f : Nat → ERes) : Prop := ans (putElems s s c g.r (g.eew / 8) g.regs vm f)
    let src := srcGroups a.src n c.lm
    let x (i : Nat) : Nat := vElem s a.vs2 (n / 8) i
    let y (i : Nat) : Nat := srcElem s a.src n i (vUimm a.op)
    let d (i : Nat) : Nat := vElem s a.vd (n / 8) i
    let noFlags : FFlags := FFlags.none
    (fld s.h.csr.mstatus 9 2 = 0 ∨ s.h.csr.vill = true → execBase (.varith a) s = .next (takeTrap s 2 (BitVec.ofNat 64 s.h.ir.toNat))) ∧
    (fld s.h.csr.mstatus 9 2 ≠ 0 → s.h.csr.vill = false →
      (∀ r : Nat → ERes, (∀ i, vInt a.op n s.h.csr.vxrm.toNat (x i) (y i) (d i) = some (r i)) → legal false (.group (one a.vd)) (one a.vs2 :: src) →
        put (one a.vd) a.vm r) ∧
      (a.op = .vadc → legal false (.group (one a.vd)) (one a.vs2 :: src) →
        put (one a.vd) true fun i => ERes.of ((x i + y i + boolNat (maskBit s i)) % 2 ^ n)) ∧
      (a.op = .vmerge → legal false (.group (one a.vd)) (if a.vm then src else one a.vs2 :: src) →
        put (one a.vd) true fun i => ERes.of (if a.vm || maskBit s i then y i else x i)) ∧
      (∀ r : Nat → Bool, a.op ≠ .vmadc → a.op ≠ .vmsbc → (∀ i, vCmp a.op n (x i) (y i) 0 = some (r i)) → legal false (.mask a.vd) (one a.vs2 :: src) →
        ans (putMask s s c a.vd a.vm c.vlmax fun i => (r i, noFlags))) ∧
      (∀ r : Nat → Nat, vWideA a.op = false → vWideD a.op = false → (∀ i, vWide a.op n (x i) (y i) (vElem s a.vd (n / 4) i) = some (r i)) →
        n ≤ 32 → legal false (.group (wide a.vd)) (one a.vs2 :: src) → put (wide a.vd) a.vm fun i => ERes.of (r i)) ∧
      (∀ r : Nat → ERes, (∀ i, vNarrow a.op n s.h.csr.vxrm.toNat (vElem s a.vs2 (n / 4) i) (y i) = some (r i)) → n ≤ 32 →
        legal false (.group (one a.vd)) (wide a.vs2 :: src) → put (one a.vd) a.vm r) ∧
      (∀ k sgn, vExt a.op = some (k, sgn) → 8 ≤ n / k →
        legal false (.group (one a.vd)) [{ r := a.vs2, eew := n / k, em := c.lm - (Nat.log2 k : Nat) }] →
        put (one a.vd) a.vm fun i => let e := vElem s a.vs2 (n / k / 8) i; ERes.of (if sgn then wrap n (signed (n / k) e) else e)) ∧
      (∀ r, a.op = .vrgather → a.src = .v r → legal true (.group (one a.vd)) [one a.vs2, one r] →
        put (one a.vd) a.vm fun i => ERes.of (if vElem s r (n / 8) i < c.vlmax then vElem s a.vs2 (n / 8) (vElem s r (n / 8) i) else 0)) ∧
      (∀ r : Nat → Bool, (∀ i, vLogic a.op (vBit s a.vs2 i) (vBit s (vsrcReg a.src) i) = some (r i)) →
        ans (putMask s s c a.vd true 512 fun i => (r i, noFlags))) ∧
      (∀ v : Nat → Nat → Nat, (∀ p q, vRed a.op n p q = some (v p q)) → c.vstart = 0 → n ≤ 64 →
        legal false (.scalar a.vd) [one a.vs2, { r := vsrcReg a.src, eew := n, em := 0 }] →
        ans (putFirst s c a.vd (n / 8) (ERes.of ((activeElems s c a.vm).foldl (fun m i => v m (x i)) (vElem s (vsrcReg a.src) (n / 8) 0))))) ∧
      (a.op = .vcpop → c.vstart = 0 →
        ans (endVec (wx s a.vd (BitVec.ofNat 64 ((activeElems s c a.vm).filter (vBit s a.vs2)).length)))) ∧
      (a.op = .vmvxs → ans (endVec (wx s a.vd (sextWord n (vElem s a.vs2 (n / 8) 0))))) ∧
      (a.op = .vmvsx → ans (putFirst s c a.vd (n / 8) (ERes.of (srcElem s a.src n 0 false)))) ∧
      (∀ m fmt, fld s.h.csr.mstatus 13 2 ≠ 0 → rmOfCode s.h.csr.frm.toNat = some m → vFmt n = some fmt →
        (∀ r : Nat → Coded, (∀ i, vFp a.op fmt m (x i) (y i) (d i) = some (r i)) → legal false (.group (one a.vd)) (one a.vs2 :: src) →
          put (one a.vd) a.vm fun i => ERes.coded (r i)) ∧
        (∀ r : Nat → Coded, (∀ i, vFpUnary a.op fmt m n (x i) = some (r i)) → legal false (.group (one a.vd)) [one a.vs2] →
          put (one a.vd) a.vm fun i => ERes.coded (r i)) ∧
        (∀ r : Nat → Bool × FFlags, (∀ i, vFpCmp a.op fmt (x i) (y i) = some (r i)) → legal false (.mask a.vd) (one a.vs2 :: src) →
          ans (putMask s s c a.vd a.vm c.vlmax r))))) ∧
  (∀ (n vxrm a b d : Nat), 0 < n → a < 2 ^ n → b < 2 ^ n →
    let is (op : VOp) (v : Nat) : Prop := vInt op n vxrm a b d = some (ERes.of v)
    is .vadd ((a + b) % 2 ^ n) ∧ is .vsub ((a + (2 ^ n - b)) % 2 ^ n) ∧ is .vrsub ((b + (2 ^ n - a)) % 2 ^ n) ∧ is .vmul (a * b % 2 ^ n) ∧
      is .vmulhu (a * b / 2 ^ n) ∧ is .vmacc ((b * a + d) % 2 ^ n) ∧ is .vmadd ((b * d + a) % 2 ^ n) ∧ is .vsrl (a / 2 ^ (b % n)) ∧
      is .vsll (a * 2 ^ (b % n) % 2 ^ n) ∧ is .vdivu (if b = 0 then 2 ^ n - 1 else a / b) ∧ is .vremu (if b = 0 then a else a % b) ∧
      (b = 0 → is .vdiv (2 ^ n - 1) ∧ is .vrem a) ∧ (a = 2 ^ (n - 1) → b = 2 ^ n - 1 → 1 < n → is .vdiv a ∧ is .vrem 0)) ∧
  (∀ (s : State) (vd vs1 vs2 fs3 : Reg),
    ∀ p ∈ [(Instr.vdotbFp4, NarrowFmt.fp4, 128), (.vdotbE4m3, .e4m3, 64), (.vdotbE5m2, .e5m2, 64), (.vdotbInt8, .int8, 64)],
    let n := s.h.csr.vl
    (vs1.val % 2 = 1 ∨ vs2.val % 2 = 1 ∨ fld s.h.csr.mstatus 13 2 = 0 ∨ fld s.h.csr.mstatus 9 2 = 0 ∨ s.h.csr.vill = true ∨
        s.h.csr.vstart ≠ 0 →
      exec (p.1 vd vs1 vs2 fs3) s = .next (takeTrap s 2 (BitVec.ofNat 64 s.h.ir.toNat))) ∧
    (vs1.val % 2 = 0 → vs2.val % 2 = 0 → fld s.h.csr.mstatus 13 2 ≠ 0 → fld s.h.csr.mstatus 9 2 ≠ 0 → s.h.csr.vill = false →
      s.h.csr.vstart = 0 →
      (n % 8 ≠ 0 ∨ p.2.2 < n → exec (p.1 vd vs1 vs2 fs3) s = .next (takeTrap s 28 (BitVec.ofNat 64 n))) ∧
      (n % 8 = 0 → n ≤ p.2.2 → ∃ t, exec (p.1 vd vs1 vs2 fs3) s = .next t ∧
        vElem t vd 4 0 = (dotSum s p.2.1 vs1 vs2 n).finish (readF s .s fs3) 0 % 2 ^ 32 ∧
        (∀ k, 0 < k → k < 16 → vElem t vd 4 k = vElem s vd 4 k) ∧ (∀ r, r ≠ vd → rv t r = rv s r) ∧
        fld t.h.csr.mstatus 9 2 = 3 ∧ t.h.csr.fflags = s.h.csr.fflags ∧ t.h.f = s.h.f ∧ t.h.x = s.h.x ∧ t.mem = s.mem ∧
        t.h.pc = s.h.pc + 4)))

/-- VBSCALE, VCVTN, VCVTW, VPLN, VRNG and VAMAX, each under its checks, write the registers that the rules give and raise the flags that they
give; a register past the ones written keeps its value (R212, R213, R216 to R221). Of the model's choosing: VPLN past v31 (log 37) and the
flags of a signalling NaN (log 82). -/
def Obligations.VectorConversions : Prop :=
  ∀ (s : State) (vd vs1 vs2 : Reg),
    let n := s.h.csr.vl
    let v : Prop := fld s.h.csr.mstatus 9 2 ≠ 0 ∧ s.h.csr.vstart = 0
    let legal : Prop := v ∧ s.h.csr.vill = false
    (∀ sf tgt, legal → n % 8 = 0 → n ≤ 64 → groupFits vs1 n 32 = true → targetFmt (fld s.h.csr.vbscfg 4 3) = some tgt →
      exec (.vbscale sf vd vs1) s = .next (retired (setGroup s vd ((rangeFrom 0 (n / 8)).map fun b =>
        BitVec.ofNat 8 (blockScale sf tgt (maxMag ((rangeFrom (8 * b) 8).map (fp32Elem s vs1)))))))) ∧
    (∀ fmt rnd, legal → n % 8 = 0 → n ≤ 64 → groupFits vs1 n 32 = true → groupFits vd n fmt.bits = true →
      let out := (rangeFrom 0 n).map fun k => cvtScaled fmt (rnd.mode (if rnd = .sr then cvtWord s k else 0)) (bitAt s.h.csr.vbscfg 7)
        (FFmt.fp32.value (fp32Elem s vs1 k)) (scaleElem s vs2 (k / 8))
      let t := raise (setGroup s vd (packElems fmt.bits (out.map (·.1)))) (out.foldl (fun f c => f.or c.2) FFlags.none)
      ∃ u, exec (.vcvtn fmt rnd vd vs1 vs2) s = .next u ∧ u.h.v = t.h.v ∧ u.h.csr.fflags = t.h.csr.fflags ∧ u.h.x = s.h.x ∧ u.h.f = s.h.f ∧
        u.h.draws = (if rnd = .sr then (s.h.draws + 1) % 2 ^ 64 else s.h.draws) ∧ u.mem = s.mem ∧ u.h.pc = s.h.pc + 4) ∧
    (∀ fmt, legal → n % 8 = 0 → n ≤ 64 → groupFits vs1 n fmt.bits = true → groupFits vd n 32 = true →
      let out := (rangeFrom 0 n).map fun k => widenScaled (narrowElem s vs1 fmt k) (scaleElem s vs2 (k / 8))
      exec (.vcvtw fmt vd vs1 vs2) s = .next (retired (raise (setGroup s vd (packElems 32 (out.map (·.1))))
        (out.foldl (fun f c => f.or c.2) FFlags.none)))) ∧
    (∀ k : Fin 32, v → vd.val ≠ 31 → vs1.val ≠ 31 → 2 ≤ k.val → k.val ≤ 8 →
      exec (.vplnPack vd vs1 k) s = .next (retired (setGroup s vd (packPlanes (groupBytes s vs1 2) k.val))) ∧
      exec (.vplnGet vd vs1 k) s = .next (retired (setGroup s vd ((rangeFrom 0 128).map fun e =>
        BitVec.ofNat 8 (planeCode (groupBytes s vs1 2) k.val e))))) ∧
    (v → 2 ≤ fld (rx s vs1) 0 16 → fld (rx s vs1) 0 16 ≤ 0x7FFF →
      exec (.vrng vd vs1) s = .next (retired (setGroup s vd (packElems 32 ((rangeFrom 0 16).map fun m =>
        (hartWord s.h.csr.jobseed s.h.loc (fld (rx s vs1) 0 16) (4 * fld (rx s vs1) 16 48 + m / 4) (m % 4)).toNat))))) ∧
    (legal → fld s.h.csr.mstatus 13 2 ≠ 0 → n ≤ 64 → groupFits vs1 n 32 = true →
      let m := maxMag ((rangeFrom 0 n).map (fp32Elem s vs1))
      exec (.vamax vd vs1) s = .next (retired (writeF s .s vd (if FFmt.fp32.infCode < m then FFmt.fp32.nanCode else m)))) ∧
    (∀ (bytes : List Byte) (r : Reg), (∀ k < (bytes.length + 63) / 64, r ≠ regPlus vd k) → rv (setGroup s vd bytes) r = rv s r)

/-- A vector load or store whose operands are legal performs its elements in order, or none where there is none past `vstart`; one that stops at
an element traps there with `vstart` naming it, the elements below it performed and no other. A load changes no byte of memory; an element
of SRAM is loaded from and stored to the bytes at its address, and no others (R19, R112, R209, R210). A load counts once in LD, unless it has
stopped at its first element (R112, R130). A store of one field changes, of
DEVICE lines for which the tile's data L1 has room, SRAM and HOST memory, no byte but those that its translation gives. A store counts
once in ST when it writes bytes outside DEVICE (R130). -/
def Obligations.VectorMemory : Prop :=
  (∀ (s t : State) (v : VMem) (a : VAccess), resolve s v true = .ok a →
    (a.evl ≤ s.h.csr.vstart → exec (.vectorLoad v) s = .next (retired (endVec s))) ∧
    (s.h.csr.vstart < a.evl → meetsLent s v a (accessElems s a) = false → s.h.ldOut < 255 →
      (runElems (fun t i => loadFields t v a s i) (accessElems s a) s = .ok t →
        ∃ w, exec (.vectorLoad v) s = .next w ∧ w = retired (endVec (loadPolicy (raiseLoad t) v a (vcfg s))) ∧ w.h.ldOut = s.h.ldOut + 1 ∧
          w.mem = s.mem ∧ w.h.x = s.h.x ∧ w.h.f = s.h.f ∧ w.caps = s.caps ∧ w.h.csr.vstart = 0 ∧ w.h.pc = s.h.pc + 4) ∧
      (∀ p c tv, runElems (fun t i => loadFields t v a s i) (accessElems s a) s = .error p → p.exc = .trap c tv → v.mop ≠ .ff →
        ∃ w, exec (.vectorLoad v) s = .next w ∧ w.h.csr.vstart = p.elem ∧ w.mem = s.mem ∧ w.h.x = s.h.x ∧ w.h.v = p.state.h.v ∧
          w.h.ldOut = (if (accessElems s a).head? = some p.elem then s.h.ldOut else s.h.ldOut + 1)))) ∧
  (∀ (s t : State) (v : VMem) (a : VAccess), resolve s v false = .ok a →
    let n := s.h.stOut.length
    (accessElems s a = [] → exec (.vectorStore v) s = .next (retired (endVec s))) ∧
    (accessElems s a ≠ [] → meetsLent s v a (accessElems s a) = false →
      n < 255 ∨ (∀ i ∈ accessElems s a, storesSlow s v a i = false) →
      (runElems (fun t i => storeFields t v a n i) (accessElems s a) s = .ok t → exec (.vectorStore v) s = .next (retired (endVec t))) ∧
      (∀ p c tv, runElems (fun t i => storeFields t v a n i) (accessElems s a) s = .error p → p.exc = .trap c tv →
        ∃ w, exec (.vectorStore v) s = .next w ∧ w.h.csr.vstart = p.elem ∧ w.mem = p.state.mem ∧ w.h.x = p.state.h.x ∧
          w.h.v = p.state.h.v))) ∧
  (∀ (s old : State) (v : VMem) (a : VAccess) (i : Nat), a.nf = 1 →
    let va := elemAddr old v a i 0
    inTileAperture va = true ∨ inClusterAperture va = true → va % 4096 + a.w ≤ 4096 → checkElem s va a.w false = .ok () →
    (∀ k < a.w, tget (tileOf s (myTile s)).l1d (va + k) = none) →
    loadFields s v a old i = .ok (setElem s v.vd a.w i (leNat (Memory.getN s.mem va a.w)))) ∧
  (∀ (s : State) (v : VMem) (a : VAccess) (i : Nat), a.nf = 1 → Memory.wf s.mem = true →
    let va := elemAddr s v a i 0
    inTileAperture va = true ∨ inClusterAperture va = true → va % 4096 + a.w ≤ 4096 → 0 < a.w → checkElem s va a.w true = .ok () →
    ∃ t, storeFields s v a s.h.stOut.length i = .ok t ∧ Memory.getN t.mem va a.w = leBytes a.w (vElem s v.vd a.w i) ∧
      (∀ b, b < va ∨ va + a.w ≤ b → Memory.get t.mem b = Memory.get s.mem b) ∧
      t.h.stOut = s.h.stOut ++ [{ va := va, lines := [], hosts := [], drop := false }] ∧ t.h.x = s.h.x ∧ t.h.f = s.h.f ∧ t.h.v = s.h.v) ∧
  (∀ (s t u : State) (v : VMem) (a : VAccess) (n i b tile q : Nat) (pas : List Nat), Memory.wf s.mem = true → risesFrom 0 s.tiles = true →
    a.nf = 1 → storeFields s v a n i = .ok t → translateRange s .store (elemAddr s v a i 0) a.w = .ok (pas, u) → b ∉ pas →
    (∀ p ∈ pas, isRemotePa p = false ∧ isPoolPa p = false) →
    (uniq ((tileOf s (myTile s)).l1d.map fun c => lineOf c.1)).length + (uniq (pas.map lineOf)).length ≤ 512 →
    readPas t tile q [b] = readPas s tile q [b] ∧ t.h.x = s.h.x ∧ t.h.f = s.h.f ∧ t.h.v = s.h.v)

/-! Event accumulators -/

/-- The event instructions. ECFG writes a profile from a well-formed record and traps with ENGINE at the record's address on another, or at
the profile's number where an accumulator of another world is bound to it; EBIND binds or unbinds a range and traps with ENGINE on an
ill-formed operand; EPOST puts a posted event on its way, to this device or a peer, and returns the status of one that it waits for; one that
reaches no cluster in service counts a fault when it is posted and answers FAULT when it returns; ERECV
pops the oldest fire of the hart's world, or waits; ETICK ends ticks or shortens a refractory count; ERD and EWR read and write one field
of an accumulator of the hart's world (R242, R254 to R259). Of the model's choosing: the readings of log 53. -/
def Obligations.EventInstructions : Prop :=
  (∀ (s t u : State) (p : Fin 16) (rs1 : Reg) (r : List Byte),
    let va := (rx s rs1).toNat
    let c := myCluster s
    let new := profileOf t r
    let put (u : State) : State := updAspen u c fun a => { a with profiles := tput a.profiles p.val new }
    readHeld s va 64 = .ok (r, t) →
    (profileOk va r = false → exec (.ecfg p rs1) s = .next (takeTrap s 28 (BitVec.ofNat 64 va))) ∧
    (profileOk va r = true → (∃ x ∈ (aspenAt t c).accs, x.2.bound = true ∧ x.2.prof = p.val ∧ x.2.world ≠ myWorld t) →
      exec (.ecfg p rs1) s = .next (takeTrap s 28 (BitVec.ofNat 64 p.val))) ∧
    (profileOk va r = true → (∀ x ∈ (aspenAt t c).accs, x.2.bound = true → x.2.prof = p.val → x.2.world = myWorld t) →
      (∀ k v, new.act = 1 → fanUnit t new.arg = .error (.trap k v) → exec (.ecfg p rs1) s = .next (takeTrap s k v)) ∧
      ((t.h.cmds.filter (·.queued)).length < 32 → (∀ f ∈ (aspenAt t c).fires, f.prof ≠ p.val) →
      returnProfileUnit t c p.val (profAt (aspenAt t c) p.val) = some u →
      (new.act ≠ 1 → exec (.ecfg p rs1) s = .next (retired (put u))) ∧
      (∀ g, new.act = 1 → fanUnit t new.arg = .ok g → exec (.ecfg p rs1) s = .next (retired (modHoldings (put u) fun l => takeUnits l g 1)))))) ∧
  (∀ (s : State) (rs1 rs2 : Reg),
    let v := rx s rs1
    let w := rx s rs2
    let first := fld v 0 16
    let n := fld v 32 16 + 1
    let own : Prop := ∀ x ∈ (aspenAt s (myCluster s)).accs, first ≤ x.1 → x.1 < first + n → x.2.bound = true → x.2.world = myWorld s
    let ok : Prop := v &&& 0xFFFF0000FFFF0000#64 = 0 ∧ w.toNat < 32 ∧ first + n ≤ 65536 ∧ own
    (ok → exec (.ebind rs1 rs2) s = .next (retired (updAspen s (myCluster s) fun a => (rangeFrom first n).foldl (fun a k =>
      if bitAt w 4 then putAcc a k { accAt a k with bound := false } else bindAcc a (myWorld s) (fld w 0 4) k) a))) ∧
    (¬ ok → exec (.ebind rs1 rs2) s = .next (takeTrap s 28 v))) ∧
  (∀ (a : Aspen) (w p n m : Nat), accAt (bindAcc a w p n) m =
    if m = n then { Acc.unbound with bound := true, world := w, prof := p, state := (profAt a p).rst, retired := (accAt a n).retired }
    else accAt a m) ∧
  (∀ (s : State) (rd rs1 rs2 : Reg),
    let v := rx s rs1
    let dev := fld v 24 8
    let port := routePort s dev
    let e : Event :=
      { cluster := fld v 18 6, acc := fld v 0 16, weight := BitVec.ofNat 32 (rx s rs2).toNat, delay := fld v 32 16,
        world := myWorld s, poster := some (s.device, s.h.loc), home := some (myCluster s), replyTo := none }
    let bad : Prop := fld v 48 16 ≠ 0 ∨ fld v 16 2 ≠ 0 ∨ 1023 < fld v 32 16
    let away : State := sendOut s (some e.world) (.event port e dev)
    let failed (s : State) : State := if rd = 0 then countFault s (myCluster s) else wx s rd (evFault 3)
    (∀ k, s.h.evWait = some (k, none) → exec (.epost rd rs1 rs2) s = .next (stalled (holdOff s))) ∧
    (∀ k st, s.h.evWait = some (k, some st) →
      exec (.epost rd rs1 rs2) s = .next (retired (wx { s with h := { s.h with evWait := none } } rd st))) ∧
    (s.h.evWait = none →
      (bad → exec (.epost rd rs1 rs2) s = .next (takeTrap s 28 v)) ∧
      (¬ bad → dev = s.device → clusterWaits s e.cluster = false →
        (clusterReady s e.cluster = false → exec (.epost rd rs1 rs2) s = .next (retired (failed s))) ∧
        (clusterReady s e.cluster = true → rd = 0 → e.delay = 0 ∨ (aspenAt s e.cluster).wheel.length < 65536 →
          exec (.epost rd rs1 rs2) s = .next (retired (enqueue { s with events := s.events ++ [e] } (.eventDeliver 0)))) ∧
        (∀ t st, clusterReady s e.cluster = true → rd ≠ 0 → eventsOut s e.cluster = false →
          arriveEvent s e.cluster e.acc e.weight e.world ((aspenAt s e.cluster).tick + e.delay) false = some (t, st) →
          exec (.epost rd rs1 rs2) s = .next (retired (wx t rd st)))) ∧
      (¬ bad → dev ≠ s.device →
        ((portAt s port).carries = false → exec (.epost rd rs1 rs2) s = .next (retired (failed s))) ∧
        ((portAt s port).carries = true →
          (rd = 0 → exec (.epost rd rs1 rs2) s = .next (retired { away with postedOut := away.postedOut ++ [(port, myCluster s)] })) ∧
          (rd ≠ 0 → exec (.epost rd rs1 rs2) s = .next (stalled (holdOff { away with h := { away.h with evWait := some (port, none) } }))))))) ∧
  (∀ (s t : State) (rd : Reg) (r : Word),
    (popFire s = some (r, t) → exec (.erecv rd) s = .next (retired (wx t rd r)) ∧ exec (.erecvNb rd) s = .next (retired (wx t rd r))) ∧
    (popFire s = none → exec (.erecv rd) s = .next (stalled s) ∧
      exec (.erecvNb rd) s = .next (retired (wx s rd 0xFFFFFFFFFFFFFFFF#64)))) ∧
  (∀ (s : State) (rd rs1 rs2 : Reg),
    let v := rx s rs1
    let w := rx s rs2
    let c := fld v 18 6
    let n := signed 16 (fld v 48 16)
    (fld v 32 16 ≠ 0 ∨ fld v 16 2 ≠ 0 ∨ fld v 24 8 ≠ s.device → exec (.etick rs1) s = .next (takeTrap s 28 v)) ∧
    (fld v 32 16 = 0 → fld v 16 2 = 0 → fld v 24 8 = s.device → clusterWaits s c = false →
      (0 < n → (aspenAt s c).period ≠ 0 ∨ 1024 < n → exec (.etick rs1) s = .next (takeTrap s 28 v)) ∧
      (eventsOut s c = false → 0 ≤ n → n = 0 ∨ (aspenAt s c).period = 0 ∧ n ≤ 1024 →
        exec (.etick rs1) s = .next (retired (endTicks c n.toNat s))) ∧
      (∀ x, eventsOut s c = false → n < 0 → ownAcc s v = .ok x → exec (.etick rs1) s =
        .next (retired (updAspen s c fun a => putAcc a (fld v 0 16) { x with refr := ((x.refr : Int) + n).toNat })))) ∧
    (∀ k x, accField s v = .error (.trap k x) →
      exec (.erd rd rs1) s = .next (takeTrap s k x) ∧ exec (.ewr rs1 rs2) s = .next (takeTrap s k x)) ∧
    (∀ x, eventsOut s c = false → accField s v = .ok x →
      exec (.erd rd rs1) s = .next (retired (wx s rd (match fld v 32 2 with
        | 0 => BitVec.ofInt 64 x.state
        | 1 => BitVec.ofNat 64 x.age
        | 2 => BitVec.ofNat 64 x.refr
        | _ => BitVec.ofNat 64 ((aspenAt s c).tick % 2 ^ 32 * 2 ^ 32 + boolNat x.bound * 2 ^ 20 + x.prof * 2 ^ 16 + x.cnt)))) ∧
      exec (.ewr rs1 rs2) s = .next (retired (updAspen s c fun a => putAcc a (fld v 0 16) (match fld v 32 2 with
        | 0 => { x with state := signed 32 (fld w 0 32) }
        | 1 => { x with age := fld w 0 16 }
        | 2 => { x with refr := fld w 0 16 }
        | _ => { x with cnt := fld w 0 16 })))))

/-- Delivery, evaluation and fire. A delivered event counts and adds its weight to the sum of a bound accumulator of its world that is not
refractory, and is refused by one that is; a retired, an unbound and a foreign accumulator give a FAULT with its reason, which a posted event
counts; at the end of a tick the state leaks and takes the sum, and an accumulator below its threshold
and age limit goes on; a fire resets the accumulator and appends one record (R243, R247 to R249, R256). -/
def Obligations.DeliveryAndEvaluation : Prop :=
  ∀ (w : Seat) (a : Aspen) (n : Nat),
    let x := accAt a n
    let p := profAt a x.prof
    (∀ (weight : BitVec 32) (world : Nat) (posted : Bool),
      let bad (reason : Nat) : Aspen × Word := (if posted then { a with faults := bump a.faults } else a, BitVec.ofNat 64 (2 + 16 * reason))
      let out := deliver w a n weight world posted
      (x.retired = true → out = bad 5) ∧ (x.retired = false → x.bound = false → out = bad 1) ∧
      (x.retired = false → x.bound = true → x.world ≠ world → out = bad 2) ∧
      (x.retired = false → x.bound = true → x.world = world → 0 < x.refr →
        out = ({ a with refused := bump a.refused }, BitVec.ofNat 64 (1 + x.cnt * 2 ^ 16))) ∧
      (x.retired = false → x.bound = true → x.world = world → x.refr = 0 → p.eager = false →
        out.2 = BitVec.ofNat 64 (x.cnt * 2 ^ 16) ∧ ∀ m, accAt out.1 m =
          if m = n then { x with cnt := min (x.cnt + 1) 65535, sum := satTo 48 (x.sum + eventWeight p weight) } else accAt a m)) ∧
    (x.bound = true →
      (let y := satTo 32 (leakOf p x.state + x.sum)
       let age := if 0 < x.cnt then min (x.age + 1) 65535 else x.age
       x.refr = 0 → y < p.thr → p.agel = 0 ∨ age < p.agel ∨ y ≤ 0 →
        ∀ m, accAt (evaluate w a n) m = if m = n then { x with state := y, age := age, sum := 0, fired := false } else accAt a m) ∧
      (x.fired = false → 0 < x.refr → ∀ m, accAt (evaluate w a n) m =
        if m = n then { x with state := leakOf p x.state, refr := x.refr - 1, sum := 0 } else accAt a m) ∧
      (∀ cause, (fire w a n cause).fires.length = a.fires.length + 1 ∧ (fire w a n cause).firedCnt = (a.firedCnt + 1) % 2 ^ 48 ∧
        ∀ m, accAt (fire w a n cause) m =
          if m = n then { x with state := p.rst, sum := 0, cnt := 0, age := 0, refr := p.rfr, fired := true } else accAt a m))

/-- The events of an Aspen: a boundary that is due ends the tick, and one that is not waits; an event that arrives at a cluster in service
is delivered or waits in the wheel, and one for a cluster out of service is lost, counted in its poster's cluster; an event of the wheel
that is due is delivered; the oldest fire performs its action; an uncorrectable error retires an accumulator or drops an event; an event
or a reply crosses a link that carries (R246, R247, R250 to R252, R256, R261, R365). Of the model's choosing: the readings of log 53, and that
an event of the wheel counts its fault (log 104). -/
def Obligations.AspenEvents : Prop :=
  ∀ (s : State) (cl : Fin 64),
    let c := cl.val
    let a := aspenAt s c
    let answer (t : State) (e : Event) (st : Word) : State :=
      match e.replyTo with
      | some p => sendOut t (some e.world) (.eventReply p st)
      | none => t
    (∀ b, a.boundary = some b →
      (b ≤ s.cycle → exec (.tickBoundary cl) s = .next (occur (watchTick (aspenStep s c (endTick (seat s c) a)) c))) ∧
      (s.cycle < b → exec (.tickBoundary cl) s = .next { s with pending := s.pending ++ [.tickBoundary cl], note := .blocked })) ∧
    (∀ k e t st, (arrivable s)[k]? = some e → clusterWaits s e.cluster = false → clusterReady s e.cluster = true →
      arriveEvent { s with events := s.events.erase e } e.cluster e.acc e.weight e.world ((aspenAt s e.cluster).tick + e.delay) e.replyTo.isNone = some (t, st) →
      exec (.eventDeliver k) s = .next (occur (answer t e st))) ∧
    (∀ k e, (arrivable s)[k]? = some e → clusterWaits s e.cluster = false → clusterReady s e.cluster = false →
      exec (.eventDeliver k) s = .next (occur (answer (match e.home, e.replyTo with
        | some h, none => countFault { s with events := s.events.erase e } h
        | _, _ => { s with events := s.events.erase e }) e (evFault 3)))) ∧
    (∀ k e, (dueNow a)[k]? = some e → exec (.wheelDeliver cl k) s =
      .next (occur (aspenStep s c (deliver (seat s c) { a with wheel := a.wheel.erase e } e.acc e.weight e.world true).1))) ∧
    (∀ f r, a.fires = f :: r →
      (∀ t, fireAct (updAspen s c fun a => { a with fires := r }) c f = some t → exec (.fireAction cl) s = .next (occur t)) ∧
      ((profAt a f.prof).act = 0 → risesFrom 0 s.clusters = true → ∃ t, exec (.fireAction cl) s = .next t ∧ aspenAt t c =
        { a with
          fires := r
          fireQ := if 4096 ≤ a.fireQ.length then a.fireQ else a.fireQ ++ [(f.record, f.world)]
          lost := if 4096 ≤ a.fireQ.length then (a.lost + 1) % 2 ^ 48 else a.lost })) ∧
    (∀ n < 65536, exec (.accumulatorEcc (.acc c n)) s = .next (occur (updAspen s c fun a => putAcc a n { accAt a n with retired := true }))) ∧
    (∀ k < a.wheel.length, exec (.accumulatorEcc (.wheel c k)) s = .next (occur (updAspen s c fun a =>
      if k < a.wheel.length then { a with wheel := removeAt a.wheel k, faults := (a.faults + 1) % 2 ^ 48 } else a))) ∧
    (∀ (port : Fin 16) (poster : Option (BitVec 8 × BitVec 32)) world addr delay weight returning w, (portAt s port.val).carries = true →
      tget (portAt s port.val).worldMap world.val = some w → addr.toNat / 2 ^ 24 = s.device → addr.toNat / 2 ^ 16 % 4 = 0 → delay ≤ 1023 →
      exec (.evtMessage port (.event poster world addr delay weight returning)) s = .next (occur (enqueue { s with events := s.events ++
        [{ cluster := addr.toNat / 2 ^ 18 % 64, acc := addr.toNat % 2 ^ 16, weight := weight, delay := delay, world := w,
           poster := poster.map fun p => (p.1.toNat, p.2.toNat), home := none,
           replyTo := if returning then some port.val else none }] } (.eventDeliver 0)))) ∧
    (∀ (port : Fin 16) loc st, (portAt s port.val).carries = true → exec (.evtMessage port (.reply loc st)) s =
      .next (occur (updHart s loc.toNat fun h => if h.evWait = some (port.val, none) then { h with evWait := some (port.val, some st) } else h)))

/-! Queues and kernels -/

/-- QPUSH and QPUSH.W append an element to a mapped queue with room, at its end and with its key on a priority queue, and on a launch queue
make a launch of its template; a full queue gives FULL, or puts QPUSH.W to sleep until its period is over, which gives TIMEOUT. QPOP and
QPOP.NB take the oldest element of a FIFO, or one of the W of least key of a priority queue, and write the payload and `qkey` of one
without a capability; an empty queue stalls QPOP and gives QPOP.NB 0 with bit 63 of `qkey`. Each waits for a queue that is not mapped. A
queue that is not there traps with ENGINE, one of another world with CAPABILITY (R294, R296 to R298, R300 to R302). Of the model's choosing:
the discards and the timeout of log 42. -/
def Obligations.QueueInstructions : Prop :=
  (∀ (s : State) (rd rs1 rs2 rs3 : Reg),
    let v := rx s rs1
    let n := v.toNat
    let loc := s.h.loc
    let e := pushElem (rx s rs2) (rx s rs3)
    let all : List Instr := [.qpush rd rs1 rs2 rs3, .qpushW rd rs1 rs2 rs3, .qpop rd rs1, .qpopNb rd rs1]
    (65536 ≤ n ∨ queueAt s n = none → ∀ i ∈ all, exec i s = .next (takeTrap s 28 v)) ∧
    (∀ q, n < 65536 → queueAt s n = some q → q.world ≠ myWorld s → ∀ i ∈ all, exec i s = .next (takeTrap s 25 v)) ∧
    (∀ q, n < 65536 → queueAt s n = some q → q.world = myWorld s → q.qkind ≠ 2 → loc ∉ q.granted → (∀ x ∈ q.served, x.1 ≠ loc) →
      q.mapped = false ∨ queueWaits s n = true →
      ∀ i ∈ all, exec i s = .next (stalled (queueWork (updQueue s n fun q =>
        { q with waits := if loc ∈ q.waits then q.waits else q.waits ++ [loc] }) n))) ∧
    (∀ q, n < 65536 → queueAt s n = some q → q.world = myWorld s → q.qkind ≠ 2 ∨ q.tmpl ≠ 0 → loc ∈ q.granted →
      exec (.qpush rd rs1 rs2 rs3) s = .next (retired (wx (withdraw s loc) rd 0)) ∧
      exec (.qpushW rd rs1 rs2 rs3) s = .next (retired (wx (withdraw s loc) rd 0))) ∧
    (∀ q p, n < 65536 → queueAt s n = some q → q.world = myWorld s → q.qkind ≠ 2 ∨ q.tmpl ≠ 0 → loc ∉ q.granted → q.mapped = true →
      queueWaits s n = false →
      let g := grantPush (goOn s n) n
      queueAt g n = some p → loc ∉ p.granted → (∀ x ∈ p.pushers, x.1 ≠ loc) →
      (∀ u, pushWord g n p e = some u →
        exec (.qpush rd rs1 rs2 rs3) s = .next (retired (wx (withdraw u loc) rd 0)) ∧
        (p.pushers = [] → exec (.qpushW rd rs1 rs2 rs3) s = .next (retired (wx (withdraw u loc) rd 0)))) ∧
      (pushWord g n p e = none → exec (.qpush rd rs1 rs2 rs3) s = .next (retired (wx g rd 1))) ∧
      (pushWord g n p e = none ∨ p.pushers ≠ [] →
        (g.h.timedOut = true → exec (.qpushW rd rs1 rs2 rs3) s = .next (retired (wx (withdraw g loc) rd 2))) ∧
        (g.h.timedOut = false → exec (.qpushW rd rs1 rs2 rs3) s = .next (stalled (enqueue
          (modH (updQueue g n fun q => { q with pushers := q.pushers ++ [(loc, e)] }) fun h => { h with sleepFrom := g.cycle })
          .qpushWTimeout)))))) ∧
  (∀ (s : State) (n : Nat) (q : Queue) (e : QElem), queueAt s n = some q →
    (queueRoomy s n q = false → pushWord s n q e = none) ∧
    (queueRoomy s n q = true → q.qkind ≠ 2 → q.mapped = true → q.poppers = [] → ∃ u, pushWord s n q e = some u ∧
      queueAt u n = some { q with
        elems := q.elems ++ [{ e with pos := q.pushes, key := if q.qkind = 1 then e.key else 0 }]
        pushes := q.pushes + 1 }) ∧
    (∀ slot d, queueRoomy s n q = true → q.qkind = 2 → queueRefuses s q = false → nextSlot s = some slot → template s q = some d →
      pushWord s n q e = some (addLaunch (noteTemplate s q) n slot d e.payload 2 q.ctx (.template n) none))) ∧
  (∀ (s : State) (rd rs1 : Reg) (q : Queue),
    let n := (rx s rs1).toNat
    let rest := q.waits.filter (· ≠ s.h.loc)
    n < 65536 → queueAt s n = some q → q.world = myWorld s → q.qkind ≠ 2 → q.mapped = true → queueWaits s n = false →
    q.poppers = [] → q.pushers = [] → (∀ e ∈ q.served, e.1 ≠ s.h.loc) →
    (∀ k e, (chooseElem s q).1 = some (k, e) → e.cap = none →
      (q.qkind = 0 → k = 0 ∧ q.elems.head? = some e) ∧ (q.qkind = 1 → 0 < q.win → q.elems[k]? = some e ∧ keyRank q.elems k e < q.win) ∧
      ∀ p ∈ [Instr.qpop rd rs1, .qpopNb rd rs1], ∃ t, exec p s = .next t ∧
        queueAt t n = some { q with elems := removeAt q.elems k, waits := rest } ∧
        (rd ≠ 0 → rx t rd = e.payload) ∧ (∀ r, r ≠ rd → rx t r = rx s r) ∧ t.h.csr.qkey = BitVec.ofNat 64 e.key.toNat ∧
        t.h.holdings = s.h.holdings ∧ t.mem = s.mem ∧ t.h.pc = s.h.pc + 4) ∧
    (q.elems = [] →
      (∃ t, exec (.qpop rd rs1) s = .next t ∧ t.note = .stalled ∧ t.h.pc = s.h.pc ∧ t.h.x = s.h.x ∧
        queueAt t n = some { q with poppers := [s.h.loc], waits := rest }) ∧
      (∃ t, exec (.qpopNb rd rs1) s = .next t ∧ (rd ≠ 0 → rx t rd = 0) ∧ t.h.csr.qkey = 0x8000000000000000#64 ∧
        queueAt t n = some { q with waits := rest } ∧ t.h.pc = s.h.pc + 4)))

/-- QUEUE_ASSIGN installs an assignment that the rule admits and empties the queue, changes nothing on another, and waits while a kernel of the
queue waits for its tiles; a rotation falls once in 4,096 cycles, and one in which no queue waits unmaps none; a QPUSH.W that has slept its
period times out; an uncorrectable error removes one element (R294, R296, R300, R303). Of the model's choosing: how rotation and assignment
wait (log 42, log 43). -/
def Obligations.QueueEvents : Prop :=
  ∀ (s : State) (n : Nat),
    (∀ r c, s.larch = true → ctxOf s r.ctx.val = some c →
      let ok : Prop := c.life = .installed ∧ n < 65536 ∧ 4 ≤ r.cap ∧ r.cap ≤ 16 ∧ r.win ≤ 64 ∧ tmplOk s r.ctx.val (queueOf r c.world) = true
      (¬ ok → exec (.queueAssign n r) s = .next (occur s)) ∧
      (ok → (∀ k ∈ s.kernels, k.2.queue ≠ n) → ∃ t, exec (.queueAssign n r) s = .next t ∧ queueAt t n = some (queueOf r c.world)) ∧
      (ok → (∃ k ∈ s.kernels, k.2.queue = n ∧ (k.2.state = .queued ∨ k.2.state = .placing)) →
        exec (.queueAssign n r) s = .next { s with pending := s.pending ++ [.queueAssign n r], note := .blocked })) ∧
    (s.cycle / 4096 ≤ s.rotations → exec .slotRotation s = .next { s with pending := s.pending ++ [.slotRotation], note := .blocked }) ∧
    (∀ q, s.rotations < s.cycle / 4096 → queueAt s n = some q → (∀ p ∈ s.queues, p.2.mapped = true ∨ p.2.since = none) →
      ∃ t, exec .slotRotation s = .next t ∧ queueAt t n = some (if q.mapped then { q with age := q.age + 1 } else q)) ∧
    (sleptOut s s.h = true → s.h.live = true → exec .qpushWTimeout s = .next (occur { s with h := { s.h with timedOut := true } })) ∧
    (∀ q k e, queueAt s n = some q → q.elems[k]? = some e → e.cap = none → q.pushers = [] →
      ∃ t, exec (.queueElementEcc n k) s = .next t ∧ queueAt t n = some { q with elems := removeAt q.elems k } ∧
        tgetD t.queueErrs (queueDie n) 0 = tgetD s.queueErrs (queueDie n) 0 + 1)

/-- KLAUNCH of a descriptor that passes the checks makes a kernel QUEUED in a free slot and writes its ticket; a full queue gives 1 and no free
slot 2; a descriptor that fails a check traps as that check says. KJOIN writes the report of a child that has ended and frees its slot, waits
for one that has not, and traps with ENGINE on any other value. KEXIT abandons a suspended MMA, waits for the counters and ends the hart
(R305, R307, R308, R314, R315, R317). Of the model's choosing: the order of the checks of a launch (log 44). -/
def Obligations.KernelInstructions : Prop :=
  ∀ (s : State) (rd rs1 rs2 : Reg),
    let va := rx s rs1
    let arg := rx s rs2
    let kind := if arg = 0 then 0 else 1
    (∀ o r, readHeld s va.toNat 64 = .ok (r, o) →
      let d := descOf r
      let n := dLq d
      let b := hartLaunch o rd
      let t := if va.toNat % 8 ≠ 0 ∨ descOk d = false ∨ launchWaits o va d = true then o else noteDecls o b.ctx d
      (va.toNat % 8 ≠ 0 ∨ launchWaits t va d = false ∧ launchable t b d = false → exec (.klaunch rd rs1 rs2) s = .next (takeTrap t 28 va)) ∧
      (launchWaits t va d = true → exec (.klaunch rd rs1 rs2) s = .next (stalled (holdOff t))) ∧
      (∀ c v, launchCheck t b va d arg kind = .error (.trap c v) → exec (.klaunch rd rs1 rs2) s = .next (takeTrap t c v)) ∧
      (∀ e c v, launchCheck t b va d arg kind = .error (.trapAt e c v) → exec (.klaunch rd rs1 rs2) s = .next (takeTrap e c v)) ∧
      (∀ e own q p, launchCheck t b va d arg kind = .ok (e, own) → queueAt e n = some q → q.mapped = true → queueWaits e n = false →
        let g := grantPush (goOn e n) n
        queueAt g n = some p →
        (queueRefuses g p = true ∨ queueRoomy g n p = false → exec (.klaunch rd rs1 rs2) s = .next (retired (wx g rd 1))) ∧
        (queueRefuses g p = false → queueRoomy g n p = true →
          (nextSlot g = none → exec (.klaunch rd rs1 rs2) s = .next (retired (wx g rd 2))) ∧
          (∀ slot, nextSlot g = some slot → 255 < g.h.sdOut + own.length → exec (.klaunch rd rs1 rs2) s = .next (stalled (holdOff g))) ∧
          (∀ slot u, nextSlot g = some slot → g.h.sdOut + own.length ≤ 255 →
            releaseAll g ((if kind = 1 then [hIndex arg] else []) ++ own) = .ok u →
            ∃ w k, exec (.klaunch rd rs1 rs2) s = .next w ∧ tget w.kernels slot = some k ∧ k.state = .queued ∧ k.desc = d ∧ k.arg = arg ∧
              k.argKind = kind ∧ k.queue = n ∧ k.placed = 0 ∧ k.ended = 0 ∧ k.sgen = tgetD w.sgens slot 0 ∧
              (rd ≠ 0 → rx w rd = ticketOf slot k.sgen) ∧ w.h.pc = u.h.pc + 4)))) ∧
    (joinable s va = none → exec (.kjoin rd rs1) s = .next (takeTrap s 28 va)) ∧
    (∀ slot k, joinable s va = some (slot, k) →
      (k.reported = true → exec (.kjoin rd rs1) s = .next (retired (wx (freeSlot s slot) rd (reportOf k)))) ∧
      (k.reported = false → exec (.kjoin rd rs1) s = .next (stalled s))) ∧
    (let u := if bitAt s.h.csr.mprog 63 then abandonMma s s.h.loc else s
     (cpCount u.h = 0 → mxCount u.h = 0 → u.h.dpOut = 0 → u.h.sdOut = 0 →
       exec .kexit s = .next (occur (checkEnd (endHart u s.h.loc true) (slotOf s.h.loc)))) ∧
     (cpCount u.h ≠ 0 ∨ mxCount u.h ≠ 0 ∨ u.h.dpOut ≠ 0 ∨ u.h.sdOut ≠ 0 → exec .kexit s = .next (stalled u)))

/-- LAUNCH_PLACEMENT places the kernels of a queue that wait, and waits again while one is left; a hart starts at the entry with the argument,
its index and the number of harts in its registers, in U-mode. KERNEL_DONE ends a kernel whose sends have committed and whose windows have
drained; PREEMPT and RESUME take harts off their tiles and bring them back; TAKE_INTERRUPT enters the handler of an admitted interrupt; an
uncorrectable error in a save area faults its hart (R309, R313, R314, R316, R326, R328, R336). Of the model's choosing: when placement
begins and how kernels return (log 46), and that a free value says whose save area the error meets (log 47). -/
def Obligations.Scheduling : Prop :=
  ∀ (s : State) (slot loc n : Nat),
    (∀ q t, queueAt s n = some q →
      let placed := (waitingKernels s n).foldl (fun (r : State × Bool) k => let (t, d) := tryPlace r.1 k; (t, r.2 && d)) (s, true)
      (placed = (t, true) → q.launches = [] ∨ q.mapped = true → exec (.launchPlacement n) s = .next (occur t)) ∧
      (placed = (t, false) → q.mapped = true →
        exec (.launchPlacement n) s = .next { t with pending := t.pending ++ [.launchPlacement n], note := .blocked })) ∧
    (∀ tile idx k, tget s.kernels slot = some k → 0 < idx → idx < 2 ^ 20 → ∃ t h, startOn s slot (slot * 2 ^ 20 + idx, tile) = (t, true) ∧ h ∈ t.others ∧
      h.loc = slot * 2 ^ 20 + idx ∧ h.tile = some tile ∧ h.ctx = k.ctx ∧ h.mode = .u ∧ h.holdings = [] ∧ h.x.get 10 = k.arg ∧
      h.x.get 11 = BitVec.ofNat 64 idx ∧ h.x.get 12 = BitVec.ofNat 64 (dHarts k.desc) ∧ h.x.get 14 = BitVec.ofNat 64 k.argKind ∧ h.x.get 2 = 0 ∧
      ∀ c, capAt s (hIndex (dw k.desc 0)) = some c → h.pc = BitVec.ofNat 64 (c.base + dEntry k.desc)) ∧
    (∀ k, tget s.kernels slot = some k → k.state = .exiting ∨ k.state = .faulted → k.reported = false →
      let again : State := { s with pending := s.pending ++ [.kernelDone slot], note := .blocked }
      (kernelSends s slot = true ∨ reclaimBusy s slot = true ∨ returnArgs s slot k = none → exec (.kernelDone slot) s = .next again) ∧
      (∀ u, kernelSends s slot = false → reclaimBusy s slot = false → returnArgs s slot k = some u →
        exec (.kernelDone slot) s = .next (occur (reportEnd (orphanChildren (updKernel (endChans (returnCode u k) slot) slot fun k =>
          { k with state := if k.state = .exiting then .done else k.state, codeHeld := false }) slot k) slot)))) ∧
    (∀ h w t, findHart s loc = some h →
      let hs := (companions s h).filter (·.tile.isSome)
      let u := hs.foldl flushHart s
      let off (t : State) (m : Hart) : State := saveImage (updHart (withdraw t m.loc) m.loc fun h => leaveTile (voidClosing t h)) m.loc
      hs ≠ [] → (∀ m ∈ hs, midInstruction s m = false) →
      ((∃ m ∈ hs, ∃ o, findHart u m.loc = some o ∧ countsClear o = false) →
        exec (.preempt loc) s = .next { u with pending := u.pending ++ [.preempt loc], note := .blocked }) ∧
      ((∀ m ∈ hs, ∀ o, findHart u m.loc = some o → countsClear o = true) → suspendDirect hs u = some w →
        emptyTiles (hs.map Hart.place) w = (t, true) →
        exec (.preempt loc) s = .next (occur (enqueue (checkPreempted
          (hs.foldl off (if s.h.live then (switchTo t s.h.loc).getD t else t)) (slotOf loc)) (.resume h.loc h.place))))) ∧
    (∀ tile h k l, findHart s loc = some h → tget s.kernels (slotOf loc) = some k → h.tile = none → k.running = true →
      outranked s (slotOf loc) k = false →
      unitsAgain s k.desc ((dieOrder k.homeDie).filter fun d => k.dieChans.isEmpty || k.dieChans.any fun n => n / 64 == d) (loc, tile)
        (unitsOfHarts (dGang k.desc) ((companions s h).filter (·.tile.isNone))) [] = some l →
      exec (.resume loc tile) s = .next (occur (updKernel (l.foldl (placeAgain k.desc) s) (slotOf loc) fun k =>
        { k with state := if k.state = .preempted then .running else k.state }))) ∧
    (∀ h : Hart, (leaveTile h).tile = none ∧ (leaveTile h).resv = none ∧ (leaveTile h).x = h.x ∧ (leaveTile h).f = h.f ∧
      (leaveTile h).v = h.v ∧ (leaveTile h).csr = (endWfi h).csr ∧ (leaveTile h).holdings = h.holdings) ∧
    (∀ t u, s.h.live = true → s.h.tile.isSome = true → switchTo s (gangLead s) = some u → (∀ h ∈ gangHarts u u.h, h.mid = false) →
      takeIntr u = some t → exec .takeInterrupt s = .next (occur t)) ∧
    (savedHarts s = [] → exec .saveAreaEcc s = .next (occur { s with fresh := s.fresh + 1, saveEcc := none })) ∧
    (savedHarts s ≠ [] → ∃ l ∈ savedHarts s, (∀ m ∈ savedHarts s, s.saveEcc = some m → l = m) ∧
      let u : State := { s with fresh := s.fresh + 1, saveEcc := none }
      (∀ t, abortCopies u (endsWith u l) = (t, true) → exec .saveAreaEcc s = .next (occur (faultHart t l))) ∧
      (∀ t, abortCopies u (endsWith u l) = (t, false) → exec .saveAreaEcc s =
        .next { t with saveEcc := some l, pending := t.pending ++ [.saveAreaEcc], note := .blocked }))

/-- CTXSAVE whose checks pass writes the image of the hart, header first, to the buffer and starts a new position, and waits where a slice
stalls its bytes; CTXLOAD whose checks pass applies the groups and banks of an image and takes its position, and traps with ENGINE on a header
that is not one of a software image. In U-mode both are illegal instructions (R36, R329 to R335). Of the model's choosing: the places of
fields in an image (log 20, log 48) and some of its checks (log 49). -/
def Obligations.ContextImages : Prop :=
  ∀ (s : State) (rs1 rs2 : Reg),
    let hv := rx s rs1
    let i := hIndex hv
    (s.h.mode = .u → exec (.ctxsave rs1 rs2) s = .next (takeTrap s 2 (BitVec.ofNat 64 s.h.ir.toNat)) ∧
      exec (.ctxload rs1) s = .next (takeTrap s 2 (BitVec.ofNat 64 s.h.ir.toNat))) ∧
    (s.h.mode ≠ .u → bitAt s.h.csr.mstatus 8 = true → exec (.ctxsave rs1 rs2) s = .next (takeTrap s 28 0)) ∧
    (∀ c, s.h.mode ≠ .u → bitAt s.h.csr.mstatus 8 = false → needOwned s hv = .ok c →
      let incr := rx s rs2 != 0
      let d := saveHead s incr
      let mine : Prop := c.level = .tile ∧ (c.base - 0x010000000000) / 0x100000 = myTile s
      (mine → exec (.ctxsave rs1 rs2) s = .next (takeTrap s 28 hv)) ∧
      (¬ mine → c.layout ≠ 0 → exec (.ctxsave rs1 rs2) s = .next (takeTrap s causeLayout hv)) ∧
      (¬ mine → c.layout = 0 → (incr = true ∧ s.h.saveCount = 0) ∨ c.length < d.ilen →
        exec (.ctxsave rs1 rs2) s = .next (takeTrap s 28 hv)) ∧
      (∀ pas p bytes t u, ¬ mine → c.layout = 0 → incr = false ∨ s.h.saveCount ≠ 0 → d.ilen ≤ c.length → waitIdle s = .ok () →
        imageRange s .store c.base d.ilen = .ok (pas, p) → savedBytes d (modH p (startSave d)) = (bytes, t) →
        (putImage t i pas bytes = (u, true) → exec (.ctxsave rs1 rs2) s = .next (retired (modH u (afterSave d)))) ∧
        (putImage t i pas bytes = (u, false) →
          exec (.ctxsave rs1 rs2) s = .next (stalled (holdOff (carryRolls p u)))))) ∧
    (∀ c hb t, s.h.mode ≠ .u → loadable s hv = .ok c → c.layout = 0 → 256 ≤ c.length → imageRead s hv c 0 256 = .ok (hb, t) →
      (parseHead hb = none → exec (.ctxload rs1) s = .next (takeTrap s 28 hv)) ∧
      (∀ d, parseHead hb = some d → c.length < d.ilen ∨ d.ilen < imageLength d.pact d.groups d.banks →
        exec (.ctxload rs1) s = .next (takeTrap s 28 hv)) ∧
      (∀ d, parseHead hb = some d → d.ilen ≤ c.length → imageLength d.pact d.groups d.banks ≤ d.ilen →
        (∀ k x, imageOkFor t hv c d = .error (.trap k x) → exec (.ctxload rs1) s = .next (takeTrap s k x)) ∧
        (∀ body u w, imageOkFor t hv c d = .ok (body, u) → waitIdle u = .ok () → foldRes (applyGroup d body) d.groups u = .ok w →
          ∃ v, exec (.ctxload rs1) s = .next v ∧ v.h.chain = some (d.chain, d.cseq) ∧ v.h.x = w.h.x ∧ v.h.f = w.h.f ∧ v.h.v = w.h.v ∧
            v.h.csr.sepc = w.h.csr.sepc ∧ v.h.pc = w.h.pc + 4))) ∧
    (∀ d body t, applyGroup d body s 0 = .ok t → rx t 0 = 0 ∧ t.h.pc = s.h.pc ∧ t.h.f = s.h.f ∧ bitAt t.h.csr.mstatus 8 = false ∧
      ∀ r : Reg, r ≠ 0 → rx t r = recDw (sectionOf d body 0) r.val)

/-! Groups, barriers and synchronisation variables -/

/-- GJOIN, GLEAVE, GSIZE and GRANK; GFUSE, which waits for every hart of its mask and then forms the gang in all of them at once; and GSPLIT,
which dissolves it when its MMAs have completed. A malformed group identifier traps with ENGINE (R263 to R273). Of the model's choosing:
what clashing masks do (log 41). -/
def Obligations.GroupsAndGangs : Prop :=
  ∀ (s : State) (rd rs1 : Reg),
    let v := rx s rs1
    let slot := slotOf s.h.loc
    let g := fld v 0 8
    let good : Prop := v.toNat < 2 ^ 32 ∧ fld v 8 12 = 0 ∧ fld v 20 12 = slot
    (good → exec (.gjoin rd rs1) s = .next (retired (wx (joinGroup s s.h g) rd v)) ∧
      exec (.gleave rs1) s = .next (retired (leaveGroup s s.h g)) ∧
      exec (.gsize rd rs1) s = .next (retired (wx s rd (BitVec.ofNat 64 (groupCount s slot g))))) ∧
    (¬ good → exec (.gleave rs1) s = .next (takeTrap s 28 v) ∧ exec (.gsize rd rs1) s = .next (takeTrap s 28 v) ∧
      (v ≠ 0xFFFFFFFFFFFFFFFF#64 → exec (.gjoin rd rs1) s = .next (takeTrap s 28 v))) ∧
    (v = 0xFFFFFFFFFFFFFFFF#64 → exec (.gjoin rd rs1) s = .next (retired (match freeGroup s slot with
      | some f => wx (joinGroup s s.h f) rd (BitVec.ofNat 64 (slot * 2 ^ 20 + f))
      | none => wx s rd v))) ∧
    (∀ k, tget s.kernels slot = some k → tget k.groups g = none → groupCount s slot g = 0) ∧
    (∀ k n, s.h.live = true → tget s.kernels slot = some k → n ∉ s.h.groups →
      (joinGroup s s.h n).h.groups = s.h.groups ++ [n] ∧ groupCount (joinGroup s s.h n) slot n = groupCount s slot n + 1) ∧
    exec (.grank rd) s = .next (retired (wx s rd (match s.h.gang with
      | some a => BitVec.ofNat 64 (a.rank + a.members.length * 2 ^ 8)
      | none => 0x100))) ∧
    (coResident s = false → exec (.gfuse rd rs1) s = .next (takeTrap s 25 v)) ∧
    (coResident s = true → s.h.gang.isSome = true ∨ maskOk s v = false → exec (.gfuse rd rs1) s = .next (takeTrap s 28 v)) ∧
    (let t := { s with h := { s.h with fuse := some v.toNat } }
     let ts := namedTiles (myCluster s) v.toNat
     coResident s = true → s.h.gang = none → maskOk s v = true → (∀ k ∈ s.h.fuse, k < 2 ^ 16) → fuseClash s v.toNat = [] →
      (∀ k ∈ ts, fuseTile s k = true) →
      ((∀ k ∈ ts, ∃ h, hartOn t k = some h ∧ h.fuse = some v.toNat) →
        exec (.gfuse rd rs1) s = .next (occur (formGang t rd (ts.filterMap fun k => (hartOn t k).map (·.loc))))) ∧
      ((∃ k ∈ ts, ∀ h, hartOn t k = some h → h.fuse ≠ some v.toNat) → exec (.gfuse rd rs1) s = .next (stalled t))) ∧
    (coResident s = true → s.h.gang = none → maskOk s v = true → (∀ k ∈ s.h.fuse, k < 2 ^ 16) →
      fuseClash s v.toNat ≠ [] ∨ (∃ k ∈ namedTiles (myCluster s) v.toNat, fuseTile s k = false) →
      let u := failFuse s (fuseClash s v.toNat ++ (arrived s).filter fun a => a.2 == v.toNat)
      exec (.gfuse rd rs1) s = .next (takeTrap { u with h := { u.h with fuse := none } } 28 v)) ∧
    (s.h.gang = none → exec .gsplit s = .next (retired s)) ∧
    (s.h.gang.isSome = true → bitAt s.h.csr.mprog 63 = false → gangMma s = false →
      exec .gsplit s = .next (retired ((gangLocs s).foldl (fun s l => updHart s l fun h => { h with gang := none }) s)))

/-- BARR arrives, opening the phase with the members of the group when it is the first, and waits while the hart's own record is not done or
the open phase does not count it; BARW takes the completed record or waits for it, and BART reports without waiting; BARC binds and unbinds a
reserved channel in S-mode, and a hart that stalls at one that is unbound traps with ENGINE, at one that breaks with LINK; a phase whose counted harts have all arrived completes,
which marks their records done and makes the next phase idle; a message of another device counts for the phase that it names (R277, R278,
R280 to R285, R292). Of the model's choosing: rebinding under a stalled hart (log 39) and early messages (log 40). -/
def Obligations.Barriers : Prop :=
  ∀ (s : State) (rd rs1 rs2 : Reg),
    let v := rx s rs1
    let b := rx s rs2
    (∀ k c, (∀ j why, s.h.barAt = some (j, why) → why ≠ .waits → chanNo v ≠ some j) → barChan s v = .ok (k, c) →
      let waits : State := { s with h := { s.h with barAt := some (k, .waits) } }
      let left : Option (Nat × BarStall) := if s.h.gang.isSome then some (k, .waits) else none
      (c.group ∈ s.h.groups → (∀ r, tget s.h.barRecs k = some r → r.done = true) → c.state ≠ .open ∨ s.h.loc ∈ c.counted →
        exec (.barr rs1 rs2) s = .next (retired (arriveChan (modH s fun h => Hart.touch
          { h with barAt := left, barRecs := tput h.barRecs k { phase := c.phase, done := false, flag := false } } 13) k s.h.loc (bitAt b 0)))) ∧
      (c.group ∈ s.h.groups → (∃ r, tget s.h.barRecs k = some r ∧ r.done = false) ∨ (c.state = .open ∧ s.h.loc ∉ c.counted) →
        exec (.barr rs1 rs2) s = .next (stalled waits)) ∧
      (c.group ∉ s.h.groups → exec (.barr rs1 rs2) s = .next (takeTrap s 28 v)) ∧
      (∀ r, tget s.h.barRecs k = some r → r.done = true → exec (.barw rd rs1) s = .next (retired (wx
        (modH s fun h => Hart.touch { h with barAt := left, barRecs := terase h.barRecs k } 13) rd
        (BitVec.ofNat 64 (r.phase.toNat * 2 ^ 32 + boolNat r.flag))))) ∧
      (∀ r, tget s.h.barRecs k = some r → r.done = false → exec (.barw rd rs1) s = .next (stalled waits)) ∧
      (tget s.h.barRecs k = none → exec (.barw rd rs1) s = .next (takeTrap s 28 v))) ∧
    (∀ j, s.h.barAt = some (j, .unbound) → chanNo v = some j →
      exec (.barr rs1 rs2) s = .next (takeTrap s 28 v) ∧ exec (.barw rd rs1) s = .next (takeTrap s 28 v)) ∧
    (∀ j, s.h.barAt = some (j, .broken) → chanNo v = some j →
      exec (.barr rs1 rs2) s = .next (takeTrap s 29 v) ∧ exec (.barw rd rs1) s = .next (takeTrap s 29 v)) ∧
    (∀ k c, barChan s v = .ok (k, c) → exec (.bart rd rs1) s = .next (retired (wx s rd (match tget s.h.barRecs k with
      | none => BitVec.ofNat 64 (c.phase.toNat * 2 ^ 32)
      | some r => BitVec.ofNat 64 (r.phase.toNat * 2 ^ 32 + 4 + 2 * boolNat r.done + boolNat (r.done && r.flag)))))) ∧
    (∀ k loc flag,
      let c := chanAt s k
      let ms := if c.state = .idle then members s c.slot c.group else c.counted
      c.state = .idle ∨ c.state = .open → loc ∈ ms → ms.filter (· != loc) ≠ [] →
      chanAt (arriveChan s k loc flag) k = { c with state := .open, counted := ms.filter (· != loc), flag := c.flag || flag }) ∧
    (∀ k n,
      let slot := fld b 20 12
      let m := chanAt s k
      s.h.mode ≠ .u → fld b 32 4 < 9 → chanNo v = some k →
      (bitAt b 63 = false → fld b 36 27 = 0 → fld b 8 12 = 0 → tget s.kernels slot = some n → n.running = true → dCores n.desc = true →
        n.ctx = s.h.ctx → barScope k (fld b 32 4) = true → reservedFor s k slot s.h.ctx = true → m.state = .unbound →
        exec (.barc rs1 rs2) s = .next (retired (putChan s k { m with state := .idle, phase := 0, slot := slot, group := fld b 0 8 }))) ∧
      (bitAt b 63 = true → fld b 0 63 = 0 → m.state ≠ .unbound → tget s.kernels m.slot = some n → n.running = true → dCores n.desc = true →
        n.ctx = s.h.ctx → reservedFor s k m.slot s.h.ctx = true → exec (.barc rs1 rs2) s = .next (retired (unbindChan s k)))) ∧
    (s.h.mode = .u → exec (.barc rs1 rs2) s = .next (takeTrap s 2 (BitVec.ofNat 64 s.h.ir.toNat))) ∧
    (∀ k, let c := chanAt s k
      c.state = .open → c.counted = [] → isLinkChan k = false ∨ c.localDone = true ∧ (∀ d ∈ c.peers s.device, d ∈ c.doneDevices) →
      ∃ t, exec (.phaseComplete k) s = .next t ∧ (chanAt t k).state = .idle ∧ (chanAt t k).phase = c.phase + 1 ∧ (chanAt t k).flag = false ∧
        (∀ r, s.h.live = true → tget s.h.barRecs k = some r → r.phase = c.phase → r.done = false →
          tget t.h.barRecs k = some { r with done := true, flag := c.flag })) ∧
    (∀ num (world : Fin 64) device phase flag, let c := chanAt s (2048 + num)
      num < 64 → device.toNat ∈ c.devices → device.toNat ≠ s.device → c.state ≠ .broken →
      let mapped := tget (portAt s (routePort s device.toNat)).worldMap world.val
      (mapped = none ∨ mapped ≠ c.ctx.map (worldOf s) → exec (.barMessage num (.done world device phase flag)) s = .next (occur s)) ∧
      (mapped.isSome = true → mapped = c.ctx.map (worldOf s) →
        (c.state = .unbound ∨ phase = c.phase + 1 → exec (.barMessage num (.done world device phase flag)) s =
          .next { s with pending := s.pending ++ [.barMessage num (.done world device phase flag)], note := .blocked }) ∧
        (c.state = .idle ∨ c.state = .open → phase = c.phase →
          exec (.barMessage num (.done world device phase flag)) s = .next (occur (enqueue (putChan s (2048 + num) { c with
            doneDevices := if device.toNat ∈ c.doneDevices then c.doneDevices else c.doneDevices ++ [device.toNat]
            flag := c.flag || flag }) (.phaseComplete (2048 + num))))))) ∧
    (∀ num ctx devices, s.larch = true → num < 64 → (ctxOf s ctx.val).isSome = true → exec (.linkChannelReserve num ctx devices) s =
      .next (occur (putChan s (2048 + num) { chanAt s (2048 + num) with ctx := some ctx.val, devices := uniq (devices.map (·.toNat)) })))

/-- The operations on a variable: with x0 for `rd` they are posted, else they return the old value, `rd` being the comparand of CAS; MAXRST
returns the canonical NaN when the error count is not zero, and clears it. WAITGE returns the first value that reaches its operand, and waits
for one; a new value is seen by every hart that waits. A posted operation is performed or, on a retired variable or another world's, dropped.
A number out of range traps with ENGINE, a variable of another world with CAPABILITY, a retired one with QUARANTINED (R286 to R292). -/
def Obligations.SyncVariables : Prop :=
  ∀ (s : State) (rd rs1 rs2 : Reg),
    let v := rx s rs1
    let w := rx s rs2
    let n := v.toNat
    let x := varAt s n
    let retiredHere : Prop := n < 2 ^ 24 ∧ varOwner s n = some (myWorld s) ∧ unsettled s 36 (8 + varDie n) = false ∧ x.retired = true
    let left (r : Word) : State := { s with h := { s.h with svAt := if s.h.gang.isSome then some (n, w, some r) else none } }
    let posts (op : Nat) (e : Word) : State := enqueue { s with svPosts := s.svPosts ++
      [{ hart := s.h.loc, var := n, op := op, operand := w, expect := e, world := myWorld s, drain := false }] } (.postedSvOperation 0)
    let ops : List ((Reg → Reg → Reg → Instr) × Nat × (Word → Word → Word → Word)) :=
      [(.svAdd, 0, fun old w _ => old + w), (.svMin, 1, fun old w _ => if old.toInt ≤ w.toInt then old else w),
        (.svMax, 2, fun old w _ => if w.toInt ≤ old.toInt then old else w), (.svMinu, 3, fun old w _ => if old.toNat ≤ w.toNat then old else w),
        (.svMaxu, 4, fun old w _ => if w.toNat ≤ old.toNat then old else w), (.svAnd, 5, fun old w _ => old &&& w),
        (.svOr, 6, fun old w _ => old ||| w), (.svXchg, 7, fun _ w _ => w), (.svCas, 8, fun old w e => if old = e then w else old)]
    (∀ p ∈ ops,
      (2 ^ 24 ≤ n → exec (p.1 rd rs1 rs2) s = .next (takeTrap s 28 v)) ∧
      (n < 2 ^ 24 → varOwner s n ≠ some (myWorld s) → exec (p.1 rd rs1 rs2) s = .next (takeTrap s 25 v)) ∧
      (retiredHere → exec (p.1 rd rs1 rs2) s = .next (takeTrap s 31 v)) ∧
      (svCheck s v = .ok n → rd ≠ 0 →
        let new := p.2.2 x.value w (rx s rd)
        (svWaiting s n = true → exec (p.1 rd rs1 rs2) s = .next (stalled (holdOff s))) ∧
        (svWaiting s n = false → exec (p.1 rd rs1 rs2) s =
          .next (retired (wx (sampleAll (putVar s n { x with value := new }) n new) rd x.value)))) ∧
      (svCheck s v = .ok n → rd = 0 → exec (p.1 rd rs1 rs2) s = .next (retired (posts p.2.1 0)))) ∧
    (svCheck s v = .ok n →
      (rd ≠ 0 → svWaiting s n = false → exec (.svMaxrst rd rs1 rs2) s = .next (retired (wx
        (sampleAll (putVar s n { x with value := w, err := 0 }) n w) rd (if x.err = 0 then x.value else 0x7FC00000#64)))) ∧
      (rd = 0 → exec (.svMaxrst rd rs1 rs2) s = .next (retired (posts 9 0))) ∧
      (sampled s v w = none → svWaiting s n = false →
        (w.toInt ≤ x.value.toInt →
          exec (.svWaitge rd rs1 rs2) s = .next (retired (wx (left x.value) rd x.value))) ∧
        (x.value.toInt < w.toInt →
          exec (.svWaitge rd rs1 rs2) s = .next (stalled { s with h := { s.h with svAt := some (n, w, none) } })))) ∧
    (∀ r, sampled s v w = some r → exec (.svWaitge rd rs1 rs2) s = .next (retired (wx (left r) rd r))) ∧
    (∀ p ∈ [Instr.svMaxrst rd rs1 rs2, .svWaitge rd rs1 rs2], sampled s v w = none →
      (2 ^ 24 ≤ n → exec p s = .next (takeTrap s 28 v)) ∧ (n < 2 ^ 24 → varOwner s n ≠ some (myWorld s) → exec p s = .next (takeTrap s 25 v)) ∧
      (retiredHere → exec p s = .next (takeTrap s 31 v))) ∧
    (∀ (h : Hart) m value want, h.svAt = some (m, want, none) →
      (h.sample m value).svAt = some (m, want, if want.toInt ≤ value.toInt then some value else none)) ∧
    (∀ k p, (performable s)[k]? = some p →
      let t := { s with svPosts := s.svPosts.erase p }
      ((varAt t p.var).retired = false → varOwner t p.var = some p.world →
        let y := varAt t p.var
        let becomes (new : Word) (err : Nat) : Prop :=
          exec (.postedSvOperation k) s = .next (occur (sampleAll (putVar t p.var { y with value := new, err := err }) p.var new))
        (∀ q ∈ ops, p.op = q.2.1 → becomes (q.2.2 y.value p.operand p.expect) y.err) ∧ (p.op = 9 → becomes p.operand 0)) ∧
      ((varAt t p.var).retired = true ∨ varOwner t p.var ≠ some p.world → exec (.postedSvOperation k) s = .next (occur (dropPost t p)))) ∧
    ([(0x00C5A57B, Instr.svAdd 10 11 12), (0x02C5A57B, .svMin 10 11 12), (0x04C5A57B, .svMax 10 11 12), (0x06C5A57B, .svMinu 10 11 12),
      (0x08C5A57B, .svMaxu 10 11 12), (0x0AC5A57B, .svAnd 10 11 12), (0x0CC5A57B, .svOr 10 11 12), (0x0EC5A57B, .svXchg 10 11 12),
      (0x10C5A57B, .svCas 10 11 12), (0x12C5A57B, .svMaxrst 10 11 12), (0x14C5A57B, .svWaitge 10 11 12)].all fun p =>
        decode32 (BitVec.ofNat 32 p.1) == .instr p.2) = true ∧
    (∀ k < 2 ^ 24, exec (.variableEcc k) s = .next (occur (putVar s k { varAt s k with retired := true }))) ∧
    (∀ ctx first count c, s.larch = true → ctxOf s ctx.val = some c → first % 256 = 0 → first + 256 * count ≤ 2 ^ 24 →
      ∃ t, exec (.variableAssign ctx first count) s = .next t ∧ (∀ k, first / 256 ≤ k → k < first / 256 + count → tget t.varWorld k = some c.world) ∧
        (∀ k, k < first / 256 ∨ first / 256 + count ≤ k → tget t.varWorld k = tget s.varWorld k) ∧
        (∀ w ∈ t.vars, first ≤ w.1 → w.1 < first + 256 * count → w.2.value = 0 ∧ w.2.err = 0))

/-! The line cache -/

/-- LINE_FILL brings a missing line of a buffer in: its home slice then holds it with the bytes that memory has; or it waits while its slice has
no place for it, and a line that cannot be read is marked or its buffer QUARANTINED. SLICE_WRITE writes a dirty line of a data L1 back to its
home and drops it there, or waits with it. PASS_LINE re-encrypts the next line of a pass under the pass's version, drops its marker and goes on;
it stops, with the buffer QUARANTINED, at a line that cannot be read; and it ends the pass, which gives the tensor its new version and leaves it no
marker. An uncorrectable error in a data entry drops the tags that share it, retires it, and loses a dirty line, whose buffer is marked or
QUARANTINED; one in a tag drops and retires its way, and for a line that might have been dirty Larch is told and the DEVICE buffers of the set's
contexts are QUARANTINED; both count, and so does a corrected one (R163, R165, R172, R173, R347 to R349, R355). Of the model's choosing: when a
fill happens (log 13), which tag might be dirty (log 84) and that an error in a way without a tag counts under identifier 0 (log 88). -/
def Obligations.CacheEvents : Prop :=
  ∀ (s t : State) (pa q tile line i : Nat),
    ((tensorOf s pa).1 ≠ 0 ∨ isRemotePa pa = true →
      (fillLine s pa q = (t, true) → exec (.lineFill ⟨pa, q⟩) s = .next (occur t)) ∧
      (fillLine s pa q = (t, false) → let u := carryRolls s t
        exec (.lineFill ⟨pa, q⟩) s = .next { u with pending := u.pending ++ [.lineFill ⟨pa, q⟩], note := .blocked })) ∧
    ((tensorOf s pa).1 = 0 → isRemotePa pa = false → exec (.lineFill ⟨pa, q⟩) s = .next (occur s)) ∧
    (let on (a : Nat) : Bool := lineOf a == lineOf line
     (cleanL1 s tile on = (t, true) → risesFrom 0 s.tiles = true →
       exec (.sliceWrite tile line) s = .next (occur t) ∧ ∀ a, lineOf a = lineOf line → tget (tileOf t tile).l1d a = none) ∧
     (cleanL1 s tile on = (t, false) → let u := carryRolls s t
       exec (.sliceWrite tile line) s = .next { u with pending := u.pending ++ [.sliceWrite tile line], note := .blocked })) ∧
    (∀ bytes, pa % 128 = 0 → isDevicePa pa = true ∨ isRemotePa pa = true ∧ remoteUp s pa = true → findTag s pa q = none → fillLine s pa q = (t, true) →
      (memLine s pa = some bytes → risesFrom 0 (sliceAt s (homeSlice pa)).tags = true → bytes.length = 128 →
        lineView t pa q = some bytes ∧ (findTag t pa q).isSome = true ∧ t.h = s.h ∧ t.others = s.others) ∧
      (memLine s pa = none → t = lineError s pa)) ∧
    (∀ c, capAt s (tensorOf s pa).1 = some c →
      (c.state = .collecting → lineError s pa = updCap s (tensorOf s pa).1 fun c => { c with marked := tensorLine s pa :: c.marked }) ∧
      (c.state ≠ .collecting → c.state ≠ .free → capAt (lineError s pa) (tensorOf s pa).1 = some { c with state := .quarantined })) ∧
    (∀ c p, capAt s i = some c → c.pass = some p →
      (c.length / 128 ≤ p.ptr → exec (.passLine i) s = .next (occur (endPass s i p))) ∧
      (p.ptr < c.length / 128 →
        (tensorLinePa s i p.ptr = none → exec (.passLine i) s = .next (occur (enqueue (updCap s i fun c =>
          { c with pass := some { p with ptr := p.ptr + 1 } }) (.passLine i)))) ∧
        (∀ a, tensorLinePa s i p.ptr = some a →
          (memLine s a = none → exec (.passLine i) s = .next (occur (quarantine s i))) ∧
          (∀ bytes, memLine s a = some bytes → Memory.wf s.mem = true → risesFrom 0 (sliceAt s (homeSlice a)).tags = true →
            let key := tgetD s.keys (8 * c.world + c.comp) 0
            let cipher := lineCipher key i p.target (tensorLine s a) bytes
            ∃ u, exec (.passLine i) s = .next (occur (enqueue u (.passLine i))) ∧
              capAt u i = some { c with pass := some { p with ptr := p.ptr + 1 } } ∧
              (∀ k, findMarker s a i = some k → tget (sliceAt u (homeSlice a)).tags k = none) ∧
              ((metaOf s a).zero = true → u.mem = s.mem ∧ metaOf u a = metaOf s a) ∧
              ((metaOf s a).zero = false → rawLine u a = cipher ∧
                metaOf u a = { zero := false, mac := lineMac key i p.target (tensorLine s a) cipher, bad := false }) ∧
              ∀ b, b < a ∨ a + 128 ≤ b → Memory.get u.mem b = Memory.get s.mem b))) ∧
      (p.held = [] → p.thenClose = false → let u := endPass s i p
        capAt u i = some { c with encver := p.target, encOpen := p.roll, encRoll := false, pass := none } ∧ u.mem = s.mem ∧ u.h = s.h ∧
          ∀ n k g, tget (sliceAt u n).tags k = some g → g.kind = .marker → g.tensor ≠ i)) ∧
    exec (.lineEccError (.entry pa)) s = .next (occur (entryError s pa)) ∧
    (∀ g, lineTag s pa = some g → let n := homeSlice pa
      let u := entryError s pa
      g.entry ∈ (sliceAt u n).retiredEntries ∧ lcCounter u n cntUncorr g.pid = (lcCounter s n cntUncorr g.pid + 1) % 2 ^ 48 ∧
      (risesFrom 0 (sliceAt s n).tags = true → ∀ k x, tget (sliceAt u n).tags k = some x → x.kind = .data → x.entry ≠ g.entry) ∧
      u.mem = s.mem ∧ u.h = s.h ∧ (g.dirty = false → u.caps = s.caps ∧ u.lmeta = s.lmeta) ∧
      (g.dirty = true → isRemotePa pa = false → (metaOf u (lineOf pa)).bad = true ∧
        ∀ c, capAt s (tensorOf s (lineOf pa)).1 = some c → c.state ≠ .collecting → c.state ≠ .free →
          capAt u (tensorOf s (lineOf pa)).1 = some { c with state := .quarantined })) ∧
    (lineTag s pa = none → entryError s pa = s) ∧
    (∀ n set way, n < 64 → set < 8192 → way < 16 → exec (.lineEccError (.tag n set way)) s = .next (occur (tagError s n set way)) ∧
      let k := set * 16 + way
      let g := tget (sliceAt s n).tags k
      let pid := (g.map (·.pid)).getD 0
      let u := tagError s n set way
      k ∈ (sliceAt u n).retiredWays ∧ (risesFrom 0 (sliceAt s n).tags = true → tget (sliceAt u n).tags k = none) ∧
      lcCounter u n cntUncorr pid = (lcCounter s n cntUncorr pid + 1) % 2 ^ 48 ∧ u.mem = s.mem ∧ u.h = s.h ∧
      ((∀ x, g = some x → mightBeDirty (sliceAt s n) x = false) → u.caps = s.caps ∧ u.told = s.told) ∧
      (∀ x, g = some x → mightBeDirty (sliceAt s n) x = true → u.told = s.told ++ [.tagError n set] ∧
        ∀ j c, capAt s j = some c → c.state ≠ .free → c.level = .device → c.ctx ∈ ctxsOfSet s n set →
          capAt u j = some { c with state := .quarantined })) ∧
    (∀ g, lineTag s pa = some g → exec (.lineEccError (.entryFixed pa)) s = .next (occur (countLc s (homeSlice pa) cntCorr g.pid))) ∧
    (isDevicePa pa = true ∨ isPoolPa pa = true →
      exec (.lineEccError (.memory pa)) s = .next (occur (setMeta s pa { metaOf s pa with bad := true })))

/-! Hosts -/

/-- A mailbox command at the head of its ring is performed once Larch runs and there is room for its completion, and its completion is
written; one that has to wait waits. A tail write has the device read commands, a head write frees completion ring space; FREE, SPLIT and
JOIN do as the instructions do, and PUBLISH makes an OWNED buffer of host memory; rings that are not enabled, or whose link carries nothing,
take no tail or head (R359 to R361, R374). Of the model's choosing: the completions of commands that fail (log 56). -/
def Obligations.Mailbox : Prop :=
  ∀ (s : State) (a : Fin 16) (value : Word),
    (∀ p ∈ [(Instr.mbLaunch a, 1, mbLaunchBody a.val), (.mbPublish a, 2, mbPublishBody a.val), (.mbUnpublish a, 3, mbUnpublishBody a.val),
        (.mbSend a, 4, mbSendBody a.val), (.mbFree a, 5, mbFreeBody a.val), (.mbSplit a, 6, mbSplitBody a.val), (.mbJoin a, 7, mbJoinBody a.val)],
      (s.larch = true → cmdWaits s a.val = true → fld (cmdWord s a.val 0) 0 8 = p.2.1 →
        (∀ t code r1 r2, p.2.2 s = .done t code r1 r2 → exec p.1 s = .next (occur (pumpMb (endMb t a.val code r1 r2) a))) ∧
        (∀ t, p.2.2 s = .wait t → exec p.1 s = .next { t with pending := t.pending ++ [p.1], note := .blocked })) ∧
      (s.larch = false → exec p.1 s = .next { s with pending := s.pending ++ [p.1], note := .blocked })) ∧
    (∀ x, (agentAt s a.val).ctx = some x → hostUp s a.val = true → (agentAt s a.val).enabled = true →
      exec (.sqtailWrite a value) s =
        .next (occur (pumpMb (updAgent s a.val fun g => { g with sqtail := value.toNat % g.sqsize.toNat }) a)) ∧
      exec (.cqheadWrite a value) s = .next (occur (pumpMb (deliverAgent
        (updAgent s a.val fun g => { g with cqhead := value.toNat % g.cqsize.toNat, overflowed := false }) a.val) a))) ∧
    ((agentAt s a.val).ctx = none ∨ hostUp s a.val = false ∨ (agentAt s a.val).enabled = false →
      exec (.sqtailWrite a value) s = .next (occur s) ∧ exec (.cqheadWrite a value) s = .next (occur s)) ∧
    (let hv := cmdWord s a.val 1
     let l := (agentAt s a.val).holdings
     (∀ t m, freeIn s l hv (agentPins s a.val (hIndex hv)) = .ok (t, m) → mbFreeBody a.val s = .done (putHoldings t a.val m) 0 0 0) ∧
     (∀ t m v, splitIn s l hv (cmdWord s a.val 2) = .ok (t, m, v) → isStatus v = false →
      mbSplitBody a.val s = .done (putHoldings t a.val m) 0 v 0) ∧
     (∀ t m v, joinIn s l hv (cmdWord s a.val 2) (agentPins s a.val (hIndex hv)) = .ok (t, m, v) → isStatus v = false →
      mbJoinBody a.val s = .done (putHoldings t a.val m) 0 v 0)) ∧
    (∀ i x c, let base := (cmdWord s a.val 1).toNat
      let len := (cmdWord s a.val 2).toNat
      base % 4096 = 0 → len % 4096 = 0 → 4096 ≤ len → len ≤ 2 ^ 40 → base + len ≤ 2 ^ 51 → cmdWord s a.val 3 = 3 →
      (agentAt s a.val).ctx = some x → ctxOf s x = some c → c.cceil.getLsbD 0 = true →
      clear (publications s ++ poolRegions s) (hostPa a.val base) (hostPa a.val base + len) = true → freeIndex s = some i → capWaits s i = false →
      (agentAt s a.val).holdings.length < 4096 →
      ∃ t v e, mbPublishBody a.val s = .done t 0 v 0 ∧ capAt t i = some e ∧ e.state = .owned ∧ e.level = .host ∧ e.base = hostPa a.val base ∧
        e.length = len ∧ e.ctx = x ∧ e.okind = .hostAgent ∧ e.owner = a.val ∧ v = handle s.device i e.gen .whole 0)

/-- A host reads DEVICE bytes that its agents hold and writes those that they hold whole. A refused access stores nothing: over PCIe it is
aborted, and over CXL.mem a read gives poisoned data and a write is dropped and counted. An access over a link that carries nothing does not
come, and after a trip only BAR 0 answers a read. BAR 0 gives the mailbox and readiness registers. An ATS invalidation waits for the counted
stores to its range and the counted loads, and drops the translations of the range; a host reset takes the agents' rings away, and Larch
brings them back (R113, R356, R363, R364, R372, R376, R378). Of the model's choosing: the host side of the physical map (log 57). -/
def Obligations.HostAccesses : Prop :=
  ∀ (s : State) (port : Fin 2) (pa len : Nat) (bytes : List Byte),
    let p := 16 + port.val
    let pas := rangeFrom pa len
    let wpas := rangeFrom pa bytes.length
    ((portAt s p).carries = false → ∀ via, exec (.hostMemRead port pa len via) s = .next (occur s) ∧
      exec (.hostMemWrite port pa bytes via) s = .next (occur s)) ∧
    ((portAt s p).carries = true →
      (∀ via, via = .pcie ∨ via = .cxl →
        (s.tripped = true → exec (.hostMemRead port pa len via) s = .next (occur s)) ∧
        (s.tripped = false → pas.all (hostMay s port.val false) = false → exec (.hostMemRead port pa len via) s =
          .next (occur (sendOut s none (.readReply p (if via = .cxl then .poisoned else .aborted) [])))) ∧
        (∀ b, s.tripped = false → pas.all (hostMay s port.val false) = true → hostWaits s pas = false → homeBytes s 0 pas = some b →
          exec (.hostMemRead port pa len via) s = .next (occur (sendOut (noteRead s 0 pas) none (.readReply p .done b)))) ∧
        (s.tripped = false → pas.all (hostMay s port.val false) = true → hostWaits s pas = true →
          exec (.hostMemRead port pa len via) s = .next { s with pending := s.pending ++ [.hostMemRead port pa len via], note := .blocked }) ∧
        (∀ t, wpas.all (hostMay s port.val true) = true → hostWaits s wpas = false → writeHome s 0 (wpas.zip bytes) = (t, true) →
          exec (.hostMemWrite port pa bytes via) s = .next (occur (sendOut t none (.writeReply p .done))))) ∧
      (wpas.all (hostMay s port.val true) = false →
        exec (.hostMemWrite port pa bytes .cxl) s = .next (occur { s with hostDrops := s.hostDrops + 1 }) ∧
        exec (.hostMemWrite port pa bytes .pcie) s = .next (occur (sendOut s none (.writeReply p .aborted)))) ∧
      (exec (.hostMemRead port pa len .bar0) s = .next (occur (sendOut s none (.readReply p .done (pas.map (barByte s port.val)))))) ∧
      (0x8000 ≤ pa ∨ pa % 8 ≠ 0 ∨ bytes.length ≠ 8 → exec (.hostMemWrite port pa bytes .bar0) s = .next (occur s)) ∧
      (pa < 0x8000 → pa % 8 = 0 → bytes.length = 8 → exec (.hostMemWrite port pa bytes .bar0) s = .next (occur
        (mbPut s ⟨(8 * port.val + pa / 4096) % 16, Nat.mod_lt _ (by decide)⟩ (pa % 4096) (BitVec.ofNat 64 (leNat bytes)))))) ∧
    (let lo := hostPa (8 * port.val) pa
     let keep (page : Nat) : Bool := page * 4096 + 4096 ≤ lo || lo + len ≤ page * 4096
     (∀ i, i = Instr.atsInvalidation port pa len →
       ((∀ h ∈ harts s, h.ldOut = 0 ∧ ∀ e ∈ h.stOut, ∀ page ∈ e.hosts, keep page = true) →
         exec i s = .next (occur (updPort s p fun k => { k with ats := k.ats.filter keep }))) ∧
       ((∃ h ∈ harts s, h.ldOut ≠ 0 ∨ ∃ e ∈ h.stOut, ∃ page ∈ e.hosts, keep page = false) →
         exec i s = .next { s with pending := s.pending ++ [i], note := .blocked }))) ∧
    (∃ t, exec (.hostReset port) s = .next t ∧ ∀ a g, 8 * port.val ≤ a → a < 8 * port.val + 8 → tget t.agents a = some g →
      g.enabled = false ∧ g.barred = true) ∧
    (s.larch = true → exec (.ringsRestored port) s = .next (occur ((rangeFrom (8 * port.val) 8).foldl (fun s a =>
      if (tget s.agents a).isSome then
        pumpMb (deliverAgent (updAgent s a fun g => Agent.settle { g with barred := false }) a) ⟨a % 16, Nat.mod_lt _ (by decide)⟩
      else s) s)))

/-! Other devices -/

/-- A move between devices, at both ends: request, acknowledgement or refusal, data, commit and its acknowledgement, and the resolution of one
in doubt, which waits for Larch. A committed whole buffer is OWNED at its receiver. A peer reads and writes the ranges that are exported to
it, and is told when a page faults or an error is met; a relay passes a packet on (R103, R104, R365 to R368, R370). Of the model's choosing:
how units are given up, met again and exported (log 61, log 62, log 86), and that a refusal and the resolution of a move that BGATE sent wait
for the pass that it began (log 85). -/
def Obligations.MovesBetweenDevices : Prop :=
  ∀ (s : State) (id : Nat),
    (∀ r : MoveReq, (portAt s r.port.val).carries = true →
      (∀ t, takeRequest s r = .ok t → exec (.moveRequest r) s = .next (occur t)) ∧
      (∀ st, takeRequest s r = .error st →
        exec (.moveRequest r) s = .next (occur
          (sendOut s (tget (portAt s r.port.val).worldMap r.world.val) (.move r.port.val 3 r.audit.toNat st r.dest))))) ∧
    (∀ m, moveAt s id true = some m → m.linked s = true →
      (m.steps.getLsbD 1 = false → exec (.moveAck id) s = .next (occur (ackMove s id m)) ∧
        (∀ st, refusalStatus st = true →
          (gateBusy s m = false → exec (.moveRefusal id st) s = .next (occur (revertMove s id m st))) ∧
          (gateBusy s m = true →
            exec (.moveRefusal id st) s = .next { s with pending := s.pending ++ [.moveRefusal id st], note := .blocked }))) ∧
      (m.steps.getLsbD 3 = true → exec (.commitAck id) s = .next (occur (completeSend (lowerSd s m.sender) id (m.reach 0x10#5))))) ∧
    (∀ m, moveAt s id false = some m → m.linked s = true →
      (∀ off bytes c pas t, m.ref = false → off + bytes.length ≤ m.length → m.steps.getLsbD 2 = false → capAt s m.index = some c →
        bufPas s m.index c off bytes.length = some pas → writeHome s 0 (pas.zip bytes) = (t, true) →
        exec (.moveData id off bytes) s = .next (occur (putMove t id (if m.length ≤ m.got + bytes.length
          then { m with got := m.got + bytes.length, steps := m.steps ||| 0x04#5 } else { m with got := m.got + bytes.length })))) ∧
      (m.steps.getLsbD 2 = true → exec (.moveCommit id) s = .next (occur (sendOut (commitReceive s id m) (entryWorld s m.index)
        (.move m.port 5 m.audit (handle s.device m.index m.gen m.kind m.units) m.dest))))) ∧
    (∀ m, m.kind = .whole → m.entryLives s = true → ∃ c, capAt (commitReceive s id m) m.index = some c ∧ c.state = .owned ∧
      c.gen = m.gen ∧ c.okind = (ownerAt m.dest).1 ∧ c.owner = (ownerAt m.dest).2) ∧
    (∀ m committed, s.larch = true → tget s.moves id = some m → m.indoubt = true → m.closed = false →
      ((m.sending = true → committed = false → gateBusy s m = false) →
        exec (.indoubtResolve id committed) s = .next (occur (if m.sending then resolveSend s id { m with indoubt := false } committed
        else resolveReceive s id { m with indoubt := false } (m.steps.getLsbD 2)))) ∧
      (m.sending = true → committed = false → gateBusy s m = true → exec (.indoubtResolve id committed) s =
        .next { s with pending := s.pending ++ [.indoubtResolve id committed], note := .blocked })) ∧
    (∀ committed, s.larch = false → exec (.indoubtResolve id committed) s =
      .next { s with pending := s.pending ++ [.indoubtResolve id committed], note := .blocked }) ∧
    (∀ (port : Fin 16) (world : Fin 64) addr len, (portAt s port.val).carries = true →
      let w := tget (portAt s port.val).worldMap world.val
      (∀ t a, exportPas s port world addr len false = .error (t, a) →
        exec (.xrd port world addr len) s = .next (occur (sendOut t w (.readReply port.val a [])))) ∧
      (∀ pas, exportPas s port world addr len false = .ok pas → hostWaits s pas = false →
        (∀ b, homeBytes s 0 pas = some b →
          exec (.xrd port world addr len) s = .next (occur (sendOut (noteRead s 0 pas) w (.readReply port.val .done b)))) ∧
        (homeBytes s 0 pas = none → exec (.xrd port world addr len) s = .next (occur (sendOut
          ((uniq ((pas.filter fun a => (linePlain s 0 a).isNone).map lineOf)).foldl lineError s) w (.readReply port.val .ecc [])))))) ∧
    (∀ (port : Fin 16) (world : Fin 64) addr bytes, (portAt s port.val).carries = true →
      let w := tget (portAt s port.val).worldMap world.val
      (∀ t a, exportPas s port world addr bytes.length true = .error (t, a) →
        exec (.xwr port world addr bytes) s = .next (occur (sendOut t w (.writeReply port.val a)))) ∧
      (∀ pas t, exportPas s port world addr bytes.length true = .ok pas → hostWaits s pas = false → writeHome s 0 (pas.zip bytes) = (t, true) →
        exec (.xwr port world addr bytes) s = .next (occur (sendOut t w (.writeReply port.val
          (if meetsBad s (pas.zip bytes) then .ecc else .done)))))) ∧
    (∀ (port : Fin 16) (dest : BitVec 8) size, let q := routePort s dest.toNat
      dest.toNat ≠ s.device → (portAt s port.val).carries = true → (tgetD s.routes dest.toNat 0#8).getLsbD 7 = false →
      relayUsed (portAt s q) + size ≤ 524288 →
      exec (.relayPacket port dest size) s = .next (occur (if (portAt s q).carries then sendOut s none (.relay q dest.toNat size)
        else updPort s q fun k => { k with relay := k.relay ++ [(dest.toNat, size)] })))

/-- The states of a link: training, locking, keying, UP with the first authenticated flit, DEGRADED and back, RETRAIN and DOWN. A flit whose
counter is not the next or whose tag fails sends the link to RETRAIN; a replay does not advance the counter (R356, R369). Of the model's
choosing: the sources of some transitions (log 59). -/
def Obligations.LinkStates : Prop :=
  ∀ (s : State) (p : PortId),
    let n := portNo p
    let k := portAt s n
    (k.state = .down → s.larch = true → unsettled s 37 n = false → isReady s 37 n = true →
      exec (.trainingStart p) s = .next (occur (updPort s n fun k => { k with state := .training, key := none, lanes := 0 }))) ∧
    (k.state = .training ∨ k.state = .retrain →
      (let t := updPort s n fun k => { k with lanes := fullLanes n, state := if k.key.isSome then .keyed else k.state }
       (k.key.isSome = true ∨ n < 16 ∨ k.state = .retrain → exec (.lanesLocked p) s = .next (occur t)) ∧
       (k.key = none → 16 ≤ n → k.state = .training → exec (.lanesLocked p) s = .next (occur (linkUp t n)))) ∧
      (s.yew = true → ∃ a b, exec (.linkKeysInstalled p) s = .next (occur (updPort { s with fresh := s.fresh + 2 } n fun k =>
        { k with key := some (a, b), tx := 0, rx := 0, state := if k.lanes ≠ 0 then .keyed else k.state }))) ∧
      exec (.trainingTimeout p) s = .next (occur (dropLink s n .down))) ∧
    (∀ counter auth, k.key.isSome = true → k.carries = true ∨ k.state = .keyed →
      (auth = false ∨ n < 16 ∧ counter ≠ k.rx → exec (.flitReceive p counter auth) s = .next (occur (dropLink s n .retrain))) ∧
      (auth = true → 16 ≤ n ∨ counter = k.rx →
        (k.state ≠ .keyed → exec (.flitReceive p counter auth) s = .next (occur (updPort s n fun k => { k with rx := k.rx + 1 }))) ∧
        (k.state = .keyed → exec (.flitReceive p counter auth) s =
          .next (occur (linkUp (sendOut (updPort s n fun k => { k with rx := k.rx + 1 }) none (.flit n k.tx false)) n))))) ∧
    (k.carries = true →
      (∀ lanes ∈ (if n < 16 then [1, 2, 4] else [4, 8, 16]),
        exec (.laneFail p lanes) s = .next (occur (updPort s n fun k => { k with state := .degraded, lanes := lanes }))) ∧
      exec (.linkFailure p) s = .next (occur (dropLink s n .retrain))) ∧
    (k.state = .degraded → exec (.lanesRecovered p) s = .next (occur (updPort s n fun k => { k with state := .up, lanes := fullLanes n }))) ∧
    exec (.portDisable p) s = .next (occur (dropLink s n .down)) ∧
    (∀ q : Fin 16, (portAt s q.val).carries = true → (portAt s q.val).tx ≠ 0 →
      exec (.linkReplay q) s = .next (occur { s with linkOut := s.linkOut ++ [(none, .flit q.val ((portAt s q.val).tx - 1) true)] }))

/-! The package -/

/-- What Yew and Larch install: contexts, gates, keys, routes, world maps, host agents, pool regions, bandwidth weights and the power cap; and the
teardown of a world, whose contexts are SCRUBBING while the scrub channels clear its frames, and of which no context is left at the end. What
Larch or Yew is to do waits while it does not run (R318, R319, R322, R323, R353, R358, R362, R366, R368, R371, R374, R378). Of the model's
choosing: the values that firmware gives (log 31, log 32, log 67). -/
def Obligations.FirmwareActions : Prop :=
  ∀ (s : State),
    (∀ ctx r, s.larch = true → ctxOf s ctx.val = none → ∃ t, exec (.contextInstall ctx r) s = .next t ∧ ctxOf t ctx.val = some (ctxFrom r) ∧
      (∀ n, n ≠ ctx.val → ctxOf t n = ctxOf s n) ∧ t.h = s.h ∧ t.mem = s.mem ∧ t.caps = s.caps) ∧
    (∀ (w : Fin 64) u, let l := ctxsOfWorld s w.val
      let v := drainCtxs u w.val l
      s.larch = true → abortCopies s (((harts s).filter fun h => l.contains h.ctx).map (·.loc)) = (u, true) →
      let e := emptyWorld v w.val l
      (drainBusy v l = false → scrubBusy e w.val = false → exec (.worldTeardown w) s = .next (occur (freeWorld e w.val l))) ∧
      (drainBusy v l = false → scrubBusy e w.val = true →
        exec (.worldTeardown w) s = .next { e with pending := e.pending ++ [.worldTeardown w], note := .blocked }) ∧
      (drainBusy v l = true → exec (.worldTeardown w) s = .next { v with pending := v.pending ++ [.worldTeardown w], note := .blocked })) ∧
    (∀ w l n c, n ∈ l → ctxOf (emptyWorld s w l) n = some c → c.life = .scrubbing) ∧
    (∀ w (n : Fin 8) f rest, (worldFrames s w).filter (fun f => f / 2 ^ 24 == n.val) = f :: rest → (s.scrubs.get n).act = false →
      scrubRun s w n = startScrub (releaseFrames s (rangeFrom f (runFrom f (f :: rest)))) n (f % 2 ^ 24) (runFrom f (f :: rest)) (some w)) ∧
    (∀ w l, let t := freeWorld s w l
      (∀ n ∈ l, ctxOf t n = none) ∧ (∀ q ∈ t.queues, q.2.world ≠ w) ∧ (∀ v ∈ t.varWorld, v.2 ≠ w) ∧ (∀ k ∈ t.keys, k.1 / 8 ≠ w)) ∧
    (∀ n g, s.yew = true → gateOk s g = true → exec (.gateInstall n g) s =
      .next (occur { s with gates := tput s.gates n.val [setBit g.dw0 18 true, g.dw1, g.dest, g.dw3] })) ∧
    (∀ n g, s.yew = true → tget s.gates n.val = some g → exec (.gateRemove n) s =
      .next (occur { s with gates := tput s.gates n.val (setAt g 0 (setBit (dw g 0) 18 false)) })) ∧
    (∀ slot key, s.yew = true → exec (.keySlotWrite slot key) s = .next (occur { s with keys := tput s.keys slot.val key })) ∧
    (∀ dest route, s.larch = true → exec (.routeProgram dest route) s = .next (occur { s with routes := tput s.routes dest.toNat (route &&& 0x8F#8) })) ∧
    (∀ port src dst, s.larch = true → exec (.worldMapInstall port src dst) s =
      .next (occur (updPort s port.val fun p => { p with worldMap := tput p.worldMap src.val dst.val }))) ∧
    (∀ agent ctx c, s.larch = true → ctxOf s ctx.val = some c → c.life = .installed → (agentAt s agent.val).holdings = [] → (agentAt s agent.val).arrivals = [] →
      (agentAt s agent.val).reports = [] →
      exec (.hostAgentAssign agent ctx) s = .next (occur { s with agents := tput s.agents agent.val { Agent.start with ctx := some ctx.val } })) ∧
    (∀ ctx base len c, s.larch = true → ctxOf s ctx.val = some c → c.life = .installed → c.regions.length < 4 → base % 4096 = 0 → len % 4096 = 0 → len ≠ 0 →
      isPoolPa base = true → isPoolPa (base + len - 1) = true → clear (publications s) base (base + len) = true →
      exec (.poolRegionAssign ctx base len) s =
        .next (occur { s with ctxs := tput s.ctxs ctx.val { c with regions := c.regions ++ [(base, len)] } })) ∧
    (∀ n cls weight c, s.larch = true → ctxOf s n.val = some c →
      exec (.bandwidthWeightSet (.ctx n) cls weight) s = .next (occur { s with ctxs := tput s.ctxs n.val { c with cls := cls.val } })) ∧
    (∀ u cls weight, s.larch = true → (∀ n, u ≠ .ctx n) → exec (.bandwidthWeightSet u cls weight) s =
      .next (occur { s with bw := (s.bw.filter fun b => !(b.1 == u && b.2.1 == cls.val)) ++ [(u, cls.val, weight)] })) ∧
    (∀ watts, s.larch = true → exec (.powerCapSet watts) s =
      .next (occur (if 1200 ≤ watts ∧ watts ≤ 2400 then { s with powerCap := watts } else s))) ∧
    (let waits (i : Instr) : Prop := exec i s = .next { s with pending := s.pending ++ [i], note := .blocked }
     (s.larch = false → (∀ ctx r, waits (.contextInstall ctx r)) ∧ (∀ w, waits (.worldTeardown w)) ∧ (∀ d r, waits (.routeProgram d r)) ∧
       (∀ p a b, waits (.worldMapInstall p a b)) ∧ (∀ a ctx, waits (.hostAgentAssign a ctx)) ∧ (∀ ctx b l, waits (.poolRegionAssign ctx b l)) ∧
       (∀ u c w, waits (.bandwidthWeightSet u c w)) ∧ (∀ w, waits (.powerCapSet w)) ∧ (∀ pa v, waits (.pageTableWrite pa v)) ∧
       (∀ n r, waits (.queueAssign n r))) ∧
     (s.yew = false → (∀ n g, waits (.gateInstall n g)) ∧ (∀ n, waits (.gateRemove n)) ∧ ∀ n k, waits (.keySlotWrite n k)))

/-- Resets, self-tests, monitors and restarts. A reset ends every hart and empties every table but what the rules keep: a cold one starts every
scrub, a warm one lets the scrubs go on; memory keeps its bytes in both, for the scrubs to clear. A self-test that passes sets its bit, and after the
timeout everything is settled. A throttled cluster, a trip, and the restarts of Larch and Yew (R354, R374, R377, R378). Of the model's
choosing: what stands across a reset (log 29). -/
def Obligations.DeviceEvents : Prop :=
  ∀ (s : State),
    (∃ t, exec .coldReset s = .next t ∧ harts t = [] ∧ t.caps = [] ∧ t.kernels = [] ∧ t.ctxs = [] ∧ t.ready = [] ∧ t.settled = false ∧
      t.scrubs = State.reset.scrubs ∧ t.mem = s.mem ∧ t.device = 0 ∧ t.booting = true ∧ t.tripped = false ∧ t.pending = State.reset.pending) ∧
    (∃ t, exec .warmReset s = .next t ∧ harts t = [] ∧ t.caps = [] ∧ t.kernels = [] ∧ t.ctxs = [] ∧ t.ready = [] ∧ t.settled = false ∧
      t.scrubs = s.scrubs ∧ t.mem = s.mem ∧ t.device = s.device ∧ t.tripped = false ∧ ∀ p ∈ t.vars, p.2.retired = true ∧ p.2.value = 0) ∧
    (∀ f, let w := f.window.val
      isFunction f = true → isSettled s w f.bit.val = false → ∃ t u, exec (.selfTestComplete f true) s = .next t ∧
        exec (.selfTestComplete f false) s = .next u ∧ isReady t w f.bit.val = true ∧ isReady u w f.bit.val = isReady s w f.bit.val ∧
        isSettled t w f.bit.val = true ∧ isSettled u w f.bit.val = true ∧
        ∀ x b, x ≠ w ∨ b ≠ f.bit.val → isReady t x b = isReady s x b ∧ isSettled u x b = isSettled s x b) ∧
    exec .settleTimeout s = .next (occur { s with settled := true, booting := false }) ∧
    (∀ f, s.larch = true → isReady s f.window.val f.bit.val = true → f.window.val ≠ 37 → ∃ t, exec (.outOfService f) s = .next t ∧
      isReady t f.window.val f.bit.val = false ∧ (∀ x b, x ≠ f.window.val ∨ b ≠ f.bit.val → isReady t x b = isReady s x b)) ∧
    (∀ f, s.larch = true → isReady s f.window.val f.bit.val = true → f.window.val = 37 → exec (.outOfService f) s = .next (occur (dropLink { s with
      ready := tput s.ready 37 (tgetD s.ready 37 0#32 &&& ~~~(1#32 <<< f.bit.val))
      tested := tput s.tested 37 (tgetD s.tested 37 0#32 ||| (1#32 <<< f.bit.val)) } f.bit.val .down))) ∧
    (∀ cl temp power railOk,
      (110 ≤ temp ∨ railOk = false → ∃ t, exec (.monitorSample cl temp power railOk) s = .next t ∧ t.tripped = true ∧ harts t = [] ∧
        t.yew = false ∧ t.larch = false) ∧
      (temp < 110 → railOk = true → exec (.monitorSample cl temp power railOk) s =
        .next (occur (updCluster { s with
          monitors := tput s.monitors cl.val (temp, power, railOk), overCap := decide (s.powerCap < power) } cl.val fun c => { c with
          throttled := if 95 ≤ temp ∨ s.powerCap < power then true else if temp < 90 ∧ power < s.powerCap then false else c.throttled })))) ∧
    (s.tripped = false →
      (s.larch = true → exec .larchRestart s = .next (occur (enqueue { s with larch := false } .larchRestart))) ∧
      (s.larch = false → s.yew = true → exec .larchRestart s = .next (occur { s with larch := true })) ∧
      (s.yew = true → exec .yewRestart s = .next (occur (enqueue { s with yew := false, larch := false } .yewRestart))) ∧
      (s.yew = false → exec .yewRestart s = .next (occur { s with yew := true, larch := true }))) ∧
    (∀ tile, let t := (storedOn s tile).foldl contain s
      (∀ h u, hartOn t tile = some h → abortCopies t (endsWith t h.loc) = (u, true) →
        exec (.tileFault tile) s = .next (occur (faultHart u h.loc))) ∧
      (hartOn t tile = none → exec (.tileFault tile) s = .next (occur t))) ∧
    (∀ n, s.deviceFixed = false → s.larch = true → (deviceInput (.assignDevice n) s).device = n.toNat)
end

