-- ==== Sys2Proof/Laws/Bits.lean ====
section
/-! SUPPORT. Laws of bit fields, byte order, tables and memory: what reads after writes give, and that memory keeps its canonical form. -/

namespace Sys2Proof.Machine

/-- A field replaced, as the digits above it, it and those below it. -/
theorem setFld_nat (t lo n v : Nat) :
    t - t / 2 ^ lo % 2 ^ n * 2 ^ lo + v % 2 ^ n * 2 ^ lo = 2 ^ lo * (2 ^ n * (t / 2 ^ lo / 2 ^ n) + v % 2 ^ n) + t % 2 ^ lo := by
  have h1 := Nat.div_add_mod t (2 ^ lo)
  have h2 := Nat.div_add_mod (t / 2 ^ lo) (2 ^ n)
  generalize hq : t / 2 ^ lo / 2 ^ n = q at *
  generalize hm : t / 2 ^ lo % 2 ^ n = m at *
  rw [← h2] at h1
  rw [Nat.mul_add] at h1 ⊢
  rw [Nat.mul_comm m, Nat.mul_comm (v % 2 ^ n)]
  omega

/-- Bits of a word whose field has been replaced. -/
theorem setFld_getLsbD (w : Word) (lo n v i : Nat) :
    (setFld w lo n v).getLsbD i = if lo ≤ i ∧ i < lo + n then decide (i < 64) && v.testBit (i - lo) else w.getLsbD i := by
  have hl : w.toNat % 2 ^ lo < 2 ^ lo := Nat.mod_lt _ (Nat.two_pow_pos _)
  have hv : v % 2 ^ n < 2 ^ n := Nat.mod_lt _ (Nat.two_pow_pos _)
  simp only [setFld, BitVec.getLsbD_ofNat, setFld_nat]
  simp only [BitVec.getLsbD]
  rw [Nat.testBit_two_pow_mul_add _ hl]
  have hw : ∀ j, ¬ j < 64 → w.toNat.testBit j = false := fun j hj =>
    Nat.testBit_lt_two_pow (Nat.lt_of_lt_of_le w.isLt (Nat.pow_le_pow_right (by decide) (by omega)))
  by_cases h1 : i < lo
  · have : ¬ (lo ≤ i ∧ i < lo + n) := by omega
    by_cases h64 : i < 64 <;> simp [h1, this, h64, Nat.testBit_mod_two_pow, hw]
  · rw [if_neg h1, Nat.testBit_two_pow_mul_add _ hv]
    by_cases h2 : i < lo + n
    · have : lo ≤ i ∧ i < lo + n := by omega
      have h3 : i - lo < n := by omega
      simp [this, h3, Nat.testBit_mod_two_pow]
    · have : ¬ (lo ≤ i ∧ i < lo + n) := by omega
      have h3 : ¬ i - lo < n := by omega
      have e : i - lo - n + n + lo = i := by omega
      by_cases h64 : i < 64 <;> simp [this, h3, h64, Nat.testBit_div_two_pow, e, hw]

/-- A bit written and read. -/
theorem setBit_getLsbD (w : Word) (n i : Nat) (b : Bool) (h : n < 64) :
    (setBit w n b).getLsbD i = if i = n then b else w.getLsbD i := by
  rw [setBit, setFld_getLsbD]
  by_cases hi : i = n
  · subst hi; cases b <;> simp [h]
  · have : ¬ (n ≤ i ∧ i < n + 1) := by omega
    rw [if_neg this, if_neg hi]

/-- A field written and read. -/
theorem fld_setFld (w : Word) (lo n v : Nat) (h : lo + n ≤ 64) : fld (setFld w lo n v) lo n = v % 2 ^ n := by
  have hv : v % 2 ^ n < 2 ^ n := Nat.mod_lt _ (Nat.two_pow_pos _)
  apply Nat.eq_of_testBit_eq
  intro i
  have hg : (setFld w lo n v).toNat.testBit (i + lo) = (setFld w lo n v).getLsbD (i + lo) := rfl
  simp only [fld, Nat.testBit_mod_two_pow, Nat.testBit_div_two_pow, hg, setFld_getLsbD]
  by_cases hi : i < n
  · have : lo ≤ i + lo ∧ i + lo < lo + n := by omega
    have h64 : i + lo < 64 := by omega
    simp [hi, this, h64]
  · simp [hi]

/-! Tables -/

/-- What a table gives for a number that lies below all of its numbers. -/
theorem tget_of_rises {α : Type} : ∀ (t : Tbl α) (lo k : Nat), risesFrom lo t = true → k < lo → tget t k = none
  | [], _, _, _, _ => rfl
  | (a, v) :: r, lo, k, h, hk => by
    simp only [risesFrom, Bool.and_eq_true, decide_eq_true_eq] at h
    have : ¬ a = k := by omega
    simp [tget, this, show k < a by omega]

/-- A table read after a write. -/
theorem tget_tput {α : Type} : ∀ (t : Tbl α) (k j : Nat) (v : α), tget (tput t k v) j = if j = k then some v else tget t j
  | [], k, j, v => by
    by_cases h : j = k
    · simp [tput, tget, h]
    · by_cases h2 : j < k <;> simp [tput, tget, h, h2, Ne.symm h]
  | (a, w) :: r, k, j, v => by
    have ih := tget_tput r k j v
    by_cases hj : j = k
    · subst hj
      by_cases h1 : a = j
      · simp [tput, tget, h1]
      · by_cases h2 : j < a
        · simp [tput, tget, h1, h2]
        · simp [tput, tget, h1, h2, ih]
    · by_cases h1 : a = k
      · subst h1; simp [tput, tget, hj, Ne.symm hj]
      · by_cases h2 : k < a
        · by_cases h3 : j < k
          · have : ¬ a = j := by omega
            simp [tput, tget, h1, h2, hj, Ne.symm hj, h3, this, show j < a by omega]
          · simp [tput, tget, h1, h2, hj, Ne.symm hj, h3]
        · simp only [tput, h1, h2, if_false, tget, ih, hj]

/-- The numbers of a table still rise after a write. -/
theorem rises_tput {α : Type} : ∀ (t : Tbl α) (lo k : Nat) (v : α), risesFrom lo t = true → lo ≤ k → risesFrom lo (tput t k v) = true
  | [], lo, k, v, _, h => by simp [tput, risesFrom, h]
  | (a, w) :: r, lo, k, v, h, hk => by
    simp only [risesFrom, Bool.and_eq_true, decide_eq_true_eq] at h
    by_cases h1 : a = k
    · subst h1; simp [tput, risesFrom, h]
    · by_cases h2 : k < a
      · simp [tput, risesFrom, h1, h2, hk, h.2, show k + 1 ≤ a by omega]
      · have ih := rises_tput r (a + 1) k v h.2 (by omega)
        simp [tput, risesFrom, h1, h2, h.1, ih]

/-- A table whose numbers rise from a bound rises from a lower one. -/
theorem rises_mono {α : Type} (t : Tbl α) (lo lo' : Nat) (h : risesFrom lo t = true) (hl : lo' ≤ lo) : risesFrom lo' t = true := by
  cases t with
  | nil => rfl
  | cons c r =>
    simp only [risesFrom, Bool.and_eq_true, decide_eq_true_eq] at *
    exact ⟨by omega, h.2⟩

/-- The numbers of a table still rise after an entry is removed. -/
theorem rises_terase {α : Type} : ∀ (t : Tbl α) (lo k : Nat), risesFrom lo t = true → risesFrom lo (terase t k) = true
  | [], _, _, _ => rfl
  | (a, w) :: r, lo, k, h => by
    have h' := h
    simp only [risesFrom, Bool.and_eq_true, decide_eq_true_eq] at h
    by_cases h1 : a = k
    · simp only [terase, h1, if_true]; exact rises_mono r _ _ h.2 (by omega)
    · by_cases h2 : k < a
      · simp only [terase, h1, h2, if_true, if_false]; exact h'
      · have ih := rises_terase r (a + 1) k h.2
        simp [terase, h1, h2, risesFrom, h.1, ih]

/-- The numbers of a table still rise after a filter. -/
theorem rises_filter {α : Type} (p : Nat × α → Bool) : ∀ (t : Tbl α) (lo : Nat), risesFrom lo t = true → risesFrom lo (t.filter p) = true
  | [], _, _ => rfl
  | (a, w) :: r, lo, h => by
    simp only [risesFrom, Bool.and_eq_true, decide_eq_true_eq] at h
    have ih := rises_filter p r (a + 1) h.2
    by_cases hp : p (a, w)
    · simp [hp, risesFrom, h.1, ih]
    · simp only [hp, List.filter_cons, Bool.false_eq_true, if_false]; exact rises_mono _ _ _ ih (by omega)

/-- What a write puts among the entries of a table. -/
theorem mem_tput {α : Type} : ∀ (t : Tbl α) (k : Nat) (v : α) (c : Nat × α), c ∈ tput t k v → c = (k, v) ∨ c ∈ t
  | [], k, v, c, h => by simpa [tput] using h
  | (a, w) :: r, k, v, c, h => by
    by_cases h1 : a = k
    · simp only [tput, h1, if_true, List.mem_cons] at *
      rcases h with h | h
      · exact .inl h
      · exact .inr (.inr h)
    · by_cases h2 : k < a
      · simp only [tput, h1, h2, if_true, if_false, List.mem_cons] at *; exact h
      · simp only [tput, h1, h2, if_false, List.mem_cons] at *
        rcases h with h | h
        · exact .inr (.inl h)
        · rcases mem_tput r k v c h with h | h
          · exact .inl h
          · exact .inr (.inr h)

/-- What is left in a table after a removal was in it. -/
theorem mem_terase {α : Type} : ∀ (t : Tbl α) (k : Nat) (c : Nat × α), c ∈ terase t k → c ∈ t
  | [], _, _, h => h
  | (a, w) :: r, k, c, h => by
    by_cases h1 : a = k
    · simp only [terase, h1, if_true] at h; exact List.mem_cons_of_mem _ h
    · by_cases h2 : k < a
      · simpa only [terase, h1, h2, if_true, if_false] using h
      · simp only [terase, h1, h2, if_false, List.mem_cons] at *
        rcases h with h | h
        · exact .inl h
        · exact .inr (mem_terase r k c h)

/-- A table read after a removal, where its numbers rise. -/
theorem tget_terase {α : Type} : ∀ (t : Tbl α) (lo k j : Nat), risesFrom lo t = true →
    tget (terase t k) j = if j = k then none else tget t j
  | [], _, _, _, _ => by simp [terase, tget]
  | (a, w) :: r, lo, k, j, h => by
    simp only [risesFrom, Bool.and_eq_true, decide_eq_true_eq] at h
    have ih := tget_terase r (a + 1) k j h.2
    by_cases h1 : a = k
    · subst h1
      by_cases hj : j = a
      · simp only [terase, if_true, hj]; exact tget_of_rises r (a + 1) a h.2 (by omega)
      · by_cases h3 : j < a
        · simp [terase, tget, hj, Ne.symm hj, h3, tget_of_rises r (a + 1) j h.2 (by omega)]
        · simp [terase, tget, hj, Ne.symm hj, h3]
    · by_cases h2 : k < a
      · by_cases hj : j = k
        · simp [terase, tget, h1, h2, hj]
        · simp only [terase, h1, h2, if_true, if_false, hj]
      · simp only [terase, h1, h2, if_false, tget, ih]
        by_cases hj : j = k
        · simp [hj, h1, h2]
        · simp [hj]

/-- A table with a default, read after a write, where its numbers rise. -/
theorem tgetD_tset {α : Type} [DecidableEq α] (d : α) (t : Tbl α) (lo k j : Nat) (v : α) (h : risesFrom lo t = true) :
    tgetD (tset d t k v) j d = if j = k then v else tgetD t j d := by
  unfold tgetD tset
  by_cases hv : v = d
  · rw [if_pos hv, tget_terase t lo k j h]
    by_cases hj : j = k <;> simp [hj, hv]
  · rw [if_neg hv, tget_tput]
    by_cases hj : j = k <;> simp [hj]

/-! Memory -/

/-- A write of a byte keeps memory canonical. -/
theorem Memory.wf_put (m : List Host.Cell) (a : Nat) (b : Byte) (h : Memory.wf m = true) : Memory.wf (Memory.put m a b) = true := by
  simp only [Memory.wf, Bool.and_eq_true, List.all_eq_true] at *
  unfold Memory.put tset
  by_cases hb : b = 0
  · rw [if_pos hb]
    exact ⟨rises_terase m 0 a h.1, fun c hc => h.2 c (mem_terase m a c hc)⟩
  · rw [if_neg hb]
    refine ⟨rises_tput m 0 a b h.1 (Nat.zero_le _), fun c hc => ?_⟩
    rcases mem_tput m a b c hc with rfl | hc
    · simpa using hb
    · exact h.2 c hc

/-- A write of bytes keeps memory canonical. -/
theorem Memory.wf_putN : ∀ (bs : List Byte) (m : List Host.Cell) (a : Nat), Memory.wf m = true → Memory.wf (Memory.putN m a bs) = true
  | [], _, _, h => h
  | b :: r, m, a, h => Memory.wf_putN r _ _ (Memory.wf_put m a b h)

/-- Clearing bytes keeps memory canonical. -/
theorem Memory.wf_filter (p : Host.Cell → Bool) (m : List Host.Cell) (h : Memory.wf m = true) : Memory.wf (m.filter p) = true := by
  simp only [Memory.wf, Bool.and_eq_true, List.all_eq_true] at *
  exact ⟨rises_filter p m 0 h.1, fun c hc => h.2 c (List.mem_filter.mp hc).1⟩

/-- A read after a write of a byte. -/
theorem Memory.get_put (m : List Host.Cell) (a j : Nat) (b : Byte) (h : Memory.wf m = true) :
    Memory.get (Memory.put m a b) j = if j = a then b else Memory.get m j := by
  simp only [Memory.wf, Bool.and_eq_true] at h
  exact tgetD_tset 0 m 0 a j b h.1

/-- A write of bytes leaves every byte outside them as it was. -/
theorem Memory.get_putN_out : ∀ (bs : List Byte) (m : List Host.Cell) (a j : Nat), Memory.wf m = true → j < a ∨ a + bs.length ≤ j →
    Memory.get (Memory.putN m a bs) j = Memory.get m j
  | [], _, _, _, _, _ => rfl
  | b :: r, m, a, j, h, hj => by
    simp only [List.length_cons] at hj
    have := Memory.get_putN_out r (Memory.put m a b) (a + 1) j (Memory.wf_put m a b h) (by omega)
    rw [Memory.putN, this, Memory.get_put m a j b h, if_neg (by omega)]

/-- A write of bytes, read back. -/
theorem Memory.getN_putN : ∀ (bs : List Byte) (m : List Host.Cell) (a : Nat), Memory.wf m = true →
    Memory.getN (Memory.putN m a bs) a bs.length = bs
  | [], _, _, _ => rfl
  | b :: r, m, a, h => by
    have h1 := Memory.getN_putN r (Memory.put m a b) (a + 1) (Memory.wf_put m a b h)
    have h2 := Memory.get_putN_out r (Memory.put m a b) (a + 1) a (Memory.wf_put m a b h) (by omega)
    rw [Memory.putN, List.length_cons, Memory.getN, h1, h2, Memory.get_put m a a b h, if_pos rfl]

/-- The bytes of a number have the length that is asked for. -/
@[simp] theorem leBytes_length : ∀ n v : Nat, (leBytes n v).length = n
  | 0, _ => rfl
  | n + 1, v => by simp [leBytes, leBytes_length n]

/-- Bytes of a number, put together again. -/
theorem leNat_leBytes : ∀ n v : Nat, leNat (leBytes n v) = v % 256 ^ n
  | 0, v => by simp [leBytes, leNat, Nat.mod_one]
  | n + 1, v => by
    have : (2 : Nat) ^ 8 = 256 := by decide
    rw [leBytes, leNat, leNat_leBytes n, BitVec.toNat_ofNat, this, Nat.pow_succ', Nat.mod_mul]

end Sys2Proof.Machine
end

