-- ==== Sys2Proof/Laws/State.lean ====
section
/-! SUPPORT. Laws of the state: what each field reads after each of the updates that the meanings are made of. -/

namespace Sys2Proof.Machine

/-! A change of the executing hart -/

@[simp] theorem modH_h (s : State) (f : Hart → Hart) : (modH s f).h = f s.h := rfl
@[simp] theorem modH_others (s : State) (f : Hart → Hart) : (modH s f).others = s.others := rfl
@[simp] theorem modH_mem (s : State) (f : Hart → Hart) : (modH s f).mem = s.mem := rfl
@[simp] theorem modH_lmeta (s : State) (f : Hart → Hart) : (modH s f).lmeta = s.lmeta := rfl
@[simp] theorem modH_tiles (s : State) (f : Hart → Hart) : (modH s f).tiles = s.tiles := rfl
@[simp] theorem modH_clusters (s : State) (f : Hart → Hart) : (modH s f).clusters = s.clusters := rfl
@[simp] theorem modH_slices (s : State) (f : Hart → Hart) : (modH s f).slices = s.slices := rfl
@[simp] theorem modH_caps (s : State) (f : Hart → Hart) : (modH s f).caps = s.caps := rfl
@[simp] theorem modH_granuleCtx (s : State) (f : Hart → Hart) : (modH s f).granuleCtx = s.granuleCtx := rfl
@[simp] theorem modH_packets (s : State) (f : Hart → Hart) : (modH s f).packets = s.packets := rfl
@[simp] theorem modH_linkSeries (s : State) (f : Hart → Hart) : (modH s f).linkSeries = s.linkSeries := rfl
@[simp] theorem modH_expected (s : State) (f : Hart → Hart) : (modH s f).expected = s.expected := rfl
@[simp] theorem modH_relinked (s : State) (f : Hart → Hart) : (modH s f).relinked = s.relinked := rfl
@[simp] theorem modH_payloadLost (s : State) (f : Hart → Hart) : (modH s f).payloadLost = s.payloadLost := rfl
@[simp] theorem modH_faultedDfcnt (s : State) (f : Hart → Hart) : (modH s f).faultedDfcnt = s.faultedDfcnt := rfl
@[simp] theorem modH_acks (s : State) (f : Hart → Hart) : (modH s f).acks = s.acks := rfl
@[simp] theorem modH_rejections (s : State) (f : Hart → Hart) : (modH s f).rejections = s.rejections := rfl
@[simp] theorem modH_events (s : State) (f : Hart → Hart) : (modH s f).events = s.events := rfl
@[simp] theorem modH_postedOut (s : State) (f : Hart → Hart) : (modH s f).postedOut = s.postedOut := rfl
@[simp] theorem modH_chans (s : State) (f : Hart → Hart) : (modH s f).chans = s.chans := rfl
@[simp] theorem modH_varWorld (s : State) (f : Hart → Hart) : (modH s f).varWorld = s.varWorld := rfl
@[simp] theorem modH_vars (s : State) (f : Hart → Hart) : (modH s f).vars = s.vars := rfl
@[simp] theorem modH_svPosts (s : State) (f : Hart → Hart) : (modH s f).svPosts = s.svPosts := rfl
@[simp] theorem modH_svDrops (s : State) (f : Hart → Hart) : (modH s f).svDrops = s.svDrops := rfl
@[simp] theorem modH_queues (s : State) (f : Hart → Hart) : (modH s f).queues = s.queues := rfl
@[simp] theorem modH_workCount (s : State) (f : Hart → Hart) : (modH s f).workCount = s.workCount := rfl
@[simp] theorem modH_rotations (s : State) (f : Hart → Hart) : (modH s f).rotations = s.rotations := rfl
@[simp] theorem modH_queueErrs (s : State) (f : Hart → Hart) : (modH s f).queueErrs = s.queueErrs := rfl
@[simp] theorem modH_kernels (s : State) (f : Hart → Hart) : (modH s f).kernels = s.kernels := rfl
@[simp] theorem modH_freeSlots (s : State) (f : Hart → Hart) : (modH s f).freeSlots = s.freeSlots := rfl
@[simp] theorem modH_usedSlots (s : State) (f : Hart → Hart) : (modH s f).usedSlots = s.usedSlots := rfl
@[simp] theorem modH_sgens (s : State) (f : Hart → Hart) : (modH s f).sgens = s.sgens := rfl
@[simp] theorem modH_saveArea (s : State) (f : Hart → Hart) : (modH s f).saveArea = s.saveArea := rfl
@[simp] theorem modH_saveEcc (s : State) (f : Hart → Hart) : (modH s f).saveEcc = s.saveEcc := rfl
@[simp] theorem modH_sums (s : State) (f : Hart → Hart) : (modH s f).sums = s.sums := rfl
@[simp] theorem modH_sends (s : State) (f : Hart → Hart) : (modH s f).sends = s.sends := rfl
@[simp] theorem modH_notices (s : State) (f : Hart → Hart) : (modH s f).notices = s.notices := rfl
@[simp] theorem modH_ctxs (s : State) (f : Hart → Hart) : (modH s f).ctxs = s.ctxs := rfl
@[simp] theorem modH_frames (s : State) (f : Hart → Hart) : (modH s f).frames = s.frames := rfl
@[simp] theorem modH_poolFrames (s : State) (f : Hart → Hart) : (modH s f).poolFrames = s.poolFrames := rfl
@[simp] theorem modH_keys (s : State) (f : Hart → Hart) : (modH s f).keys = s.keys := rfl
@[simp] theorem modH_gates (s : State) (f : Hart → Hart) : (modH s f).gates = s.gates := rfl
@[simp] theorem modH_scrubs (s : State) (f : Hart → Hart) : (modH s f).scrubs = s.scrubs := rfl
@[simp] theorem modH_ports (s : State) (f : Hart → Hart) : (modH s f).ports = s.ports := rfl
@[simp] theorem modH_routes (s : State) (f : Hart → Hart) : (modH s f).routes = s.routes := rfl
@[simp] theorem modH_exports (s : State) (f : Hart → Hart) : (modH s f).exports = s.exports := rfl
@[simp] theorem modH_moves (s : State) (f : Hart → Hart) : (modH s f).moves = s.moves := rfl
@[simp] theorem modH_moveLog (s : State) (f : Hart → Hart) : (modH s f).moveLog = s.moveLog := rfl
@[simp] theorem modH_audit (s : State) (f : Hart → Hart) : (modH s f).audit = s.audit := rfl
@[simp] theorem modH_agents (s : State) (f : Hart → Hart) : (modH s f).agents = s.agents := rfl
@[simp] theorem modH_linkOut (s : State) (f : Hart → Hart) : (modH s f).linkOut = s.linkOut := rfl
@[simp] theorem modH_linkWaits (s : State) (f : Hart → Hart) : (modH s f).linkWaits = s.linkWaits := rfl
@[simp] theorem modH_hostDrops (s : State) (f : Hart → Hart) : (modH s f).hostDrops = s.hostDrops := rfl
@[simp] theorem modH_bw (s : State) (f : Hart → Hart) : (modH s f).bw = s.bw := rfl
@[simp] theorem modH_powerCap (s : State) (f : Hart → Hart) : (modH s f).powerCap = s.powerCap := rfl
@[simp] theorem modH_overCap (s : State) (f : Hart → Hart) : (modH s f).overCap = s.overCap := rfl
@[simp] theorem modH_monitors (s : State) (f : Hart → Hart) : (modH s f).monitors = s.monitors := rfl
@[simp] theorem modH_tripped (s : State) (f : Hart → Hart) : (modH s f).tripped = s.tripped := rfl
@[simp] theorem modH_ready (s : State) (f : Hart → Hart) : (modH s f).ready = s.ready := rfl
@[simp] theorem modH_tested (s : State) (f : Hart → Hart) : (modH s f).tested = s.tested := rfl
@[simp] theorem modH_settled (s : State) (f : Hart → Hart) : (modH s f).settled = s.settled := rfl
@[simp] theorem modH_yew (s : State) (f : Hart → Hart) : (modH s f).yew = s.yew := rfl
@[simp] theorem modH_larch (s : State) (f : Hart → Hart) : (modH s f).larch = s.larch := rfl
@[simp] theorem modH_device (s : State) (f : Hart → Hart) : (modH s f).device = s.device := rfl
@[simp] theorem modH_deviceFixed (s : State) (f : Hart → Hart) : (modH s f).deviceFixed = s.deviceFixed := rfl
@[simp] theorem modH_booting (s : State) (f : Hart → Hart) : (modH s f).booting = s.booting := rfl
@[simp] theorem modH_stacksHeld (s : State) (f : Hart → Hart) : (modH s f).stacksHeld = s.stacksHeld := rfl
@[simp] theorem modH_migrations (s : State) (f : Hart → Hart) : (modH s f).migrations = s.migrations := rfl
@[simp] theorem modH_told (s : State) (f : Hart → Hart) : (modH s f).told = s.told := rfl
@[simp] theorem modH_cycle (s : State) (f : Hart → Hart) : (modH s f).cycle = s.cycle := rfl
@[simp] theorem modH_schedule (s : State) (f : Hart → Hart) : (modH s f).schedule = s.schedule := rfl
@[simp] theorem modH_pending (s : State) (f : Hart → Hart) : (modH s f).pending = s.pending := rfl
@[simp] theorem modH_note (s : State) (f : Hart → Hart) : (modH s f).note = s.note := rfl
@[simp] theorem modH_fresh (s : State) (f : Hart → Hart) : (modH s f).fresh = s.fresh := rfl

/-! A change of its CSRs -/

@[simp] theorem modC_csr (s : State) (f : Csrs → Csrs) : (modC s f).h.csr = f s.h.csr := rfl
@[simp] theorem modC_others (s : State) (f : Csrs → Csrs) : (modC s f).others = s.others := rfl
@[simp] theorem modC_mem (s : State) (f : Csrs → Csrs) : (modC s f).mem = s.mem := rfl
@[simp] theorem modC_lmeta (s : State) (f : Csrs → Csrs) : (modC s f).lmeta = s.lmeta := rfl
@[simp] theorem modC_tiles (s : State) (f : Csrs → Csrs) : (modC s f).tiles = s.tiles := rfl
@[simp] theorem modC_clusters (s : State) (f : Csrs → Csrs) : (modC s f).clusters = s.clusters := rfl
@[simp] theorem modC_slices (s : State) (f : Csrs → Csrs) : (modC s f).slices = s.slices := rfl
@[simp] theorem modC_caps (s : State) (f : Csrs → Csrs) : (modC s f).caps = s.caps := rfl
@[simp] theorem modC_granuleCtx (s : State) (f : Csrs → Csrs) : (modC s f).granuleCtx = s.granuleCtx := rfl
@[simp] theorem modC_packets (s : State) (f : Csrs → Csrs) : (modC s f).packets = s.packets := rfl
@[simp] theorem modC_linkSeries (s : State) (f : Csrs → Csrs) : (modC s f).linkSeries = s.linkSeries := rfl
@[simp] theorem modC_expected (s : State) (f : Csrs → Csrs) : (modC s f).expected = s.expected := rfl
@[simp] theorem modC_relinked (s : State) (f : Csrs → Csrs) : (modC s f).relinked = s.relinked := rfl
@[simp] theorem modC_payloadLost (s : State) (f : Csrs → Csrs) : (modC s f).payloadLost = s.payloadLost := rfl
@[simp] theorem modC_faultedDfcnt (s : State) (f : Csrs → Csrs) : (modC s f).faultedDfcnt = s.faultedDfcnt := rfl
@[simp] theorem modC_acks (s : State) (f : Csrs → Csrs) : (modC s f).acks = s.acks := rfl
@[simp] theorem modC_rejections (s : State) (f : Csrs → Csrs) : (modC s f).rejections = s.rejections := rfl
@[simp] theorem modC_events (s : State) (f : Csrs → Csrs) : (modC s f).events = s.events := rfl
@[simp] theorem modC_postedOut (s : State) (f : Csrs → Csrs) : (modC s f).postedOut = s.postedOut := rfl
@[simp] theorem modC_chans (s : State) (f : Csrs → Csrs) : (modC s f).chans = s.chans := rfl
@[simp] theorem modC_varWorld (s : State) (f : Csrs → Csrs) : (modC s f).varWorld = s.varWorld := rfl
@[simp] theorem modC_vars (s : State) (f : Csrs → Csrs) : (modC s f).vars = s.vars := rfl
@[simp] theorem modC_svPosts (s : State) (f : Csrs → Csrs) : (modC s f).svPosts = s.svPosts := rfl
@[simp] theorem modC_svDrops (s : State) (f : Csrs → Csrs) : (modC s f).svDrops = s.svDrops := rfl
@[simp] theorem modC_queues (s : State) (f : Csrs → Csrs) : (modC s f).queues = s.queues := rfl
@[simp] theorem modC_workCount (s : State) (f : Csrs → Csrs) : (modC s f).workCount = s.workCount := rfl
@[simp] theorem modC_rotations (s : State) (f : Csrs → Csrs) : (modC s f).rotations = s.rotations := rfl
@[simp] theorem modC_queueErrs (s : State) (f : Csrs → Csrs) : (modC s f).queueErrs = s.queueErrs := rfl
@[simp] theorem modC_kernels (s : State) (f : Csrs → Csrs) : (modC s f).kernels = s.kernels := rfl
@[simp] theorem modC_freeSlots (s : State) (f : Csrs → Csrs) : (modC s f).freeSlots = s.freeSlots := rfl
@[simp] theorem modC_usedSlots (s : State) (f : Csrs → Csrs) : (modC s f).usedSlots = s.usedSlots := rfl
@[simp] theorem modC_sgens (s : State) (f : Csrs → Csrs) : (modC s f).sgens = s.sgens := rfl
@[simp] theorem modC_saveArea (s : State) (f : Csrs → Csrs) : (modC s f).saveArea = s.saveArea := rfl
@[simp] theorem modC_saveEcc (s : State) (f : Csrs → Csrs) : (modC s f).saveEcc = s.saveEcc := rfl
@[simp] theorem modC_sums (s : State) (f : Csrs → Csrs) : (modC s f).sums = s.sums := rfl
@[simp] theorem modC_sends (s : State) (f : Csrs → Csrs) : (modC s f).sends = s.sends := rfl
@[simp] theorem modC_notices (s : State) (f : Csrs → Csrs) : (modC s f).notices = s.notices := rfl
@[simp] theorem modC_ctxs (s : State) (f : Csrs → Csrs) : (modC s f).ctxs = s.ctxs := rfl
@[simp] theorem modC_frames (s : State) (f : Csrs → Csrs) : (modC s f).frames = s.frames := rfl
@[simp] theorem modC_poolFrames (s : State) (f : Csrs → Csrs) : (modC s f).poolFrames = s.poolFrames := rfl
@[simp] theorem modC_keys (s : State) (f : Csrs → Csrs) : (modC s f).keys = s.keys := rfl
@[simp] theorem modC_gates (s : State) (f : Csrs → Csrs) : (modC s f).gates = s.gates := rfl
@[simp] theorem modC_scrubs (s : State) (f : Csrs → Csrs) : (modC s f).scrubs = s.scrubs := rfl
@[simp] theorem modC_ports (s : State) (f : Csrs → Csrs) : (modC s f).ports = s.ports := rfl
@[simp] theorem modC_routes (s : State) (f : Csrs → Csrs) : (modC s f).routes = s.routes := rfl
@[simp] theorem modC_exports (s : State) (f : Csrs → Csrs) : (modC s f).exports = s.exports := rfl
@[simp] theorem modC_moves (s : State) (f : Csrs → Csrs) : (modC s f).moves = s.moves := rfl
@[simp] theorem modC_moveLog (s : State) (f : Csrs → Csrs) : (modC s f).moveLog = s.moveLog := rfl
@[simp] theorem modC_audit (s : State) (f : Csrs → Csrs) : (modC s f).audit = s.audit := rfl
@[simp] theorem modC_agents (s : State) (f : Csrs → Csrs) : (modC s f).agents = s.agents := rfl
@[simp] theorem modC_linkOut (s : State) (f : Csrs → Csrs) : (modC s f).linkOut = s.linkOut := rfl
@[simp] theorem modC_linkWaits (s : State) (f : Csrs → Csrs) : (modC s f).linkWaits = s.linkWaits := rfl
@[simp] theorem modC_hostDrops (s : State) (f : Csrs → Csrs) : (modC s f).hostDrops = s.hostDrops := rfl
@[simp] theorem modC_bw (s : State) (f : Csrs → Csrs) : (modC s f).bw = s.bw := rfl
@[simp] theorem modC_powerCap (s : State) (f : Csrs → Csrs) : (modC s f).powerCap = s.powerCap := rfl
@[simp] theorem modC_overCap (s : State) (f : Csrs → Csrs) : (modC s f).overCap = s.overCap := rfl
@[simp] theorem modC_monitors (s : State) (f : Csrs → Csrs) : (modC s f).monitors = s.monitors := rfl
@[simp] theorem modC_tripped (s : State) (f : Csrs → Csrs) : (modC s f).tripped = s.tripped := rfl
@[simp] theorem modC_ready (s : State) (f : Csrs → Csrs) : (modC s f).ready = s.ready := rfl
@[simp] theorem modC_tested (s : State) (f : Csrs → Csrs) : (modC s f).tested = s.tested := rfl
@[simp] theorem modC_settled (s : State) (f : Csrs → Csrs) : (modC s f).settled = s.settled := rfl
@[simp] theorem modC_yew (s : State) (f : Csrs → Csrs) : (modC s f).yew = s.yew := rfl
@[simp] theorem modC_larch (s : State) (f : Csrs → Csrs) : (modC s f).larch = s.larch := rfl
@[simp] theorem modC_device (s : State) (f : Csrs → Csrs) : (modC s f).device = s.device := rfl
@[simp] theorem modC_deviceFixed (s : State) (f : Csrs → Csrs) : (modC s f).deviceFixed = s.deviceFixed := rfl
@[simp] theorem modC_booting (s : State) (f : Csrs → Csrs) : (modC s f).booting = s.booting := rfl
@[simp] theorem modC_stacksHeld (s : State) (f : Csrs → Csrs) : (modC s f).stacksHeld = s.stacksHeld := rfl
@[simp] theorem modC_migrations (s : State) (f : Csrs → Csrs) : (modC s f).migrations = s.migrations := rfl
@[simp] theorem modC_told (s : State) (f : Csrs → Csrs) : (modC s f).told = s.told := rfl
@[simp] theorem modC_cycle (s : State) (f : Csrs → Csrs) : (modC s f).cycle = s.cycle := rfl
@[simp] theorem modC_schedule (s : State) (f : Csrs → Csrs) : (modC s f).schedule = s.schedule := rfl
@[simp] theorem modC_pending (s : State) (f : Csrs → Csrs) : (modC s f).pending = s.pending := rfl
@[simp] theorem modC_note (s : State) (f : Csrs → Csrs) : (modC s f).note = s.note := rfl
@[simp] theorem modC_fresh (s : State) (f : Csrs → Csrs) : (modC s f).fresh = s.fresh := rfl
@[simp] theorem modC_h_live (s : State) (f : Csrs → Csrs) : (modC s f).h.live = s.h.live := rfl
@[simp] theorem modC_h_loc (s : State) (f : Csrs → Csrs) : (modC s f).h.loc = s.h.loc := rfl
@[simp] theorem modC_h_tile (s : State) (f : Csrs → Csrs) : (modC s f).h.tile = s.h.tile := rfl
@[simp] theorem modC_h_lastTile (s : State) (f : Csrs → Csrs) : (modC s f).h.lastTile = s.h.lastTile := rfl
@[simp] theorem modC_h_ctx (s : State) (f : Csrs → Csrs) : (modC s f).h.ctx = s.h.ctx := rfl
@[simp] theorem modC_h_mode (s : State) (f : Csrs → Csrs) : (modC s f).h.mode = s.h.mode := rfl
@[simp] theorem modC_h_pc (s : State) (f : Csrs → Csrs) : (modC s f).h.pc = s.h.pc := rfl
@[simp] theorem modC_h_ir (s : State) (f : Csrs → Csrs) : (modC s f).h.ir = s.h.ir := rfl
@[simp] theorem modC_h_x (s : State) (f : Csrs → Csrs) : (modC s f).h.x = s.h.x := rfl
@[simp] theorem modC_h_f (s : State) (f : Csrs → Csrs) : (modC s f).h.f = s.h.f := rfl
@[simp] theorem modC_h_v (s : State) (f : Csrs → Csrs) : (modC s f).h.v = s.h.v := rfl
@[simp] theorem modC_h_resv (s : State) (f : Csrs → Csrs) : (modC s f).h.resv = s.h.resv := rfl
@[simp] theorem modC_h_wfi (s : State) (f : Csrs → Csrs) : (modC s f).h.wfi = s.h.wfi := rfl
@[simp] theorem modC_h_holdings (s : State) (f : Csrs → Csrs) : (modC s f).h.holdings = s.h.holdings := rfl
@[simp] theorem modC_h_port (s : State) (f : Csrs → Csrs) : (modC s f).h.port = s.h.port := rfl
@[simp] theorem modC_h_ring (s : State) (f : Csrs → Csrs) : (modC s f).h.ring = s.h.ring := rfl
@[simp] theorem modC_h_ringCap (s : State) (f : Csrs → Csrs) : (modC s f).h.ringCap = s.h.ringCap := rfl
@[simp] theorem modC_h_acc0 (s : State) (f : Csrs → Csrs) : (modC s f).h.acc0 = s.h.acc0 := rfl
@[simp] theorem modC_h_acc1 (s : State) (f : Csrs → Csrs) : (modC s f).h.acc1 = s.h.acc1 := rfl
@[simp] theorem modC_h_mpart (s : State) (f : Csrs → Csrs) : (modC s f).h.mpart = s.h.mpart := rfl
@[simp] theorem modC_h_cbs (s : State) (f : Csrs → Csrs) : (modC s f).h.cbs = s.h.cbs := rfl
@[simp] theorem modC_h_cbufs (s : State) (f : Csrs → Csrs) : (modC s f).h.cbufs = s.h.cbufs := rfl
@[simp] theorem modC_h_cmds (s : State) (f : Csrs → Csrs) : (modC s f).h.cmds = s.h.cmds := rfl
@[simp] theorem modC_h_nextCmd (s : State) (f : Csrs → Csrs) : (modC s f).h.nextCmd = s.h.nextCmd := rfl
@[simp] theorem modC_h_ticket (s : State) (f : Csrs → Csrs) : (modC s f).h.ticket = s.h.ticket := rfl
@[simp] theorem modC_h_draws (s : State) (f : Csrs → Csrs) : (modC s f).h.draws = s.h.draws := rfl
@[simp] theorem modC_h_stOut (s : State) (f : Csrs → Csrs) : (modC s f).h.stOut = s.h.stOut := rfl
@[simp] theorem modC_h_ldOut (s : State) (f : Csrs → Csrs) : (modC s f).h.ldOut = s.h.ldOut := rfl
@[simp] theorem modC_h_dpOut (s : State) (f : Csrs → Csrs) : (modC s f).h.dpOut = s.h.dpOut := rfl
@[simp] theorem modC_h_sdOut (s : State) (f : Csrs → Csrs) : (modC s f).h.sdOut = s.h.sdOut := rfl
@[simp] theorem modC_h_groups (s : State) (f : Csrs → Csrs) : (modC s f).h.groups = s.h.groups := rfl
@[simp] theorem modC_h_barRecs (s : State) (f : Csrs → Csrs) : (modC s f).h.barRecs = s.h.barRecs := rfl
@[simp] theorem modC_h_gang (s : State) (f : Csrs → Csrs) : (modC s f).h.gang = s.h.gang := rfl
@[simp] theorem modC_h_fuse (s : State) (f : Csrs → Csrs) : (modC s f).h.fuse = s.h.fuse := rfl
@[simp] theorem modC_h_run (s : State) (f : Csrs → Csrs) : (modC s f).h.run = s.h.run := rfl
@[simp] theorem modC_h_schedDirty (s : State) (f : Csrs → Csrs) : (modC s f).h.schedDirty = s.h.schedDirty := rfl
@[simp] theorem modC_h_softDirty (s : State) (f : Csrs → Csrs) : (modC s f).h.softDirty = s.h.softDirty := rfl
@[simp] theorem modC_h_softBanks (s : State) (f : Csrs → Csrs) : (modC s f).h.softBanks = s.h.softBanks := rfl
@[simp] theorem modC_h_saveCount (s : State) (f : Csrs → Csrs) : (modC s f).h.saveCount = s.h.saveCount := rfl
@[simp] theorem modC_h_chain (s : State) (f : Csrs → Csrs) : (modC s f).h.chain = s.h.chain := rfl
@[simp] theorem modC_h_sleepFrom (s : State) (f : Csrs → Csrs) : (modC s f).h.sleepFrom = s.h.sleepFrom := rfl
@[simp] theorem modC_h_timedOut (s : State) (f : Csrs → Csrs) : (modC s f).h.timedOut = s.h.timedOut := rfl
@[simp] theorem modC_h_mid (s : State) (f : Csrs → Csrs) : (modC s f).h.mid = s.h.mid := rfl
@[simp] theorem modC_h_barAt (s : State) (f : Csrs → Csrs) : (modC s f).h.barAt = s.h.barAt := rfl
@[simp] theorem modC_h_svAt (s : State) (f : Csrs → Csrs) : (modC s f).h.svAt = s.h.svAt := rfl
@[simp] theorem modC_h_evWait (s : State) (f : Csrs → Csrs) : (modC s f).h.evWait = s.h.evWait := rfl

/-! The dirty bits of an image group -/

@[simp] theorem mark_others (s : State) (g : Fin 16) : (mark s g).others = s.others := rfl
@[simp] theorem mark_mem (s : State) (g : Fin 16) : (mark s g).mem = s.mem := rfl
@[simp] theorem mark_lmeta (s : State) (g : Fin 16) : (mark s g).lmeta = s.lmeta := rfl
@[simp] theorem mark_tiles (s : State) (g : Fin 16) : (mark s g).tiles = s.tiles := rfl
@[simp] theorem mark_clusters (s : State) (g : Fin 16) : (mark s g).clusters = s.clusters := rfl
@[simp] theorem mark_slices (s : State) (g : Fin 16) : (mark s g).slices = s.slices := rfl
@[simp] theorem mark_caps (s : State) (g : Fin 16) : (mark s g).caps = s.caps := rfl
@[simp] theorem mark_granuleCtx (s : State) (g : Fin 16) : (mark s g).granuleCtx = s.granuleCtx := rfl
@[simp] theorem mark_packets (s : State) (g : Fin 16) : (mark s g).packets = s.packets := rfl
@[simp] theorem mark_linkSeries (s : State) (g : Fin 16) : (mark s g).linkSeries = s.linkSeries := rfl
@[simp] theorem mark_expected (s : State) (g : Fin 16) : (mark s g).expected = s.expected := rfl
@[simp] theorem mark_relinked (s : State) (g : Fin 16) : (mark s g).relinked = s.relinked := rfl
@[simp] theorem mark_payloadLost (s : State) (g : Fin 16) : (mark s g).payloadLost = s.payloadLost := rfl
@[simp] theorem mark_faultedDfcnt (s : State) (g : Fin 16) : (mark s g).faultedDfcnt = s.faultedDfcnt := rfl
@[simp] theorem mark_acks (s : State) (g : Fin 16) : (mark s g).acks = s.acks := rfl
@[simp] theorem mark_rejections (s : State) (g : Fin 16) : (mark s g).rejections = s.rejections := rfl
@[simp] theorem mark_events (s : State) (g : Fin 16) : (mark s g).events = s.events := rfl
@[simp] theorem mark_postedOut (s : State) (g : Fin 16) : (mark s g).postedOut = s.postedOut := rfl
@[simp] theorem mark_chans (s : State) (g : Fin 16) : (mark s g).chans = s.chans := rfl
@[simp] theorem mark_varWorld (s : State) (g : Fin 16) : (mark s g).varWorld = s.varWorld := rfl
@[simp] theorem mark_vars (s : State) (g : Fin 16) : (mark s g).vars = s.vars := rfl
@[simp] theorem mark_svPosts (s : State) (g : Fin 16) : (mark s g).svPosts = s.svPosts := rfl
@[simp] theorem mark_svDrops (s : State) (g : Fin 16) : (mark s g).svDrops = s.svDrops := rfl
@[simp] theorem mark_queues (s : State) (g : Fin 16) : (mark s g).queues = s.queues := rfl
@[simp] theorem mark_workCount (s : State) (g : Fin 16) : (mark s g).workCount = s.workCount := rfl
@[simp] theorem mark_rotations (s : State) (g : Fin 16) : (mark s g).rotations = s.rotations := rfl
@[simp] theorem mark_queueErrs (s : State) (g : Fin 16) : (mark s g).queueErrs = s.queueErrs := rfl
@[simp] theorem mark_kernels (s : State) (g : Fin 16) : (mark s g).kernels = s.kernels := rfl
@[simp] theorem mark_freeSlots (s : State) (g : Fin 16) : (mark s g).freeSlots = s.freeSlots := rfl
@[simp] theorem mark_usedSlots (s : State) (g : Fin 16) : (mark s g).usedSlots = s.usedSlots := rfl
@[simp] theorem mark_sgens (s : State) (g : Fin 16) : (mark s g).sgens = s.sgens := rfl
@[simp] theorem mark_saveArea (s : State) (g : Fin 16) : (mark s g).saveArea = s.saveArea := rfl
@[simp] theorem mark_saveEcc (s : State) (g : Fin 16) : (mark s g).saveEcc = s.saveEcc := rfl
@[simp] theorem mark_sums (s : State) (g : Fin 16) : (mark s g).sums = s.sums := rfl
@[simp] theorem mark_sends (s : State) (g : Fin 16) : (mark s g).sends = s.sends := rfl
@[simp] theorem mark_notices (s : State) (g : Fin 16) : (mark s g).notices = s.notices := rfl
@[simp] theorem mark_ctxs (s : State) (g : Fin 16) : (mark s g).ctxs = s.ctxs := rfl
@[simp] theorem mark_frames (s : State) (g : Fin 16) : (mark s g).frames = s.frames := rfl
@[simp] theorem mark_poolFrames (s : State) (g : Fin 16) : (mark s g).poolFrames = s.poolFrames := rfl
@[simp] theorem mark_keys (s : State) (g : Fin 16) : (mark s g).keys = s.keys := rfl
@[simp] theorem mark_gates (s : State) (g : Fin 16) : (mark s g).gates = s.gates := rfl
@[simp] theorem mark_scrubs (s : State) (g : Fin 16) : (mark s g).scrubs = s.scrubs := rfl
@[simp] theorem mark_ports (s : State) (g : Fin 16) : (mark s g).ports = s.ports := rfl
@[simp] theorem mark_routes (s : State) (g : Fin 16) : (mark s g).routes = s.routes := rfl
@[simp] theorem mark_exports (s : State) (g : Fin 16) : (mark s g).exports = s.exports := rfl
@[simp] theorem mark_moves (s : State) (g : Fin 16) : (mark s g).moves = s.moves := rfl
@[simp] theorem mark_moveLog (s : State) (g : Fin 16) : (mark s g).moveLog = s.moveLog := rfl
@[simp] theorem mark_audit (s : State) (g : Fin 16) : (mark s g).audit = s.audit := rfl
@[simp] theorem mark_agents (s : State) (g : Fin 16) : (mark s g).agents = s.agents := rfl
@[simp] theorem mark_linkOut (s : State) (g : Fin 16) : (mark s g).linkOut = s.linkOut := rfl
@[simp] theorem mark_linkWaits (s : State) (g : Fin 16) : (mark s g).linkWaits = s.linkWaits := rfl
@[simp] theorem mark_hostDrops (s : State) (g : Fin 16) : (mark s g).hostDrops = s.hostDrops := rfl
@[simp] theorem mark_bw (s : State) (g : Fin 16) : (mark s g).bw = s.bw := rfl
@[simp] theorem mark_powerCap (s : State) (g : Fin 16) : (mark s g).powerCap = s.powerCap := rfl
@[simp] theorem mark_overCap (s : State) (g : Fin 16) : (mark s g).overCap = s.overCap := rfl
@[simp] theorem mark_monitors (s : State) (g : Fin 16) : (mark s g).monitors = s.monitors := rfl
@[simp] theorem mark_tripped (s : State) (g : Fin 16) : (mark s g).tripped = s.tripped := rfl
@[simp] theorem mark_ready (s : State) (g : Fin 16) : (mark s g).ready = s.ready := rfl
@[simp] theorem mark_tested (s : State) (g : Fin 16) : (mark s g).tested = s.tested := rfl
@[simp] theorem mark_settled (s : State) (g : Fin 16) : (mark s g).settled = s.settled := rfl
@[simp] theorem mark_yew (s : State) (g : Fin 16) : (mark s g).yew = s.yew := rfl
@[simp] theorem mark_larch (s : State) (g : Fin 16) : (mark s g).larch = s.larch := rfl
@[simp] theorem mark_device (s : State) (g : Fin 16) : (mark s g).device = s.device := rfl
@[simp] theorem mark_deviceFixed (s : State) (g : Fin 16) : (mark s g).deviceFixed = s.deviceFixed := rfl
@[simp] theorem mark_booting (s : State) (g : Fin 16) : (mark s g).booting = s.booting := rfl
@[simp] theorem mark_stacksHeld (s : State) (g : Fin 16) : (mark s g).stacksHeld = s.stacksHeld := rfl
@[simp] theorem mark_migrations (s : State) (g : Fin 16) : (mark s g).migrations = s.migrations := rfl
@[simp] theorem mark_told (s : State) (g : Fin 16) : (mark s g).told = s.told := rfl
@[simp] theorem mark_cycle (s : State) (g : Fin 16) : (mark s g).cycle = s.cycle := rfl
@[simp] theorem mark_schedule (s : State) (g : Fin 16) : (mark s g).schedule = s.schedule := rfl
@[simp] theorem mark_pending (s : State) (g : Fin 16) : (mark s g).pending = s.pending := rfl
@[simp] theorem mark_note (s : State) (g : Fin 16) : (mark s g).note = s.note := rfl
@[simp] theorem mark_fresh (s : State) (g : Fin 16) : (mark s g).fresh = s.fresh := rfl
@[simp] theorem mark_h_live (s : State) (g : Fin 16) : (mark s g).h.live = s.h.live := rfl
@[simp] theorem mark_h_loc (s : State) (g : Fin 16) : (mark s g).h.loc = s.h.loc := rfl
@[simp] theorem mark_h_tile (s : State) (g : Fin 16) : (mark s g).h.tile = s.h.tile := rfl
@[simp] theorem mark_h_lastTile (s : State) (g : Fin 16) : (mark s g).h.lastTile = s.h.lastTile := rfl
@[simp] theorem mark_h_ctx (s : State) (g : Fin 16) : (mark s g).h.ctx = s.h.ctx := rfl
@[simp] theorem mark_h_mode (s : State) (g : Fin 16) : (mark s g).h.mode = s.h.mode := rfl
@[simp] theorem mark_h_pc (s : State) (g : Fin 16) : (mark s g).h.pc = s.h.pc := rfl
@[simp] theorem mark_h_ir (s : State) (g : Fin 16) : (mark s g).h.ir = s.h.ir := rfl
@[simp] theorem mark_h_x (s : State) (g : Fin 16) : (mark s g).h.x = s.h.x := rfl
@[simp] theorem mark_h_f (s : State) (g : Fin 16) : (mark s g).h.f = s.h.f := rfl
@[simp] theorem mark_h_v (s : State) (g : Fin 16) : (mark s g).h.v = s.h.v := rfl
@[simp] theorem mark_h_csr (s : State) (g : Fin 16) : (mark s g).h.csr = s.h.csr := rfl
@[simp] theorem mark_h_resv (s : State) (g : Fin 16) : (mark s g).h.resv = s.h.resv := rfl
@[simp] theorem mark_h_wfi (s : State) (g : Fin 16) : (mark s g).h.wfi = s.h.wfi := rfl
@[simp] theorem mark_h_holdings (s : State) (g : Fin 16) : (mark s g).h.holdings = s.h.holdings := rfl
@[simp] theorem mark_h_port (s : State) (g : Fin 16) : (mark s g).h.port = s.h.port := rfl
@[simp] theorem mark_h_ring (s : State) (g : Fin 16) : (mark s g).h.ring = s.h.ring := rfl
@[simp] theorem mark_h_ringCap (s : State) (g : Fin 16) : (mark s g).h.ringCap = s.h.ringCap := rfl
@[simp] theorem mark_h_acc0 (s : State) (g : Fin 16) : (mark s g).h.acc0 = s.h.acc0 := rfl
@[simp] theorem mark_h_acc1 (s : State) (g : Fin 16) : (mark s g).h.acc1 = s.h.acc1 := rfl
@[simp] theorem mark_h_mpart (s : State) (g : Fin 16) : (mark s g).h.mpart = s.h.mpart := rfl
@[simp] theorem mark_h_cbs (s : State) (g : Fin 16) : (mark s g).h.cbs = s.h.cbs := rfl
@[simp] theorem mark_h_cbufs (s : State) (g : Fin 16) : (mark s g).h.cbufs = s.h.cbufs := rfl
@[simp] theorem mark_h_cmds (s : State) (g : Fin 16) : (mark s g).h.cmds = s.h.cmds := rfl
@[simp] theorem mark_h_nextCmd (s : State) (g : Fin 16) : (mark s g).h.nextCmd = s.h.nextCmd := rfl
@[simp] theorem mark_h_ticket (s : State) (g : Fin 16) : (mark s g).h.ticket = s.h.ticket := rfl
@[simp] theorem mark_h_draws (s : State) (g : Fin 16) : (mark s g).h.draws = s.h.draws := rfl
@[simp] theorem mark_h_stOut (s : State) (g : Fin 16) : (mark s g).h.stOut = s.h.stOut := rfl
@[simp] theorem mark_h_ldOut (s : State) (g : Fin 16) : (mark s g).h.ldOut = s.h.ldOut := rfl
@[simp] theorem mark_h_dpOut (s : State) (g : Fin 16) : (mark s g).h.dpOut = s.h.dpOut := rfl
@[simp] theorem mark_h_sdOut (s : State) (g : Fin 16) : (mark s g).h.sdOut = s.h.sdOut := rfl
@[simp] theorem mark_h_groups (s : State) (g : Fin 16) : (mark s g).h.groups = s.h.groups := rfl
@[simp] theorem mark_h_barRecs (s : State) (g : Fin 16) : (mark s g).h.barRecs = s.h.barRecs := rfl
@[simp] theorem mark_h_gang (s : State) (g : Fin 16) : (mark s g).h.gang = s.h.gang := rfl
@[simp] theorem mark_h_fuse (s : State) (g : Fin 16) : (mark s g).h.fuse = s.h.fuse := rfl
@[simp] theorem mark_h_run (s : State) (g : Fin 16) : (mark s g).h.run = s.h.run := rfl
@[simp] theorem mark_h_schedDirty (s : State) (g : Fin 16) : (mark s g).h.schedDirty = s.h.schedDirty ||| (1#16 <<< g.val) := rfl
@[simp] theorem mark_h_softDirty (s : State) (g : Fin 16) : (mark s g).h.softDirty = s.h.softDirty ||| (1#16 <<< g.val) := rfl
@[simp] theorem mark_h_softBanks (s : State) (g : Fin 16) : (mark s g).h.softBanks = s.h.softBanks := rfl
@[simp] theorem mark_h_saveCount (s : State) (g : Fin 16) : (mark s g).h.saveCount = s.h.saveCount := rfl
@[simp] theorem mark_h_chain (s : State) (g : Fin 16) : (mark s g).h.chain = s.h.chain := rfl
@[simp] theorem mark_h_sleepFrom (s : State) (g : Fin 16) : (mark s g).h.sleepFrom = s.h.sleepFrom := rfl
@[simp] theorem mark_h_timedOut (s : State) (g : Fin 16) : (mark s g).h.timedOut = s.h.timedOut := rfl
@[simp] theorem mark_h_mid (s : State) (g : Fin 16) : (mark s g).h.mid = s.h.mid := rfl
@[simp] theorem mark_h_barAt (s : State) (g : Fin 16) : (mark s g).h.barAt = s.h.barAt := rfl
@[simp] theorem mark_h_svAt (s : State) (g : Fin 16) : (mark s g).h.svAt = s.h.svAt := rfl
@[simp] theorem mark_h_evWait (s : State) (g : Fin 16) : (mark s g).h.evWait = s.h.evWait := rfl

/-! The pc and the retired count after an instruction -/

@[simp] theorem advance_others (s : State) : (advance s).others = s.others := rfl
@[simp] theorem advance_mem (s : State) : (advance s).mem = s.mem := rfl
@[simp] theorem advance_lmeta (s : State) : (advance s).lmeta = s.lmeta := rfl
@[simp] theorem advance_tiles (s : State) : (advance s).tiles = s.tiles := rfl
@[simp] theorem advance_clusters (s : State) : (advance s).clusters = s.clusters := rfl
@[simp] theorem advance_slices (s : State) : (advance s).slices = s.slices := rfl
@[simp] theorem advance_caps (s : State) : (advance s).caps = s.caps := rfl
@[simp] theorem advance_granuleCtx (s : State) : (advance s).granuleCtx = s.granuleCtx := rfl
@[simp] theorem advance_packets (s : State) : (advance s).packets = s.packets := rfl
@[simp] theorem advance_linkSeries (s : State) : (advance s).linkSeries = s.linkSeries := rfl
@[simp] theorem advance_expected (s : State) : (advance s).expected = s.expected := rfl
@[simp] theorem advance_relinked (s : State) : (advance s).relinked = s.relinked := rfl
@[simp] theorem advance_payloadLost (s : State) : (advance s).payloadLost = s.payloadLost := rfl
@[simp] theorem advance_faultedDfcnt (s : State) : (advance s).faultedDfcnt = s.faultedDfcnt := rfl
@[simp] theorem advance_acks (s : State) : (advance s).acks = s.acks := rfl
@[simp] theorem advance_rejections (s : State) : (advance s).rejections = s.rejections := rfl
@[simp] theorem advance_events (s : State) : (advance s).events = s.events := rfl
@[simp] theorem advance_postedOut (s : State) : (advance s).postedOut = s.postedOut := rfl
@[simp] theorem advance_chans (s : State) : (advance s).chans = s.chans := rfl
@[simp] theorem advance_varWorld (s : State) : (advance s).varWorld = s.varWorld := rfl
@[simp] theorem advance_vars (s : State) : (advance s).vars = s.vars := rfl
@[simp] theorem advance_svPosts (s : State) : (advance s).svPosts = s.svPosts := rfl
@[simp] theorem advance_svDrops (s : State) : (advance s).svDrops = s.svDrops := rfl
@[simp] theorem advance_queues (s : State) : (advance s).queues = s.queues := rfl
@[simp] theorem advance_workCount (s : State) : (advance s).workCount = s.workCount := rfl
@[simp] theorem advance_rotations (s : State) : (advance s).rotations = s.rotations := rfl
@[simp] theorem advance_queueErrs (s : State) : (advance s).queueErrs = s.queueErrs := rfl
@[simp] theorem advance_kernels (s : State) : (advance s).kernels = s.kernels := rfl
@[simp] theorem advance_freeSlots (s : State) : (advance s).freeSlots = s.freeSlots := rfl
@[simp] theorem advance_usedSlots (s : State) : (advance s).usedSlots = s.usedSlots := rfl
@[simp] theorem advance_sgens (s : State) : (advance s).sgens = s.sgens := rfl
@[simp] theorem advance_saveArea (s : State) : (advance s).saveArea = s.saveArea := rfl
@[simp] theorem advance_saveEcc (s : State) : (advance s).saveEcc = s.saveEcc := rfl
@[simp] theorem advance_sums (s : State) : (advance s).sums = s.sums := rfl
@[simp] theorem advance_sends (s : State) : (advance s).sends = s.sends := rfl
@[simp] theorem advance_notices (s : State) : (advance s).notices = s.notices := rfl
@[simp] theorem advance_ctxs (s : State) : (advance s).ctxs = s.ctxs := rfl
@[simp] theorem advance_frames (s : State) : (advance s).frames = s.frames := rfl
@[simp] theorem advance_poolFrames (s : State) : (advance s).poolFrames = s.poolFrames := rfl
@[simp] theorem advance_keys (s : State) : (advance s).keys = s.keys := rfl
@[simp] theorem advance_gates (s : State) : (advance s).gates = s.gates := rfl
@[simp] theorem advance_scrubs (s : State) : (advance s).scrubs = s.scrubs := rfl
@[simp] theorem advance_ports (s : State) : (advance s).ports = s.ports := rfl
@[simp] theorem advance_routes (s : State) : (advance s).routes = s.routes := rfl
@[simp] theorem advance_exports (s : State) : (advance s).exports = s.exports := rfl
@[simp] theorem advance_moves (s : State) : (advance s).moves = s.moves := rfl
@[simp] theorem advance_moveLog (s : State) : (advance s).moveLog = s.moveLog := rfl
@[simp] theorem advance_audit (s : State) : (advance s).audit = s.audit := rfl
@[simp] theorem advance_agents (s : State) : (advance s).agents = s.agents := rfl
@[simp] theorem advance_linkOut (s : State) : (advance s).linkOut = s.linkOut := rfl
@[simp] theorem advance_linkWaits (s : State) : (advance s).linkWaits = s.linkWaits := rfl
@[simp] theorem advance_hostDrops (s : State) : (advance s).hostDrops = s.hostDrops := rfl
@[simp] theorem advance_bw (s : State) : (advance s).bw = s.bw := rfl
@[simp] theorem advance_powerCap (s : State) : (advance s).powerCap = s.powerCap := rfl
@[simp] theorem advance_overCap (s : State) : (advance s).overCap = s.overCap := rfl
@[simp] theorem advance_monitors (s : State) : (advance s).monitors = s.monitors := rfl
@[simp] theorem advance_tripped (s : State) : (advance s).tripped = s.tripped := rfl
@[simp] theorem advance_ready (s : State) : (advance s).ready = s.ready := rfl
@[simp] theorem advance_tested (s : State) : (advance s).tested = s.tested := rfl
@[simp] theorem advance_settled (s : State) : (advance s).settled = s.settled := rfl
@[simp] theorem advance_yew (s : State) : (advance s).yew = s.yew := rfl
@[simp] theorem advance_larch (s : State) : (advance s).larch = s.larch := rfl
@[simp] theorem advance_device (s : State) : (advance s).device = s.device := rfl
@[simp] theorem advance_deviceFixed (s : State) : (advance s).deviceFixed = s.deviceFixed := rfl
@[simp] theorem advance_booting (s : State) : (advance s).booting = s.booting := rfl
@[simp] theorem advance_stacksHeld (s : State) : (advance s).stacksHeld = s.stacksHeld := rfl
@[simp] theorem advance_migrations (s : State) : (advance s).migrations = s.migrations := rfl
@[simp] theorem advance_told (s : State) : (advance s).told = s.told := rfl
@[simp] theorem advance_cycle (s : State) : (advance s).cycle = s.cycle := rfl
@[simp] theorem advance_schedule (s : State) : (advance s).schedule = s.schedule := rfl
@[simp] theorem advance_pending (s : State) : (advance s).pending = s.pending := rfl
@[simp] theorem advance_note (s : State) : (advance s).note = s.note := rfl
@[simp] theorem advance_fresh (s : State) : (advance s).fresh = s.fresh := rfl
@[simp] theorem advance_h_live (s : State) : (advance s).h.live = s.h.live := rfl
@[simp] theorem advance_h_loc (s : State) : (advance s).h.loc = s.h.loc := rfl
@[simp] theorem advance_h_tile (s : State) : (advance s).h.tile = s.h.tile := rfl
@[simp] theorem advance_h_lastTile (s : State) : (advance s).h.lastTile = s.h.lastTile := rfl
@[simp] theorem advance_h_ctx (s : State) : (advance s).h.ctx = s.h.ctx := rfl
@[simp] theorem advance_h_mode (s : State) : (advance s).h.mode = s.h.mode := rfl
@[simp] theorem advance_h_pc (s : State) : (advance s).h.pc = s.h.pc + 4 := rfl
@[simp] theorem advance_h_ir (s : State) : (advance s).h.ir = s.h.ir := rfl
@[simp] theorem advance_h_x (s : State) : (advance s).h.x = s.h.x := rfl
@[simp] theorem advance_h_f (s : State) : (advance s).h.f = s.h.f := rfl
@[simp] theorem advance_h_v (s : State) : (advance s).h.v = s.h.v := rfl
@[simp] theorem advance_h_resv (s : State) : (advance s).h.resv = s.h.resv := rfl
@[simp] theorem advance_h_wfi (s : State) : (advance s).h.wfi = s.h.wfi := rfl
@[simp] theorem advance_h_holdings (s : State) : (advance s).h.holdings = s.h.holdings := rfl
@[simp] theorem advance_h_port (s : State) : (advance s).h.port = s.h.port := rfl
@[simp] theorem advance_h_ring (s : State) : (advance s).h.ring = s.h.ring := rfl
@[simp] theorem advance_h_ringCap (s : State) : (advance s).h.ringCap = s.h.ringCap := rfl
@[simp] theorem advance_h_acc0 (s : State) : (advance s).h.acc0 = s.h.acc0 := rfl
@[simp] theorem advance_h_acc1 (s : State) : (advance s).h.acc1 = s.h.acc1 := rfl
@[simp] theorem advance_h_mpart (s : State) : (advance s).h.mpart = s.h.mpart := rfl
@[simp] theorem advance_h_cbs (s : State) : (advance s).h.cbs = s.h.cbs := rfl
@[simp] theorem advance_h_cbufs (s : State) : (advance s).h.cbufs = s.h.cbufs := rfl
@[simp] theorem advance_h_cmds (s : State) : (advance s).h.cmds = s.h.cmds := rfl
@[simp] theorem advance_h_nextCmd (s : State) : (advance s).h.nextCmd = s.h.nextCmd := rfl
@[simp] theorem advance_h_ticket (s : State) : (advance s).h.ticket = s.h.ticket := rfl
@[simp] theorem advance_h_draws (s : State) : (advance s).h.draws = s.h.draws := rfl
@[simp] theorem advance_h_stOut (s : State) : (advance s).h.stOut = s.h.stOut := rfl
@[simp] theorem advance_h_ldOut (s : State) : (advance s).h.ldOut = s.h.ldOut := rfl
@[simp] theorem advance_h_dpOut (s : State) : (advance s).h.dpOut = s.h.dpOut := rfl
@[simp] theorem advance_h_sdOut (s : State) : (advance s).h.sdOut = s.h.sdOut := rfl
@[simp] theorem advance_h_groups (s : State) : (advance s).h.groups = s.h.groups := rfl
@[simp] theorem advance_h_barRecs (s : State) : (advance s).h.barRecs = s.h.barRecs := rfl
@[simp] theorem advance_h_gang (s : State) : (advance s).h.gang = s.h.gang := rfl
@[simp] theorem advance_h_fuse (s : State) : (advance s).h.fuse = s.h.fuse := rfl
@[simp] theorem advance_h_run (s : State) : (advance s).h.run = s.h.run := rfl
@[simp] theorem advance_h_schedDirty (s : State) : (advance s).h.schedDirty = s.h.schedDirty := rfl
@[simp] theorem advance_h_softDirty (s : State) : (advance s).h.softDirty = s.h.softDirty := rfl
@[simp] theorem advance_h_softBanks (s : State) : (advance s).h.softBanks = s.h.softBanks := rfl
@[simp] theorem advance_h_saveCount (s : State) : (advance s).h.saveCount = s.h.saveCount := rfl
@[simp] theorem advance_h_chain (s : State) : (advance s).h.chain = s.h.chain := rfl
@[simp] theorem advance_h_sleepFrom (s : State) : (advance s).h.sleepFrom = s.h.sleepFrom := rfl
@[simp] theorem advance_h_timedOut (s : State) : (advance s).h.timedOut = s.h.timedOut := rfl
@[simp] theorem advance_h_mid (s : State) : (advance s).h.mid = s.h.mid := rfl
@[simp] theorem advance_h_barAt (s : State) : (advance s).h.barAt = s.h.barAt := rfl
@[simp] theorem advance_h_svAt (s : State) : (advance s).h.svAt = s.h.svAt := rfl
@[simp] theorem advance_h_evWait (s : State) : (advance s).h.evWait = s.h.evWait := rfl
@[simp] theorem advance_h_csr (s : State) : (advance s).h.csr = { s.h.csr with instret := s.h.csr.instret + 1 } := rfl

/-! How an instruction or an event ends -/

@[simp] theorem retired_others (s : State) : (retired s).others = s.others := rfl
@[simp] theorem occur_others (s : State) : (occur s).others = s.others := rfl
@[simp] theorem stalled_others (s : State) : (stalled s).others = s.others := rfl
@[simp] theorem retired_mem (s : State) : (retired s).mem = s.mem := rfl
@[simp] theorem occur_mem (s : State) : (occur s).mem = s.mem := rfl
@[simp] theorem stalled_mem (s : State) : (stalled s).mem = s.mem := rfl
@[simp] theorem retired_lmeta (s : State) : (retired s).lmeta = s.lmeta := rfl
@[simp] theorem occur_lmeta (s : State) : (occur s).lmeta = s.lmeta := rfl
@[simp] theorem stalled_lmeta (s : State) : (stalled s).lmeta = s.lmeta := rfl
@[simp] theorem retired_tiles (s : State) : (retired s).tiles = s.tiles := rfl
@[simp] theorem occur_tiles (s : State) : (occur s).tiles = s.tiles := rfl
@[simp] theorem stalled_tiles (s : State) : (stalled s).tiles = s.tiles := rfl
@[simp] theorem retired_clusters (s : State) : (retired s).clusters = s.clusters := rfl
@[simp] theorem occur_clusters (s : State) : (occur s).clusters = s.clusters := rfl
@[simp] theorem stalled_clusters (s : State) : (stalled s).clusters = s.clusters := rfl
@[simp] theorem retired_slices (s : State) : (retired s).slices = s.slices := rfl
@[simp] theorem occur_slices (s : State) : (occur s).slices = s.slices := rfl
@[simp] theorem stalled_slices (s : State) : (stalled s).slices = s.slices := rfl
@[simp] theorem retired_caps (s : State) : (retired s).caps = s.caps := rfl
@[simp] theorem occur_caps (s : State) : (occur s).caps = s.caps := rfl
@[simp] theorem stalled_caps (s : State) : (stalled s).caps = s.caps := rfl
@[simp] theorem retired_granuleCtx (s : State) : (retired s).granuleCtx = s.granuleCtx := rfl
@[simp] theorem occur_granuleCtx (s : State) : (occur s).granuleCtx = s.granuleCtx := rfl
@[simp] theorem stalled_granuleCtx (s : State) : (stalled s).granuleCtx = s.granuleCtx := rfl
@[simp] theorem retired_packets (s : State) : (retired s).packets = s.packets := rfl
@[simp] theorem occur_packets (s : State) : (occur s).packets = s.packets := rfl
@[simp] theorem stalled_packets (s : State) : (stalled s).packets = s.packets := rfl
@[simp] theorem retired_linkSeries (s : State) : (retired s).linkSeries = s.linkSeries := rfl
@[simp] theorem occur_linkSeries (s : State) : (occur s).linkSeries = s.linkSeries := rfl
@[simp] theorem stalled_linkSeries (s : State) : (stalled s).linkSeries = s.linkSeries := rfl
@[simp] theorem retired_expected (s : State) : (retired s).expected = s.expected := rfl
@[simp] theorem occur_expected (s : State) : (occur s).expected = s.expected := rfl
@[simp] theorem stalled_expected (s : State) : (stalled s).expected = s.expected := rfl
@[simp] theorem retired_relinked (s : State) : (retired s).relinked = s.relinked := rfl
@[simp] theorem occur_relinked (s : State) : (occur s).relinked = s.relinked := rfl
@[simp] theorem stalled_relinked (s : State) : (stalled s).relinked = s.relinked := rfl
@[simp] theorem retired_payloadLost (s : State) : (retired s).payloadLost = s.payloadLost := rfl
@[simp] theorem occur_payloadLost (s : State) : (occur s).payloadLost = s.payloadLost := rfl
@[simp] theorem stalled_payloadLost (s : State) : (stalled s).payloadLost = s.payloadLost := rfl
@[simp] theorem retired_faultedDfcnt (s : State) : (retired s).faultedDfcnt = s.faultedDfcnt := rfl
@[simp] theorem occur_faultedDfcnt (s : State) : (occur s).faultedDfcnt = s.faultedDfcnt := rfl
@[simp] theorem stalled_faultedDfcnt (s : State) : (stalled s).faultedDfcnt = s.faultedDfcnt := rfl
@[simp] theorem retired_acks (s : State) : (retired s).acks = s.acks := rfl
@[simp] theorem occur_acks (s : State) : (occur s).acks = s.acks := rfl
@[simp] theorem stalled_acks (s : State) : (stalled s).acks = s.acks := rfl
@[simp] theorem retired_rejections (s : State) : (retired s).rejections = s.rejections := rfl
@[simp] theorem occur_rejections (s : State) : (occur s).rejections = s.rejections := rfl
@[simp] theorem stalled_rejections (s : State) : (stalled s).rejections = s.rejections := rfl
@[simp] theorem retired_events (s : State) : (retired s).events = s.events := rfl
@[simp] theorem occur_events (s : State) : (occur s).events = s.events := rfl
@[simp] theorem stalled_events (s : State) : (stalled s).events = s.events := rfl
@[simp] theorem retired_postedOut (s : State) : (retired s).postedOut = s.postedOut := rfl
@[simp] theorem occur_postedOut (s : State) : (occur s).postedOut = s.postedOut := rfl
@[simp] theorem stalled_postedOut (s : State) : (stalled s).postedOut = s.postedOut := rfl
@[simp] theorem retired_chans (s : State) : (retired s).chans = s.chans := rfl
@[simp] theorem occur_chans (s : State) : (occur s).chans = s.chans := rfl
@[simp] theorem stalled_chans (s : State) : (stalled s).chans = s.chans := rfl
@[simp] theorem retired_varWorld (s : State) : (retired s).varWorld = s.varWorld := rfl
@[simp] theorem occur_varWorld (s : State) : (occur s).varWorld = s.varWorld := rfl
@[simp] theorem stalled_varWorld (s : State) : (stalled s).varWorld = s.varWorld := rfl
@[simp] theorem retired_vars (s : State) : (retired s).vars = s.vars := rfl
@[simp] theorem occur_vars (s : State) : (occur s).vars = s.vars := rfl
@[simp] theorem stalled_vars (s : State) : (stalled s).vars = s.vars := rfl
@[simp] theorem retired_svPosts (s : State) : (retired s).svPosts = s.svPosts := rfl
@[simp] theorem occur_svPosts (s : State) : (occur s).svPosts = s.svPosts := rfl
@[simp] theorem stalled_svPosts (s : State) : (stalled s).svPosts = s.svPosts := rfl
@[simp] theorem retired_svDrops (s : State) : (retired s).svDrops = s.svDrops := rfl
@[simp] theorem occur_svDrops (s : State) : (occur s).svDrops = s.svDrops := rfl
@[simp] theorem stalled_svDrops (s : State) : (stalled s).svDrops = s.svDrops := rfl
@[simp] theorem retired_queues (s : State) : (retired s).queues = s.queues := rfl
@[simp] theorem occur_queues (s : State) : (occur s).queues = s.queues := rfl
@[simp] theorem stalled_queues (s : State) : (stalled s).queues = s.queues := rfl
@[simp] theorem retired_workCount (s : State) : (retired s).workCount = s.workCount := rfl
@[simp] theorem occur_workCount (s : State) : (occur s).workCount = s.workCount := rfl
@[simp] theorem stalled_workCount (s : State) : (stalled s).workCount = s.workCount := rfl
@[simp] theorem retired_rotations (s : State) : (retired s).rotations = s.rotations := rfl
@[simp] theorem occur_rotations (s : State) : (occur s).rotations = s.rotations := rfl
@[simp] theorem stalled_rotations (s : State) : (stalled s).rotations = s.rotations := rfl
@[simp] theorem retired_queueErrs (s : State) : (retired s).queueErrs = s.queueErrs := rfl
@[simp] theorem occur_queueErrs (s : State) : (occur s).queueErrs = s.queueErrs := rfl
@[simp] theorem stalled_queueErrs (s : State) : (stalled s).queueErrs = s.queueErrs := rfl
@[simp] theorem retired_kernels (s : State) : (retired s).kernels = s.kernels := rfl
@[simp] theorem occur_kernels (s : State) : (occur s).kernels = s.kernels := rfl
@[simp] theorem stalled_kernels (s : State) : (stalled s).kernels = s.kernels := rfl
@[simp] theorem retired_freeSlots (s : State) : (retired s).freeSlots = s.freeSlots := rfl
@[simp] theorem occur_freeSlots (s : State) : (occur s).freeSlots = s.freeSlots := rfl
@[simp] theorem stalled_freeSlots (s : State) : (stalled s).freeSlots = s.freeSlots := rfl
@[simp] theorem retired_usedSlots (s : State) : (retired s).usedSlots = s.usedSlots := rfl
@[simp] theorem occur_usedSlots (s : State) : (occur s).usedSlots = s.usedSlots := rfl
@[simp] theorem stalled_usedSlots (s : State) : (stalled s).usedSlots = s.usedSlots := rfl
@[simp] theorem retired_sgens (s : State) : (retired s).sgens = s.sgens := rfl
@[simp] theorem occur_sgens (s : State) : (occur s).sgens = s.sgens := rfl
@[simp] theorem stalled_sgens (s : State) : (stalled s).sgens = s.sgens := rfl
@[simp] theorem retired_saveArea (s : State) : (retired s).saveArea = s.saveArea := rfl
@[simp] theorem occur_saveArea (s : State) : (occur s).saveArea = s.saveArea := rfl
@[simp] theorem stalled_saveArea (s : State) : (stalled s).saveArea = s.saveArea := rfl
@[simp] theorem retired_saveEcc (s : State) : (retired s).saveEcc = s.saveEcc := rfl
@[simp] theorem occur_saveEcc (s : State) : (occur s).saveEcc = s.saveEcc := rfl
@[simp] theorem stalled_saveEcc (s : State) : (stalled s).saveEcc = s.saveEcc := rfl
@[simp] theorem retired_sums (s : State) : (retired s).sums = s.sums := rfl
@[simp] theorem occur_sums (s : State) : (occur s).sums = s.sums := rfl
@[simp] theorem stalled_sums (s : State) : (stalled s).sums = s.sums := rfl
@[simp] theorem retired_sends (s : State) : (retired s).sends = s.sends := rfl
@[simp] theorem occur_sends (s : State) : (occur s).sends = s.sends := rfl
@[simp] theorem stalled_sends (s : State) : (stalled s).sends = s.sends := rfl
@[simp] theorem retired_notices (s : State) : (retired s).notices = s.notices := rfl
@[simp] theorem occur_notices (s : State) : (occur s).notices = s.notices := rfl
@[simp] theorem stalled_notices (s : State) : (stalled s).notices = s.notices := rfl
@[simp] theorem retired_ctxs (s : State) : (retired s).ctxs = s.ctxs := rfl
@[simp] theorem occur_ctxs (s : State) : (occur s).ctxs = s.ctxs := rfl
@[simp] theorem stalled_ctxs (s : State) : (stalled s).ctxs = s.ctxs := rfl
@[simp] theorem retired_frames (s : State) : (retired s).frames = s.frames := rfl
@[simp] theorem occur_frames (s : State) : (occur s).frames = s.frames := rfl
@[simp] theorem stalled_frames (s : State) : (stalled s).frames = s.frames := rfl
@[simp] theorem retired_poolFrames (s : State) : (retired s).poolFrames = s.poolFrames := rfl
@[simp] theorem occur_poolFrames (s : State) : (occur s).poolFrames = s.poolFrames := rfl
@[simp] theorem stalled_poolFrames (s : State) : (stalled s).poolFrames = s.poolFrames := rfl
@[simp] theorem retired_keys (s : State) : (retired s).keys = s.keys := rfl
@[simp] theorem occur_keys (s : State) : (occur s).keys = s.keys := rfl
@[simp] theorem stalled_keys (s : State) : (stalled s).keys = s.keys := rfl
@[simp] theorem retired_gates (s : State) : (retired s).gates = s.gates := rfl
@[simp] theorem occur_gates (s : State) : (occur s).gates = s.gates := rfl
@[simp] theorem stalled_gates (s : State) : (stalled s).gates = s.gates := rfl
@[simp] theorem retired_scrubs (s : State) : (retired s).scrubs = s.scrubs := rfl
@[simp] theorem occur_scrubs (s : State) : (occur s).scrubs = s.scrubs := rfl
@[simp] theorem stalled_scrubs (s : State) : (stalled s).scrubs = s.scrubs := rfl
@[simp] theorem retired_ports (s : State) : (retired s).ports = s.ports := rfl
@[simp] theorem occur_ports (s : State) : (occur s).ports = s.ports := rfl
@[simp] theorem stalled_ports (s : State) : (stalled s).ports = s.ports := rfl
@[simp] theorem retired_routes (s : State) : (retired s).routes = s.routes := rfl
@[simp] theorem occur_routes (s : State) : (occur s).routes = s.routes := rfl
@[simp] theorem stalled_routes (s : State) : (stalled s).routes = s.routes := rfl
@[simp] theorem retired_exports (s : State) : (retired s).exports = s.exports := rfl
@[simp] theorem occur_exports (s : State) : (occur s).exports = s.exports := rfl
@[simp] theorem stalled_exports (s : State) : (stalled s).exports = s.exports := rfl
@[simp] theorem retired_moves (s : State) : (retired s).moves = s.moves := rfl
@[simp] theorem occur_moves (s : State) : (occur s).moves = s.moves := rfl
@[simp] theorem stalled_moves (s : State) : (stalled s).moves = s.moves := rfl
@[simp] theorem retired_moveLog (s : State) : (retired s).moveLog = s.moveLog := rfl
@[simp] theorem occur_moveLog (s : State) : (occur s).moveLog = s.moveLog := rfl
@[simp] theorem stalled_moveLog (s : State) : (stalled s).moveLog = s.moveLog := rfl
@[simp] theorem retired_audit (s : State) : (retired s).audit = s.audit := rfl
@[simp] theorem occur_audit (s : State) : (occur s).audit = s.audit := rfl
@[simp] theorem stalled_audit (s : State) : (stalled s).audit = s.audit := rfl
@[simp] theorem retired_agents (s : State) : (retired s).agents = s.agents := rfl
@[simp] theorem occur_agents (s : State) : (occur s).agents = s.agents := rfl
@[simp] theorem stalled_agents (s : State) : (stalled s).agents = s.agents := rfl
@[simp] theorem retired_linkOut (s : State) : (retired s).linkOut = s.linkOut := rfl
@[simp] theorem occur_linkOut (s : State) : (occur s).linkOut = s.linkOut := rfl
@[simp] theorem stalled_linkOut (s : State) : (stalled s).linkOut = s.linkOut := rfl
@[simp] theorem retired_linkWaits (s : State) : (retired s).linkWaits = s.linkWaits := rfl
@[simp] theorem occur_linkWaits (s : State) : (occur s).linkWaits = s.linkWaits := rfl
@[simp] theorem stalled_linkWaits (s : State) : (stalled s).linkWaits = s.linkWaits := rfl
@[simp] theorem retired_hostDrops (s : State) : (retired s).hostDrops = s.hostDrops := rfl
@[simp] theorem occur_hostDrops (s : State) : (occur s).hostDrops = s.hostDrops := rfl
@[simp] theorem stalled_hostDrops (s : State) : (stalled s).hostDrops = s.hostDrops := rfl
@[simp] theorem retired_bw (s : State) : (retired s).bw = s.bw := rfl
@[simp] theorem occur_bw (s : State) : (occur s).bw = s.bw := rfl
@[simp] theorem stalled_bw (s : State) : (stalled s).bw = s.bw := rfl
@[simp] theorem retired_powerCap (s : State) : (retired s).powerCap = s.powerCap := rfl
@[simp] theorem occur_powerCap (s : State) : (occur s).powerCap = s.powerCap := rfl
@[simp] theorem stalled_powerCap (s : State) : (stalled s).powerCap = s.powerCap := rfl
@[simp] theorem retired_overCap (s : State) : (retired s).overCap = s.overCap := rfl
@[simp] theorem occur_overCap (s : State) : (occur s).overCap = s.overCap := rfl
@[simp] theorem stalled_overCap (s : State) : (stalled s).overCap = s.overCap := rfl
@[simp] theorem retired_monitors (s : State) : (retired s).monitors = s.monitors := rfl
@[simp] theorem occur_monitors (s : State) : (occur s).monitors = s.monitors := rfl
@[simp] theorem stalled_monitors (s : State) : (stalled s).monitors = s.monitors := rfl
@[simp] theorem retired_tripped (s : State) : (retired s).tripped = s.tripped := rfl
@[simp] theorem occur_tripped (s : State) : (occur s).tripped = s.tripped := rfl
@[simp] theorem stalled_tripped (s : State) : (stalled s).tripped = s.tripped := rfl
@[simp] theorem retired_ready (s : State) : (retired s).ready = s.ready := rfl
@[simp] theorem occur_ready (s : State) : (occur s).ready = s.ready := rfl
@[simp] theorem stalled_ready (s : State) : (stalled s).ready = s.ready := rfl
@[simp] theorem retired_tested (s : State) : (retired s).tested = s.tested := rfl
@[simp] theorem occur_tested (s : State) : (occur s).tested = s.tested := rfl
@[simp] theorem stalled_tested (s : State) : (stalled s).tested = s.tested := rfl
@[simp] theorem retired_settled (s : State) : (retired s).settled = s.settled := rfl
@[simp] theorem occur_settled (s : State) : (occur s).settled = s.settled := rfl
@[simp] theorem stalled_settled (s : State) : (stalled s).settled = s.settled := rfl
@[simp] theorem retired_yew (s : State) : (retired s).yew = s.yew := rfl
@[simp] theorem occur_yew (s : State) : (occur s).yew = s.yew := rfl
@[simp] theorem stalled_yew (s : State) : (stalled s).yew = s.yew := rfl
@[simp] theorem retired_larch (s : State) : (retired s).larch = s.larch := rfl
@[simp] theorem occur_larch (s : State) : (occur s).larch = s.larch := rfl
@[simp] theorem stalled_larch (s : State) : (stalled s).larch = s.larch := rfl
@[simp] theorem retired_device (s : State) : (retired s).device = s.device := rfl
@[simp] theorem occur_device (s : State) : (occur s).device = s.device := rfl
@[simp] theorem stalled_device (s : State) : (stalled s).device = s.device := rfl
@[simp] theorem retired_deviceFixed (s : State) : (retired s).deviceFixed = s.deviceFixed := rfl
@[simp] theorem occur_deviceFixed (s : State) : (occur s).deviceFixed = s.deviceFixed := rfl
@[simp] theorem stalled_deviceFixed (s : State) : (stalled s).deviceFixed = s.deviceFixed := rfl
@[simp] theorem retired_booting (s : State) : (retired s).booting = s.booting := rfl
@[simp] theorem occur_booting (s : State) : (occur s).booting = s.booting := rfl
@[simp] theorem stalled_booting (s : State) : (stalled s).booting = s.booting := rfl
@[simp] theorem retired_stacksHeld (s : State) : (retired s).stacksHeld = s.stacksHeld := rfl
@[simp] theorem occur_stacksHeld (s : State) : (occur s).stacksHeld = s.stacksHeld := rfl
@[simp] theorem stalled_stacksHeld (s : State) : (stalled s).stacksHeld = s.stacksHeld := rfl
@[simp] theorem retired_migrations (s : State) : (retired s).migrations = s.migrations := rfl
@[simp] theorem occur_migrations (s : State) : (occur s).migrations = s.migrations := rfl
@[simp] theorem stalled_migrations (s : State) : (stalled s).migrations = s.migrations := rfl
@[simp] theorem retired_told (s : State) : (retired s).told = s.told := rfl
@[simp] theorem occur_told (s : State) : (occur s).told = s.told := rfl
@[simp] theorem stalled_told (s : State) : (stalled s).told = s.told := rfl
@[simp] theorem retired_cycle (s : State) : (retired s).cycle = s.cycle := rfl
@[simp] theorem occur_cycle (s : State) : (occur s).cycle = s.cycle := rfl
@[simp] theorem stalled_cycle (s : State) : (stalled s).cycle = s.cycle := rfl
@[simp] theorem retired_schedule (s : State) : (retired s).schedule = s.schedule := rfl
@[simp] theorem occur_schedule (s : State) : (occur s).schedule = s.schedule := rfl
@[simp] theorem stalled_schedule (s : State) : (stalled s).schedule = s.schedule := rfl
@[simp] theorem retired_pending (s : State) : (retired s).pending = s.pending := rfl
@[simp] theorem occur_pending (s : State) : (occur s).pending = s.pending := rfl
@[simp] theorem stalled_pending (s : State) : (stalled s).pending = s.pending := rfl
@[simp] theorem retired_note (s : State) : (retired s).note = .clear := rfl
@[simp] theorem occur_note (s : State) : (occur s).note = .clear := rfl
@[simp] theorem stalled_note (s : State) : (stalled s).note = .stalled := rfl
@[simp] theorem retired_fresh (s : State) : (retired s).fresh = s.fresh := rfl
@[simp] theorem occur_fresh (s : State) : (occur s).fresh = s.fresh := rfl
@[simp] theorem stalled_fresh (s : State) : (stalled s).fresh = s.fresh := rfl
@[simp] theorem occur_h (s : State) : (occur s).h = s.h := rfl
@[simp] theorem stalled_h (s : State) : (stalled s).h = s.h := rfl
@[simp] theorem retired_h_live (s : State) : (retired s).h.live = s.h.live := rfl
@[simp] theorem retired_h_loc (s : State) : (retired s).h.loc = s.h.loc := rfl
@[simp] theorem retired_h_tile (s : State) : (retired s).h.tile = s.h.tile := rfl
@[simp] theorem retired_h_lastTile (s : State) : (retired s).h.lastTile = s.h.lastTile := rfl
@[simp] theorem retired_h_ctx (s : State) : (retired s).h.ctx = s.h.ctx := rfl
@[simp] theorem retired_h_mode (s : State) : (retired s).h.mode = s.h.mode := rfl
@[simp] theorem retired_h_pc (s : State) : (retired s).h.pc = s.h.pc + 4 := rfl
@[simp] theorem retired_h_ir (s : State) : (retired s).h.ir = s.h.ir := rfl
@[simp] theorem retired_h_x (s : State) : (retired s).h.x = s.h.x := rfl
@[simp] theorem retired_h_f (s : State) : (retired s).h.f = s.h.f := rfl
@[simp] theorem retired_h_v (s : State) : (retired s).h.v = s.h.v := rfl
@[simp] theorem retired_h_resv (s : State) : (retired s).h.resv = s.h.resv := rfl
@[simp] theorem retired_h_wfi (s : State) : (retired s).h.wfi = s.h.wfi := rfl
@[simp] theorem retired_h_holdings (s : State) : (retired s).h.holdings = s.h.holdings := rfl
@[simp] theorem retired_h_port (s : State) : (retired s).h.port = s.h.port := rfl
@[simp] theorem retired_h_ring (s : State) : (retired s).h.ring = s.h.ring := rfl
@[simp] theorem retired_h_ringCap (s : State) : (retired s).h.ringCap = s.h.ringCap := rfl
@[simp] theorem retired_h_acc0 (s : State) : (retired s).h.acc0 = s.h.acc0 := rfl
@[simp] theorem retired_h_acc1 (s : State) : (retired s).h.acc1 = s.h.acc1 := rfl
@[simp] theorem retired_h_mpart (s : State) : (retired s).h.mpart = s.h.mpart := rfl
@[simp] theorem retired_h_cbs (s : State) : (retired s).h.cbs = s.h.cbs := rfl
@[simp] theorem retired_h_cbufs (s : State) : (retired s).h.cbufs = s.h.cbufs := rfl
@[simp] theorem retired_h_cmds (s : State) : (retired s).h.cmds = s.h.cmds := rfl
@[simp] theorem retired_h_nextCmd (s : State) : (retired s).h.nextCmd = s.h.nextCmd := rfl
@[simp] theorem retired_h_ticket (s : State) : (retired s).h.ticket = s.h.ticket := rfl
@[simp] theorem retired_h_draws (s : State) : (retired s).h.draws = s.h.draws := rfl
@[simp] theorem retired_h_stOut (s : State) : (retired s).h.stOut = s.h.stOut := rfl
@[simp] theorem retired_h_ldOut (s : State) : (retired s).h.ldOut = s.h.ldOut := rfl
@[simp] theorem retired_h_dpOut (s : State) : (retired s).h.dpOut = s.h.dpOut := rfl
@[simp] theorem retired_h_sdOut (s : State) : (retired s).h.sdOut = s.h.sdOut := rfl
@[simp] theorem retired_h_groups (s : State) : (retired s).h.groups = s.h.groups := rfl
@[simp] theorem retired_h_barRecs (s : State) : (retired s).h.barRecs = s.h.barRecs := rfl
@[simp] theorem retired_h_gang (s : State) : (retired s).h.gang = s.h.gang := rfl
@[simp] theorem retired_h_fuse (s : State) : (retired s).h.fuse = s.h.fuse := rfl
@[simp] theorem retired_h_run (s : State) : (retired s).h.run = s.h.run := rfl
@[simp] theorem retired_h_schedDirty (s : State) : (retired s).h.schedDirty = s.h.schedDirty := rfl
@[simp] theorem retired_h_softDirty (s : State) : (retired s).h.softDirty = s.h.softDirty := rfl
@[simp] theorem retired_h_softBanks (s : State) : (retired s).h.softBanks = s.h.softBanks := rfl
@[simp] theorem retired_h_saveCount (s : State) : (retired s).h.saveCount = s.h.saveCount := rfl
@[simp] theorem retired_h_chain (s : State) : (retired s).h.chain = s.h.chain := rfl
@[simp] theorem retired_h_sleepFrom (s : State) : (retired s).h.sleepFrom = s.h.sleepFrom := rfl
@[simp] theorem retired_h_timedOut (s : State) : (retired s).h.timedOut = s.h.timedOut := rfl
@[simp] theorem retired_h_mid (s : State) : (retired s).h.mid = s.h.mid := rfl
@[simp] theorem retired_h_barAt (s : State) : (retired s).h.barAt = s.h.barAt := rfl
@[simp] theorem retired_h_svAt (s : State) : (retired s).h.svAt = s.h.svAt := rfl
@[simp] theorem retired_h_evWait (s : State) : (retired s).h.evWait = s.h.evWait := rfl
@[simp] theorem retired_h_csr (s : State) : (retired s).h.csr = { s.h.csr with instret := s.h.csr.instret + 1 } := rfl

/-! A write of an x register -/

/-- A write of an x register, as one update. -/
theorem wx_eq (s : State) (r : Reg) (v : Word) :
    wx s r v = { s with h := { s.h with x := if r = 0 then s.h.x else s.h.x.set r.val v } } := by
  by_cases h : r = 0 <;> simp [wx, h, modH]
@[simp] theorem wx_others (s : State) (r : Reg) (v : Word) : (wx s r v).others = s.others := by rw [wx_eq]
@[simp] theorem wx_mem (s : State) (r : Reg) (v : Word) : (wx s r v).mem = s.mem := by rw [wx_eq]
@[simp] theorem wx_lmeta (s : State) (r : Reg) (v : Word) : (wx s r v).lmeta = s.lmeta := by rw [wx_eq]
@[simp] theorem wx_tiles (s : State) (r : Reg) (v : Word) : (wx s r v).tiles = s.tiles := by rw [wx_eq]
@[simp] theorem wx_clusters (s : State) (r : Reg) (v : Word) : (wx s r v).clusters = s.clusters := by rw [wx_eq]
@[simp] theorem wx_slices (s : State) (r : Reg) (v : Word) : (wx s r v).slices = s.slices := by rw [wx_eq]
@[simp] theorem wx_caps (s : State) (r : Reg) (v : Word) : (wx s r v).caps = s.caps := by rw [wx_eq]
@[simp] theorem wx_granuleCtx (s : State) (r : Reg) (v : Word) : (wx s r v).granuleCtx = s.granuleCtx := by rw [wx_eq]
@[simp] theorem wx_packets (s : State) (r : Reg) (v : Word) : (wx s r v).packets = s.packets := by rw [wx_eq]
@[simp] theorem wx_linkSeries (s : State) (r : Reg) (v : Word) : (wx s r v).linkSeries = s.linkSeries := by rw [wx_eq]
@[simp] theorem wx_expected (s : State) (r : Reg) (v : Word) : (wx s r v).expected = s.expected := by rw [wx_eq]
@[simp] theorem wx_relinked (s : State) (r : Reg) (v : Word) : (wx s r v).relinked = s.relinked := by rw [wx_eq]
@[simp] theorem wx_payloadLost (s : State) (r : Reg) (v : Word) : (wx s r v).payloadLost = s.payloadLost := by rw [wx_eq]
@[simp] theorem wx_faultedDfcnt (s : State) (r : Reg) (v : Word) : (wx s r v).faultedDfcnt = s.faultedDfcnt := by rw [wx_eq]
@[simp] theorem wx_acks (s : State) (r : Reg) (v : Word) : (wx s r v).acks = s.acks := by rw [wx_eq]
@[simp] theorem wx_rejections (s : State) (r : Reg) (v : Word) : (wx s r v).rejections = s.rejections := by rw [wx_eq]
@[simp] theorem wx_events (s : State) (r : Reg) (v : Word) : (wx s r v).events = s.events := by rw [wx_eq]
@[simp] theorem wx_postedOut (s : State) (r : Reg) (v : Word) : (wx s r v).postedOut = s.postedOut := by rw [wx_eq]
@[simp] theorem wx_chans (s : State) (r : Reg) (v : Word) : (wx s r v).chans = s.chans := by rw [wx_eq]
@[simp] theorem wx_varWorld (s : State) (r : Reg) (v : Word) : (wx s r v).varWorld = s.varWorld := by rw [wx_eq]
@[simp] theorem wx_vars (s : State) (r : Reg) (v : Word) : (wx s r v).vars = s.vars := by rw [wx_eq]
@[simp] theorem wx_svPosts (s : State) (r : Reg) (v : Word) : (wx s r v).svPosts = s.svPosts := by rw [wx_eq]
@[simp] theorem wx_svDrops (s : State) (r : Reg) (v : Word) : (wx s r v).svDrops = s.svDrops := by rw [wx_eq]
@[simp] theorem wx_queues (s : State) (r : Reg) (v : Word) : (wx s r v).queues = s.queues := by rw [wx_eq]
@[simp] theorem wx_workCount (s : State) (r : Reg) (v : Word) : (wx s r v).workCount = s.workCount := by rw [wx_eq]
@[simp] theorem wx_rotations (s : State) (r : Reg) (v : Word) : (wx s r v).rotations = s.rotations := by rw [wx_eq]
@[simp] theorem wx_queueErrs (s : State) (r : Reg) (v : Word) : (wx s r v).queueErrs = s.queueErrs := by rw [wx_eq]
@[simp] theorem wx_kernels (s : State) (r : Reg) (v : Word) : (wx s r v).kernels = s.kernels := by rw [wx_eq]
@[simp] theorem wx_freeSlots (s : State) (r : Reg) (v : Word) : (wx s r v).freeSlots = s.freeSlots := by rw [wx_eq]
@[simp] theorem wx_usedSlots (s : State) (r : Reg) (v : Word) : (wx s r v).usedSlots = s.usedSlots := by rw [wx_eq]
@[simp] theorem wx_sgens (s : State) (r : Reg) (v : Word) : (wx s r v).sgens = s.sgens := by rw [wx_eq]
@[simp] theorem wx_saveArea (s : State) (r : Reg) (v : Word) : (wx s r v).saveArea = s.saveArea := by rw [wx_eq]
@[simp] theorem wx_saveEcc (s : State) (r : Reg) (v : Word) : (wx s r v).saveEcc = s.saveEcc := by rw [wx_eq]
@[simp] theorem wx_sums (s : State) (r : Reg) (v : Word) : (wx s r v).sums = s.sums := by rw [wx_eq]
@[simp] theorem wx_sends (s : State) (r : Reg) (v : Word) : (wx s r v).sends = s.sends := by rw [wx_eq]
@[simp] theorem wx_notices (s : State) (r : Reg) (v : Word) : (wx s r v).notices = s.notices := by rw [wx_eq]
@[simp] theorem wx_ctxs (s : State) (r : Reg) (v : Word) : (wx s r v).ctxs = s.ctxs := by rw [wx_eq]
@[simp] theorem wx_frames (s : State) (r : Reg) (v : Word) : (wx s r v).frames = s.frames := by rw [wx_eq]
@[simp] theorem wx_poolFrames (s : State) (r : Reg) (v : Word) : (wx s r v).poolFrames = s.poolFrames := by rw [wx_eq]
@[simp] theorem wx_keys (s : State) (r : Reg) (v : Word) : (wx s r v).keys = s.keys := by rw [wx_eq]
@[simp] theorem wx_gates (s : State) (r : Reg) (v : Word) : (wx s r v).gates = s.gates := by rw [wx_eq]
@[simp] theorem wx_scrubs (s : State) (r : Reg) (v : Word) : (wx s r v).scrubs = s.scrubs := by rw [wx_eq]
@[simp] theorem wx_ports (s : State) (r : Reg) (v : Word) : (wx s r v).ports = s.ports := by rw [wx_eq]
@[simp] theorem wx_routes (s : State) (r : Reg) (v : Word) : (wx s r v).routes = s.routes := by rw [wx_eq]
@[simp] theorem wx_exports (s : State) (r : Reg) (v : Word) : (wx s r v).exports = s.exports := by rw [wx_eq]
@[simp] theorem wx_moves (s : State) (r : Reg) (v : Word) : (wx s r v).moves = s.moves := by rw [wx_eq]
@[simp] theorem wx_moveLog (s : State) (r : Reg) (v : Word) : (wx s r v).moveLog = s.moveLog := by rw [wx_eq]
@[simp] theorem wx_audit (s : State) (r : Reg) (v : Word) : (wx s r v).audit = s.audit := by rw [wx_eq]
@[simp] theorem wx_agents (s : State) (r : Reg) (v : Word) : (wx s r v).agents = s.agents := by rw [wx_eq]
@[simp] theorem wx_linkOut (s : State) (r : Reg) (v : Word) : (wx s r v).linkOut = s.linkOut := by rw [wx_eq]
@[simp] theorem wx_linkWaits (s : State) (r : Reg) (v : Word) : (wx s r v).linkWaits = s.linkWaits := by rw [wx_eq]
@[simp] theorem wx_hostDrops (s : State) (r : Reg) (v : Word) : (wx s r v).hostDrops = s.hostDrops := by rw [wx_eq]
@[simp] theorem wx_bw (s : State) (r : Reg) (v : Word) : (wx s r v).bw = s.bw := by rw [wx_eq]
@[simp] theorem wx_powerCap (s : State) (r : Reg) (v : Word) : (wx s r v).powerCap = s.powerCap := by rw [wx_eq]
@[simp] theorem wx_overCap (s : State) (r : Reg) (v : Word) : (wx s r v).overCap = s.overCap := by rw [wx_eq]
@[simp] theorem wx_monitors (s : State) (r : Reg) (v : Word) : (wx s r v).monitors = s.monitors := by rw [wx_eq]
@[simp] theorem wx_tripped (s : State) (r : Reg) (v : Word) : (wx s r v).tripped = s.tripped := by rw [wx_eq]
@[simp] theorem wx_ready (s : State) (r : Reg) (v : Word) : (wx s r v).ready = s.ready := by rw [wx_eq]
@[simp] theorem wx_tested (s : State) (r : Reg) (v : Word) : (wx s r v).tested = s.tested := by rw [wx_eq]
@[simp] theorem wx_settled (s : State) (r : Reg) (v : Word) : (wx s r v).settled = s.settled := by rw [wx_eq]
@[simp] theorem wx_yew (s : State) (r : Reg) (v : Word) : (wx s r v).yew = s.yew := by rw [wx_eq]
@[simp] theorem wx_larch (s : State) (r : Reg) (v : Word) : (wx s r v).larch = s.larch := by rw [wx_eq]
@[simp] theorem wx_device (s : State) (r : Reg) (v : Word) : (wx s r v).device = s.device := by rw [wx_eq]
@[simp] theorem wx_deviceFixed (s : State) (r : Reg) (v : Word) : (wx s r v).deviceFixed = s.deviceFixed := by rw [wx_eq]
@[simp] theorem wx_booting (s : State) (r : Reg) (v : Word) : (wx s r v).booting = s.booting := by rw [wx_eq]
@[simp] theorem wx_stacksHeld (s : State) (r : Reg) (v : Word) : (wx s r v).stacksHeld = s.stacksHeld := by rw [wx_eq]
@[simp] theorem wx_migrations (s : State) (r : Reg) (v : Word) : (wx s r v).migrations = s.migrations := by rw [wx_eq]
@[simp] theorem wx_told (s : State) (r : Reg) (v : Word) : (wx s r v).told = s.told := by rw [wx_eq]
@[simp] theorem wx_cycle (s : State) (r : Reg) (v : Word) : (wx s r v).cycle = s.cycle := by rw [wx_eq]
@[simp] theorem wx_schedule (s : State) (r : Reg) (v : Word) : (wx s r v).schedule = s.schedule := by rw [wx_eq]
@[simp] theorem wx_pending (s : State) (r : Reg) (v : Word) : (wx s r v).pending = s.pending := by rw [wx_eq]
@[simp] theorem wx_note (s : State) (r : Reg) (v : Word) : (wx s r v).note = s.note := by rw [wx_eq]
@[simp] theorem wx_fresh (s : State) (r : Reg) (v : Word) : (wx s r v).fresh = s.fresh := by rw [wx_eq]
@[simp] theorem wx_h_live (s : State) (r : Reg) (v : Word) : (wx s r v).h.live = s.h.live := by rw [wx_eq]
@[simp] theorem wx_h_loc (s : State) (r : Reg) (v : Word) : (wx s r v).h.loc = s.h.loc := by rw [wx_eq]
@[simp] theorem wx_h_tile (s : State) (r : Reg) (v : Word) : (wx s r v).h.tile = s.h.tile := by rw [wx_eq]
@[simp] theorem wx_h_lastTile (s : State) (r : Reg) (v : Word) : (wx s r v).h.lastTile = s.h.lastTile := by rw [wx_eq]
@[simp] theorem wx_h_ctx (s : State) (r : Reg) (v : Word) : (wx s r v).h.ctx = s.h.ctx := by rw [wx_eq]
@[simp] theorem wx_h_mode (s : State) (r : Reg) (v : Word) : (wx s r v).h.mode = s.h.mode := by rw [wx_eq]
@[simp] theorem wx_h_pc (s : State) (r : Reg) (v : Word) : (wx s r v).h.pc = s.h.pc := by rw [wx_eq]
@[simp] theorem wx_h_ir (s : State) (r : Reg) (v : Word) : (wx s r v).h.ir = s.h.ir := by rw [wx_eq]
@[simp] theorem wx_h_f (s : State) (r : Reg) (v : Word) : (wx s r v).h.f = s.h.f := by rw [wx_eq]
@[simp] theorem wx_h_v (s : State) (r : Reg) (v : Word) : (wx s r v).h.v = s.h.v := by rw [wx_eq]
@[simp] theorem wx_h_csr (s : State) (r : Reg) (v : Word) : (wx s r v).h.csr = s.h.csr := by rw [wx_eq]
@[simp] theorem wx_h_resv (s : State) (r : Reg) (v : Word) : (wx s r v).h.resv = s.h.resv := by rw [wx_eq]
@[simp] theorem wx_h_wfi (s : State) (r : Reg) (v : Word) : (wx s r v).h.wfi = s.h.wfi := by rw [wx_eq]
@[simp] theorem wx_h_holdings (s : State) (r : Reg) (v : Word) : (wx s r v).h.holdings = s.h.holdings := by rw [wx_eq]
@[simp] theorem wx_h_port (s : State) (r : Reg) (v : Word) : (wx s r v).h.port = s.h.port := by rw [wx_eq]
@[simp] theorem wx_h_ring (s : State) (r : Reg) (v : Word) : (wx s r v).h.ring = s.h.ring := by rw [wx_eq]
@[simp] theorem wx_h_ringCap (s : State) (r : Reg) (v : Word) : (wx s r v).h.ringCap = s.h.ringCap := by rw [wx_eq]
@[simp] theorem wx_h_acc0 (s : State) (r : Reg) (v : Word) : (wx s r v).h.acc0 = s.h.acc0 := by rw [wx_eq]
@[simp] theorem wx_h_acc1 (s : State) (r : Reg) (v : Word) : (wx s r v).h.acc1 = s.h.acc1 := by rw [wx_eq]
@[simp] theorem wx_h_mpart (s : State) (r : Reg) (v : Word) : (wx s r v).h.mpart = s.h.mpart := by rw [wx_eq]
@[simp] theorem wx_h_cbs (s : State) (r : Reg) (v : Word) : (wx s r v).h.cbs = s.h.cbs := by rw [wx_eq]
@[simp] theorem wx_h_cbufs (s : State) (r : Reg) (v : Word) : (wx s r v).h.cbufs = s.h.cbufs := by rw [wx_eq]
@[simp] theorem wx_h_cmds (s : State) (r : Reg) (v : Word) : (wx s r v).h.cmds = s.h.cmds := by rw [wx_eq]
@[simp] theorem wx_h_nextCmd (s : State) (r : Reg) (v : Word) : (wx s r v).h.nextCmd = s.h.nextCmd := by rw [wx_eq]
@[simp] theorem wx_h_ticket (s : State) (r : Reg) (v : Word) : (wx s r v).h.ticket = s.h.ticket := by rw [wx_eq]
@[simp] theorem wx_h_draws (s : State) (r : Reg) (v : Word) : (wx s r v).h.draws = s.h.draws := by rw [wx_eq]
@[simp] theorem wx_h_stOut (s : State) (r : Reg) (v : Word) : (wx s r v).h.stOut = s.h.stOut := by rw [wx_eq]
@[simp] theorem wx_h_ldOut (s : State) (r : Reg) (v : Word) : (wx s r v).h.ldOut = s.h.ldOut := by rw [wx_eq]
@[simp] theorem wx_h_dpOut (s : State) (r : Reg) (v : Word) : (wx s r v).h.dpOut = s.h.dpOut := by rw [wx_eq]
@[simp] theorem wx_h_sdOut (s : State) (r : Reg) (v : Word) : (wx s r v).h.sdOut = s.h.sdOut := by rw [wx_eq]
@[simp] theorem wx_h_groups (s : State) (r : Reg) (v : Word) : (wx s r v).h.groups = s.h.groups := by rw [wx_eq]
@[simp] theorem wx_h_barRecs (s : State) (r : Reg) (v : Word) : (wx s r v).h.barRecs = s.h.barRecs := by rw [wx_eq]
@[simp] theorem wx_h_gang (s : State) (r : Reg) (v : Word) : (wx s r v).h.gang = s.h.gang := by rw [wx_eq]
@[simp] theorem wx_h_fuse (s : State) (r : Reg) (v : Word) : (wx s r v).h.fuse = s.h.fuse := by rw [wx_eq]
@[simp] theorem wx_h_run (s : State) (r : Reg) (v : Word) : (wx s r v).h.run = s.h.run := by rw [wx_eq]
@[simp] theorem wx_h_schedDirty (s : State) (r : Reg) (v : Word) : (wx s r v).h.schedDirty = s.h.schedDirty := by rw [wx_eq]
@[simp] theorem wx_h_softDirty (s : State) (r : Reg) (v : Word) : (wx s r v).h.softDirty = s.h.softDirty := by rw [wx_eq]
@[simp] theorem wx_h_softBanks (s : State) (r : Reg) (v : Word) : (wx s r v).h.softBanks = s.h.softBanks := by rw [wx_eq]
@[simp] theorem wx_h_saveCount (s : State) (r : Reg) (v : Word) : (wx s r v).h.saveCount = s.h.saveCount := by rw [wx_eq]
@[simp] theorem wx_h_chain (s : State) (r : Reg) (v : Word) : (wx s r v).h.chain = s.h.chain := by rw [wx_eq]
@[simp] theorem wx_h_sleepFrom (s : State) (r : Reg) (v : Word) : (wx s r v).h.sleepFrom = s.h.sleepFrom := by rw [wx_eq]
@[simp] theorem wx_h_timedOut (s : State) (r : Reg) (v : Word) : (wx s r v).h.timedOut = s.h.timedOut := by rw [wx_eq]
@[simp] theorem wx_h_mid (s : State) (r : Reg) (v : Word) : (wx s r v).h.mid = s.h.mid := by rw [wx_eq]
@[simp] theorem wx_h_barAt (s : State) (r : Reg) (v : Word) : (wx s r v).h.barAt = s.h.barAt := by rw [wx_eq]
@[simp] theorem wx_h_svAt (s : State) (r : Reg) (v : Word) : (wx s r v).h.svAt = s.h.svAt := by rw [wx_eq]
@[simp] theorem wx_h_evWait (s : State) (r : Reg) (v : Word) : (wx s r v).h.evWait = s.h.evWait := by rw [wx_eq]

/-! Writes of f and v registers -/

@[simp] theorem wf_others (s : State) (r : Reg) (v : Word) : (wf s r v).others = s.others := by simp only [wf, mark_others, modC_others, modH_others]
@[simp] theorem wf_mem (s : State) (r : Reg) (v : Word) : (wf s r v).mem = s.mem := by simp only [wf, mark_mem, modC_mem, modH_mem]
@[simp] theorem wf_lmeta (s : State) (r : Reg) (v : Word) : (wf s r v).lmeta = s.lmeta := by simp only [wf, mark_lmeta, modC_lmeta, modH_lmeta]
@[simp] theorem wf_tiles (s : State) (r : Reg) (v : Word) : (wf s r v).tiles = s.tiles := by simp only [wf, mark_tiles, modC_tiles, modH_tiles]
@[simp] theorem wf_clusters (s : State) (r : Reg) (v : Word) : (wf s r v).clusters = s.clusters := by simp only [wf, mark_clusters, modC_clusters, modH_clusters]
@[simp] theorem wf_slices (s : State) (r : Reg) (v : Word) : (wf s r v).slices = s.slices := by simp only [wf, mark_slices, modC_slices, modH_slices]
@[simp] theorem wf_caps (s : State) (r : Reg) (v : Word) : (wf s r v).caps = s.caps := by simp only [wf, mark_caps, modC_caps, modH_caps]
@[simp] theorem wf_granuleCtx (s : State) (r : Reg) (v : Word) : (wf s r v).granuleCtx = s.granuleCtx := by simp only [wf, mark_granuleCtx, modC_granuleCtx, modH_granuleCtx]
@[simp] theorem wf_packets (s : State) (r : Reg) (v : Word) : (wf s r v).packets = s.packets := by simp only [wf, mark_packets, modC_packets, modH_packets]
@[simp] theorem wf_linkSeries (s : State) (r : Reg) (v : Word) : (wf s r v).linkSeries = s.linkSeries := by simp only [wf, mark_linkSeries, modC_linkSeries, modH_linkSeries]
@[simp] theorem wf_expected (s : State) (r : Reg) (v : Word) : (wf s r v).expected = s.expected := by simp only [wf, mark_expected, modC_expected, modH_expected]
@[simp] theorem wf_relinked (s : State) (r : Reg) (v : Word) : (wf s r v).relinked = s.relinked := by simp only [wf, mark_relinked, modC_relinked, modH_relinked]
@[simp] theorem wf_payloadLost (s : State) (r : Reg) (v : Word) : (wf s r v).payloadLost = s.payloadLost := by simp only [wf, mark_payloadLost, modC_payloadLost, modH_payloadLost]
@[simp] theorem wf_faultedDfcnt (s : State) (r : Reg) (v : Word) : (wf s r v).faultedDfcnt = s.faultedDfcnt := by simp only [wf, mark_faultedDfcnt, modC_faultedDfcnt, modH_faultedDfcnt]
@[simp] theorem wf_acks (s : State) (r : Reg) (v : Word) : (wf s r v).acks = s.acks := by simp only [wf, mark_acks, modC_acks, modH_acks]
@[simp] theorem wf_rejections (s : State) (r : Reg) (v : Word) : (wf s r v).rejections = s.rejections := by simp only [wf, mark_rejections, modC_rejections, modH_rejections]
@[simp] theorem wf_events (s : State) (r : Reg) (v : Word) : (wf s r v).events = s.events := by simp only [wf, mark_events, modC_events, modH_events]
@[simp] theorem wf_postedOut (s : State) (r : Reg) (v : Word) : (wf s r v).postedOut = s.postedOut := by simp only [wf, mark_postedOut, modC_postedOut, modH_postedOut]
@[simp] theorem wf_chans (s : State) (r : Reg) (v : Word) : (wf s r v).chans = s.chans := by simp only [wf, mark_chans, modC_chans, modH_chans]
@[simp] theorem wf_varWorld (s : State) (r : Reg) (v : Word) : (wf s r v).varWorld = s.varWorld := by simp only [wf, mark_varWorld, modC_varWorld, modH_varWorld]
@[simp] theorem wf_vars (s : State) (r : Reg) (v : Word) : (wf s r v).vars = s.vars := by simp only [wf, mark_vars, modC_vars, modH_vars]
@[simp] theorem wf_svPosts (s : State) (r : Reg) (v : Word) : (wf s r v).svPosts = s.svPosts := by simp only [wf, mark_svPosts, modC_svPosts, modH_svPosts]
@[simp] theorem wf_svDrops (s : State) (r : Reg) (v : Word) : (wf s r v).svDrops = s.svDrops := by simp only [wf, mark_svDrops, modC_svDrops, modH_svDrops]
@[simp] theorem wf_queues (s : State) (r : Reg) (v : Word) : (wf s r v).queues = s.queues := by simp only [wf, mark_queues, modC_queues, modH_queues]
@[simp] theorem wf_workCount (s : State) (r : Reg) (v : Word) : (wf s r v).workCount = s.workCount := by simp only [wf, mark_workCount, modC_workCount, modH_workCount]
@[simp] theorem wf_rotations (s : State) (r : Reg) (v : Word) : (wf s r v).rotations = s.rotations := by simp only [wf, mark_rotations, modC_rotations, modH_rotations]
@[simp] theorem wf_queueErrs (s : State) (r : Reg) (v : Word) : (wf s r v).queueErrs = s.queueErrs := by simp only [wf, mark_queueErrs, modC_queueErrs, modH_queueErrs]
@[simp] theorem wf_kernels (s : State) (r : Reg) (v : Word) : (wf s r v).kernels = s.kernels := by simp only [wf, mark_kernels, modC_kernels, modH_kernels]
@[simp] theorem wf_freeSlots (s : State) (r : Reg) (v : Word) : (wf s r v).freeSlots = s.freeSlots := by simp only [wf, mark_freeSlots, modC_freeSlots, modH_freeSlots]
@[simp] theorem wf_usedSlots (s : State) (r : Reg) (v : Word) : (wf s r v).usedSlots = s.usedSlots := by simp only [wf, mark_usedSlots, modC_usedSlots, modH_usedSlots]
@[simp] theorem wf_sgens (s : State) (r : Reg) (v : Word) : (wf s r v).sgens = s.sgens := by simp only [wf, mark_sgens, modC_sgens, modH_sgens]
@[simp] theorem wf_saveArea (s : State) (r : Reg) (v : Word) : (wf s r v).saveArea = s.saveArea := by simp only [wf, mark_saveArea, modC_saveArea, modH_saveArea]
@[simp] theorem wf_saveEcc (s : State) (r : Reg) (v : Word) : (wf s r v).saveEcc = s.saveEcc := by simp only [wf, mark_saveEcc, modC_saveEcc, modH_saveEcc]
@[simp] theorem wf_sums (s : State) (r : Reg) (v : Word) : (wf s r v).sums = s.sums := by simp only [wf, mark_sums, modC_sums, modH_sums]
@[simp] theorem wf_sends (s : State) (r : Reg) (v : Word) : (wf s r v).sends = s.sends := by simp only [wf, mark_sends, modC_sends, modH_sends]
@[simp] theorem wf_notices (s : State) (r : Reg) (v : Word) : (wf s r v).notices = s.notices := by simp only [wf, mark_notices, modC_notices, modH_notices]
@[simp] theorem wf_ctxs (s : State) (r : Reg) (v : Word) : (wf s r v).ctxs = s.ctxs := by simp only [wf, mark_ctxs, modC_ctxs, modH_ctxs]
@[simp] theorem wf_frames (s : State) (r : Reg) (v : Word) : (wf s r v).frames = s.frames := by simp only [wf, mark_frames, modC_frames, modH_frames]
@[simp] theorem wf_poolFrames (s : State) (r : Reg) (v : Word) : (wf s r v).poolFrames = s.poolFrames := by simp only [wf, mark_poolFrames, modC_poolFrames, modH_poolFrames]
@[simp] theorem wf_keys (s : State) (r : Reg) (v : Word) : (wf s r v).keys = s.keys := by simp only [wf, mark_keys, modC_keys, modH_keys]
@[simp] theorem wf_gates (s : State) (r : Reg) (v : Word) : (wf s r v).gates = s.gates := by simp only [wf, mark_gates, modC_gates, modH_gates]
@[simp] theorem wf_scrubs (s : State) (r : Reg) (v : Word) : (wf s r v).scrubs = s.scrubs := by simp only [wf, mark_scrubs, modC_scrubs, modH_scrubs]
@[simp] theorem wf_ports (s : State) (r : Reg) (v : Word) : (wf s r v).ports = s.ports := by simp only [wf, mark_ports, modC_ports, modH_ports]
@[simp] theorem wf_routes (s : State) (r : Reg) (v : Word) : (wf s r v).routes = s.routes := by simp only [wf, mark_routes, modC_routes, modH_routes]
@[simp] theorem wf_exports (s : State) (r : Reg) (v : Word) : (wf s r v).exports = s.exports := by simp only [wf, mark_exports, modC_exports, modH_exports]
@[simp] theorem wf_moves (s : State) (r : Reg) (v : Word) : (wf s r v).moves = s.moves := by simp only [wf, mark_moves, modC_moves, modH_moves]
@[simp] theorem wf_moveLog (s : State) (r : Reg) (v : Word) : (wf s r v).moveLog = s.moveLog := by simp only [wf, mark_moveLog, modC_moveLog, modH_moveLog]
@[simp] theorem wf_audit (s : State) (r : Reg) (v : Word) : (wf s r v).audit = s.audit := by simp only [wf, mark_audit, modC_audit, modH_audit]
@[simp] theorem wf_agents (s : State) (r : Reg) (v : Word) : (wf s r v).agents = s.agents := by simp only [wf, mark_agents, modC_agents, modH_agents]
@[simp] theorem wf_linkOut (s : State) (r : Reg) (v : Word) : (wf s r v).linkOut = s.linkOut := by simp only [wf, mark_linkOut, modC_linkOut, modH_linkOut]
@[simp] theorem wf_linkWaits (s : State) (r : Reg) (v : Word) : (wf s r v).linkWaits = s.linkWaits := by simp only [wf, mark_linkWaits, modC_linkWaits, modH_linkWaits]
@[simp] theorem wf_hostDrops (s : State) (r : Reg) (v : Word) : (wf s r v).hostDrops = s.hostDrops := by simp only [wf, mark_hostDrops, modC_hostDrops, modH_hostDrops]
@[simp] theorem wf_bw (s : State) (r : Reg) (v : Word) : (wf s r v).bw = s.bw := by simp only [wf, mark_bw, modC_bw, modH_bw]
@[simp] theorem wf_powerCap (s : State) (r : Reg) (v : Word) : (wf s r v).powerCap = s.powerCap := by simp only [wf, mark_powerCap, modC_powerCap, modH_powerCap]
@[simp] theorem wf_overCap (s : State) (r : Reg) (v : Word) : (wf s r v).overCap = s.overCap := by simp only [wf, mark_overCap, modC_overCap, modH_overCap]
@[simp] theorem wf_monitors (s : State) (r : Reg) (v : Word) : (wf s r v).monitors = s.monitors := by simp only [wf, mark_monitors, modC_monitors, modH_monitors]
@[simp] theorem wf_tripped (s : State) (r : Reg) (v : Word) : (wf s r v).tripped = s.tripped := by simp only [wf, mark_tripped, modC_tripped, modH_tripped]
@[simp] theorem wf_ready (s : State) (r : Reg) (v : Word) : (wf s r v).ready = s.ready := by simp only [wf, mark_ready, modC_ready, modH_ready]
@[simp] theorem wf_tested (s : State) (r : Reg) (v : Word) : (wf s r v).tested = s.tested := by simp only [wf, mark_tested, modC_tested, modH_tested]
@[simp] theorem wf_settled (s : State) (r : Reg) (v : Word) : (wf s r v).settled = s.settled := by simp only [wf, mark_settled, modC_settled, modH_settled]
@[simp] theorem wf_yew (s : State) (r : Reg) (v : Word) : (wf s r v).yew = s.yew := by simp only [wf, mark_yew, modC_yew, modH_yew]
@[simp] theorem wf_larch (s : State) (r : Reg) (v : Word) : (wf s r v).larch = s.larch := by simp only [wf, mark_larch, modC_larch, modH_larch]
@[simp] theorem wf_device (s : State) (r : Reg) (v : Word) : (wf s r v).device = s.device := by simp only [wf, mark_device, modC_device, modH_device]
@[simp] theorem wf_deviceFixed (s : State) (r : Reg) (v : Word) : (wf s r v).deviceFixed = s.deviceFixed := by simp only [wf, mark_deviceFixed, modC_deviceFixed, modH_deviceFixed]
@[simp] theorem wf_booting (s : State) (r : Reg) (v : Word) : (wf s r v).booting = s.booting := by simp only [wf, mark_booting, modC_booting, modH_booting]
@[simp] theorem wf_stacksHeld (s : State) (r : Reg) (v : Word) : (wf s r v).stacksHeld = s.stacksHeld := by simp only [wf, mark_stacksHeld, modC_stacksHeld, modH_stacksHeld]
@[simp] theorem wf_migrations (s : State) (r : Reg) (v : Word) : (wf s r v).migrations = s.migrations := by simp only [wf, mark_migrations, modC_migrations, modH_migrations]
@[simp] theorem wf_told (s : State) (r : Reg) (v : Word) : (wf s r v).told = s.told := by simp only [wf, mark_told, modC_told, modH_told]
@[simp] theorem wf_cycle (s : State) (r : Reg) (v : Word) : (wf s r v).cycle = s.cycle := by simp only [wf, mark_cycle, modC_cycle, modH_cycle]
@[simp] theorem wf_schedule (s : State) (r : Reg) (v : Word) : (wf s r v).schedule = s.schedule := by simp only [wf, mark_schedule, modC_schedule, modH_schedule]
@[simp] theorem wf_pending (s : State) (r : Reg) (v : Word) : (wf s r v).pending = s.pending := by simp only [wf, mark_pending, modC_pending, modH_pending]
@[simp] theorem wf_note (s : State) (r : Reg) (v : Word) : (wf s r v).note = s.note := by simp only [wf, mark_note, modC_note, modH_note]
@[simp] theorem wf_fresh (s : State) (r : Reg) (v : Word) : (wf s r v).fresh = s.fresh := by simp only [wf, mark_fresh, modC_fresh, modH_fresh]
@[simp] theorem wf_h_live (s : State) (r : Reg) (v : Word) : (wf s r v).h.live = s.h.live := by simp only [wf, mark_h_live, modC_h_live, modH_h]
@[simp] theorem wf_h_loc (s : State) (r : Reg) (v : Word) : (wf s r v).h.loc = s.h.loc := by simp only [wf, mark_h_loc, modC_h_loc, modH_h]
@[simp] theorem wf_h_tile (s : State) (r : Reg) (v : Word) : (wf s r v).h.tile = s.h.tile := by simp only [wf, mark_h_tile, modC_h_tile, modH_h]
@[simp] theorem wf_h_lastTile (s : State) (r : Reg) (v : Word) : (wf s r v).h.lastTile = s.h.lastTile := by simp only [wf, mark_h_lastTile, modC_h_lastTile, modH_h]
@[simp] theorem wf_h_ctx (s : State) (r : Reg) (v : Word) : (wf s r v).h.ctx = s.h.ctx := by simp only [wf, mark_h_ctx, modC_h_ctx, modH_h]
@[simp] theorem wf_h_mode (s : State) (r : Reg) (v : Word) : (wf s r v).h.mode = s.h.mode := by simp only [wf, mark_h_mode, modC_h_mode, modH_h]
@[simp] theorem wf_h_pc (s : State) (r : Reg) (v : Word) : (wf s r v).h.pc = s.h.pc := by simp only [wf, mark_h_pc, modC_h_pc, modH_h]
@[simp] theorem wf_h_ir (s : State) (r : Reg) (v : Word) : (wf s r v).h.ir = s.h.ir := by simp only [wf, mark_h_ir, modC_h_ir, modH_h]
@[simp] theorem wf_h_x (s : State) (r : Reg) (v : Word) : (wf s r v).h.x = s.h.x := by simp only [wf, mark_h_x, modC_h_x, modH_h]
@[simp] theorem wf_h_f (s : State) (r : Reg) (v : Word) : (wf s r v).h.f = s.h.f.set r.val v := by simp only [wf, mark_h_f, modC_h_f, modH_h]
@[simp] theorem wf_h_v (s : State) (r : Reg) (v : Word) : (wf s r v).h.v = s.h.v := by simp only [wf, mark_h_v, modC_h_v, modH_h]
@[simp] theorem wf_h_csr (s : State) (r : Reg) (v : Word) : (wf s r v).h.csr = { s.h.csr with mstatus := setFld s.h.csr.mstatus 13 2 3 } := by simp only [wf, mark_h_csr, modC_csr, modH_h]
@[simp] theorem wf_h_resv (s : State) (r : Reg) (v : Word) : (wf s r v).h.resv = s.h.resv := by simp only [wf, mark_h_resv, modC_h_resv, modH_h]
@[simp] theorem wf_h_wfi (s : State) (r : Reg) (v : Word) : (wf s r v).h.wfi = s.h.wfi := by simp only [wf, mark_h_wfi, modC_h_wfi, modH_h]
@[simp] theorem wf_h_holdings (s : State) (r : Reg) (v : Word) : (wf s r v).h.holdings = s.h.holdings := by simp only [wf, mark_h_holdings, modC_h_holdings, modH_h]
@[simp] theorem wf_h_port (s : State) (r : Reg) (v : Word) : (wf s r v).h.port = s.h.port := by simp only [wf, mark_h_port, modC_h_port, modH_h]
@[simp] theorem wf_h_ring (s : State) (r : Reg) (v : Word) : (wf s r v).h.ring = s.h.ring := by simp only [wf, mark_h_ring, modC_h_ring, modH_h]
@[simp] theorem wf_h_ringCap (s : State) (r : Reg) (v : Word) : (wf s r v).h.ringCap = s.h.ringCap := by simp only [wf, mark_h_ringCap, modC_h_ringCap, modH_h]
@[simp] theorem wf_h_acc0 (s : State) (r : Reg) (v : Word) : (wf s r v).h.acc0 = s.h.acc0 := by simp only [wf, mark_h_acc0, modC_h_acc0, modH_h]
@[simp] theorem wf_h_acc1 (s : State) (r : Reg) (v : Word) : (wf s r v).h.acc1 = s.h.acc1 := by simp only [wf, mark_h_acc1, modC_h_acc1, modH_h]
@[simp] theorem wf_h_mpart (s : State) (r : Reg) (v : Word) : (wf s r v).h.mpart = s.h.mpart := by simp only [wf, mark_h_mpart, modC_h_mpart, modH_h]
@[simp] theorem wf_h_cbs (s : State) (r : Reg) (v : Word) : (wf s r v).h.cbs = s.h.cbs := by simp only [wf, mark_h_cbs, modC_h_cbs, modH_h]
@[simp] theorem wf_h_cbufs (s : State) (r : Reg) (v : Word) : (wf s r v).h.cbufs = s.h.cbufs := by simp only [wf, mark_h_cbufs, modC_h_cbufs, modH_h]
@[simp] theorem wf_h_cmds (s : State) (r : Reg) (v : Word) : (wf s r v).h.cmds = s.h.cmds := by simp only [wf, mark_h_cmds, modC_h_cmds, modH_h]
@[simp] theorem wf_h_nextCmd (s : State) (r : Reg) (v : Word) : (wf s r v).h.nextCmd = s.h.nextCmd := by simp only [wf, mark_h_nextCmd, modC_h_nextCmd, modH_h]
@[simp] theorem wf_h_ticket (s : State) (r : Reg) (v : Word) : (wf s r v).h.ticket = s.h.ticket := by simp only [wf, mark_h_ticket, modC_h_ticket, modH_h]
@[simp] theorem wf_h_draws (s : State) (r : Reg) (v : Word) : (wf s r v).h.draws = s.h.draws := by simp only [wf, mark_h_draws, modC_h_draws, modH_h]
@[simp] theorem wf_h_stOut (s : State) (r : Reg) (v : Word) : (wf s r v).h.stOut = s.h.stOut := by simp only [wf, mark_h_stOut, modC_h_stOut, modH_h]
@[simp] theorem wf_h_ldOut (s : State) (r : Reg) (v : Word) : (wf s r v).h.ldOut = s.h.ldOut := by simp only [wf, mark_h_ldOut, modC_h_ldOut, modH_h]
@[simp] theorem wf_h_dpOut (s : State) (r : Reg) (v : Word) : (wf s r v).h.dpOut = s.h.dpOut := by simp only [wf, mark_h_dpOut, modC_h_dpOut, modH_h]
@[simp] theorem wf_h_sdOut (s : State) (r : Reg) (v : Word) : (wf s r v).h.sdOut = s.h.sdOut := by simp only [wf, mark_h_sdOut, modC_h_sdOut, modH_h]
@[simp] theorem wf_h_groups (s : State) (r : Reg) (v : Word) : (wf s r v).h.groups = s.h.groups := by simp only [wf, mark_h_groups, modC_h_groups, modH_h]
@[simp] theorem wf_h_barRecs (s : State) (r : Reg) (v : Word) : (wf s r v).h.barRecs = s.h.barRecs := by simp only [wf, mark_h_barRecs, modC_h_barRecs, modH_h]
@[simp] theorem wf_h_gang (s : State) (r : Reg) (v : Word) : (wf s r v).h.gang = s.h.gang := by simp only [wf, mark_h_gang, modC_h_gang, modH_h]
@[simp] theorem wf_h_fuse (s : State) (r : Reg) (v : Word) : (wf s r v).h.fuse = s.h.fuse := by simp only [wf, mark_h_fuse, modC_h_fuse, modH_h]
@[simp] theorem wf_h_run (s : State) (r : Reg) (v : Word) : (wf s r v).h.run = s.h.run := by simp only [wf, mark_h_run, modC_h_run, modH_h]
@[simp] theorem wf_h_schedDirty (s : State) (r : Reg) (v : Word) : (wf s r v).h.schedDirty = s.h.schedDirty ||| (1#16 <<< 1) := by simp only [wf, mark_h_schedDirty, modC_h_schedDirty, modH_h]; rfl
@[simp] theorem wf_h_softDirty (s : State) (r : Reg) (v : Word) : (wf s r v).h.softDirty = s.h.softDirty ||| (1#16 <<< 1) := by simp only [wf, mark_h_softDirty, modC_h_softDirty, modH_h]; rfl
@[simp] theorem wf_h_softBanks (s : State) (r : Reg) (v : Word) : (wf s r v).h.softBanks = s.h.softBanks := by simp only [wf, mark_h_softBanks, modC_h_softBanks, modH_h]
@[simp] theorem wf_h_saveCount (s : State) (r : Reg) (v : Word) : (wf s r v).h.saveCount = s.h.saveCount := by simp only [wf, mark_h_saveCount, modC_h_saveCount, modH_h]
@[simp] theorem wf_h_chain (s : State) (r : Reg) (v : Word) : (wf s r v).h.chain = s.h.chain := by simp only [wf, mark_h_chain, modC_h_chain, modH_h]
@[simp] theorem wf_h_sleepFrom (s : State) (r : Reg) (v : Word) : (wf s r v).h.sleepFrom = s.h.sleepFrom := by simp only [wf, mark_h_sleepFrom, modC_h_sleepFrom, modH_h]
@[simp] theorem wf_h_timedOut (s : State) (r : Reg) (v : Word) : (wf s r v).h.timedOut = s.h.timedOut := by simp only [wf, mark_h_timedOut, modC_h_timedOut, modH_h]
@[simp] theorem wf_h_mid (s : State) (r : Reg) (v : Word) : (wf s r v).h.mid = s.h.mid := by simp only [wf, mark_h_mid, modC_h_mid, modH_h]
@[simp] theorem wf_h_barAt (s : State) (r : Reg) (v : Word) : (wf s r v).h.barAt = s.h.barAt := by simp only [wf, mark_h_barAt, modC_h_barAt, modH_h]
@[simp] theorem wf_h_svAt (s : State) (r : Reg) (v : Word) : (wf s r v).h.svAt = s.h.svAt := by simp only [wf, mark_h_svAt, modC_h_svAt, modH_h]
@[simp] theorem wf_h_evWait (s : State) (r : Reg) (v : Word) : (wf s r v).h.evWait = s.h.evWait := by simp only [wf, mark_h_evWait, modC_h_evWait, modH_h]
@[simp] theorem wv_others (s : State) (r : Reg) (v : BitVec 512) : (wv s r v).others = s.others := by simp only [wv, mark_others, modC_others, modH_others]
@[simp] theorem wv_mem (s : State) (r : Reg) (v : BitVec 512) : (wv s r v).mem = s.mem := by simp only [wv, mark_mem, modC_mem, modH_mem]
@[simp] theorem wv_lmeta (s : State) (r : Reg) (v : BitVec 512) : (wv s r v).lmeta = s.lmeta := by simp only [wv, mark_lmeta, modC_lmeta, modH_lmeta]
@[simp] theorem wv_tiles (s : State) (r : Reg) (v : BitVec 512) : (wv s r v).tiles = s.tiles := by simp only [wv, mark_tiles, modC_tiles, modH_tiles]
@[simp] theorem wv_clusters (s : State) (r : Reg) (v : BitVec 512) : (wv s r v).clusters = s.clusters := by simp only [wv, mark_clusters, modC_clusters, modH_clusters]
@[simp] theorem wv_slices (s : State) (r : Reg) (v : BitVec 512) : (wv s r v).slices = s.slices := by simp only [wv, mark_slices, modC_slices, modH_slices]
@[simp] theorem wv_caps (s : State) (r : Reg) (v : BitVec 512) : (wv s r v).caps = s.caps := by simp only [wv, mark_caps, modC_caps, modH_caps]
@[simp] theorem wv_granuleCtx (s : State) (r : Reg) (v : BitVec 512) : (wv s r v).granuleCtx = s.granuleCtx := by simp only [wv, mark_granuleCtx, modC_granuleCtx, modH_granuleCtx]
@[simp] theorem wv_packets (s : State) (r : Reg) (v : BitVec 512) : (wv s r v).packets = s.packets := by simp only [wv, mark_packets, modC_packets, modH_packets]
@[simp] theorem wv_linkSeries (s : State) (r : Reg) (v : BitVec 512) : (wv s r v).linkSeries = s.linkSeries := by simp only [wv, mark_linkSeries, modC_linkSeries, modH_linkSeries]
@[simp] theorem wv_expected (s : State) (r : Reg) (v : BitVec 512) : (wv s r v).expected = s.expected := by simp only [wv, mark_expected, modC_expected, modH_expected]
@[simp] theorem wv_relinked (s : State) (r : Reg) (v : BitVec 512) : (wv s r v).relinked = s.relinked := by simp only [wv, mark_relinked, modC_relinked, modH_relinked]
@[simp] theorem wv_payloadLost (s : State) (r : Reg) (v : BitVec 512) : (wv s r v).payloadLost = s.payloadLost := by simp only [wv, mark_payloadLost, modC_payloadLost, modH_payloadLost]
@[simp] theorem wv_faultedDfcnt (s : State) (r : Reg) (v : BitVec 512) : (wv s r v).faultedDfcnt = s.faultedDfcnt := by simp only [wv, mark_faultedDfcnt, modC_faultedDfcnt, modH_faultedDfcnt]
@[simp] theorem wv_acks (s : State) (r : Reg) (v : BitVec 512) : (wv s r v).acks = s.acks := by simp only [wv, mark_acks, modC_acks, modH_acks]
@[simp] theorem wv_rejections (s : State) (r : Reg) (v : BitVec 512) : (wv s r v).rejections = s.rejections := by simp only [wv, mark_rejections, modC_rejections, modH_rejections]
@[simp] theorem wv_events (s : State) (r : Reg) (v : BitVec 512) : (wv s r v).events = s.events := by simp only [wv, mark_events, modC_events, modH_events]
@[simp] theorem wv_postedOut (s : State) (r : Reg) (v : BitVec 512) : (wv s r v).postedOut = s.postedOut := by simp only [wv, mark_postedOut, modC_postedOut, modH_postedOut]
@[simp] theorem wv_chans (s : State) (r : Reg) (v : BitVec 512) : (wv s r v).chans = s.chans := by simp only [wv, mark_chans, modC_chans, modH_chans]
@[simp] theorem wv_varWorld (s : State) (r : Reg) (v : BitVec 512) : (wv s r v).varWorld = s.varWorld := by simp only [wv, mark_varWorld, modC_varWorld, modH_varWorld]
@[simp] theorem wv_vars (s : State) (r : Reg) (v : BitVec 512) : (wv s r v).vars = s.vars := by simp only [wv, mark_vars, modC_vars, modH_vars]
@[simp] theorem wv_svPosts (s : State) (r : Reg) (v : BitVec 512) : (wv s r v).svPosts = s.svPosts := by simp only [wv, mark_svPosts, modC_svPosts, modH_svPosts]
@[simp] theorem wv_svDrops (s : State) (r : Reg) (v : BitVec 512) : (wv s r v).svDrops = s.svDrops := by simp only [wv, mark_svDrops, modC_svDrops, modH_svDrops]
@[simp] theorem wv_queues (s : State) (r : Reg) (v : BitVec 512) : (wv s r v).queues = s.queues := by simp only [wv, mark_queues, modC_queues, modH_queues]
@[simp] theorem wv_workCount (s : State) (r : Reg) (v : BitVec 512) : (wv s r v).workCount = s.workCount := by simp only [wv, mark_workCount, modC_workCount, modH_workCount]
@[simp] theorem wv_rotations (s : State) (r : Reg) (v : BitVec 512) : (wv s r v).rotations = s.rotations := by simp only [wv, mark_rotations, modC_rotations, modH_rotations]
@[simp] theorem wv_queueErrs (s : State) (r : Reg) (v : BitVec 512) : (wv s r v).queueErrs = s.queueErrs := by simp only [wv, mark_queueErrs, modC_queueErrs, modH_queueErrs]
@[simp] theorem wv_kernels (s : State) (r : Reg) (v : BitVec 512) : (wv s r v).kernels = s.kernels := by simp only [wv, mark_kernels, modC_kernels, modH_kernels]
@[simp] theorem wv_freeSlots (s : State) (r : Reg) (v : BitVec 512) : (wv s r v).freeSlots = s.freeSlots := by simp only [wv, mark_freeSlots, modC_freeSlots, modH_freeSlots]
@[simp] theorem wv_usedSlots (s : State) (r : Reg) (v : BitVec 512) : (wv s r v).usedSlots = s.usedSlots := by simp only [wv, mark_usedSlots, modC_usedSlots, modH_usedSlots]
@[simp] theorem wv_sgens (s : State) (r : Reg) (v : BitVec 512) : (wv s r v).sgens = s.sgens := by simp only [wv, mark_sgens, modC_sgens, modH_sgens]
@[simp] theorem wv_saveArea (s : State) (r : Reg) (v : BitVec 512) : (wv s r v).saveArea = s.saveArea := by simp only [wv, mark_saveArea, modC_saveArea, modH_saveArea]
@[simp] theorem wv_saveEcc (s : State) (r : Reg) (v : BitVec 512) : (wv s r v).saveEcc = s.saveEcc := by simp only [wv, mark_saveEcc, modC_saveEcc, modH_saveEcc]
@[simp] theorem wv_sums (s : State) (r : Reg) (v : BitVec 512) : (wv s r v).sums = s.sums := by simp only [wv, mark_sums, modC_sums, modH_sums]
@[simp] theorem wv_sends (s : State) (r : Reg) (v : BitVec 512) : (wv s r v).sends = s.sends := by simp only [wv, mark_sends, modC_sends, modH_sends]
@[simp] theorem wv_notices (s : State) (r : Reg) (v : BitVec 512) : (wv s r v).notices = s.notices := by simp only [wv, mark_notices, modC_notices, modH_notices]
@[simp] theorem wv_ctxs (s : State) (r : Reg) (v : BitVec 512) : (wv s r v).ctxs = s.ctxs := by simp only [wv, mark_ctxs, modC_ctxs, modH_ctxs]
@[simp] theorem wv_frames (s : State) (r : Reg) (v : BitVec 512) : (wv s r v).frames = s.frames := by simp only [wv, mark_frames, modC_frames, modH_frames]
@[simp] theorem wv_poolFrames (s : State) (r : Reg) (v : BitVec 512) : (wv s r v).poolFrames = s.poolFrames := by simp only [wv, mark_poolFrames, modC_poolFrames, modH_poolFrames]
@[simp] theorem wv_keys (s : State) (r : Reg) (v : BitVec 512) : (wv s r v).keys = s.keys := by simp only [wv, mark_keys, modC_keys, modH_keys]
@[simp] theorem wv_gates (s : State) (r : Reg) (v : BitVec 512) : (wv s r v).gates = s.gates := by simp only [wv, mark_gates, modC_gates, modH_gates]
@[simp] theorem wv_scrubs (s : State) (r : Reg) (v : BitVec 512) : (wv s r v).scrubs = s.scrubs := by simp only [wv, mark_scrubs, modC_scrubs, modH_scrubs]
@[simp] theorem wv_ports (s : State) (r : Reg) (v : BitVec 512) : (wv s r v).ports = s.ports := by simp only [wv, mark_ports, modC_ports, modH_ports]
@[simp] theorem wv_routes (s : State) (r : Reg) (v : BitVec 512) : (wv s r v).routes = s.routes := by simp only [wv, mark_routes, modC_routes, modH_routes]
@[simp] theorem wv_exports (s : State) (r : Reg) (v : BitVec 512) : (wv s r v).exports = s.exports := by simp only [wv, mark_exports, modC_exports, modH_exports]
@[simp] theorem wv_moves (s : State) (r : Reg) (v : BitVec 512) : (wv s r v).moves = s.moves := by simp only [wv, mark_moves, modC_moves, modH_moves]
@[simp] theorem wv_moveLog (s : State) (r : Reg) (v : BitVec 512) : (wv s r v).moveLog = s.moveLog := by simp only [wv, mark_moveLog, modC_moveLog, modH_moveLog]
@[simp] theorem wv_audit (s : State) (r : Reg) (v : BitVec 512) : (wv s r v).audit = s.audit := by simp only [wv, mark_audit, modC_audit, modH_audit]
@[simp] theorem wv_agents (s : State) (r : Reg) (v : BitVec 512) : (wv s r v).agents = s.agents := by simp only [wv, mark_agents, modC_agents, modH_agents]
@[simp] theorem wv_linkOut (s : State) (r : Reg) (v : BitVec 512) : (wv s r v).linkOut = s.linkOut := by simp only [wv, mark_linkOut, modC_linkOut, modH_linkOut]
@[simp] theorem wv_linkWaits (s : State) (r : Reg) (v : BitVec 512) : (wv s r v).linkWaits = s.linkWaits := by simp only [wv, mark_linkWaits, modC_linkWaits, modH_linkWaits]
@[simp] theorem wv_hostDrops (s : State) (r : Reg) (v : BitVec 512) : (wv s r v).hostDrops = s.hostDrops := by simp only [wv, mark_hostDrops, modC_hostDrops, modH_hostDrops]
@[simp] theorem wv_bw (s : State) (r : Reg) (v : BitVec 512) : (wv s r v).bw = s.bw := by simp only [wv, mark_bw, modC_bw, modH_bw]
@[simp] theorem wv_powerCap (s : State) (r : Reg) (v : BitVec 512) : (wv s r v).powerCap = s.powerCap := by simp only [wv, mark_powerCap, modC_powerCap, modH_powerCap]
@[simp] theorem wv_overCap (s : State) (r : Reg) (v : BitVec 512) : (wv s r v).overCap = s.overCap := by simp only [wv, mark_overCap, modC_overCap, modH_overCap]
@[simp] theorem wv_monitors (s : State) (r : Reg) (v : BitVec 512) : (wv s r v).monitors = s.monitors := by simp only [wv, mark_monitors, modC_monitors, modH_monitors]
@[simp] theorem wv_tripped (s : State) (r : Reg) (v : BitVec 512) : (wv s r v).tripped = s.tripped := by simp only [wv, mark_tripped, modC_tripped, modH_tripped]
@[simp] theorem wv_ready (s : State) (r : Reg) (v : BitVec 512) : (wv s r v).ready = s.ready := by simp only [wv, mark_ready, modC_ready, modH_ready]
@[simp] theorem wv_tested (s : State) (r : Reg) (v : BitVec 512) : (wv s r v).tested = s.tested := by simp only [wv, mark_tested, modC_tested, modH_tested]
@[simp] theorem wv_settled (s : State) (r : Reg) (v : BitVec 512) : (wv s r v).settled = s.settled := by simp only [wv, mark_settled, modC_settled, modH_settled]
@[simp] theorem wv_yew (s : State) (r : Reg) (v : BitVec 512) : (wv s r v).yew = s.yew := by simp only [wv, mark_yew, modC_yew, modH_yew]
@[simp] theorem wv_larch (s : State) (r : Reg) (v : BitVec 512) : (wv s r v).larch = s.larch := by simp only [wv, mark_larch, modC_larch, modH_larch]
@[simp] theorem wv_device (s : State) (r : Reg) (v : BitVec 512) : (wv s r v).device = s.device := by simp only [wv, mark_device, modC_device, modH_device]
@[simp] theorem wv_deviceFixed (s : State) (r : Reg) (v : BitVec 512) : (wv s r v).deviceFixed = s.deviceFixed := by simp only [wv, mark_deviceFixed, modC_deviceFixed, modH_deviceFixed]
@[simp] theorem wv_booting (s : State) (r : Reg) (v : BitVec 512) : (wv s r v).booting = s.booting := by simp only [wv, mark_booting, modC_booting, modH_booting]
@[simp] theorem wv_stacksHeld (s : State) (r : Reg) (v : BitVec 512) : (wv s r v).stacksHeld = s.stacksHeld := by simp only [wv, mark_stacksHeld, modC_stacksHeld, modH_stacksHeld]
@[simp] theorem wv_migrations (s : State) (r : Reg) (v : BitVec 512) : (wv s r v).migrations = s.migrations := by simp only [wv, mark_migrations, modC_migrations, modH_migrations]
@[simp] theorem wv_told (s : State) (r : Reg) (v : BitVec 512) : (wv s r v).told = s.told := by simp only [wv, mark_told, modC_told, modH_told]
@[simp] theorem wv_cycle (s : State) (r : Reg) (v : BitVec 512) : (wv s r v).cycle = s.cycle := by simp only [wv, mark_cycle, modC_cycle, modH_cycle]
@[simp] theorem wv_schedule (s : State) (r : Reg) (v : BitVec 512) : (wv s r v).schedule = s.schedule := by simp only [wv, mark_schedule, modC_schedule, modH_schedule]
@[simp] theorem wv_pending (s : State) (r : Reg) (v : BitVec 512) : (wv s r v).pending = s.pending := by simp only [wv, mark_pending, modC_pending, modH_pending]
@[simp] theorem wv_note (s : State) (r : Reg) (v : BitVec 512) : (wv s r v).note = s.note := by simp only [wv, mark_note, modC_note, modH_note]
@[simp] theorem wv_fresh (s : State) (r : Reg) (v : BitVec 512) : (wv s r v).fresh = s.fresh := by simp only [wv, mark_fresh, modC_fresh, modH_fresh]
@[simp] theorem wv_h_live (s : State) (r : Reg) (v : BitVec 512) : (wv s r v).h.live = s.h.live := by simp only [wv, mark_h_live, modC_h_live, modH_h]
@[simp] theorem wv_h_loc (s : State) (r : Reg) (v : BitVec 512) : (wv s r v).h.loc = s.h.loc := by simp only [wv, mark_h_loc, modC_h_loc, modH_h]
@[simp] theorem wv_h_tile (s : State) (r : Reg) (v : BitVec 512) : (wv s r v).h.tile = s.h.tile := by simp only [wv, mark_h_tile, modC_h_tile, modH_h]
@[simp] theorem wv_h_lastTile (s : State) (r : Reg) (v : BitVec 512) : (wv s r v).h.lastTile = s.h.lastTile := by simp only [wv, mark_h_lastTile, modC_h_lastTile, modH_h]
@[simp] theorem wv_h_ctx (s : State) (r : Reg) (v : BitVec 512) : (wv s r v).h.ctx = s.h.ctx := by simp only [wv, mark_h_ctx, modC_h_ctx, modH_h]
@[simp] theorem wv_h_mode (s : State) (r : Reg) (v : BitVec 512) : (wv s r v).h.mode = s.h.mode := by simp only [wv, mark_h_mode, modC_h_mode, modH_h]
@[simp] theorem wv_h_pc (s : State) (r : Reg) (v : BitVec 512) : (wv s r v).h.pc = s.h.pc := by simp only [wv, mark_h_pc, modC_h_pc, modH_h]
@[simp] theorem wv_h_ir (s : State) (r : Reg) (v : BitVec 512) : (wv s r v).h.ir = s.h.ir := by simp only [wv, mark_h_ir, modC_h_ir, modH_h]
@[simp] theorem wv_h_x (s : State) (r : Reg) (v : BitVec 512) : (wv s r v).h.x = s.h.x := by simp only [wv, mark_h_x, modC_h_x, modH_h]
@[simp] theorem wv_h_f (s : State) (r : Reg) (v : BitVec 512) : (wv s r v).h.f = s.h.f := by simp only [wv, mark_h_f, modC_h_f, modH_h]
@[simp] theorem wv_h_v (s : State) (r : Reg) (v : BitVec 512) : (wv s r v).h.v = s.h.v.set r.val v := by simp only [wv, mark_h_v, modC_h_v, modH_h]
@[simp] theorem wv_h_csr (s : State) (r : Reg) (v : BitVec 512) : (wv s r v).h.csr = { s.h.csr with mstatus := setFld s.h.csr.mstatus 9 2 3 } := by simp only [wv, mark_h_csr, modC_csr, modH_h]
@[simp] theorem wv_h_resv (s : State) (r : Reg) (v : BitVec 512) : (wv s r v).h.resv = s.h.resv := by simp only [wv, mark_h_resv, modC_h_resv, modH_h]
@[simp] theorem wv_h_wfi (s : State) (r : Reg) (v : BitVec 512) : (wv s r v).h.wfi = s.h.wfi := by simp only [wv, mark_h_wfi, modC_h_wfi, modH_h]
@[simp] theorem wv_h_holdings (s : State) (r : Reg) (v : BitVec 512) : (wv s r v).h.holdings = s.h.holdings := by simp only [wv, mark_h_holdings, modC_h_holdings, modH_h]
@[simp] theorem wv_h_port (s : State) (r : Reg) (v : BitVec 512) : (wv s r v).h.port = s.h.port := by simp only [wv, mark_h_port, modC_h_port, modH_h]
@[simp] theorem wv_h_ring (s : State) (r : Reg) (v : BitVec 512) : (wv s r v).h.ring = s.h.ring := by simp only [wv, mark_h_ring, modC_h_ring, modH_h]
@[simp] theorem wv_h_ringCap (s : State) (r : Reg) (v : BitVec 512) : (wv s r v).h.ringCap = s.h.ringCap := by simp only [wv, mark_h_ringCap, modC_h_ringCap, modH_h]
@[simp] theorem wv_h_acc0 (s : State) (r : Reg) (v : BitVec 512) : (wv s r v).h.acc0 = s.h.acc0 := by simp only [wv, mark_h_acc0, modC_h_acc0, modH_h]
@[simp] theorem wv_h_acc1 (s : State) (r : Reg) (v : BitVec 512) : (wv s r v).h.acc1 = s.h.acc1 := by simp only [wv, mark_h_acc1, modC_h_acc1, modH_h]
@[simp] theorem wv_h_mpart (s : State) (r : Reg) (v : BitVec 512) : (wv s r v).h.mpart = s.h.mpart := by simp only [wv, mark_h_mpart, modC_h_mpart, modH_h]
@[simp] theorem wv_h_cbs (s : State) (r : Reg) (v : BitVec 512) : (wv s r v).h.cbs = s.h.cbs := by simp only [wv, mark_h_cbs, modC_h_cbs, modH_h]
@[simp] theorem wv_h_cbufs (s : State) (r : Reg) (v : BitVec 512) : (wv s r v).h.cbufs = s.h.cbufs := by simp only [wv, mark_h_cbufs, modC_h_cbufs, modH_h]
@[simp] theorem wv_h_cmds (s : State) (r : Reg) (v : BitVec 512) : (wv s r v).h.cmds = s.h.cmds := by simp only [wv, mark_h_cmds, modC_h_cmds, modH_h]
@[simp] theorem wv_h_nextCmd (s : State) (r : Reg) (v : BitVec 512) : (wv s r v).h.nextCmd = s.h.nextCmd := by simp only [wv, mark_h_nextCmd, modC_h_nextCmd, modH_h]
@[simp] theorem wv_h_ticket (s : State) (r : Reg) (v : BitVec 512) : (wv s r v).h.ticket = s.h.ticket := by simp only [wv, mark_h_ticket, modC_h_ticket, modH_h]
@[simp] theorem wv_h_draws (s : State) (r : Reg) (v : BitVec 512) : (wv s r v).h.draws = s.h.draws := by simp only [wv, mark_h_draws, modC_h_draws, modH_h]
@[simp] theorem wv_h_stOut (s : State) (r : Reg) (v : BitVec 512) : (wv s r v).h.stOut = s.h.stOut := by simp only [wv, mark_h_stOut, modC_h_stOut, modH_h]
@[simp] theorem wv_h_ldOut (s : State) (r : Reg) (v : BitVec 512) : (wv s r v).h.ldOut = s.h.ldOut := by simp only [wv, mark_h_ldOut, modC_h_ldOut, modH_h]
@[simp] theorem wv_h_dpOut (s : State) (r : Reg) (v : BitVec 512) : (wv s r v).h.dpOut = s.h.dpOut := by simp only [wv, mark_h_dpOut, modC_h_dpOut, modH_h]
@[simp] theorem wv_h_sdOut (s : State) (r : Reg) (v : BitVec 512) : (wv s r v).h.sdOut = s.h.sdOut := by simp only [wv, mark_h_sdOut, modC_h_sdOut, modH_h]
@[simp] theorem wv_h_groups (s : State) (r : Reg) (v : BitVec 512) : (wv s r v).h.groups = s.h.groups := by simp only [wv, mark_h_groups, modC_h_groups, modH_h]
@[simp] theorem wv_h_barRecs (s : State) (r : Reg) (v : BitVec 512) : (wv s r v).h.barRecs = s.h.barRecs := by simp only [wv, mark_h_barRecs, modC_h_barRecs, modH_h]
@[simp] theorem wv_h_gang (s : State) (r : Reg) (v : BitVec 512) : (wv s r v).h.gang = s.h.gang := by simp only [wv, mark_h_gang, modC_h_gang, modH_h]
@[simp] theorem wv_h_fuse (s : State) (r : Reg) (v : BitVec 512) : (wv s r v).h.fuse = s.h.fuse := by simp only [wv, mark_h_fuse, modC_h_fuse, modH_h]
@[simp] theorem wv_h_run (s : State) (r : Reg) (v : BitVec 512) : (wv s r v).h.run = s.h.run := by simp only [wv, mark_h_run, modC_h_run, modH_h]
@[simp] theorem wv_h_schedDirty (s : State) (r : Reg) (v : BitVec 512) : (wv s r v).h.schedDirty = s.h.schedDirty ||| (1#16 <<< 2) := by simp only [wv, mark_h_schedDirty, modC_h_schedDirty, modH_h]; rfl
@[simp] theorem wv_h_softDirty (s : State) (r : Reg) (v : BitVec 512) : (wv s r v).h.softDirty = s.h.softDirty ||| (1#16 <<< 2) := by simp only [wv, mark_h_softDirty, modC_h_softDirty, modH_h]; rfl
@[simp] theorem wv_h_softBanks (s : State) (r : Reg) (v : BitVec 512) : (wv s r v).h.softBanks = s.h.softBanks := by simp only [wv, mark_h_softBanks, modC_h_softBanks, modH_h]
@[simp] theorem wv_h_saveCount (s : State) (r : Reg) (v : BitVec 512) : (wv s r v).h.saveCount = s.h.saveCount := by simp only [wv, mark_h_saveCount, modC_h_saveCount, modH_h]
@[simp] theorem wv_h_chain (s : State) (r : Reg) (v : BitVec 512) : (wv s r v).h.chain = s.h.chain := by simp only [wv, mark_h_chain, modC_h_chain, modH_h]
@[simp] theorem wv_h_sleepFrom (s : State) (r : Reg) (v : BitVec 512) : (wv s r v).h.sleepFrom = s.h.sleepFrom := by simp only [wv, mark_h_sleepFrom, modC_h_sleepFrom, modH_h]
@[simp] theorem wv_h_timedOut (s : State) (r : Reg) (v : BitVec 512) : (wv s r v).h.timedOut = s.h.timedOut := by simp only [wv, mark_h_timedOut, modC_h_timedOut, modH_h]
@[simp] theorem wv_h_mid (s : State) (r : Reg) (v : BitVec 512) : (wv s r v).h.mid = s.h.mid := by simp only [wv, mark_h_mid, modC_h_mid, modH_h]
@[simp] theorem wv_h_barAt (s : State) (r : Reg) (v : BitVec 512) : (wv s r v).h.barAt = s.h.barAt := by simp only [wv, mark_h_barAt, modC_h_barAt, modH_h]
@[simp] theorem wv_h_svAt (s : State) (r : Reg) (v : BitVec 512) : (wv s r v).h.svAt = s.h.svAt := by simp only [wv, mark_h_svAt, modC_h_svAt, modH_h]
@[simp] theorem wv_h_evWait (s : State) (r : Reg) (v : BitVec 512) : (wv s r v).h.evWait = s.h.evWait := by simp only [wv, mark_h_evWait, modC_h_evWait, modH_h]

/-! An event that is due, and a change of a tile, a cluster, a port -/

@[simp] theorem enqueue_h (s : State) (i : Instr) : (enqueue s i).h = s.h := rfl
@[simp] theorem enqueue_others (s : State) (i : Instr) : (enqueue s i).others = s.others := rfl
@[simp] theorem enqueue_mem (s : State) (i : Instr) : (enqueue s i).mem = s.mem := rfl
@[simp] theorem enqueue_lmeta (s : State) (i : Instr) : (enqueue s i).lmeta = s.lmeta := rfl
@[simp] theorem enqueue_tiles (s : State) (i : Instr) : (enqueue s i).tiles = s.tiles := rfl
@[simp] theorem enqueue_clusters (s : State) (i : Instr) : (enqueue s i).clusters = s.clusters := rfl
@[simp] theorem enqueue_slices (s : State) (i : Instr) : (enqueue s i).slices = s.slices := rfl
@[simp] theorem enqueue_caps (s : State) (i : Instr) : (enqueue s i).caps = s.caps := rfl
@[simp] theorem enqueue_granuleCtx (s : State) (i : Instr) : (enqueue s i).granuleCtx = s.granuleCtx := rfl
@[simp] theorem enqueue_packets (s : State) (i : Instr) : (enqueue s i).packets = s.packets := rfl
@[simp] theorem enqueue_linkSeries (s : State) (i : Instr) : (enqueue s i).linkSeries = s.linkSeries := rfl
@[simp] theorem enqueue_expected (s : State) (i : Instr) : (enqueue s i).expected = s.expected := rfl
@[simp] theorem enqueue_relinked (s : State) (i : Instr) : (enqueue s i).relinked = s.relinked := rfl
@[simp] theorem enqueue_payloadLost (s : State) (i : Instr) : (enqueue s i).payloadLost = s.payloadLost := rfl
@[simp] theorem enqueue_faultedDfcnt (s : State) (i : Instr) : (enqueue s i).faultedDfcnt = s.faultedDfcnt := rfl
@[simp] theorem enqueue_acks (s : State) (i : Instr) : (enqueue s i).acks = s.acks := rfl
@[simp] theorem enqueue_rejections (s : State) (i : Instr) : (enqueue s i).rejections = s.rejections := rfl
@[simp] theorem enqueue_events (s : State) (i : Instr) : (enqueue s i).events = s.events := rfl
@[simp] theorem enqueue_postedOut (s : State) (i : Instr) : (enqueue s i).postedOut = s.postedOut := rfl
@[simp] theorem enqueue_chans (s : State) (i : Instr) : (enqueue s i).chans = s.chans := rfl
@[simp] theorem enqueue_varWorld (s : State) (i : Instr) : (enqueue s i).varWorld = s.varWorld := rfl
@[simp] theorem enqueue_vars (s : State) (i : Instr) : (enqueue s i).vars = s.vars := rfl
@[simp] theorem enqueue_svPosts (s : State) (i : Instr) : (enqueue s i).svPosts = s.svPosts := rfl
@[simp] theorem enqueue_svDrops (s : State) (i : Instr) : (enqueue s i).svDrops = s.svDrops := rfl
@[simp] theorem enqueue_queues (s : State) (i : Instr) : (enqueue s i).queues = s.queues := rfl
@[simp] theorem enqueue_workCount (s : State) (i : Instr) : (enqueue s i).workCount = s.workCount := rfl
@[simp] theorem enqueue_rotations (s : State) (i : Instr) : (enqueue s i).rotations = s.rotations := rfl
@[simp] theorem enqueue_queueErrs (s : State) (i : Instr) : (enqueue s i).queueErrs = s.queueErrs := rfl
@[simp] theorem enqueue_kernels (s : State) (i : Instr) : (enqueue s i).kernels = s.kernels := rfl
@[simp] theorem enqueue_freeSlots (s : State) (i : Instr) : (enqueue s i).freeSlots = s.freeSlots := rfl
@[simp] theorem enqueue_usedSlots (s : State) (i : Instr) : (enqueue s i).usedSlots = s.usedSlots := rfl
@[simp] theorem enqueue_sgens (s : State) (i : Instr) : (enqueue s i).sgens = s.sgens := rfl
@[simp] theorem enqueue_saveArea (s : State) (i : Instr) : (enqueue s i).saveArea = s.saveArea := rfl
@[simp] theorem enqueue_saveEcc (s : State) (i : Instr) : (enqueue s i).saveEcc = s.saveEcc := rfl
@[simp] theorem enqueue_sums (s : State) (i : Instr) : (enqueue s i).sums = s.sums := rfl
@[simp] theorem enqueue_sends (s : State) (i : Instr) : (enqueue s i).sends = s.sends := rfl
@[simp] theorem enqueue_notices (s : State) (i : Instr) : (enqueue s i).notices = s.notices := rfl
@[simp] theorem enqueue_ctxs (s : State) (i : Instr) : (enqueue s i).ctxs = s.ctxs := rfl
@[simp] theorem enqueue_frames (s : State) (i : Instr) : (enqueue s i).frames = s.frames := rfl
@[simp] theorem enqueue_poolFrames (s : State) (i : Instr) : (enqueue s i).poolFrames = s.poolFrames := rfl
@[simp] theorem enqueue_keys (s : State) (i : Instr) : (enqueue s i).keys = s.keys := rfl
@[simp] theorem enqueue_gates (s : State) (i : Instr) : (enqueue s i).gates = s.gates := rfl
@[simp] theorem enqueue_scrubs (s : State) (i : Instr) : (enqueue s i).scrubs = s.scrubs := rfl
@[simp] theorem enqueue_ports (s : State) (i : Instr) : (enqueue s i).ports = s.ports := rfl
@[simp] theorem enqueue_routes (s : State) (i : Instr) : (enqueue s i).routes = s.routes := rfl
@[simp] theorem enqueue_exports (s : State) (i : Instr) : (enqueue s i).exports = s.exports := rfl
@[simp] theorem enqueue_moves (s : State) (i : Instr) : (enqueue s i).moves = s.moves := rfl
@[simp] theorem enqueue_moveLog (s : State) (i : Instr) : (enqueue s i).moveLog = s.moveLog := rfl
@[simp] theorem enqueue_audit (s : State) (i : Instr) : (enqueue s i).audit = s.audit := rfl
@[simp] theorem enqueue_agents (s : State) (i : Instr) : (enqueue s i).agents = s.agents := rfl
@[simp] theorem enqueue_linkOut (s : State) (i : Instr) : (enqueue s i).linkOut = s.linkOut := rfl
@[simp] theorem enqueue_linkWaits (s : State) (i : Instr) : (enqueue s i).linkWaits = s.linkWaits := rfl
@[simp] theorem enqueue_hostDrops (s : State) (i : Instr) : (enqueue s i).hostDrops = s.hostDrops := rfl
@[simp] theorem enqueue_bw (s : State) (i : Instr) : (enqueue s i).bw = s.bw := rfl
@[simp] theorem enqueue_powerCap (s : State) (i : Instr) : (enqueue s i).powerCap = s.powerCap := rfl
@[simp] theorem enqueue_overCap (s : State) (i : Instr) : (enqueue s i).overCap = s.overCap := rfl
@[simp] theorem enqueue_monitors (s : State) (i : Instr) : (enqueue s i).monitors = s.monitors := rfl
@[simp] theorem enqueue_tripped (s : State) (i : Instr) : (enqueue s i).tripped = s.tripped := rfl
@[simp] theorem enqueue_ready (s : State) (i : Instr) : (enqueue s i).ready = s.ready := rfl
@[simp] theorem enqueue_tested (s : State) (i : Instr) : (enqueue s i).tested = s.tested := rfl
@[simp] theorem enqueue_settled (s : State) (i : Instr) : (enqueue s i).settled = s.settled := rfl
@[simp] theorem enqueue_yew (s : State) (i : Instr) : (enqueue s i).yew = s.yew := rfl
@[simp] theorem enqueue_larch (s : State) (i : Instr) : (enqueue s i).larch = s.larch := rfl
@[simp] theorem enqueue_device (s : State) (i : Instr) : (enqueue s i).device = s.device := rfl
@[simp] theorem enqueue_deviceFixed (s : State) (i : Instr) : (enqueue s i).deviceFixed = s.deviceFixed := rfl
@[simp] theorem enqueue_booting (s : State) (i : Instr) : (enqueue s i).booting = s.booting := rfl
@[simp] theorem enqueue_stacksHeld (s : State) (i : Instr) : (enqueue s i).stacksHeld = s.stacksHeld := rfl
@[simp] theorem enqueue_migrations (s : State) (i : Instr) : (enqueue s i).migrations = s.migrations := rfl
@[simp] theorem enqueue_told (s : State) (i : Instr) : (enqueue s i).told = s.told := rfl
@[simp] theorem enqueue_cycle (s : State) (i : Instr) : (enqueue s i).cycle = s.cycle := rfl
@[simp] theorem enqueue_schedule (s : State) (i : Instr) : (enqueue s i).schedule = s.schedule := rfl
@[simp] theorem enqueue_pending (s : State) (i : Instr) : (enqueue s i).pending = s.pending ++ [i] := rfl
@[simp] theorem enqueue_note (s : State) (i : Instr) : (enqueue s i).note = s.note := rfl
@[simp] theorem enqueue_fresh (s : State) (i : Instr) : (enqueue s i).fresh = s.fresh := rfl
@[simp] theorem updTile_h (s : State) (t : Nat) (f : Tile → Tile) : (updTile s t f).h = s.h := rfl
@[simp] theorem updTile_others (s : State) (t : Nat) (f : Tile → Tile) : (updTile s t f).others = s.others := rfl
@[simp] theorem updTile_mem (s : State) (t : Nat) (f : Tile → Tile) : (updTile s t f).mem = s.mem := rfl
@[simp] theorem updTile_lmeta (s : State) (t : Nat) (f : Tile → Tile) : (updTile s t f).lmeta = s.lmeta := rfl
@[simp] theorem updTile_clusters (s : State) (t : Nat) (f : Tile → Tile) : (updTile s t f).clusters = s.clusters := rfl
@[simp] theorem updTile_slices (s : State) (t : Nat) (f : Tile → Tile) : (updTile s t f).slices = s.slices := rfl
@[simp] theorem updTile_caps (s : State) (t : Nat) (f : Tile → Tile) : (updTile s t f).caps = s.caps := rfl
@[simp] theorem updTile_granuleCtx (s : State) (t : Nat) (f : Tile → Tile) : (updTile s t f).granuleCtx = s.granuleCtx := rfl
@[simp] theorem updTile_packets (s : State) (t : Nat) (f : Tile → Tile) : (updTile s t f).packets = s.packets := rfl
@[simp] theorem updTile_linkSeries (s : State) (t : Nat) (f : Tile → Tile) : (updTile s t f).linkSeries = s.linkSeries := rfl
@[simp] theorem updTile_expected (s : State) (t : Nat) (f : Tile → Tile) : (updTile s t f).expected = s.expected := rfl
@[simp] theorem updTile_relinked (s : State) (t : Nat) (f : Tile → Tile) : (updTile s t f).relinked = s.relinked := rfl
@[simp] theorem updTile_payloadLost (s : State) (t : Nat) (f : Tile → Tile) : (updTile s t f).payloadLost = s.payloadLost := rfl
@[simp] theorem updTile_faultedDfcnt (s : State) (t : Nat) (f : Tile → Tile) : (updTile s t f).faultedDfcnt = s.faultedDfcnt := rfl
@[simp] theorem updTile_acks (s : State) (t : Nat) (f : Tile → Tile) : (updTile s t f).acks = s.acks := rfl
@[simp] theorem updTile_rejections (s : State) (t : Nat) (f : Tile → Tile) : (updTile s t f).rejections = s.rejections := rfl
@[simp] theorem updTile_events (s : State) (t : Nat) (f : Tile → Tile) : (updTile s t f).events = s.events := rfl
@[simp] theorem updTile_postedOut (s : State) (t : Nat) (f : Tile → Tile) : (updTile s t f).postedOut = s.postedOut := rfl
@[simp] theorem updTile_chans (s : State) (t : Nat) (f : Tile → Tile) : (updTile s t f).chans = s.chans := rfl
@[simp] theorem updTile_varWorld (s : State) (t : Nat) (f : Tile → Tile) : (updTile s t f).varWorld = s.varWorld := rfl
@[simp] theorem updTile_vars (s : State) (t : Nat) (f : Tile → Tile) : (updTile s t f).vars = s.vars := rfl
@[simp] theorem updTile_svPosts (s : State) (t : Nat) (f : Tile → Tile) : (updTile s t f).svPosts = s.svPosts := rfl
@[simp] theorem updTile_svDrops (s : State) (t : Nat) (f : Tile → Tile) : (updTile s t f).svDrops = s.svDrops := rfl
@[simp] theorem updTile_queues (s : State) (t : Nat) (f : Tile → Tile) : (updTile s t f).queues = s.queues := rfl
@[simp] theorem updTile_workCount (s : State) (t : Nat) (f : Tile → Tile) : (updTile s t f).workCount = s.workCount := rfl
@[simp] theorem updTile_rotations (s : State) (t : Nat) (f : Tile → Tile) : (updTile s t f).rotations = s.rotations := rfl
@[simp] theorem updTile_queueErrs (s : State) (t : Nat) (f : Tile → Tile) : (updTile s t f).queueErrs = s.queueErrs := rfl
@[simp] theorem updTile_kernels (s : State) (t : Nat) (f : Tile → Tile) : (updTile s t f).kernels = s.kernels := rfl
@[simp] theorem updTile_freeSlots (s : State) (t : Nat) (f : Tile → Tile) : (updTile s t f).freeSlots = s.freeSlots := rfl
@[simp] theorem updTile_usedSlots (s : State) (t : Nat) (f : Tile → Tile) : (updTile s t f).usedSlots = s.usedSlots := rfl
@[simp] theorem updTile_sgens (s : State) (t : Nat) (f : Tile → Tile) : (updTile s t f).sgens = s.sgens := rfl
@[simp] theorem updTile_saveArea (s : State) (t : Nat) (f : Tile → Tile) : (updTile s t f).saveArea = s.saveArea := rfl
@[simp] theorem updTile_saveEcc (s : State) (t : Nat) (f : Tile → Tile) : (updTile s t f).saveEcc = s.saveEcc := rfl
@[simp] theorem updTile_sums (s : State) (t : Nat) (f : Tile → Tile) : (updTile s t f).sums = s.sums := rfl
@[simp] theorem updTile_sends (s : State) (t : Nat) (f : Tile → Tile) : (updTile s t f).sends = s.sends := rfl
@[simp] theorem updTile_notices (s : State) (t : Nat) (f : Tile → Tile) : (updTile s t f).notices = s.notices := rfl
@[simp] theorem updTile_ctxs (s : State) (t : Nat) (f : Tile → Tile) : (updTile s t f).ctxs = s.ctxs := rfl
@[simp] theorem updTile_frames (s : State) (t : Nat) (f : Tile → Tile) : (updTile s t f).frames = s.frames := rfl
@[simp] theorem updTile_poolFrames (s : State) (t : Nat) (f : Tile → Tile) : (updTile s t f).poolFrames = s.poolFrames := rfl
@[simp] theorem updTile_keys (s : State) (t : Nat) (f : Tile → Tile) : (updTile s t f).keys = s.keys := rfl
@[simp] theorem updTile_gates (s : State) (t : Nat) (f : Tile → Tile) : (updTile s t f).gates = s.gates := rfl
@[simp] theorem updTile_scrubs (s : State) (t : Nat) (f : Tile → Tile) : (updTile s t f).scrubs = s.scrubs := rfl
@[simp] theorem updTile_ports (s : State) (t : Nat) (f : Tile → Tile) : (updTile s t f).ports = s.ports := rfl
@[simp] theorem updTile_routes (s : State) (t : Nat) (f : Tile → Tile) : (updTile s t f).routes = s.routes := rfl
@[simp] theorem updTile_exports (s : State) (t : Nat) (f : Tile → Tile) : (updTile s t f).exports = s.exports := rfl
@[simp] theorem updTile_moves (s : State) (t : Nat) (f : Tile → Tile) : (updTile s t f).moves = s.moves := rfl
@[simp] theorem updTile_moveLog (s : State) (t : Nat) (f : Tile → Tile) : (updTile s t f).moveLog = s.moveLog := rfl
@[simp] theorem updTile_audit (s : State) (t : Nat) (f : Tile → Tile) : (updTile s t f).audit = s.audit := rfl
@[simp] theorem updTile_agents (s : State) (t : Nat) (f : Tile → Tile) : (updTile s t f).agents = s.agents := rfl
@[simp] theorem updTile_linkOut (s : State) (t : Nat) (f : Tile → Tile) : (updTile s t f).linkOut = s.linkOut := rfl
@[simp] theorem updTile_linkWaits (s : State) (t : Nat) (f : Tile → Tile) : (updTile s t f).linkWaits = s.linkWaits := rfl
@[simp] theorem updTile_hostDrops (s : State) (t : Nat) (f : Tile → Tile) : (updTile s t f).hostDrops = s.hostDrops := rfl
@[simp] theorem updTile_bw (s : State) (t : Nat) (f : Tile → Tile) : (updTile s t f).bw = s.bw := rfl
@[simp] theorem updTile_powerCap (s : State) (t : Nat) (f : Tile → Tile) : (updTile s t f).powerCap = s.powerCap := rfl
@[simp] theorem updTile_overCap (s : State) (t : Nat) (f : Tile → Tile) : (updTile s t f).overCap = s.overCap := rfl
@[simp] theorem updTile_monitors (s : State) (t : Nat) (f : Tile → Tile) : (updTile s t f).monitors = s.monitors := rfl
@[simp] theorem updTile_tripped (s : State) (t : Nat) (f : Tile → Tile) : (updTile s t f).tripped = s.tripped := rfl
@[simp] theorem updTile_ready (s : State) (t : Nat) (f : Tile → Tile) : (updTile s t f).ready = s.ready := rfl
@[simp] theorem updTile_tested (s : State) (t : Nat) (f : Tile → Tile) : (updTile s t f).tested = s.tested := rfl
@[simp] theorem updTile_settled (s : State) (t : Nat) (f : Tile → Tile) : (updTile s t f).settled = s.settled := rfl
@[simp] theorem updTile_yew (s : State) (t : Nat) (f : Tile → Tile) : (updTile s t f).yew = s.yew := rfl
@[simp] theorem updTile_larch (s : State) (t : Nat) (f : Tile → Tile) : (updTile s t f).larch = s.larch := rfl
@[simp] theorem updTile_device (s : State) (t : Nat) (f : Tile → Tile) : (updTile s t f).device = s.device := rfl
@[simp] theorem updTile_deviceFixed (s : State) (t : Nat) (f : Tile → Tile) : (updTile s t f).deviceFixed = s.deviceFixed := rfl
@[simp] theorem updTile_booting (s : State) (t : Nat) (f : Tile → Tile) : (updTile s t f).booting = s.booting := rfl
@[simp] theorem updTile_stacksHeld (s : State) (t : Nat) (f : Tile → Tile) : (updTile s t f).stacksHeld = s.stacksHeld := rfl
@[simp] theorem updTile_migrations (s : State) (t : Nat) (f : Tile → Tile) : (updTile s t f).migrations = s.migrations := rfl
@[simp] theorem updTile_told (s : State) (t : Nat) (f : Tile → Tile) : (updTile s t f).told = s.told := rfl
@[simp] theorem updTile_cycle (s : State) (t : Nat) (f : Tile → Tile) : (updTile s t f).cycle = s.cycle := rfl
@[simp] theorem updTile_schedule (s : State) (t : Nat) (f : Tile → Tile) : (updTile s t f).schedule = s.schedule := rfl
@[simp] theorem updTile_pending (s : State) (t : Nat) (f : Tile → Tile) : (updTile s t f).pending = s.pending := rfl
@[simp] theorem updTile_note (s : State) (t : Nat) (f : Tile → Tile) : (updTile s t f).note = s.note := rfl
@[simp] theorem updTile_fresh (s : State) (t : Nat) (f : Tile → Tile) : (updTile s t f).fresh = s.fresh := rfl
@[simp] theorem updCluster_h (s : State) (c : Nat) (f : Cluster → Cluster) : (updCluster s c f).h = s.h := rfl
@[simp] theorem updCluster_others (s : State) (c : Nat) (f : Cluster → Cluster) : (updCluster s c f).others = s.others := rfl
@[simp] theorem updCluster_mem (s : State) (c : Nat) (f : Cluster → Cluster) : (updCluster s c f).mem = s.mem := rfl
@[simp] theorem updCluster_lmeta (s : State) (c : Nat) (f : Cluster → Cluster) : (updCluster s c f).lmeta = s.lmeta := rfl
@[simp] theorem updCluster_tiles (s : State) (c : Nat) (f : Cluster → Cluster) : (updCluster s c f).tiles = s.tiles := rfl
@[simp] theorem updCluster_slices (s : State) (c : Nat) (f : Cluster → Cluster) : (updCluster s c f).slices = s.slices := rfl
@[simp] theorem updCluster_caps (s : State) (c : Nat) (f : Cluster → Cluster) : (updCluster s c f).caps = s.caps := rfl
@[simp] theorem updCluster_granuleCtx (s : State) (c : Nat) (f : Cluster → Cluster) : (updCluster s c f).granuleCtx = s.granuleCtx := rfl
@[simp] theorem updCluster_packets (s : State) (c : Nat) (f : Cluster → Cluster) : (updCluster s c f).packets = s.packets := rfl
@[simp] theorem updCluster_linkSeries (s : State) (c : Nat) (f : Cluster → Cluster) : (updCluster s c f).linkSeries = s.linkSeries := rfl
@[simp] theorem updCluster_expected (s : State) (c : Nat) (f : Cluster → Cluster) : (updCluster s c f).expected = s.expected := rfl
@[simp] theorem updCluster_relinked (s : State) (c : Nat) (f : Cluster → Cluster) : (updCluster s c f).relinked = s.relinked := rfl
@[simp] theorem updCluster_payloadLost (s : State) (c : Nat) (f : Cluster → Cluster) : (updCluster s c f).payloadLost = s.payloadLost := rfl
@[simp] theorem updCluster_faultedDfcnt (s : State) (c : Nat) (f : Cluster → Cluster) : (updCluster s c f).faultedDfcnt = s.faultedDfcnt := rfl
@[simp] theorem updCluster_acks (s : State) (c : Nat) (f : Cluster → Cluster) : (updCluster s c f).acks = s.acks := rfl
@[simp] theorem updCluster_rejections (s : State) (c : Nat) (f : Cluster → Cluster) : (updCluster s c f).rejections = s.rejections := rfl
@[simp] theorem updCluster_events (s : State) (c : Nat) (f : Cluster → Cluster) : (updCluster s c f).events = s.events := rfl
@[simp] theorem updCluster_postedOut (s : State) (c : Nat) (f : Cluster → Cluster) : (updCluster s c f).postedOut = s.postedOut := rfl
@[simp] theorem updCluster_chans (s : State) (c : Nat) (f : Cluster → Cluster) : (updCluster s c f).chans = s.chans := rfl
@[simp] theorem updCluster_varWorld (s : State) (c : Nat) (f : Cluster → Cluster) : (updCluster s c f).varWorld = s.varWorld := rfl
@[simp] theorem updCluster_vars (s : State) (c : Nat) (f : Cluster → Cluster) : (updCluster s c f).vars = s.vars := rfl
@[simp] theorem updCluster_svPosts (s : State) (c : Nat) (f : Cluster → Cluster) : (updCluster s c f).svPosts = s.svPosts := rfl
@[simp] theorem updCluster_svDrops (s : State) (c : Nat) (f : Cluster → Cluster) : (updCluster s c f).svDrops = s.svDrops := rfl
@[simp] theorem updCluster_queues (s : State) (c : Nat) (f : Cluster → Cluster) : (updCluster s c f).queues = s.queues := rfl
@[simp] theorem updCluster_workCount (s : State) (c : Nat) (f : Cluster → Cluster) : (updCluster s c f).workCount = s.workCount := rfl
@[simp] theorem updCluster_rotations (s : State) (c : Nat) (f : Cluster → Cluster) : (updCluster s c f).rotations = s.rotations := rfl
@[simp] theorem updCluster_queueErrs (s : State) (c : Nat) (f : Cluster → Cluster) : (updCluster s c f).queueErrs = s.queueErrs := rfl
@[simp] theorem updCluster_kernels (s : State) (c : Nat) (f : Cluster → Cluster) : (updCluster s c f).kernels = s.kernels := rfl
@[simp] theorem updCluster_freeSlots (s : State) (c : Nat) (f : Cluster → Cluster) : (updCluster s c f).freeSlots = s.freeSlots := rfl
@[simp] theorem updCluster_usedSlots (s : State) (c : Nat) (f : Cluster → Cluster) : (updCluster s c f).usedSlots = s.usedSlots := rfl
@[simp] theorem updCluster_sgens (s : State) (c : Nat) (f : Cluster → Cluster) : (updCluster s c f).sgens = s.sgens := rfl
@[simp] theorem updCluster_saveArea (s : State) (c : Nat) (f : Cluster → Cluster) : (updCluster s c f).saveArea = s.saveArea := rfl
@[simp] theorem updCluster_saveEcc (s : State) (c : Nat) (f : Cluster → Cluster) : (updCluster s c f).saveEcc = s.saveEcc := rfl
@[simp] theorem updCluster_sums (s : State) (c : Nat) (f : Cluster → Cluster) : (updCluster s c f).sums = s.sums := rfl
@[simp] theorem updCluster_sends (s : State) (c : Nat) (f : Cluster → Cluster) : (updCluster s c f).sends = s.sends := rfl
@[simp] theorem updCluster_notices (s : State) (c : Nat) (f : Cluster → Cluster) : (updCluster s c f).notices = s.notices := rfl
@[simp] theorem updCluster_ctxs (s : State) (c : Nat) (f : Cluster → Cluster) : (updCluster s c f).ctxs = s.ctxs := rfl
@[simp] theorem updCluster_frames (s : State) (c : Nat) (f : Cluster → Cluster) : (updCluster s c f).frames = s.frames := rfl
@[simp] theorem updCluster_poolFrames (s : State) (c : Nat) (f : Cluster → Cluster) : (updCluster s c f).poolFrames = s.poolFrames := rfl
@[simp] theorem updCluster_keys (s : State) (c : Nat) (f : Cluster → Cluster) : (updCluster s c f).keys = s.keys := rfl
@[simp] theorem updCluster_gates (s : State) (c : Nat) (f : Cluster → Cluster) : (updCluster s c f).gates = s.gates := rfl
@[simp] theorem updCluster_scrubs (s : State) (c : Nat) (f : Cluster → Cluster) : (updCluster s c f).scrubs = s.scrubs := rfl
@[simp] theorem updCluster_ports (s : State) (c : Nat) (f : Cluster → Cluster) : (updCluster s c f).ports = s.ports := rfl
@[simp] theorem updCluster_routes (s : State) (c : Nat) (f : Cluster → Cluster) : (updCluster s c f).routes = s.routes := rfl
@[simp] theorem updCluster_exports (s : State) (c : Nat) (f : Cluster → Cluster) : (updCluster s c f).exports = s.exports := rfl
@[simp] theorem updCluster_moves (s : State) (c : Nat) (f : Cluster → Cluster) : (updCluster s c f).moves = s.moves := rfl
@[simp] theorem updCluster_moveLog (s : State) (c : Nat) (f : Cluster → Cluster) : (updCluster s c f).moveLog = s.moveLog := rfl
@[simp] theorem updCluster_audit (s : State) (c : Nat) (f : Cluster → Cluster) : (updCluster s c f).audit = s.audit := rfl
@[simp] theorem updCluster_agents (s : State) (c : Nat) (f : Cluster → Cluster) : (updCluster s c f).agents = s.agents := rfl
@[simp] theorem updCluster_linkOut (s : State) (c : Nat) (f : Cluster → Cluster) : (updCluster s c f).linkOut = s.linkOut := rfl
@[simp] theorem updCluster_linkWaits (s : State) (c : Nat) (f : Cluster → Cluster) : (updCluster s c f).linkWaits = s.linkWaits := rfl
@[simp] theorem updCluster_hostDrops (s : State) (c : Nat) (f : Cluster → Cluster) : (updCluster s c f).hostDrops = s.hostDrops := rfl
@[simp] theorem updCluster_bw (s : State) (c : Nat) (f : Cluster → Cluster) : (updCluster s c f).bw = s.bw := rfl
@[simp] theorem updCluster_powerCap (s : State) (c : Nat) (f : Cluster → Cluster) : (updCluster s c f).powerCap = s.powerCap := rfl
@[simp] theorem updCluster_overCap (s : State) (c : Nat) (f : Cluster → Cluster) : (updCluster s c f).overCap = s.overCap := rfl
@[simp] theorem updCluster_monitors (s : State) (c : Nat) (f : Cluster → Cluster) : (updCluster s c f).monitors = s.monitors := rfl
@[simp] theorem updCluster_tripped (s : State) (c : Nat) (f : Cluster → Cluster) : (updCluster s c f).tripped = s.tripped := rfl
@[simp] theorem updCluster_ready (s : State) (c : Nat) (f : Cluster → Cluster) : (updCluster s c f).ready = s.ready := rfl
@[simp] theorem updCluster_tested (s : State) (c : Nat) (f : Cluster → Cluster) : (updCluster s c f).tested = s.tested := rfl
@[simp] theorem updCluster_settled (s : State) (c : Nat) (f : Cluster → Cluster) : (updCluster s c f).settled = s.settled := rfl
@[simp] theorem updCluster_yew (s : State) (c : Nat) (f : Cluster → Cluster) : (updCluster s c f).yew = s.yew := rfl
@[simp] theorem updCluster_larch (s : State) (c : Nat) (f : Cluster → Cluster) : (updCluster s c f).larch = s.larch := rfl
@[simp] theorem updCluster_device (s : State) (c : Nat) (f : Cluster → Cluster) : (updCluster s c f).device = s.device := rfl
@[simp] theorem updCluster_deviceFixed (s : State) (c : Nat) (f : Cluster → Cluster) : (updCluster s c f).deviceFixed = s.deviceFixed := rfl
@[simp] theorem updCluster_booting (s : State) (c : Nat) (f : Cluster → Cluster) : (updCluster s c f).booting = s.booting := rfl
@[simp] theorem updCluster_stacksHeld (s : State) (c : Nat) (f : Cluster → Cluster) : (updCluster s c f).stacksHeld = s.stacksHeld := rfl
@[simp] theorem updCluster_migrations (s : State) (c : Nat) (f : Cluster → Cluster) : (updCluster s c f).migrations = s.migrations := rfl
@[simp] theorem updCluster_told (s : State) (c : Nat) (f : Cluster → Cluster) : (updCluster s c f).told = s.told := rfl
@[simp] theorem updCluster_cycle (s : State) (c : Nat) (f : Cluster → Cluster) : (updCluster s c f).cycle = s.cycle := rfl
@[simp] theorem updCluster_schedule (s : State) (c : Nat) (f : Cluster → Cluster) : (updCluster s c f).schedule = s.schedule := rfl
@[simp] theorem updCluster_pending (s : State) (c : Nat) (f : Cluster → Cluster) : (updCluster s c f).pending = s.pending := rfl
@[simp] theorem updCluster_note (s : State) (c : Nat) (f : Cluster → Cluster) : (updCluster s c f).note = s.note := rfl
@[simp] theorem updCluster_fresh (s : State) (c : Nat) (f : Cluster → Cluster) : (updCluster s c f).fresh = s.fresh := rfl
@[simp] theorem updPort_h (s : State) (p : Nat) (f : Port → Port) : (updPort s p f).h = s.h := rfl
@[simp] theorem updPort_others (s : State) (p : Nat) (f : Port → Port) : (updPort s p f).others = s.others := rfl
@[simp] theorem updPort_mem (s : State) (p : Nat) (f : Port → Port) : (updPort s p f).mem = s.mem := rfl
@[simp] theorem updPort_lmeta (s : State) (p : Nat) (f : Port → Port) : (updPort s p f).lmeta = s.lmeta := rfl
@[simp] theorem updPort_tiles (s : State) (p : Nat) (f : Port → Port) : (updPort s p f).tiles = s.tiles := rfl
@[simp] theorem updPort_clusters (s : State) (p : Nat) (f : Port → Port) : (updPort s p f).clusters = s.clusters := rfl
@[simp] theorem updPort_slices (s : State) (p : Nat) (f : Port → Port) : (updPort s p f).slices = s.slices := rfl
@[simp] theorem updPort_caps (s : State) (p : Nat) (f : Port → Port) : (updPort s p f).caps = s.caps := rfl
@[simp] theorem updPort_granuleCtx (s : State) (p : Nat) (f : Port → Port) : (updPort s p f).granuleCtx = s.granuleCtx := rfl
@[simp] theorem updPort_packets (s : State) (p : Nat) (f : Port → Port) : (updPort s p f).packets = s.packets := rfl
@[simp] theorem updPort_linkSeries (s : State) (p : Nat) (f : Port → Port) : (updPort s p f).linkSeries = s.linkSeries := rfl
@[simp] theorem updPort_expected (s : State) (p : Nat) (f : Port → Port) : (updPort s p f).expected = s.expected := rfl
@[simp] theorem updPort_relinked (s : State) (p : Nat) (f : Port → Port) : (updPort s p f).relinked = s.relinked := rfl
@[simp] theorem updPort_payloadLost (s : State) (p : Nat) (f : Port → Port) : (updPort s p f).payloadLost = s.payloadLost := rfl
@[simp] theorem updPort_faultedDfcnt (s : State) (p : Nat) (f : Port → Port) : (updPort s p f).faultedDfcnt = s.faultedDfcnt := rfl
@[simp] theorem updPort_acks (s : State) (p : Nat) (f : Port → Port) : (updPort s p f).acks = s.acks := rfl
@[simp] theorem updPort_rejections (s : State) (p : Nat) (f : Port → Port) : (updPort s p f).rejections = s.rejections := rfl
@[simp] theorem updPort_events (s : State) (p : Nat) (f : Port → Port) : (updPort s p f).events = s.events := rfl
@[simp] theorem updPort_postedOut (s : State) (p : Nat) (f : Port → Port) : (updPort s p f).postedOut = s.postedOut := rfl
@[simp] theorem updPort_chans (s : State) (p : Nat) (f : Port → Port) : (updPort s p f).chans = s.chans := rfl
@[simp] theorem updPort_varWorld (s : State) (p : Nat) (f : Port → Port) : (updPort s p f).varWorld = s.varWorld := rfl
@[simp] theorem updPort_vars (s : State) (p : Nat) (f : Port → Port) : (updPort s p f).vars = s.vars := rfl
@[simp] theorem updPort_svPosts (s : State) (p : Nat) (f : Port → Port) : (updPort s p f).svPosts = s.svPosts := rfl
@[simp] theorem updPort_svDrops (s : State) (p : Nat) (f : Port → Port) : (updPort s p f).svDrops = s.svDrops := rfl
@[simp] theorem updPort_queues (s : State) (p : Nat) (f : Port → Port) : (updPort s p f).queues = s.queues := rfl
@[simp] theorem updPort_workCount (s : State) (p : Nat) (f : Port → Port) : (updPort s p f).workCount = s.workCount := rfl
@[simp] theorem updPort_rotations (s : State) (p : Nat) (f : Port → Port) : (updPort s p f).rotations = s.rotations := rfl
@[simp] theorem updPort_queueErrs (s : State) (p : Nat) (f : Port → Port) : (updPort s p f).queueErrs = s.queueErrs := rfl
@[simp] theorem updPort_kernels (s : State) (p : Nat) (f : Port → Port) : (updPort s p f).kernels = s.kernels := rfl
@[simp] theorem updPort_freeSlots (s : State) (p : Nat) (f : Port → Port) : (updPort s p f).freeSlots = s.freeSlots := rfl
@[simp] theorem updPort_usedSlots (s : State) (p : Nat) (f : Port → Port) : (updPort s p f).usedSlots = s.usedSlots := rfl
@[simp] theorem updPort_sgens (s : State) (p : Nat) (f : Port → Port) : (updPort s p f).sgens = s.sgens := rfl
@[simp] theorem updPort_saveArea (s : State) (p : Nat) (f : Port → Port) : (updPort s p f).saveArea = s.saveArea := rfl
@[simp] theorem updPort_saveEcc (s : State) (p : Nat) (f : Port → Port) : (updPort s p f).saveEcc = s.saveEcc := rfl
@[simp] theorem updPort_sums (s : State) (p : Nat) (f : Port → Port) : (updPort s p f).sums = s.sums := rfl
@[simp] theorem updPort_sends (s : State) (p : Nat) (f : Port → Port) : (updPort s p f).sends = s.sends := rfl
@[simp] theorem updPort_notices (s : State) (p : Nat) (f : Port → Port) : (updPort s p f).notices = s.notices := rfl
@[simp] theorem updPort_ctxs (s : State) (p : Nat) (f : Port → Port) : (updPort s p f).ctxs = s.ctxs := rfl
@[simp] theorem updPort_frames (s : State) (p : Nat) (f : Port → Port) : (updPort s p f).frames = s.frames := rfl
@[simp] theorem updPort_poolFrames (s : State) (p : Nat) (f : Port → Port) : (updPort s p f).poolFrames = s.poolFrames := rfl
@[simp] theorem updPort_keys (s : State) (p : Nat) (f : Port → Port) : (updPort s p f).keys = s.keys := rfl
@[simp] theorem updPort_gates (s : State) (p : Nat) (f : Port → Port) : (updPort s p f).gates = s.gates := rfl
@[simp] theorem updPort_scrubs (s : State) (p : Nat) (f : Port → Port) : (updPort s p f).scrubs = s.scrubs := rfl
@[simp] theorem updPort_routes (s : State) (p : Nat) (f : Port → Port) : (updPort s p f).routes = s.routes := rfl
@[simp] theorem updPort_exports (s : State) (p : Nat) (f : Port → Port) : (updPort s p f).exports = s.exports := rfl
@[simp] theorem updPort_moves (s : State) (p : Nat) (f : Port → Port) : (updPort s p f).moves = s.moves := rfl
@[simp] theorem updPort_moveLog (s : State) (p : Nat) (f : Port → Port) : (updPort s p f).moveLog = s.moveLog := rfl
@[simp] theorem updPort_audit (s : State) (p : Nat) (f : Port → Port) : (updPort s p f).audit = s.audit := rfl
@[simp] theorem updPort_agents (s : State) (p : Nat) (f : Port → Port) : (updPort s p f).agents = s.agents := rfl
@[simp] theorem updPort_linkOut (s : State) (p : Nat) (f : Port → Port) : (updPort s p f).linkOut = s.linkOut := rfl
@[simp] theorem updPort_linkWaits (s : State) (p : Nat) (f : Port → Port) : (updPort s p f).linkWaits = s.linkWaits := rfl
@[simp] theorem updPort_hostDrops (s : State) (p : Nat) (f : Port → Port) : (updPort s p f).hostDrops = s.hostDrops := rfl
@[simp] theorem updPort_bw (s : State) (p : Nat) (f : Port → Port) : (updPort s p f).bw = s.bw := rfl
@[simp] theorem updPort_powerCap (s : State) (p : Nat) (f : Port → Port) : (updPort s p f).powerCap = s.powerCap := rfl
@[simp] theorem updPort_overCap (s : State) (p : Nat) (f : Port → Port) : (updPort s p f).overCap = s.overCap := rfl
@[simp] theorem updPort_monitors (s : State) (p : Nat) (f : Port → Port) : (updPort s p f).monitors = s.monitors := rfl
@[simp] theorem updPort_tripped (s : State) (p : Nat) (f : Port → Port) : (updPort s p f).tripped = s.tripped := rfl
@[simp] theorem updPort_ready (s : State) (p : Nat) (f : Port → Port) : (updPort s p f).ready = s.ready := rfl
@[simp] theorem updPort_tested (s : State) (p : Nat) (f : Port → Port) : (updPort s p f).tested = s.tested := rfl
@[simp] theorem updPort_settled (s : State) (p : Nat) (f : Port → Port) : (updPort s p f).settled = s.settled := rfl
@[simp] theorem updPort_yew (s : State) (p : Nat) (f : Port → Port) : (updPort s p f).yew = s.yew := rfl
@[simp] theorem updPort_larch (s : State) (p : Nat) (f : Port → Port) : (updPort s p f).larch = s.larch := rfl
@[simp] theorem updPort_device (s : State) (p : Nat) (f : Port → Port) : (updPort s p f).device = s.device := rfl
@[simp] theorem updPort_deviceFixed (s : State) (p : Nat) (f : Port → Port) : (updPort s p f).deviceFixed = s.deviceFixed := rfl
@[simp] theorem updPort_booting (s : State) (p : Nat) (f : Port → Port) : (updPort s p f).booting = s.booting := rfl
@[simp] theorem updPort_stacksHeld (s : State) (p : Nat) (f : Port → Port) : (updPort s p f).stacksHeld = s.stacksHeld := rfl
@[simp] theorem updPort_migrations (s : State) (p : Nat) (f : Port → Port) : (updPort s p f).migrations = s.migrations := rfl
@[simp] theorem updPort_told (s : State) (p : Nat) (f : Port → Port) : (updPort s p f).told = s.told := rfl
@[simp] theorem updPort_cycle (s : State) (p : Nat) (f : Port → Port) : (updPort s p f).cycle = s.cycle := rfl
@[simp] theorem updPort_schedule (s : State) (p : Nat) (f : Port → Port) : (updPort s p f).schedule = s.schedule := rfl
@[simp] theorem updPort_pending (s : State) (p : Nat) (f : Port → Port) : (updPort s p f).pending = s.pending := rfl
@[simp] theorem updPort_note (s : State) (p : Nat) (f : Port → Port) : (updPort s p f).note = s.note := rfl
@[simp] theorem updPort_fresh (s : State) (p : Nat) (f : Port → Port) : (updPort s p f).fresh = s.fresh := rfl
/-- A change of an entry, as one update. -/
theorem updCap_eq (s : State) (i : Nat) (f : Cap → Cap) :
    updCap s i f = { s with caps := match tget s.caps i with | some c => tput s.caps i (f c) | none => s.caps } := by
  unfold updCap
  cases tget s.caps i <;> rfl
@[simp] theorem updCap_h (s : State) (i : Nat) (f : Cap → Cap) : (updCap s i f).h = s.h := by rw [updCap_eq]
@[simp] theorem updCap_others (s : State) (i : Nat) (f : Cap → Cap) : (updCap s i f).others = s.others := by rw [updCap_eq]
@[simp] theorem updCap_mem (s : State) (i : Nat) (f : Cap → Cap) : (updCap s i f).mem = s.mem := by rw [updCap_eq]
@[simp] theorem updCap_lmeta (s : State) (i : Nat) (f : Cap → Cap) : (updCap s i f).lmeta = s.lmeta := by rw [updCap_eq]
@[simp] theorem updCap_tiles (s : State) (i : Nat) (f : Cap → Cap) : (updCap s i f).tiles = s.tiles := by rw [updCap_eq]
@[simp] theorem updCap_clusters (s : State) (i : Nat) (f : Cap → Cap) : (updCap s i f).clusters = s.clusters := by rw [updCap_eq]
@[simp] theorem updCap_slices (s : State) (i : Nat) (f : Cap → Cap) : (updCap s i f).slices = s.slices := by rw [updCap_eq]
@[simp] theorem updCap_granuleCtx (s : State) (i : Nat) (f : Cap → Cap) : (updCap s i f).granuleCtx = s.granuleCtx := by rw [updCap_eq]
@[simp] theorem updCap_packets (s : State) (i : Nat) (f : Cap → Cap) : (updCap s i f).packets = s.packets := by rw [updCap_eq]
@[simp] theorem updCap_linkSeries (s : State) (i : Nat) (f : Cap → Cap) : (updCap s i f).linkSeries = s.linkSeries := by rw [updCap_eq]
@[simp] theorem updCap_expected (s : State) (i : Nat) (f : Cap → Cap) : (updCap s i f).expected = s.expected := by rw [updCap_eq]
@[simp] theorem updCap_relinked (s : State) (i : Nat) (f : Cap → Cap) : (updCap s i f).relinked = s.relinked := by rw [updCap_eq]
@[simp] theorem updCap_payloadLost (s : State) (i : Nat) (f : Cap → Cap) : (updCap s i f).payloadLost = s.payloadLost := by rw [updCap_eq]
@[simp] theorem updCap_faultedDfcnt (s : State) (i : Nat) (f : Cap → Cap) : (updCap s i f).faultedDfcnt = s.faultedDfcnt := by rw [updCap_eq]
@[simp] theorem updCap_acks (s : State) (i : Nat) (f : Cap → Cap) : (updCap s i f).acks = s.acks := by rw [updCap_eq]
@[simp] theorem updCap_rejections (s : State) (i : Nat) (f : Cap → Cap) : (updCap s i f).rejections = s.rejections := by rw [updCap_eq]
@[simp] theorem updCap_events (s : State) (i : Nat) (f : Cap → Cap) : (updCap s i f).events = s.events := by rw [updCap_eq]
@[simp] theorem updCap_postedOut (s : State) (i : Nat) (f : Cap → Cap) : (updCap s i f).postedOut = s.postedOut := by rw [updCap_eq]
@[simp] theorem updCap_chans (s : State) (i : Nat) (f : Cap → Cap) : (updCap s i f).chans = s.chans := by rw [updCap_eq]
@[simp] theorem updCap_varWorld (s : State) (i : Nat) (f : Cap → Cap) : (updCap s i f).varWorld = s.varWorld := by rw [updCap_eq]
@[simp] theorem updCap_vars (s : State) (i : Nat) (f : Cap → Cap) : (updCap s i f).vars = s.vars := by rw [updCap_eq]
@[simp] theorem updCap_svPosts (s : State) (i : Nat) (f : Cap → Cap) : (updCap s i f).svPosts = s.svPosts := by rw [updCap_eq]
@[simp] theorem updCap_svDrops (s : State) (i : Nat) (f : Cap → Cap) : (updCap s i f).svDrops = s.svDrops := by rw [updCap_eq]
@[simp] theorem updCap_queues (s : State) (i : Nat) (f : Cap → Cap) : (updCap s i f).queues = s.queues := by rw [updCap_eq]
@[simp] theorem updCap_workCount (s : State) (i : Nat) (f : Cap → Cap) : (updCap s i f).workCount = s.workCount := by rw [updCap_eq]
@[simp] theorem updCap_rotations (s : State) (i : Nat) (f : Cap → Cap) : (updCap s i f).rotations = s.rotations := by rw [updCap_eq]
@[simp] theorem updCap_queueErrs (s : State) (i : Nat) (f : Cap → Cap) : (updCap s i f).queueErrs = s.queueErrs := by rw [updCap_eq]
@[simp] theorem updCap_kernels (s : State) (i : Nat) (f : Cap → Cap) : (updCap s i f).kernels = s.kernels := by rw [updCap_eq]
@[simp] theorem updCap_freeSlots (s : State) (i : Nat) (f : Cap → Cap) : (updCap s i f).freeSlots = s.freeSlots := by rw [updCap_eq]
@[simp] theorem updCap_usedSlots (s : State) (i : Nat) (f : Cap → Cap) : (updCap s i f).usedSlots = s.usedSlots := by rw [updCap_eq]
@[simp] theorem updCap_sgens (s : State) (i : Nat) (f : Cap → Cap) : (updCap s i f).sgens = s.sgens := by rw [updCap_eq]
@[simp] theorem updCap_saveArea (s : State) (i : Nat) (f : Cap → Cap) : (updCap s i f).saveArea = s.saveArea := by rw [updCap_eq]
@[simp] theorem updCap_saveEcc (s : State) (i : Nat) (f : Cap → Cap) : (updCap s i f).saveEcc = s.saveEcc := by rw [updCap_eq]
@[simp] theorem updCap_sums (s : State) (i : Nat) (f : Cap → Cap) : (updCap s i f).sums = s.sums := by rw [updCap_eq]
@[simp] theorem updCap_sends (s : State) (i : Nat) (f : Cap → Cap) : (updCap s i f).sends = s.sends := by rw [updCap_eq]
@[simp] theorem updCap_notices (s : State) (i : Nat) (f : Cap → Cap) : (updCap s i f).notices = s.notices := by rw [updCap_eq]
@[simp] theorem updCap_ctxs (s : State) (i : Nat) (f : Cap → Cap) : (updCap s i f).ctxs = s.ctxs := by rw [updCap_eq]
@[simp] theorem updCap_frames (s : State) (i : Nat) (f : Cap → Cap) : (updCap s i f).frames = s.frames := by rw [updCap_eq]
@[simp] theorem updCap_poolFrames (s : State) (i : Nat) (f : Cap → Cap) : (updCap s i f).poolFrames = s.poolFrames := by rw [updCap_eq]
@[simp] theorem updCap_keys (s : State) (i : Nat) (f : Cap → Cap) : (updCap s i f).keys = s.keys := by rw [updCap_eq]
@[simp] theorem updCap_gates (s : State) (i : Nat) (f : Cap → Cap) : (updCap s i f).gates = s.gates := by rw [updCap_eq]
@[simp] theorem updCap_scrubs (s : State) (i : Nat) (f : Cap → Cap) : (updCap s i f).scrubs = s.scrubs := by rw [updCap_eq]
@[simp] theorem updCap_ports (s : State) (i : Nat) (f : Cap → Cap) : (updCap s i f).ports = s.ports := by rw [updCap_eq]
@[simp] theorem updCap_routes (s : State) (i : Nat) (f : Cap → Cap) : (updCap s i f).routes = s.routes := by rw [updCap_eq]
@[simp] theorem updCap_exports (s : State) (i : Nat) (f : Cap → Cap) : (updCap s i f).exports = s.exports := by rw [updCap_eq]
@[simp] theorem updCap_moves (s : State) (i : Nat) (f : Cap → Cap) : (updCap s i f).moves = s.moves := by rw [updCap_eq]
@[simp] theorem updCap_moveLog (s : State) (i : Nat) (f : Cap → Cap) : (updCap s i f).moveLog = s.moveLog := by rw [updCap_eq]
@[simp] theorem updCap_audit (s : State) (i : Nat) (f : Cap → Cap) : (updCap s i f).audit = s.audit := by rw [updCap_eq]
@[simp] theorem updCap_agents (s : State) (i : Nat) (f : Cap → Cap) : (updCap s i f).agents = s.agents := by rw [updCap_eq]
@[simp] theorem updCap_linkOut (s : State) (i : Nat) (f : Cap → Cap) : (updCap s i f).linkOut = s.linkOut := by rw [updCap_eq]
@[simp] theorem updCap_linkWaits (s : State) (i : Nat) (f : Cap → Cap) : (updCap s i f).linkWaits = s.linkWaits := by rw [updCap_eq]
@[simp] theorem updCap_hostDrops (s : State) (i : Nat) (f : Cap → Cap) : (updCap s i f).hostDrops = s.hostDrops := by rw [updCap_eq]
@[simp] theorem updCap_bw (s : State) (i : Nat) (f : Cap → Cap) : (updCap s i f).bw = s.bw := by rw [updCap_eq]
@[simp] theorem updCap_powerCap (s : State) (i : Nat) (f : Cap → Cap) : (updCap s i f).powerCap = s.powerCap := by rw [updCap_eq]
@[simp] theorem updCap_overCap (s : State) (i : Nat) (f : Cap → Cap) : (updCap s i f).overCap = s.overCap := by rw [updCap_eq]
@[simp] theorem updCap_monitors (s : State) (i : Nat) (f : Cap → Cap) : (updCap s i f).monitors = s.monitors := by rw [updCap_eq]
@[simp] theorem updCap_tripped (s : State) (i : Nat) (f : Cap → Cap) : (updCap s i f).tripped = s.tripped := by rw [updCap_eq]
@[simp] theorem updCap_ready (s : State) (i : Nat) (f : Cap → Cap) : (updCap s i f).ready = s.ready := by rw [updCap_eq]
@[simp] theorem updCap_tested (s : State) (i : Nat) (f : Cap → Cap) : (updCap s i f).tested = s.tested := by rw [updCap_eq]
@[simp] theorem updCap_settled (s : State) (i : Nat) (f : Cap → Cap) : (updCap s i f).settled = s.settled := by rw [updCap_eq]
@[simp] theorem updCap_yew (s : State) (i : Nat) (f : Cap → Cap) : (updCap s i f).yew = s.yew := by rw [updCap_eq]
@[simp] theorem updCap_larch (s : State) (i : Nat) (f : Cap → Cap) : (updCap s i f).larch = s.larch := by rw [updCap_eq]
@[simp] theorem updCap_device (s : State) (i : Nat) (f : Cap → Cap) : (updCap s i f).device = s.device := by rw [updCap_eq]
@[simp] theorem updCap_deviceFixed (s : State) (i : Nat) (f : Cap → Cap) : (updCap s i f).deviceFixed = s.deviceFixed := by rw [updCap_eq]
@[simp] theorem updCap_booting (s : State) (i : Nat) (f : Cap → Cap) : (updCap s i f).booting = s.booting := by rw [updCap_eq]
@[simp] theorem updCap_stacksHeld (s : State) (i : Nat) (f : Cap → Cap) : (updCap s i f).stacksHeld = s.stacksHeld := by rw [updCap_eq]
@[simp] theorem updCap_migrations (s : State) (i : Nat) (f : Cap → Cap) : (updCap s i f).migrations = s.migrations := by rw [updCap_eq]
@[simp] theorem updCap_told (s : State) (i : Nat) (f : Cap → Cap) : (updCap s i f).told = s.told := by rw [updCap_eq]
@[simp] theorem updCap_cycle (s : State) (i : Nat) (f : Cap → Cap) : (updCap s i f).cycle = s.cycle := by rw [updCap_eq]
@[simp] theorem updCap_schedule (s : State) (i : Nat) (f : Cap → Cap) : (updCap s i f).schedule = s.schedule := by rw [updCap_eq]
@[simp] theorem updCap_pending (s : State) (i : Nat) (f : Cap → Cap) : (updCap s i f).pending = s.pending := by rw [updCap_eq]
@[simp] theorem updCap_note (s : State) (i : Nat) (f : Cap → Cap) : (updCap s i f).note = s.note := by rw [updCap_eq]
@[simp] theorem updCap_fresh (s : State) (i : Nat) (f : Cap → Cap) : (updCap s i f).fresh = s.fresh := by rw [updCap_eq]

/-! Reads of registers after writes -/

/-- x0 reads 0. -/
@[simp] theorem rx_zero (s : State) : rx s 0 = 0 := rfl
/-- A read of the register that has been written. -/
theorem rx_wx_same (s : State) (r : Reg) (v : Word) (h : r ≠ 0) : rx (wx s r v) r = v := by
  simp only [rx, wx, h, if_false, modH]
  exact Vector.getElem_set_self r.isLt
/-- A write of x0 is discarded. -/
@[simp] theorem wx_zero (s : State) (v : Word) : wx s 0 v = s := rfl
/-- A read of another register. -/
theorem rx_wx_other (s : State) (r q : Reg) (v : Word) (h : q ≠ r) : rx (wx s r v) q = rx s q := by
  unfold rx wx
  split
  · rfl
  · split
    · rfl
    · simp only [modH]
      exact Vector.getElem_set_ne r.isLt q.isLt (fun e => h (Fin.ext e.symm))
/-- What an x register reads depends on the executing hart's registers alone. -/
theorem rx_congr {s t : State} (h : t.h.x = s.h.x) (r : Reg) : rx t r = rx s r := by simp [rx, h]
/-- A read of the f register that has been written. -/
theorem rf_wf_same (s : State) (r : Reg) (v : Word) : rf (wf s r v) r = v := by
  simp only [rf, wf_h_f]
  exact Vector.getElem_set_self r.isLt
/-- A read of another f register. -/
theorem rf_wf_other (s : State) (r q : Reg) (v : Word) (h : q ≠ r) : rf (wf s r v) q = rf s q := by
  simp only [rf, wf_h_f]
  exact Vector.getElem_set_ne r.isLt q.isLt (fun e => h (Fin.ext e.symm))
/-- A read of the v register that has been written. -/
theorem rv_wv_same (s : State) (r : Reg) (v : BitVec 512) : rv (wv s r v) r = v := by
  simp only [rv, wv_h_v]
  exact Vector.getElem_set_self r.isLt
/-- A read of another v register. -/
theorem rv_wv_other (s : State) (r q : Reg) (v : BitVec 512) (h : q ≠ r) : rv (wv s r v) q = rv s q := by
  simp only [rv, wv_h_v]
  exact Vector.getElem_set_ne r.isLt q.isLt (fun e => h (Fin.ext e.symm))

end Sys2Proof.Machine
end

