-- ==== Sys2Proof/Laws/Ops.lean ====
section
/-! SUPPORT. Laws of how bodies end, of taking a trap, and of the operations on harts and events: what each can do, said once. -/

namespace Sys2Proof.Machine

/-! How a body ends -/

@[simp] theorem finish_ok (s t : State) : finish s (.ok t) = .next (occur t) := rfl
@[simp] theorem finish_trap (s : State) (c : Nat) (v : Word) : finish s (.error (.trap c v)) = .next (takeTrap s c v) := rfl
@[simp] theorem finish_trapAt (s t : State) (c : Nat) (v : Word) : finish s (.error (.trapAt t c v)) = .next (takeTrap t c v) := rfl
@[simp] theorem finish_stall (s t : State) : finish s (.error (.stall t)) = .next (stalled (holdOff t)) := rfl
@[simp] theorem finish_point (s t : State) : finish s (.error (.point t)) = .next (stalled t) := rfl
@[simp] theorem seq_ok (s t : State) : seq s (.ok t) = .next (retired t) := rfl
@[simp] theorem seq_trap (s : State) (c : Nat) (v : Word) : seq s (.error (.trap c v)) = .next (takeTrap s c v) := rfl
@[simp] theorem seq_trapAt (s t : State) (c : Nat) (v : Word) : seq s (.error (.trapAt t c v)) = .next (takeTrap t c v) := rfl
@[simp] theorem seq_stall (s t : State) : seq s (.error (.stall t)) = .next (stalled (holdOff t)) := rfl
@[simp] theorem seq_point (s t : State) : seq s (.error (.point t)) = .next (stalled t) := rfl
theorem happen_eq (s : State) : happen s = .next (occur s) := rfl
theorem block_eq (s : State) (i : Instr) : block s i = .next { s with pending := s.pending ++ [i], note := .blocked } := rfl

/-- A body ends in a next state whatever it answers. -/
theorem finish_answers (s : State) (r : Res State) : ∃ t, finish s r = .next t := by
  cases r with
  | ok t => exact ⟨_, rfl⟩
  | error e => cases e <;> exact ⟨_, rfl⟩
theorem seq_answers (s : State) (r : Res State) : ∃ t, seq s r = .next t := finish_answers s _
theorem happen_answers (s : State) : ∃ t, happen s = .next t := ⟨_, rfl⟩
theorem block_answers (s : State) (i : Instr) : ∃ t, block s i = .next t := ⟨_, rfl⟩

/-- What a body that goes on to the next word can come to: it retires, traps before or after a part of it, or stalls, with
or without holding interrupts off. -/
theorem seq_next (s t : State) (r : Res State) (h : seq s r = .next t) :
    (∃ u, r = .ok u ∧ t = retired u) ∨ (∃ c v, r = .error (.trap c v) ∧ t = takeTrap s c v) ∨
    (∃ u c v, r = .error (.trapAt u c v) ∧ t = takeTrap u c v) ∨ (∃ u, r = .error (.stall u) ∧ t = stalled (holdOff u)) ∨
    (∃ u, r = .error (.point u) ∧ t = stalled u) := by
  cases r with
  | ok u => exact .inl ⟨u, rfl, by simpa using h.symm⟩
  | error e =>
    cases e with
    | trap c v => exact .inr (.inl ⟨c, v, rfl, by simpa using h.symm⟩)
    | trapAt u c v => exact .inr (.inr (.inl ⟨u, c, v, rfl, by simpa using h.symm⟩))
    | stall u => exact .inr (.inr (.inr (.inl ⟨u, rfl, by simpa using h.symm⟩)))
    | point u => exact .inr (.inr (.inr (.inr ⟨u, rfl, by simpa using h.symm⟩)))

/-! Checks -/

@[simp] theorem check_true (c : Nat) (v : Word) : check true c v = .ok () := rfl
@[simp] theorem check_false (c : Nat) (v : Word) : check false c v = .error (.trap c v) := rfl
theorem needF_ok (s : State) (h : fld s.h.csr.mstatus 13 2 ≠ 0) : needF s = .ok () := by simp [needF, h]
theorem needV_ok (s : State) (h : fld s.h.csr.mstatus 9 2 ≠ 0) : needV s = .ok () := by simp [needV, h]
theorem needVl_ok (s : State) (h : fld s.h.csr.mstatus 9 2 ≠ 0) (hv : s.h.csr.vill = false) : needVl s = .ok () := by
  simp [needVl, needV_ok s h, hv, bind, Except.bind]
theorem needMode_ok (s : State) (md : Mode) (h : md.rank ≤ s.h.mode.rank) : needMode s md = .ok () := by simp [needMode, h]
theorem needMode_low (s : State) (md : Mode) (h : s.h.mode.rank < md.rank) : needMode s md = illegal s := by
  simp [needMode, Nat.not_le.mpr h]

/-! Taking a trap -/

/-- The entry of a trap touches nothing outside the hart. -/
theorem enterTrap_eq (s : State) (intr : Bool) (c : Nat) (v : Word) :
    enterTrap s intr c v = { s with h := (enterTrap s intr c v).h } := by
  unfold enterTrap
  dsimp only
  split <;> rfl

/-- The entry of a trap leaves the hart's registers, holdings and commands. -/
theorem enterTrap_hart (s : State) (intr : Bool) (c : Nat) (v : Word) :
    (enterTrap s intr c v).h.x = s.h.x ∧ (enterTrap s intr c v).h.f = s.h.f ∧ (enterTrap s intr c v).h.v = s.h.v ∧
    (enterTrap s intr c v).h.holdings = s.h.holdings ∧ (enterTrap s intr c v).h.cmds = s.h.cmds ∧
    (enterTrap s intr c v).h.loc = s.h.loc := by
  unfold enterTrap
  dsimp only
  split <;> exact ⟨rfl, rfl, rfl, rfl, rfl, rfl⟩

/-- A trap changes the hart's pc, mode, trap CSRs, reservation and waits, and nothing outside the hart. -/
theorem takeTrap_frame (s : State) (c : Nat) (v : Word) :
    (takeTrap s c v).h.x = s.h.x ∧ (takeTrap s c v).h.f = s.h.f ∧ (takeTrap s c v).h.v = s.h.v ∧
    (takeTrap s c v).h.holdings = s.h.holdings ∧ (takeTrap s c v).h.cmds = s.h.cmds ∧ (takeTrap s c v).h.loc = s.h.loc ∧
    (takeTrap s c v).mem = s.mem ∧ (takeTrap s c v).caps = s.caps ∧ (takeTrap s c v).others = s.others ∧
    (takeTrap s c v).tiles = s.tiles ∧ (takeTrap s c v).clusters = s.clusters ∧ (takeTrap s c v).slices = s.slices ∧
    (takeTrap s c v).pending = s.pending ∧ (takeTrap s c v).fresh = s.fresh := by
  have e := enterTrap_eq s false c v
  obtain ⟨h1, h2, h3, h4, h5, h6⟩ := enterTrap_hart s false c v
  exact ⟨h1, h2, h3, h4, h5, h6, (congrArg State.mem e :), (congrArg State.caps e :), (congrArg State.others e :), (congrArg State.tiles e :),
    (congrArg State.clusters e :), (congrArg State.slices e :), (congrArg State.pending e :), (congrArg State.fresh e :)⟩

/-- A trap clears the reservation (R30). -/
theorem takeTrap_resv (s : State) (c : Nat) (v : Word) : (takeTrap s c v).h.resv = none := by
  unfold takeTrap enterTrap
  dsimp only
  split <;> rfl

/-- A trap goes to S-mode or to M-mode (R325). -/
theorem takeTrap_mode (s : State) (c : Nat) (v : Word) :
    (takeTrap s c v).h.mode = if delegated s false c then .s else .m := by
  unfold takeTrap enterTrap
  dsimp only
  have : delegated (modH s fun h => { h with resv := none, wfi := false, fuse := none }) false c = delegated s false c := rfl
  split <;> simp_all [enterS, enterM]

/-! Harts, tables and events -/

/-- The counter of free values rises by one with each draw (log 9). -/
theorem draw_eq (s : State) : draw s = (s.fresh, { s with fresh := s.fresh + 1 }) := rfl

/-- A change of the executing hart by its hartloc. -/
theorem updHart_here (s : State) (f : Hart → Hart) (h : s.h.live = true) : updHart s s.h.loc f = modH s f := by simp [updHart, h]

/-- A change of a hart leaves everything outside the harts as it was. -/
theorem updHart_frame (s : State) (loc : Nat) (f : Hart → Hart) :
    (updHart s loc f).mem = s.mem ∧ (updHart s loc f).caps = s.caps ∧ (updHart s loc f).tiles = s.tiles ∧
    (updHart s loc f).clusters = s.clusters ∧ (updHart s loc f).slices = s.slices ∧ (updHart s loc f).queues = s.queues ∧
    (updHart s loc f).kernels = s.kernels ∧ (updHart s loc f).chans = s.chans ∧ (updHart s loc f).pending = s.pending ∧
    (updHart s loc f).fresh = s.fresh := by
  unfold updHart
  split <;> exact ⟨rfl, rfl, rfl, rfl, rfl, rfl, rfl, rfl, rfl, rfl⟩

/-- An outgoing message is recorded at the end of the log with its world; no register, memory or entry changes. -/
theorem sendOut_frame (s : State) (w : Option Nat) (m : OutMsg) :
    (sendOut s w m).h = s.h ∧ (sendOut s w m).others = s.others ∧ (sendOut s w m).mem = s.mem ∧ (sendOut s w m).caps = s.caps ∧
    (sendOut s w m).tiles = s.tiles ∧ (sendOut s w m).clusters = s.clusters ∧ (sendOut s w m).slices = s.slices ∧
    (sendOut s w m).pending = s.pending ∧ (sendOut s w m).linkOut = s.linkOut ++ [(w, m)] := by
  unfold sendOut draw
  dsimp only
  split <;> exact ⟨rfl, rfl, rfl, rfl, rfl, rfl, rfl, rfl, rfl⟩

/-- A message goes out at the end of the log, or waits behind the others that wait for a port; no register, memory or entry changes. -/
theorem sendWhenUp_frame (s : State) (w : Option Nat) (m : OutMsg) :
    (sendWhenUp s w m).h = s.h ∧ (sendWhenUp s w m).others = s.others ∧ (sendWhenUp s w m).mem = s.mem ∧ (sendWhenUp s w m).caps = s.caps ∧
    (sendWhenUp s w m).tiles = s.tiles ∧ (sendWhenUp s w m).clusters = s.clusters ∧ (sendWhenUp s w m).slices = s.slices ∧
    (sendWhenUp s w m).pending = s.pending ∧
    ((sendWhenUp s w m).linkOut = s.linkOut ++ [(w, m)] ∨ (sendWhenUp s w m).linkWaits = s.linkWaits ++ [(w, m)]) := by
  unfold sendWhenUp
  split
  · obtain ⟨h1, h2, h3, h4, h5, h6, h7, h8, h9⟩ := sendOut_frame s w m
    exact ⟨h1, h2, h3, h4, h5, h6, h7, h8, .inl h9⟩
  · exact ⟨rfl, rfl, rfl, rfl, rfl, rfl, rfl, rfl, .inr rfl⟩

/-- The messages that a port has kept waiting go out; no register, memory or entry changes. -/
theorem sendWaiting_frame (s : State) (p : Nat) :
    (sendWaiting s p).h = s.h ∧ (sendWaiting s p).others = s.others ∧ (sendWaiting s p).mem = s.mem ∧ (sendWaiting s p).caps = s.caps ∧
    (sendWaiting s p).tiles = s.tiles ∧ (sendWaiting s p).clusters = s.clusters ∧ (sendWaiting s p).slices = s.slices ∧
    (sendWaiting s p).pending = s.pending := by
  have all : ∀ (l : List (Option Nat × OutMsg)) (u : State), let v := l.foldl (fun s m => sendOut s m.1 m.2) u
      v.h = u.h ∧ v.others = u.others ∧ v.mem = u.mem ∧ v.caps = u.caps ∧ v.tiles = u.tiles ∧ v.clusters = u.clusters ∧ v.slices = u.slices ∧
        v.pending = u.pending := by
    intro l
    induction l with
    | nil => intro u; exact ⟨rfl, rfl, rfl, rfl, rfl, rfl, rfl, rfl⟩
    | cons m r ih =>
      intro u
      obtain ⟨h1, h2, h3, h4, h5, h6, h7, h8⟩ := ih (sendOut u m.1 m.2)
      obtain ⟨k1, k2, k3, k4, k5, k6, k7, k8, -⟩ := sendOut_frame u m.1 m.2
      exact ⟨h1.trans k1, h2.trans k2, h3.trans k3, h4.trans k4, h5.trans k5, h6.trans k6, h7.trans k7, h8.trans k8⟩
  exact all _ _

end Sys2Proof.Machine
end

