-- ==== Sys2Proof/Laws/Access.lean ====
section
/-! SUPPORT. Laws of translation, loads and stores: what each can change when it answers. -/

namespace Sys2Proof.Machine

/-- What a translation of the hart's own leaves alone: everything but the tile's TLB. -/
theorem translate_frame {s t : State} {k : Access} {va pa : Nat} (h : translate s k va = .ok (pa, t)) :
    t = { s with tiles := t.tiles } := by
  unfold translate translateBy at h
  dsimp only at h
  have fin : ∀ (u : State) (p : Nat) (o : Res (Nat × State)), u = { s with tiles := u.tiles } →
      o = (if !(isDevicePa p || isHostPa p || isPoolPa p || isRemotePa p) || isReserved u p || !pmpAdmits u (effMode s k) k p then
        .error (.trap k.fault (word va)) else if scrubBlocked u p then .error (.trap causeScrub (word va))
        else if lineWaits u p then .error (.stall u) else .ok (p, u)) → o = .ok (pa, t) → t = { s with tiles := t.tiles } := by
    intro u p o hu ho hk
    subst ho
    split at hk
    · cases hk
    · split at hk
      · cases hk
      · split at hk
        · cases hk
        · cases hk; exact hu
  split at h
  · cases h; rfl
  · split at h
    · cases h
    · split at h
      · exact fin s va _ rfl rfl h
      · split at h
        · split at h
          · exact fin s _ _ rfl rfl h
          · cases h
        · split at h
          · cases h
          · split at h
            · cases h
            · split at h
              · exact fin _ _ _ rfl rfl h
              · cases h

/-- A host's translation changes the ports' cached translations and the counter of free values. -/
theorem askHost_frame (s : State) (pa : Nat) :
    (askHost s pa).1 = { s with ports := (askHost s pa).1.ports, fresh := (askHost s pa).1.fresh } := by
  unfold askHost draw
  dsimp only
  split
  · split
    · rfl
    · unfold atsTouch updPort
      split <;> rfl
  · rfl

/-- What a hart's access beyond a port leaves alone: everything but the ports' cached translations and the counter of free values. -/
theorem reach_frame {s t : State} {k : Access} {va pa : Nat} (h : reach s k va pa = .ok t) :
    t = { s with ports := t.ports, fresh := t.fresh } := by
  unfold reach draw at h
  dsimp only at h
  split at h
  · split at h
    · cases h; rfl
    · split at h
      · cases h
      · split at h
        · cases h
        · cases h
        · cases h; rfl
  · split at h
    · cases h
    · split at h
      · rename_i hq
        cases h
        have := askHost_frame s pa
        rwa [hq] at this
      · cases h

/-- What the translation of a range leaves alone. -/
theorem translateRange_frame {s t : State} {k : Access} {va n : Nat} {pas : List Nat} (h : translateRange s k va n = .ok (pas, t)) :
    t = { s with tiles := t.tiles, ports := t.ports, fresh := t.fresh } := by
  unfold translateRange at h
  simp only [bind, Except.bind] at h
  split at h
  · cases h1 : translate s k va with
    | error e => simp [h1] at h
    | ok a =>
      simp only [h1] at h
      cases h2 : reach a.2 k va a.1 with
      | error e => simp [h2] at h
      | ok b =>
        simp only [h2, Except.ok.injEq, Prod.mk.injEq] at h
        rw [← h.2, reach_frame h2, translate_frame (pa := a.1) (t := a.2) h1]
  · cases h1 : translate s k va with
    | error e => simp [h1] at h
    | ok a =>
      simp only [h1] at h
      cases h2 : translate a.2 k (va + (4096 - va % 4096)) with
      | error e => simp [h2] at h
      | ok b =>
        simp only [h2] at h
        cases h3 : reach b.2 k va a.1 with
        | error e => simp [h3] at h
        | ok c =>
          simp only [h3] at h
          cases h4 : reach c k (va + (4096 - va % 4096)) b.1 with
          | error e => simp [h4] at h
          | ok d =>
            simp only [h4, Except.ok.injEq, Prod.mk.injEq] at h
            rw [← h.2, reach_frame h4, reach_frame h3, translate_frame (pa := b.1) (t := b.2) h2, translate_frame (pa := a.1) (t := a.2) h1]

/-- A read at a home slice changes the slices, and a missed line's fill becomes due; nothing else changes. -/
theorem readHit_frame (s : State) (q pa : Nat) :
    readHit s q pa = { s with slices := (readHit s q pa).slices, pending := (readHit s q pa).pending } := by
  unfold readHit
  dsimp only
  split
  · rfl
  · split <;> rfl

/-- The same of the reads of an access. -/
theorem noteRead_frame (s : State) (q : Nat) (pas : List Nat) :
    noteRead s q pas = { s with slices := (noteRead s q pas).slices, pending := (noteRead s q pas).pending } := by
  unfold noteRead
  generalize uniq ((pas.filter fun p => isDevicePa p || isRemotePa p).map lineOf) = l
  induction l generalizing s with
  | nil => rfl
  | cons a r ih => rw [List.foldl_cons, ih, readHit_frame]

/-- What a load leaves alone: memory, entries, every register; only the TLB, cached host translations, the slices' records of accesses, due events
and the counter of free values change. -/
theorem loadBytes_frame {s t : State} {va n : Nat} {vec : Bool} {bytes : List Byte} (h : loadBytes s va n vec = .ok (bytes, t)) :
    t = { s with tiles := t.tiles, ports := t.ports, fresh := t.fresh, slices := t.slices, pending := t.pending } := by
  unfold loadBytes at h
  simp only [bind, Except.bind] at h
  split at h
  · cases h
  · split at h
    all_goals
      split at h
      · cases h
      · cases h2 : translateRange s .load va n with
        | error e => simp [h2] at h
        | ok b =>
          simp only [h2] at h
          split at h
          · simp [eccTrap] at h
          · simp only [Except.ok.injEq, Prod.mk.injEq] at h
            rw [← h.2, noteRead_frame, translateRange_frame (pas := b.1) (t := b.2) h2]

end Sys2Proof.Machine
end

