-- ==== Sys2Proof/Laws/Caps.lean ====
section
/-! SUPPORT. Laws of the handle check and of holding lists: what an accepted handle says, and what each list operation leaves. -/

namespace Sys2Proof.Machine

/-- A holding that matches a handle is one of the list, with the handle's device, index, generation and kind (R76). -/
theorem matching_some {l : List Holding} {hv : Word} {g : Holding} (h : matching l hv = some g) :
    g ∈ l ∧ g.device = hDevice hv ∧ g.index = hIndex hv ∧ g.gen = hGen hv ∧ hKind hv = some g.kind := by
  unfold matching at h
  split at h
  · rename_i k hk
    have hp := List.find?_some h
    simp only [Bool.and_eq_true, beq_iff_eq] at hp
    exact ⟨List.mem_of_find?_eq_some h, hp.1.1.1, hp.1.1.2, hp.1.2, by rw [hk, hp.2]⟩
  · cases h

/-- A value that matches no holding is refused with CAPABILITY (R80). -/
theorem checkIn_none {s : State} {l : List Holding} {hv : Word} (h : matching l hv = none) :
    checkIn s l hv = .error (.trap causeCapability hv) := by simp [checkIn, h]

/-- What an accepted handle says: its holding, and the live entry of its generation, not quarantined, not suspended (R80). -/
theorem checkIn_ok {s : State} {l : List Holding} {hv : Word} {g : Holding} {c : Cap} (h : checkIn s l hv = .ok (g, c)) :
    matching l hv = some g ∧ hIndex hv ≠ 0 ∧ capAt s (hIndex hv) = some c ∧ c.gen = hGen hv ∧ c.state ≠ .free ∧
    c.state ≠ .quarantined ∧ (g.kind = .whole → g.susp = 0) := by
  have key : ∀ (b : Bool) (k : Holding), matching l hv = some k →
      (if hIndex hv = 0 || !b then (.error (.trap causeCapability hv) : Res (Holding × Cap))
       else if capWaits s (hIndex hv) then .error (.stall s)
       else match capAt s (hIndex hv) with
        | none => .error (.trap causeCapability hv)
        | some c =>
          if c.gen != hGen hv || c.state == .free then .error (.trap causeCapability hv)
          else if c.state == .quarantined then .error (.trap causeQuarantined hv)
          else if k.kind == .whole && k.susp != 0 then .error (.trap causeCapability hv)
          else .ok (k, c)) = .ok (g, c) →
      matching l hv = some g ∧ hIndex hv ≠ 0 ∧ capAt s (hIndex hv) = some c ∧ c.gen = hGen hv ∧ c.state ≠ .free ∧
      c.state ≠ .quarantined ∧ (g.kind = .whole → g.susp = 0) := by
    intro b k hm h
    by_cases h0 : hIndex hv = 0
    · simp [h0] at h
    · cases b
      · simp at h
      · simp only [h0, decide_false, Bool.not_true, Bool.or_self, Bool.false_eq_true, if_false] at h
        cases hw : capWaits s (hIndex hv)
        · simp only [hw, Bool.false_eq_true, if_false] at h
          cases hc : capAt s (hIndex hv) with
          | none => simp [hc] at h
          | some d =>
            simp only [hc] at h
            by_cases h1 : (d.gen != hGen hv || d.state == .free) = true
            · simp [h1] at h
            · by_cases h2 : (d.state == .quarantined) = true
              · simp [h1, h2] at h
              · by_cases h3 : (k.kind == .whole && k.susp != 0) = true
                · simp [h1, h2, h3] at h
                · simp only [h1, h2, h3] at h
                  obtain ⟨rfl, rfl⟩ := h
                  simp only [Bool.or_eq_true, not_or, bne_iff_ne, ne_eq, Decidable.not_not, beq_iff_eq,
                    Bool.and_eq_true, not_and] at h1 h2 h3
                  exact ⟨hm, h0, rfl, h1.1, h1.2, h2, h3⟩
        · simp [hw] at h
  cases hm : matching l hv with
  | none => simp [checkIn, hm] at h
  | some k =>
    unfold checkIn at h
    rw [hm] at h
    exact hm ▸ key _ k hm h

/-- What `needOwned` accepts: a WHOLE holding that is not suspended, of an OWNED entry of the handle's generation. -/
theorem needOwned_ok {s : State} {hv : Word} {c : Cap} (h : needOwned s hv = .ok c) :
    capAt s (hIndex hv) = some c ∧ c.state = .owned ∧ c.gen = hGen hv ∧ hIndex hv ≠ 0 ∧
    ∃ g, matching s.h.holdings hv = some g ∧ g.kind = .whole ∧ g.susp = 0 := by
  unfold needOwned ownedIn at h
  cases hc : checkIn s s.h.holdings hv with
  | error e => simp [hc, bind, Except.bind] at h
  | ok p =>
    obtain ⟨g, d⟩ := p
    have hk := checkIn_ok hc
    simp only [hc, bind, Except.bind] at h
    split at h
    · cases h
    · rename_i h1
      simp only [Bool.or_eq_true, bne_iff_ne, ne_eq, not_or, Decidable.not_not] at h1
      split at h
      · rename_i h2
        cases h
        exact ⟨hk.2.2.1, by simpa using h2, hk.2.2.2.1, hk.2.1, g, hk.1, h1.1, h1.2⟩
      · split at h <;> cases h

/-- A holding that is put in is there, unless it has neither units nor suspended units. -/
theorem mem_putHolding (l : List Holding) (g : Holding) (h : g.kind = .whole ∨ g.kind = .notice ∨ g.units ≠ 0 ∨ g.susp ≠ 0 ∨ g.void = true) :
    g ∈ putHolding l g := by
  unfold putHolding
  dsimp only
  split
  · simp
  · simp
  · rename_i hk; rcases h with h | h | h | h | h <;> simp_all
  · rename_i hk; rcases h with h | h | h | h | h <;> simp_all

/-- Putting a holding in leaves the holdings of other entries and kinds. -/
theorem mem_putHolding_other {l : List Holding} {g k : Holding} (h : k.index ≠ g.index ∨ k.kind ≠ g.kind) :
    k ∈ putHolding l g ↔ k ∈ l := by
  have hne : k ≠ g := by rintro rfl; simp at h
  have hf : (k ∈ l.filter fun m => !(m.index == g.index && m.kind == g.kind)) ↔ k ∈ l := by
    simp only [List.mem_filter, Bool.not_eq_true', Bool.and_eq_false_iff, beq_eq_false_iff_ne]
    exact ⟨fun x => x.1, fun x => ⟨x, h⟩⟩
  unfold putHolding
  dsimp only
  split <;> try split
  all_goals first | exact hf | (rw [List.mem_append, hf]; simp [hne])

/-- Removing a holding removes it. -/
theorem not_mem_removeHolding (l : List Holding) (i : Nat) (k : HKind) (g : Holding) (h1 : g.index = i) (h2 : g.kind = k) :
    g ∉ removeHolding l i k := by simp [removeHolding, h1, h2]

end Sys2Proof.Machine
end

