-- ==== Sys2Proof/Laws/Device.lean ====
section
/-! SUPPORT. Laws of the packets of peers and of the resets that are not cold: which packet a slice takes, and what a reset leaves. -/

namespace Sys2Proof.Machine

/-- After a peer's packet its slice expects the packet with the next number of the series, and no other (R146). -/
theorem expectedNow_next (s : State) (p q : Packet) (h : p.fromPort.isNone = false) (hq : q.fromPort.isNone = false)
    (hs : q.peerSeries = p.peerSeries) : expectedNow (expectNext s p) q = (q.num == p.num + 1) := by
  simp [expectedNow, expectNext, h, hq, hs, tget_tput]

/-- A packet of this device's own clusters expects no number: only the order of those present counts. -/
theorem expectedNow_own (s : State) (p : Packet) (h : p.fromPort.isNone = true) : expectedNow s p = true := by
  simp [expectedNow, h]

/-- A packet that is performed is one that its slice expects, with no earlier packet of its series present (R146). -/
theorem mem_frontPackets (s : State) (p : Packet) :
    p ∈ frontPackets s ↔ p ∈ s.packets ∧ expectedNow s p = true ∧ ∀ k ∈ s.packets, k.earlier p = false := by
  simp [frontPackets]

/-- What a reset that is not a cold one keeps changes no hart, memory, entry or link of the state that it is put into. -/
theorem keepLasting_frame (s t : State) :
    (keepLasting s t).h = t.h ∧ (keepLasting s t).others = t.others ∧ (keepLasting s t).mem = t.mem ∧ (keepLasting s t).caps = t.caps ∧
    (keepLasting s t).tiles = t.tiles ∧ (keepLasting s t).kernels = t.kernels ∧ (keepLasting s t).ports = t.ports ∧
    (keepLasting s t).usedSlots = s.usedSlots ∧ (keepLasting s t).sgens = s.sgens := ⟨rfl, rfl, rfl, rfl, rfl, rfl, rfl, rfl, rfl⟩

/-- After a trip no hart runs and no firmware, and memory is as it was (R378). -/
theorem trip_leaves (s : State) :
    harts (trip s) = [] ∧ (trip s).tripped = true ∧ (trip s).yew = false ∧ (trip s).larch = false ∧ (trip s).mem = s.mem ∧ (trip s).caps = [] :=
  ⟨rfl, rfl, rfl, rfl, rfl, rfl⟩

end Sys2Proof.Machine
end

