-- ==== Sys2Proof/Laws/Encode.lean ====
section
/-! SUPPORT. Laws of instruction words: what the words of each format are as numbers, and what their fields read. -/

namespace Sys2Proof

/-- A CR word whose fields are in range, as a number. -/
theorem crWord_toNat (op f3 f7 rd rs1 rs2 : Nat) (h1 : op < 128) (h2 : f3 < 8) (h3 : f7 < 128) (h4 : rd < 32) (h5 : rs1 < 32)
    (h6 : rs2 < 32) : (crWord op f3 f7 rd rs1 rs2).toNat =
      op + rd * 128 + f3 * 4096 + rs1 * 32768 + rs2 * 1048576 + f7 * 33554432 := by
  simp only [crWord, BitVec.toNat_ofNat]
  omega

/-- A CQ word whose fields are in range, as a number. -/
theorem cqWord_toNat (op f3 f2 rd rs1 rs2 rs3 : Nat) (h1 : op < 128) (h2 : f3 < 8) (h3 : f2 < 4) (h4 : rd < 32) (h5 : rs1 < 32)
    (h6 : rs2 < 32) (h7 : rs3 < 32) : (cqWord op f3 f2 rd rs1 rs2 rs3).toNat =
      op + rd * 128 + f3 * 4096 + rs1 * 32768 + rs2 * 1048576 + f2 * 33554432 + rs3 * 134217728 := by
  simp only [cqWord, BitVec.toNat_ofNat]
  omega

/-- A CS word whose fields are in range, as a number. -/
theorem csWord_toNat (op f3 rs2 rs1 imm : Nat) (h1 : op < 128) (h2 : f3 < 8) (h4 : rs2 < 32) (h5 : rs1 < 32) (h6 : imm < 4096) :
    (csWord op f3 rs2 rs1 imm).toNat =
      op + imm % 32 * 128 + f3 * 4096 + rs1 * 32768 + rs2 * 1048576 + imm / 32 * 33554432 := by
  simp only [csWord, BitVec.toNat_ofNat]
  omega

/-- An I-type word whose fields are in range, as a number. -/
theorem iWord_toNat (op f3 rd rs1 imm : Nat) (h1 : op < 128) (h2 : f3 < 8) (h4 : rd < 32) (h5 : rs1 < 32) (h6 : imm < 4096) :
    (iWord op f3 rd rs1 imm).toNat = op + rd * 128 + f3 * 4096 + rs1 * 32768 + imm * 1048576 := by
  simp only [iWord, BitVec.toNat_ofNat]
  omega

/-- The fields of a CR word. -/
theorem fieldsOf_crWord (op f3 f7 : Nat) (rd rs1 rs2 : Reg) (h1 : op < 128) (h2 : f3 < 8) (h3 : f7 < 128) :
    let w := fieldsOf (crWord op f3 f7 rd.val rs1.val rs2.val).toNat
    w.op = op ∧ w.rd = rd ∧ w.f3 = f3 ∧ w.rs1 = rs1 ∧ w.rs2 = rs2 ∧ w.f7 = f7 := by
  simp only [fieldsOf, fieldAt, regAt, crWord_toNat op f3 f7 _ _ _ h1 h2 h3 rd.isLt rs1.isLt rs2.isLt]
  have := rd.isLt; have := rs1.isLt; have := rs2.isLt
  refine ⟨?_, Fin.ext ?_, ?_, Fin.ext ?_, Fin.ext ?_, ?_⟩ <;> try dsimp only
  all_goals omega

/-- The fields of a CQ word. -/
theorem fieldsOf_cqWord (op f3 f2 : Nat) (rd rs1 rs2 rs3 : Reg) (h1 : op < 128) (h2 : f3 < 8) (h3 : f2 < 4) :
    let w := fieldsOf (cqWord op f3 f2 rd.val rs1.val rs2.val rs3.val).toNat
    w.op = op ∧ w.rd = rd ∧ w.f3 = f3 ∧ w.rs1 = rs1 ∧ w.rs2 = rs2 ∧ w.rs3 = rs3 ∧ w.f2 = f2 := by
  simp only [fieldsOf, fieldAt, regAt, cqWord_toNat op f3 f2 _ _ _ _ h1 h2 h3 rd.isLt rs1.isLt rs2.isLt rs3.isLt]
  have := rd.isLt; have := rs1.isLt; have := rs2.isLt; have := rs3.isLt
  refine ⟨?_, Fin.ext ?_, ?_, Fin.ext ?_, Fin.ext ?_, Fin.ext ?_, ?_⟩ <;> try dsimp only
  all_goals omega

/-- The major opcode of a word of each format. -/
theorem crWord_major (op f3 f7 rd rs1 rs2 : Nat) (h : op < 128) : (crWord op f3 f7 rd rs1 rs2).toNat % 128 = op := by
  simp only [crWord, BitVec.toNat_ofNat]
  omega
theorem cqWord_major (op f3 f2 rd rs1 rs2 rs3 : Nat) (h : op < 128) : (cqWord op f3 f2 rd rs1 rs2 rs3).toNat % 128 = op := by
  simp only [cqWord, BitVec.toNat_ofNat]
  omega
theorem csWord_major (op f3 rs2 rs1 imm : Nat) (h : op < 128) : (csWord op f3 rs2 rs1 imm).toNat % 128 = op := by
  simp only [csWord, BitVec.toNat_ofNat]
  omega
theorem iWord_major (op f3 rd rs1 imm : Nat) (h : op < 128) : (iWord op f3 rd rs1 imm).toNat % 128 = op := by
  simp only [iWord, BitVec.toNat_ofNat]
  omega
theorem waitWord_major (n : WaitArg) : (waitWord n).toNat % 128 = 0x7B := by
  simp only [waitWord, BitVec.toNat_ofNat]
  omega

end Sys2Proof
end

