-- ==== Sys2Proof/Laws/PerInstr.lean ====
section
/-! SUPPORT. A family of statements for every instruction of the table: the major opcode of its word. -/

namespace Sys2Proof.Laws.Encoding

/-- The major opcodes of the words that `Instr` stands for: the custom opcodes of R39 to R43, and LOAD, LOAD-FP, MISC-MEM, STORE, STORE-FP,
AMO and SYSTEM of the standard space (R28, R44). All end in 11, and none in 11111 (R33). -/
def majors : List Nat := [0x0B, 0x2B, 0x5B, 0x7B, 0x03, 0x07, 0x0F, 0x23, 0x27, 0x2F, 0x73]

/-- The word of a well-formed instruction has a major opcode of the list. An event has no word. -/
def Statement (i : Instr) : Prop := ∀ w, i.wf = true → encode i = some w → w.toNat % 128 ∈ majors

/-- An instruction whose encoder's word has a major opcode of the list. -/
theorem of_word {i : Instr} {v : Word32} (op : Nat) (h : encode i = some v) (hv : v.toNat % 128 = op) (ho : op ∈ majors) : Statement i := by
  intro w _ hw
  rw [h] at hw
  cases hw
  exact hv ▸ ho

/-- An event. -/
theorem of_none {i : Instr} (h : encode i = none) : Statement i := by
  intro w _ hw
  rw [h] at hw
  cases hw

theorem balloc (rd rs1 rs2 : Reg) : Statement (.balloc rd rs1 rs2) := of_word 0x0B rfl (crWord_major _ _ _ _ _ _ (by decide)) (by decide)
theorem bfree (rs1 : Reg) : Statement (.bfree rs1) := of_word 0x0B rfl (crWord_major _ _ _ _ _ _ (by decide)) (by decide)
theorem bsplit (rd rs1 rs2 : Reg) : Statement (.bsplit rd rs1 rs2) := of_word 0x0B rfl (crWord_major _ _ _ _ _ _ (by decide)) (by decide)
theorem bjoin (rd rs1 rs2 : Reg) : Statement (.bjoin rd rs1 rs2) := of_word 0x0B rfl (crWord_major _ _ _ _ _ _ (by decide)) (by decide)
theorem bbase (rd rs1 : Reg) : Statement (.bbase rd rs1) := of_word 0x0B rfl (crWord_major _ _ _ _ _ _ (by decide)) (by decide)
theorem blen (rd rs1 : Reg) : Statement (.blen rd rs1) := of_word 0x0B rfl (crWord_major _ _ _ _ _ _ (by decide)) (by decide)
theorem bprobe (rd rs1 : Reg) : Statement (.bprobe rd rs1) := of_word 0x0B rfl (crWord_major _ _ _ _ _ _ (by decide)) (by decide)
theorem blayout (rd rs1 rs2 : Reg) : Statement (.blayout rd rs1 rs2) := of_word 0x0B rfl (crWord_major _ _ _ _ _ _ (by decide)) (by decide)
theorem bmove (rd rs1 rs2 : Reg) : Statement (.bmove rd rs1 rs2) := of_word 0x0B rfl (crWord_major _ _ _ _ _ _ (by decide)) (by decide)
theorem bopen (rd rs1 rs2 : Reg) : Statement (.bopen rd rs1 rs2) := of_word 0x0B rfl (crWord_major _ _ _ _ _ _ (by decide)) (by decide)
theorem bclose (rd rs1 rs2 : Reg) : Statement (.bclose rd rs1 rs2) := of_word 0x0B rfl (crWord_major _ _ _ _ _ _ (by decide)) (by decide)
theorem bgate (rd rs1 rs2 : Reg) : Statement (.bgate rd rs1 rs2) := of_word 0x0B rfl (crWord_major _ _ _ _ _ _ (by decide)) (by decide)
theorem brecv (rd : Reg) : Statement (.brecv rd) := of_word 0x0B rfl (crWord_major _ _ _ _ _ _ (by decide)) (by decide)
theorem brecvNb (rd : Reg) : Statement (.brecvNb rd) := of_word 0x0B rfl (crWord_major _ _ _ _ _ _ (by decide)) (by decide)
theorem brevoke (rd rs1 : Reg) : Statement (.brevoke rd rs1) := of_word 0x0B rfl (crWord_major _ _ _ _ _ _ (by decide)) (by decide)
theorem bsend (rd rs1 rs2 rs3 : Reg) : Statement (.bsend rd rs1 rs2 rs3) := of_word 0x0B rfl (cqWord_major _ _ _ _ _ _ _ (by decide)) (by decide)
theorem bsendLocal (rd rs1 rs2 rs3 : Reg) : Statement (.bsendLocal rd rs1 rs2 rs3) := of_word 0x0B rfl (cqWord_major _ _ _ _ _ _ _ (by decide)) (by decide)
theorem bsendRef (rd rs1 rs2 rs3 : Reg) : Statement (.bsendRef rd rs1 rs2 rs3) := of_word 0x0B rfl (cqWord_major _ _ _ _ _ _ _ (by decide)) (by decide)
theorem dsb (rs2 rs1 : Reg) (imm : BitVec 12) : Statement (.dsb rs2 rs1 imm) := of_word 0x0B rfl (csWord_major _ _ _ _ _ (by decide)) (by decide)
theorem dsh (rs2 rs1 : Reg) (imm : BitVec 12) : Statement (.dsh rs2 rs1 imm) := of_word 0x0B rfl (csWord_major _ _ _ _ _ (by decide)) (by decide)
theorem dsw (rs2 rs1 : Reg) (imm : BitVec 12) : Statement (.dsw rs2 rs1 imm) := of_word 0x0B rfl (csWord_major _ _ _ _ _ (by decide)) (by decide)
theorem dsd (rs2 rs1 : Reg) (imm : BitVec 12) : Statement (.dsd rs2 rs1 imm) := of_word 0x0B rfl (csWord_major _ _ _ _ _ (by decide)) (by decide)
theorem dsn (rs2 rs1 : Reg) (imm : BitVec 12) : Statement (.dsn rs2 rs1 imm) := of_word 0x0B rfl (csWord_major _ _ _ _ _ (by decide)) (by decide)
theorem daAddW (rd rs1 rs2 : Reg) : Statement (.daAddW rd rs1 rs2) := of_word 0x0B rfl (crWord_major _ _ _ _ _ _ (by decide)) (by decide)
theorem daMinW (rd rs1 rs2 : Reg) : Statement (.daMinW rd rs1 rs2) := of_word 0x0B rfl (crWord_major _ _ _ _ _ _ (by decide)) (by decide)
theorem daMaxW (rd rs1 rs2 : Reg) : Statement (.daMaxW rd rs1 rs2) := of_word 0x0B rfl (crWord_major _ _ _ _ _ _ (by decide)) (by decide)
theorem daMinuW (rd rs1 rs2 : Reg) : Statement (.daMinuW rd rs1 rs2) := of_word 0x0B rfl (crWord_major _ _ _ _ _ _ (by decide)) (by decide)
theorem daMaxuW (rd rs1 rs2 : Reg) : Statement (.daMaxuW rd rs1 rs2) := of_word 0x0B rfl (crWord_major _ _ _ _ _ _ (by decide)) (by decide)
theorem daAndW (rd rs1 rs2 : Reg) : Statement (.daAndW rd rs1 rs2) := of_word 0x0B rfl (crWord_major _ _ _ _ _ _ (by decide)) (by decide)
theorem daOrW (rd rs1 rs2 : Reg) : Statement (.daOrW rd rs1 rs2) := of_word 0x0B rfl (crWord_major _ _ _ _ _ _ (by decide)) (by decide)
theorem daXorW (rd rs1 rs2 : Reg) : Statement (.daXorW rd rs1 rs2) := of_word 0x0B rfl (crWord_major _ _ _ _ _ _ (by decide)) (by decide)
theorem daXchgW (rd rs1 rs2 : Reg) : Statement (.daXchgW rd rs1 rs2) := of_word 0x0B rfl (crWord_major _ _ _ _ _ _ (by decide)) (by decide)
theorem daCasW (rd rs1 rs2 : Reg) : Statement (.daCasW rd rs1 rs2) := of_word 0x0B rfl (crWord_major _ _ _ _ _ _ (by decide)) (by decide)
theorem daFaddW (rd rs1 rs2 : Reg) : Statement (.daFaddW rd rs1 rs2) := of_word 0x0B rfl (crWord_major _ _ _ _ _ _ (by decide)) (by decide)
theorem daAddD (rd rs1 rs2 : Reg) : Statement (.daAddD rd rs1 rs2) := of_word 0x0B rfl (crWord_major _ _ _ _ _ _ (by decide)) (by decide)
theorem daMinD (rd rs1 rs2 : Reg) : Statement (.daMinD rd rs1 rs2) := of_word 0x0B rfl (crWord_major _ _ _ _ _ _ (by decide)) (by decide)
theorem daMaxD (rd rs1 rs2 : Reg) : Statement (.daMaxD rd rs1 rs2) := of_word 0x0B rfl (crWord_major _ _ _ _ _ _ (by decide)) (by decide)
theorem daMinuD (rd rs1 rs2 : Reg) : Statement (.daMinuD rd rs1 rs2) := of_word 0x0B rfl (crWord_major _ _ _ _ _ _ (by decide)) (by decide)
theorem daMaxuD (rd rs1 rs2 : Reg) : Statement (.daMaxuD rd rs1 rs2) := of_word 0x0B rfl (crWord_major _ _ _ _ _ _ (by decide)) (by decide)
theorem daAndD (rd rs1 rs2 : Reg) : Statement (.daAndD rd rs1 rs2) := of_word 0x0B rfl (crWord_major _ _ _ _ _ _ (by decide)) (by decide)
theorem daOrD (rd rs1 rs2 : Reg) : Statement (.daOrD rd rs1 rs2) := of_word 0x0B rfl (crWord_major _ _ _ _ _ _ (by decide)) (by decide)
theorem daXorD (rd rs1 rs2 : Reg) : Statement (.daXorD rd rs1 rs2) := of_word 0x0B rfl (crWord_major _ _ _ _ _ _ (by decide)) (by decide)
theorem daXchgD (rd rs1 rs2 : Reg) : Statement (.daXchgD rd rs1 rs2) := of_word 0x0B rfl (crWord_major _ _ _ _ _ _ (by decide)) (by decide)
theorem daCasD (rd rs1 rs2 : Reg) : Statement (.daCasD rd rs1 rs2) := of_word 0x0B rfl (crWord_major _ _ _ _ _ _ (by decide)) (by decide)
theorem dflush (rd rs1 : Reg) : Statement (.dflush rd rs1) := of_word 0x0B rfl (crWord_major _ _ _ _ _ _ (by decide)) (by decide)
theorem mmaF4f4 (m : Fin 2) (a b : MatSrc) (fs3 : Reg) : Statement (.mmaF4f4 m a b fs3) := of_word 0x2B rfl (cqWord_major _ _ _ _ _ _ _ (by decide)) (by decide)
theorem mmaF4e4 (m : Fin 2) (a b : MatSrc) (fs3 : Reg) : Statement (.mmaF4e4 m a b fs3) := of_word 0x2B rfl (cqWord_major _ _ _ _ _ _ _ (by decide)) (by decide)
theorem mmaE4e4 (m : Fin 2) (a b : MatSrc) (fs3 : Reg) : Statement (.mmaE4e4 m a b fs3) := of_word 0x2B rfl (cqWord_major _ _ _ _ _ _ _ (by decide)) (by decide)
theorem mmaE4e5 (m : Fin 2) (a b : MatSrc) (fs3 : Reg) : Statement (.mmaE4e5 m a b fs3) := of_word 0x2B rfl (cqWord_major _ _ _ _ _ _ _ (by decide)) (by decide)
theorem mmaE5e4 (m : Fin 2) (a b : MatSrc) (fs3 : Reg) : Statement (.mmaE5e4 m a b fs3) := of_word 0x2B rfl (cqWord_major _ _ _ _ _ _ _ (by decide)) (by decide)
theorem mmaE5e5 (m : Fin 2) (a b : MatSrc) (fs3 : Reg) : Statement (.mmaE5e5 m a b fs3) := of_word 0x2B rfl (cqWord_major _ _ _ _ _ _ _ (by decide)) (by decide)
theorem mmaBfbf (m : Fin 2) (a b : MatSrc) (fs3 : Reg) : Statement (.mmaBfbf m a b fs3) := of_word 0x2B rfl (cqWord_major _ _ _ _ _ _ _ (by decide)) (by decide)
theorem mmaHfhf (m : Fin 2) (a b : MatSrc) (fs3 : Reg) : Statement (.mmaHfhf m a b fs3) := of_word 0x2B rfl (cqWord_major _ _ _ _ _ _ _ (by decide)) (by decide)
theorem mmaI8i8 (m : Fin 2) (a b : MatSrc) (fs3 : Reg) : Statement (.mmaI8i8 m a b fs3) := of_word 0x2B rfl (cqWord_major _ _ _ _ _ _ _ (by decide)) (by decide)
theorem mmaI8i4 (m : Fin 2) (a b : MatSrc) (fs3 : Reg) : Statement (.mmaI8i4 m a b fs3) := of_word 0x2B rfl (cqWord_major _ _ _ _ _ _ _ (by decide)) (by decide)
theorem mmaBpi8 (m : Fin 2) (a b : MatSrc) (fs3 : Reg) : Statement (.mmaBpi8 m a b fs3) := of_word 0x2B rfl (cqWord_major _ _ _ _ _ _ _ (by decide)) (by decide)
theorem mmaBpbp (m : Fin 2) (a b : MatSrc) (fs3 : Reg) : Statement (.mmaBpbp m a b fs3) := of_word 0x2B rfl (cqWord_major _ _ _ _ _ _ _ (by decide)) (by decide)
theorem mzero (m : Fin 2) : Statement (.mzero m) := of_word 0x2B rfl (crWord_major _ _ _ _ _ _ (by decide)) (by decide)
theorem mcfg (rs1 : Reg) : Statement (.mcfg rs1) := of_word 0x2B rfl (crWord_major _ _ _ _ _ _ (by decide)) (by decide)
theorem mldacc (m : Fin 2) (cb : CbN) : Statement (.mldacc m cb) := of_word 0x2B rfl (crWord_major _ _ _ _ _ _ (by decide)) (by decide)
theorem mstacc (m : Fin 2) (cb : CbN) : Statement (.mstacc m cb) := of_word 0x2B rfl (crWord_major _ _ _ _ _ _ (by decide)) (by decide)
theorem mdrain (m : Fin 2) (fmt : DrainFmt) (rnd : Rnd) (out : CbN) (scale : Option CbN) : Statement (.mdrain m fmt rnd out scale) := of_word 0x2B rfl (crWord_major _ _ _ _ _ _ (by decide)) (by decide)
theorem vdotbFp4 (vd vs1 vs2 fs3 : Reg) : Statement (.vdotbFp4 vd vs1 vs2 fs3) := of_word 0x2B rfl (cqWord_major _ _ _ _ _ _ _ (by decide)) (by decide)
theorem vdotbE4m3 (vd vs1 vs2 fs3 : Reg) : Statement (.vdotbE4m3 vd vs1 vs2 fs3) := of_word 0x2B rfl (cqWord_major _ _ _ _ _ _ _ (by decide)) (by decide)
theorem vdotbE5m2 (vd vs1 vs2 fs3 : Reg) : Statement (.vdotbE5m2 vd vs1 vs2 fs3) := of_word 0x2B rfl (cqWord_major _ _ _ _ _ _ _ (by decide)) (by decide)
theorem vdotbInt8 (vd vs1 vs2 fs3 : Reg) : Statement (.vdotbInt8 vd vs1 vs2 fs3) := of_word 0x2B rfl (cqWord_major _ _ _ _ _ _ _ (by decide)) (by decide)
theorem vcvtn (fmt : NarrowFmt) (rnd : Rnd) (vd vs1 vs2 : Reg) : Statement (.vcvtn fmt rnd vd vs1 vs2) := of_word 0x2B rfl (crWord_major _ _ _ _ _ _ (by decide)) (by decide)
theorem vcvtw (fmt : NarrowFmt) (vd vs1 vs2 : Reg) : Statement (.vcvtw fmt vd vs1 vs2) := of_word 0x2B rfl (crWord_major _ _ _ _ _ _ (by decide)) (by decide)
theorem vbscale (sf : ScaleFmt) (vd vs1 : Reg) : Statement (.vbscale sf vd vs1) := of_word 0x2B rfl (crWord_major _ _ _ _ _ _ (by decide)) (by decide)
theorem vplnPack (vd vs1 : Reg) (n : Fin 32) : Statement (.vplnPack vd vs1 n) := of_word 0x2B rfl (crWord_major _ _ _ _ _ _ (by decide)) (by decide)
theorem vplnGet (vd vs1 : Reg) (n : Fin 32) : Statement (.vplnGet vd vs1 n) := of_word 0x2B rfl (crWord_major _ _ _ _ _ _ (by decide)) (by decide)
theorem vrng (vd rs1 : Reg) : Statement (.vrng vd rs1) := of_word 0x2B rfl (crWord_major _ _ _ _ _ _ (by decide)) (by decide)
theorem vamax (fd vs1 : Reg) : Statement (.vamax fd vs1) := of_word 0x2B rfl (crWord_major _ _ _ _ _ _ (by decide)) (by decide)
theorem cbcfg (cb : CbN) (rs1 rs2 : Reg) : Statement (.cbcfg cb rs1 rs2) := of_word 0x5B rfl (crWord_major _ _ _ _ _ _ (by decide)) (by decide)
theorem cbacq (cb : CbN) (rs1 : Reg) : Statement (.cbacq cb rs1) := of_word 0x5B rfl (crWord_major _ _ _ _ _ _ (by decide)) (by decide)
theorem cbrel (cb : CbN) (rs1 : Reg) : Statement (.cbrel cb rs1) := of_word 0x5B rfl (crWord_major _ _ _ _ _ _ (by decide)) (by decide)
theorem cbqry (rd : Reg) (cb : CbN) : Statement (.cbqry rd cb) := of_word 0x5B rfl (crWord_major _ _ _ _ _ _ (by decide)) (by decide)
theorem copy (rd rs1 rs2 rs3 : Reg) : Statement (.copy rd rs1 rs2 rs3) := of_word 0x5B rfl (cqWord_major _ _ _ _ _ _ _ (by decide)) (by decide)
theorem red (rd rs1 rs2 rs3 : Reg) : Statement (.red rd rs1 rs2 rs3) := of_word 0x5B rfl (cqWord_major _ _ _ _ _ _ _ (by decide)) (by decide)
theorem gath (rd rs1 rs2 rs3 : Reg) : Statement (.gath rd rs1 rs2 rs3) := of_word 0x5B rfl (cqWord_major _ _ _ _ _ _ _ (by decide)) (by decide)
theorem scat (rd rs1 rs2 rs3 : Reg) : Statement (.scat rd rs1 rs2 rs3) := of_word 0x5B rfl (cqWord_major _ _ _ _ _ _ _ (by decide)) (by decide)
theorem fill (rd rs1 rs2 rs3 : Reg) : Statement (.fill rd rs1 rs2 rs3) := of_word 0x5B rfl (cqWord_major _ _ _ _ _ _ _ (by decide)) (by decide)
theorem cmp (rd rs1 rs2 rs3 : Reg) : Statement (.cmp rd rs1 rs2 rs3) := of_word 0x5B rfl (cqWord_major _ _ _ _ _ _ _ (by decide)) (by decide)
theorem ecfg (p : Fin 16) (rs1 : Reg) : Statement (.ecfg p rs1) := of_word 0x5B rfl (crWord_major _ _ _ _ _ _ (by decide)) (by decide)
theorem ebind (rs1 rs2 : Reg) : Statement (.ebind rs1 rs2) := of_word 0x5B rfl (crWord_major _ _ _ _ _ _ (by decide)) (by decide)
theorem epost (rd rs1 rs2 : Reg) : Statement (.epost rd rs1 rs2) := of_word 0x5B rfl (crWord_major _ _ _ _ _ _ (by decide)) (by decide)
theorem erecv (rd : Reg) : Statement (.erecv rd) := of_word 0x5B rfl (crWord_major _ _ _ _ _ _ (by decide)) (by decide)
theorem erecvNb (rd : Reg) : Statement (.erecvNb rd) := of_word 0x5B rfl (crWord_major _ _ _ _ _ _ (by decide)) (by decide)
theorem etick (rs1 : Reg) : Statement (.etick rs1) := of_word 0x5B rfl (crWord_major _ _ _ _ _ _ (by decide)) (by decide)
theorem erd (rd rs1 : Reg) : Statement (.erd rd rs1) := of_word 0x5B rfl (crWord_major _ _ _ _ _ _ (by decide)) (by decide)
theorem ewr (rs1 rs2 : Reg) : Statement (.ewr rs1 rs2) := of_word 0x5B rfl (crWord_major _ _ _ _ _ _ (by decide)) (by decide)
theorem qpush (rd rs1 rs2 rs3 : Reg) : Statement (.qpush rd rs1 rs2 rs3) := of_word 0x5B rfl (cqWord_major _ _ _ _ _ _ _ (by decide)) (by decide)
theorem qpushW (rd rs1 rs2 rs3 : Reg) : Statement (.qpushW rd rs1 rs2 rs3) := of_word 0x5B rfl (cqWord_major _ _ _ _ _ _ _ (by decide)) (by decide)
theorem qpop (rd rs1 : Reg) : Statement (.qpop rd rs1) := of_word 0x5B rfl (crWord_major _ _ _ _ _ _ (by decide)) (by decide)
theorem qpopNb (rd rs1 : Reg) : Statement (.qpopNb rd rs1) := of_word 0x5B rfl (crWord_major _ _ _ _ _ _ (by decide)) (by decide)
theorem klaunch (rd rs1 rs2 : Reg) : Statement (.klaunch rd rs1 rs2) := of_word 0x5B rfl (crWord_major _ _ _ _ _ _ (by decide)) (by decide)
theorem kjoin (rd rs1 : Reg) : Statement (.kjoin rd rs1) := of_word 0x5B rfl (crWord_major _ _ _ _ _ _ (by decide)) (by decide)
theorem gjoin (rd rs1 : Reg) : Statement (.gjoin rd rs1) := of_word 0x7B rfl (crWord_major _ _ _ _ _ _ (by decide)) (by decide)
theorem gleave (rs1 : Reg) : Statement (.gleave rs1) := of_word 0x7B rfl (crWord_major _ _ _ _ _ _ (by decide)) (by decide)
theorem gsize (rd rs1 : Reg) : Statement (.gsize rd rs1) := of_word 0x7B rfl (crWord_major _ _ _ _ _ _ (by decide)) (by decide)
theorem gfuse (rd rs1 : Reg) : Statement (.gfuse rd rs1) := of_word 0x7B rfl (crWord_major _ _ _ _ _ _ (by decide)) (by decide)
theorem grank (rd : Reg) : Statement (.grank rd) := of_word 0x7B rfl (crWord_major _ _ _ _ _ _ (by decide)) (by decide)
theorem barr (rs1 rs2 : Reg) : Statement (.barr rs1 rs2) := of_word 0x7B rfl (crWord_major _ _ _ _ _ _ (by decide)) (by decide)
theorem barw (rd rs1 : Reg) : Statement (.barw rd rs1) := of_word 0x7B rfl (crWord_major _ _ _ _ _ _ (by decide)) (by decide)
theorem bart (rd rs1 : Reg) : Statement (.bart rd rs1) := of_word 0x7B rfl (crWord_major _ _ _ _ _ _ (by decide)) (by decide)
theorem barc (rs1 rs2 : Reg) : Statement (.barc rs1 rs2) := of_word 0x7B rfl (crWord_major _ _ _ _ _ _ (by decide)) (by decide)
theorem svAdd (rd rs1 rs2 : Reg) : Statement (.svAdd rd rs1 rs2) := of_word 0x7B rfl (crWord_major _ _ _ _ _ _ (by decide)) (by decide)
theorem svMin (rd rs1 rs2 : Reg) : Statement (.svMin rd rs1 rs2) := of_word 0x7B rfl (crWord_major _ _ _ _ _ _ (by decide)) (by decide)
theorem svMax (rd rs1 rs2 : Reg) : Statement (.svMax rd rs1 rs2) := of_word 0x7B rfl (crWord_major _ _ _ _ _ _ (by decide)) (by decide)
theorem svMinu (rd rs1 rs2 : Reg) : Statement (.svMinu rd rs1 rs2) := of_word 0x7B rfl (crWord_major _ _ _ _ _ _ (by decide)) (by decide)
theorem svMaxu (rd rs1 rs2 : Reg) : Statement (.svMaxu rd rs1 rs2) := of_word 0x7B rfl (crWord_major _ _ _ _ _ _ (by decide)) (by decide)
theorem svAnd (rd rs1 rs2 : Reg) : Statement (.svAnd rd rs1 rs2) := of_word 0x7B rfl (crWord_major _ _ _ _ _ _ (by decide)) (by decide)
theorem svOr (rd rs1 rs2 : Reg) : Statement (.svOr rd rs1 rs2) := of_word 0x7B rfl (crWord_major _ _ _ _ _ _ (by decide)) (by decide)
theorem svXchg (rd rs1 rs2 : Reg) : Statement (.svXchg rd rs1 rs2) := of_word 0x7B rfl (crWord_major _ _ _ _ _ _ (by decide)) (by decide)
theorem svCas (rd rs1 rs2 : Reg) : Statement (.svCas rd rs1 rs2) := of_word 0x7B rfl (crWord_major _ _ _ _ _ _ (by decide)) (by decide)
theorem svMaxrst (rd rs1 rs2 : Reg) : Statement (.svMaxrst rd rs1 rs2) := of_word 0x7B rfl (crWord_major _ _ _ _ _ _ (by decide)) (by decide)
theorem svWaitge (rd rs1 rs2 : Reg) : Statement (.svWaitge rd rs1 rs2) := of_word 0x7B rfl (crWord_major _ _ _ _ _ _ (by decide)) (by decide)
theorem cmoCleanHart (rs1 rs2 : Reg) : Statement (.cmoCleanHart rs1 rs2) := of_word 0x7B rfl (crWord_major _ _ _ _ _ _ (by decide)) (by decide)
theorem cmoCleanCluster (rs1 rs2 : Reg) : Statement (.cmoCleanCluster rs1 rs2) := of_word 0x7B rfl (crWord_major _ _ _ _ _ _ (by decide)) (by decide)
theorem cmoCleanLcache (rs1 rs2 : Reg) : Statement (.cmoCleanLcache rs1 rs2) := of_word 0x7B rfl (crWord_major _ _ _ _ _ _ (by decide)) (by decide)
theorem cmoCleanAll (rs1 rs2 : Reg) : Statement (.cmoCleanAll rs1 rs2) := of_word 0x7B rfl (crWord_major _ _ _ _ _ _ (by decide)) (by decide)
theorem cmoCleanRemote (rs1 rs2 : Reg) : Statement (.cmoCleanRemote rs1 rs2) := of_word 0x7B rfl (crWord_major _ _ _ _ _ _ (by decide)) (by decide)
theorem cmoInvHart (rs1 rs2 : Reg) : Statement (.cmoInvHart rs1 rs2) := of_word 0x7B rfl (crWord_major _ _ _ _ _ _ (by decide)) (by decide)
theorem cmoInvCluster (rs1 rs2 : Reg) : Statement (.cmoInvCluster rs1 rs2) := of_word 0x7B rfl (crWord_major _ _ _ _ _ _ (by decide)) (by decide)
theorem cmoInvLcache (rs1 rs2 : Reg) : Statement (.cmoInvLcache rs1 rs2) := of_word 0x7B rfl (crWord_major _ _ _ _ _ _ (by decide)) (by decide)
theorem cmoInvAll (rs1 rs2 : Reg) : Statement (.cmoInvAll rs1 rs2) := of_word 0x7B rfl (crWord_major _ _ _ _ _ _ (by decide)) (by decide)
theorem cmoInvRemote (rs1 rs2 : Reg) : Statement (.cmoInvRemote rs1 rs2) := of_word 0x7B rfl (crWord_major _ _ _ _ _ _ (by decide)) (by decide)
theorem cmoClinvHart (rs1 rs2 : Reg) : Statement (.cmoClinvHart rs1 rs2) := of_word 0x7B rfl (crWord_major _ _ _ _ _ _ (by decide)) (by decide)
theorem cmoClinvCluster (rs1 rs2 : Reg) : Statement (.cmoClinvCluster rs1 rs2) := of_word 0x7B rfl (crWord_major _ _ _ _ _ _ (by decide)) (by decide)
theorem cmoClinvLcache (rs1 rs2 : Reg) : Statement (.cmoClinvLcache rs1 rs2) := of_word 0x7B rfl (crWord_major _ _ _ _ _ _ (by decide)) (by decide)
theorem cmoClinvAll (rs1 rs2 : Reg) : Statement (.cmoClinvAll rs1 rs2) := of_word 0x7B rfl (crWord_major _ _ _ _ _ _ (by decide)) (by decide)
theorem cmoClinvRemote (rs1 rs2 : Reg) : Statement (.cmoClinvRemote rs1 rs2) := of_word 0x7B rfl (crWord_major _ _ _ _ _ _ (by decide)) (by decide)
theorem invpg (rs1 rs2 : Reg) : Statement (.invpg rs1 rs2) := of_word 0x7B rfl (crWord_major _ _ _ _ _ _ (by decide)) (by decide)
theorem ctxsave (rs1 rs2 : Reg) : Statement (.ctxsave rs1 rs2) := of_word 0x7B rfl (crWord_major _ _ _ _ _ _ (by decide)) (by decide)
theorem ctxload (rs1 : Reg) : Statement (.ctxload rs1) := of_word 0x7B rfl (crWord_major _ _ _ _ _ _ (by decide)) (by decide)
theorem scrub (rs1 : Reg) : Statement (.scrub rs1) := of_word 0x7B rfl (crWord_major _ _ _ _ _ _ (by decide)) (by decide)
theorem wait (n : WaitArg) : Statement (.wait n) := of_word 0x7B rfl (waitWord_major n) (by decide)
theorem fence (w : Word32) : Statement (.fence w) := by
  intro v hw he
  cases he
  simp only [Instr.wf, wordIs, Bool.and_eq_true, beq_iff_eq] at hw
  simp [hw.1, majors]
theorem fenceI (w : Word32) : Statement (.fenceI w) := by
  intro v hw he
  cases he
  simp only [Instr.wf, wordIs, Bool.and_eq_true, beq_iff_eq] at hw
  simp [hw.1, majors]
theorem sfenceVma (w : Word32) : Statement (.sfenceVma w) := by
  intro v hw he
  cases he
  simp only [Instr.wf, isSfence, Bool.or_eq_true, Bool.and_eq_true, beq_iff_eq] at hw
  have : w.toNat % 128 = 0x73 := by omega
  simp [this, majors]
theorem lr (sz : AmoW) (aq rl : Bool) (rd rs1 : Reg) : Statement (.lr sz aq rl rd rs1) := of_word 0x2F rfl (crWord_major _ _ _ _ _ _ (by decide)) (by decide)
theorem sc (sz : AmoW) (aq rl : Bool) (rd rs1 rs2 : Reg) : Statement (.sc sz aq rl rd rs1 rs2) := of_word 0x2F rfl (crWord_major _ _ _ _ _ _ (by decide)) (by decide)
theorem amo (op : AmoOp) (sz : AmoW) (aq rl : Bool) (rd rs1 rs2 : Reg) : Statement (.amo op sz aq rl rd rs1 rs2) := of_word 0x2F rfl (crWord_major _ _ _ _ _ _ (by decide)) (by decide)
theorem scalarLoad (op : LoadOp) (rd rs1 : Reg) (imm : BitVec 12) : Statement (.scalarLoad op rd rs1 imm) := by
  cases op
  · exact of_word 0x03 rfl (iWord_major _ _ _ _ _ (by decide)) (by decide)
  · exact of_word 0x03 rfl (iWord_major _ _ _ _ _ (by decide)) (by decide)
  · exact of_word 0x03 rfl (iWord_major _ _ _ _ _ (by decide)) (by decide)
  · exact of_word 0x03 rfl (iWord_major _ _ _ _ _ (by decide)) (by decide)
  · exact of_word 0x03 rfl (iWord_major _ _ _ _ _ (by decide)) (by decide)
  · exact of_word 0x03 rfl (iWord_major _ _ _ _ _ (by decide)) (by decide)
  · exact of_word 0x03 rfl (iWord_major _ _ _ _ _ (by decide)) (by decide)
  · exact of_word 0x07 rfl (iWord_major _ _ _ _ _ (by decide)) (by decide)
  · exact of_word 0x07 rfl (iWord_major _ _ _ _ _ (by decide)) (by decide)
theorem scalarStore (op : StoreOp) (rs2 rs1 : Reg) (imm : BitVec 12) : Statement (.scalarStore op rs2 rs1 imm) := by
  cases op
  · exact of_word 0x23 rfl (csWord_major _ _ _ _ _ (by decide)) (by decide)
  · exact of_word 0x23 rfl (csWord_major _ _ _ _ _ (by decide)) (by decide)
  · exact of_word 0x23 rfl (csWord_major _ _ _ _ _ (by decide)) (by decide)
  · exact of_word 0x23 rfl (csWord_major _ _ _ _ _ (by decide)) (by decide)
  · exact of_word 0x27 rfl (csWord_major _ _ _ _ _ (by decide)) (by decide)
  · exact of_word 0x27 rfl (csWord_major _ _ _ _ _ (by decide)) (by decide)
theorem vectorLoad (v : VMem) : Statement (.vectorLoad v) := of_word 0x07 rfl (crWord_major _ _ _ _ _ _ (by decide)) (by decide)
theorem vectorStore (v : VMem) : Statement (.vectorStore v) := of_word 0x27 rfl (crWord_major _ _ _ _ _ _ (by decide)) (by decide)
theorem reservedEncoding (w : Word32) : Statement (.reservedEncoding w) := of_none rfl
theorem mprogWrite (c : CsrArg) : Statement (.mprogWrite c) := of_word 0x73 rfl (iWord_major _ _ _ _ _ (by decide)) (by decide)
theorem ctxpidWrite (c : CsrArg) : Statement (.ctxpidWrite c) := of_word 0x73 rfl (iWord_major _ _ _ _ _ (by decide)) (by decide)
theorem etickCsrWrite (c : CsrArg) : Statement (.etickCsrWrite c) := of_word 0x73 rfl (iWord_major _ _ _ _ _ (by decide)) (by decide)
theorem ctxcompWrite (c : CsrArg) : Statement (.ctxcompWrite c) := of_word 0x73 rfl (iWord_major _ _ _ _ _ (by decide)) (by decide)
theorem satpWrite (c : CsrArg) : Statement (.satpWrite c) := of_word 0x73 rfl (iWord_major _ _ _ _ _ (by decide)) (by decide)
theorem csrWrite (csr : BitVec 12) (c : CsrArg) : Statement (.csrWrite csr c) := of_word 0x73 rfl (iWord_major _ _ _ _ _ (by decide)) (by decide)
theorem sqtailWrite (agent : Fin 16) (value : BitVec 64) : Statement (.sqtailWrite agent value) := of_none rfl
theorem cqheadWrite (agent : Fin 16) (value : BitVec 64) : Statement (.cqheadWrite agent value) := of_none rfl
theorem mbLaunch (agent : Fin 16) : Statement (.mbLaunch agent) := of_none rfl
theorem mbPublish (agent : Fin 16) : Statement (.mbPublish agent) := of_none rfl
theorem mbUnpublish (agent : Fin 16) : Statement (.mbUnpublish agent) := of_none rfl
theorem mbSend (agent : Fin 16) : Statement (.mbSend agent) := of_none rfl
theorem mbFree (agent : Fin 16) : Statement (.mbFree agent) := of_none rfl
theorem mbSplit (agent : Fin 16) : Statement (.mbSplit agent) := of_none rfl
theorem mbJoin (agent : Fin 16) : Statement (.mbJoin agent) := of_none rfl
theorem hostMemRead (port : Fin 2) (pa len : Nat) (via : HostVia) : Statement (.hostMemRead port pa len via) := of_none rfl
theorem hostMemWrite (port : Fin 2) (pa : Nat) (bytes : List Byte) (via : HostVia) : Statement (.hostMemWrite port pa bytes via) := of_none rfl
theorem atsInvalidation (port : Fin 2) (addr size : Nat) : Statement (.atsInvalidation port addr size) := of_none rfl
theorem hostReset (port : Fin 2) : Statement (.hostReset port) := of_none rfl
theorem engineCommandFire (hartloc id : Nat) : Statement (.engineCommandFire hartloc id) := of_none rfl
theorem engineCommandComplete (hartloc id : Nat) : Statement (.engineCommandComplete hartloc id) := of_none rfl
theorem mmaPanelFault (hartloc blk : Nat) (why : PanelFail) : Statement (.mmaPanelFault hartloc blk why) := of_none rfl
theorem copySegment (hartloc ticket : Nat) : Statement (.copySegment hartloc ticket) := of_none rfl
theorem copyComplete (hartloc ticket : Nat) : Statement (.copyComplete hartloc ticket) := of_none rfl
theorem ageLimitReached (cluster buf : Nat) : Statement (.ageLimitReached cluster buf) := of_none rfl
theorem depositPacket (k : Nat) : Statement (.depositPacket k) := of_none rfl
theorem depositAck (k : Nat) : Statement (.depositAck k) := of_none rfl
theorem depositRejection (k : Nat) : Statement (.depositRejection k) := of_none rfl
theorem drainRequest (index : Nat) (dest : DrainAt) : Statement (.drainRequest index dest) := of_none rfl
theorem drainResponse (index : Nat) (dest : DrainAt) : Statement (.drainResponse index dest) := of_none rfl
theorem lineFill (l : FillOf) : Statement (.lineFill l) := of_none rfl
theorem sliceWrite (tile line : Nat) : Statement (.sliceWrite tile line) := of_none rfl
theorem passLine (index : Nat) : Statement (.passLine index) := of_none rfl
theorem scrubFrame (stack : Fin 8) : Statement (.scrubFrame stack) := of_none rfl
theorem tickBoundary (cluster : Fin 64) : Statement (.tickBoundary cluster) := of_none rfl
theorem eventDeliver (k : Nat) : Statement (.eventDeliver k) := of_none rfl
theorem wheelDeliver (cluster : Fin 64) (k : Nat) : Statement (.wheelDeliver cluster k) := of_none rfl
theorem fireAction (cluster : Fin 64) : Statement (.fireAction cluster) := of_none rfl
theorem launchPlacement (queue : Nat) : Statement (.launchPlacement queue) := of_none rfl
theorem kernelDone (slot : Nat) : Statement (.kernelDone slot) := of_none rfl
theorem preempt (hartloc : Nat) : Statement (.preempt hartloc) := of_none rfl
theorem resume (hartloc tile : Nat) : Statement (.resume hartloc tile) := of_none rfl
theorem arrivalWrite (k : Nat) : Statement (.arrivalWrite k) := of_none rfl
theorem noticeWrite (k : Nat) : Statement (.noticeWrite k) := of_none rfl
theorem byteCopyCommit (index : Nat) (ok : Bool) : Statement (.byteCopyCommit index ok) := of_none rfl
theorem moveRequest (r : MoveReq) : Statement (.moveRequest r) := of_none rfl
theorem moveAck (id : Nat) : Statement (.moveAck id) := of_none rfl
theorem moveRefusal (id : Nat) (status : BitVec 64) : Statement (.moveRefusal id status) := of_none rfl
theorem moveData (id off : Nat) (bytes : List Byte) : Statement (.moveData id off bytes) := of_none rfl
theorem moveCommit (id : Nat) : Statement (.moveCommit id) := of_none rfl
theorem commitAck (id : Nat) : Statement (.commitAck id) := of_none rfl
theorem xrd (port : Fin 16) (world : Fin 64) (addr len : Nat) : Statement (.xrd port world addr len) := of_none rfl
theorem xwr (port : Fin 16) (world : Fin 64) (addr : Nat) (bytes : List Byte) : Statement (.xwr port world addr bytes) := of_none rfl
theorem evtMessage (port : Fin 16) (m : EvtMsg) : Statement (.evtMessage port m) := of_none rfl
theorem barMessage (channel : Nat) (m : BarMsg) : Statement (.barMessage channel m) := of_none rfl
theorem relayPacket (port : Fin 16) (dest : BitVec 8) (size : Nat) : Statement (.relayPacket port dest size) := of_none rfl
theorem flitReceive (port : PortId) (counter : BitVec 64) (auth : Bool) : Statement (.flitReceive port counter auth) := of_none rfl
theorem linkReplay (port : Fin 16) : Statement (.linkReplay port) := of_none rfl
theorem trainingStart (p : PortId) : Statement (.trainingStart p) := of_none rfl
theorem lanesLocked (p : PortId) : Statement (.lanesLocked p) := of_none rfl
theorem linkKeysInstalled (p : PortId) : Statement (.linkKeysInstalled p) := of_none rfl
theorem laneFail (p : PortId) (lanes : Nat) : Statement (.laneFail p lanes) := of_none rfl
theorem lanesRecovered (p : PortId) : Statement (.lanesRecovered p) := of_none rfl
theorem linkFailure (p : PortId) : Statement (.linkFailure p) := of_none rfl
theorem trainingTimeout (p : PortId) : Statement (.trainingTimeout p) := of_none rfl
theorem portDisable (p : PortId) : Statement (.portDisable p) := of_none rfl
theorem phaseComplete (channel : Nat) : Statement (.phaseComplete channel) := of_none rfl
theorem indoubtResolve (id : Nat) (committed : Bool) : Statement (.indoubtResolve id committed) := of_none rfl
theorem contextInstall (ctx : Fin 64) (r : CtxInit) : Statement (.contextInstall ctx r) := of_none rfl
theorem worldTeardown (world : Fin 64) : Statement (.worldTeardown world) := of_none rfl
theorem queueAssign (n : Nat) (r : QueueInit) : Statement (.queueAssign n r) := of_none rfl
theorem variableAssign (ctx : Fin 64) (first count : Nat) : Statement (.variableAssign ctx first count) := of_none rfl
theorem gateInstall (n : Fin 1024) (g : GateInit) : Statement (.gateInstall n g) := of_none rfl
theorem gateRemove (n : Fin 1024) : Statement (.gateRemove n) := of_none rfl
theorem keySlotWrite (slot : Fin 512) (key : BitVec 256) : Statement (.keySlotWrite slot key) := of_none rfl
theorem routeProgram (dest : BitVec 8) (route : BitVec 8) : Statement (.routeProgram dest route) := of_none rfl
theorem worldMapInstall (port : Fin 16) (src dst : Fin 64) : Statement (.worldMapInstall port src dst) := of_none rfl
theorem hostAgentAssign (agent : Fin 16) (ctx : Fin 64) : Statement (.hostAgentAssign agent ctx) := of_none rfl
theorem poolRegionAssign (ctx : Fin 64) (base len : Nat) : Statement (.poolRegionAssign ctx base len) := of_none rfl
theorem linkChannelReserve (num : Nat) (ctx : Fin 64) (devices : List (BitVec 8)) : Statement (.linkChannelReserve num ctx devices) := of_none rfl
theorem pageTableWrite (pa : Nat) (value : BitVec 64) : Statement (.pageTableWrite pa value) := of_none rfl
theorem pageMigrate (ctx : Fin 64) (va newpa : Nat) : Statement (.pageMigrate ctx va newpa) := of_none rfl
theorem bandwidthWeightSet (u : BwUnit) (cls : Fin 8) (weight : BitVec 8) : Statement (.bandwidthWeightSet u cls weight) := of_none rfl
theorem powerCapSet (watts : Nat) : Statement (.powerCapSet watts) := of_none rfl
theorem selfTestComplete (f : FnBit) (pass : Bool) : Statement (.selfTestComplete f pass) := of_none rfl
theorem monitorSample (cluster : Fin 64) (temp power : Nat) (railOk : Bool) : Statement (.monitorSample cluster temp power railOk) := of_none rfl
theorem tileFault (tile : Nat) : Statement (.tileFault tile) := of_none rfl
theorem lineEccError (e : LineErr) : Statement (.lineEccError e) := of_none rfl
theorem accumulatorEcc (e : AspenErr) : Statement (.accumulatorEcc e) := of_none rfl
theorem variableEcc (n : Nat) : Statement (.variableEcc n) := of_none rfl
theorem queueElementEcc (n k : Nat) : Statement (.queueElementEcc n k) := of_none rfl
theorem frameTableEcc (frame : Nat) : Statement (.frameTableEcc frame) := of_none rfl
theorem loadDataReturn (hartloc : Nat) : Statement (.loadDataReturn hartloc) := of_none rfl
theorem storePerformed (hartloc : Nat) : Statement (.storePerformed hartloc) := of_none rfl
theorem postedSvOperation (k : Nat) : Statement (.postedSvOperation k) := of_none rfl
theorem outOfService (f : FnBit) : Statement (.outOfService f) := of_none rfl
theorem ringsRestored (port : Fin 2) : Statement (.ringsRestored port) := of_none rfl
theorem kexit : Statement (.kexit) := of_word 0x5B rfl (crWord_major _ _ _ _ _ _ (by decide)) (by decide)
theorem gsplit : Statement (.gsplit) := of_word 0x7B rfl (crWord_major _ _ _ _ _ _ (by decide)) (by decide)
theorem wfi : Statement (.wfi) := of_word 0x73 rfl (by decide) (by decide)
theorem slotRotation : Statement (.slotRotation) := of_none rfl
theorem qpushWTimeout : Statement (.qpushWTimeout) := of_none rfl
theorem takeInterrupt : Statement (.takeInterrupt) := of_none rfl
theorem coldReset : Statement (.coldReset) := of_none rfl
theorem warmReset : Statement (.warmReset) := of_none rfl
theorem settleTimeout : Statement (.settleTimeout) := of_none rfl
theorem larchRestart : Statement (.larchRestart) := of_none rfl
theorem yewRestart : Statement (.yewRestart) := of_none rfl
theorem saveAreaEcc : Statement (.saveAreaEcc) := of_none rfl
theorem unansweredRead : Statement (.unansweredRead) := of_none rfl

end Sys2Proof.Laws.Encoding
end

