-- ==== Sys2Proof/Tests/Slice0.lean ====
section
/-! SUPPORT. Tests: ill-formed terms that WellFormed refuses, words written out from the encodings, single steps with results from the
spec's rules, and for every statement with premises a state and operands that meet them (`witness_<Name>`). -/

namespace Sys2Proof.Tests

open Sys2Proof Sys2Proof.Machine

/-! Small states -/

/-- The computation has a value, and the value satisfies `q`: how the witnesses bind what a statement's premises name. -/
def ifOk {ε α : Type} (r : Except ε α) (q : α → Bool) : Bool := match r with | .ok a => q a | .error _ => false
def ifSome {α : Type} (o : Option α) (q : α → Bool) : Bool := match o with | some a => q a | none => false
/-- The outcome is a next state that satisfies `q`. -/
def ifNext (o : Host.Outcome State Fault Refusal) (q : State → Bool) : Bool := match o with | .next t => q t | _ => false

theorem ifOk_iff {ε α : Type} (r : Except ε α) (q : α → Bool) : ifOk r q = true ↔ ∃ a, r = .ok a ∧ q a = true := by
  cases r <;> simp [ifOk]
theorem ifSome_iff {α : Type} (o : Option α) (q : α → Bool) : ifSome o q = true ↔ ∃ a, o = some a ∧ q a = true := by
  cases o <;> simp [ifSome]
theorem ifNext_iff (o : Host.Outcome State Fault Refusal) (q : State → Bool) : ifNext o q = true ↔ ∃ t, o = .next t ∧ q t = true := by
  cases o <;> simp [ifNext]

/-- A U-mode hart of context 0 on tile 0, its word placed, every self-test and every scrub ended and no event due. -/
def labWord (w : Nat) : State :=
  { placeWord State.reset 32 w with
    settled := true, ready := [(0, 1), (32, 1), (34, 0xFFFFFFFF), (35, 0xFFFFFFFF), (36, 0xFFFFFFFF)], pending := [], schedule := [], scrubs := Vector.replicate 8 { boot := false, world := none, act := false, ptr := 0, last := 0 } }
def lab : State := labWord 0x13
/-- The same in another mode. -/
def inMode (s : State) (md : Mode) : State := modH s fun h => { h with mode := md }
/-- An OWNED entry of generation 1. -/
def buf (l : Level) (base len : Nat) : Cap := { Cap.free with state := .owned, level := l, gen := 1, base := base, length := len }
/-- An entry, whatever holds it. -/
def entry (s : State) (i : Nat) (c : Cap) : State := { s with caps := tput s.caps i c }
/-- A holding of generation 1 for the executing hart. -/
def held (s : State) (i : Nat) (k : HKind) (units : Nat) : State :=
  modH s fun h => { h with holdings := h.holdings ++ [{ device := 0, index := i, gen := 1, kind := k, units := units, void := false, susp := 0 }] }
/-- An entry that the hart holds WHOLE. -/
def own (s : State) (i : Nat) (c : Cap) : State := held (entry s i c) i .whole 0
/-- The WHOLE handle of entry `i`, and another kind's. -/
def whole (i : Nat) : Word := handle 0 i 1 .whole 0
def units (i : Nat) (k : HKind) (n : Nat) : Word := handle 0 i 1 k n
/-- A hart with a 4 KiB TILE buffer, entry 2, at the second page of its tile, and its handle in x10. -/
def tileLab : State := wx (own lab 2 (buf .tile 0x010000001000 4096)) 10 (whole 2)
/-- The last doubleword of that buffer's page in x11. -/
def atEdge : State := wx tileLab 11 0x010000001FF8#64

/-- The state after an instruction or an event that does not stall. -/
def after (i : Instr) (s : State) : State := match exec i s with | .next t => t | _ => s

/-- A DEVICE buffer, entry 2, in frame 5, held whole by hart 0. -/
def deviceLab : State :=
  let s := own lab 2 (buf .device 0x5000 4096)
  { s with frames := tput s.frames 5 { Frame.none with ftype := .data, tensor := 2 } }
/-- The same in a pass at a line. -/
def passLab (ptr : Nat) : State := updCap deviceLab 2 fun c => { c with pass := some (Pass.mk 1 ptr false 0 [] false) }
/-- The same with a dirty line in its home slice, without a pass and in one. -/
def dirtyLab : State := (writeHome deviceLab 0 [(0x5000, 7)]).1
def heldLab : State := updCap dirtyLab 2 fun c => { c with pass := some (Pass.mk 1 0 false 0 [] false) }

/-! Well-formedness -/

/-- An ill-formed term for each check. -/
theorem wf_refuses :
    (Instr.balloc 0 1 2).wf = false ∧ (Instr.bsplit 0 1 2).wf = false ∧ (Instr.bjoin 0 1 2).wf = false ∧ (Instr.bmove 0 1 2).wf = false ∧
    (Instr.bopen 0 1 2).wf = false ∧ (Instr.brecv 0).wf = false ∧ (Instr.brecvNb 0).wf = false ∧ (Instr.brevoke 0 1).wf = false ∧
    (Instr.qpop 0 1).wf = false ∧ (Instr.qpopNb 0 1).wf = false ∧
    (Instr.vdotbFp4 0 1 2 0).wf = false ∧ (Instr.vdotbE4m3 0 2 3 0).wf = false ∧ (Instr.vdotbE5m2 0 31 30 0).wf = false ∧
    (Instr.vdotbInt8 0 1 1 0).wf = false ∧ (Instr.vplnPack 1 2 1).wf = false ∧ (Instr.vplnGet 1 2 9).wf = false ∧
    (Instr.fence 0x13).wf = false ∧ (Instr.fenceI 0x0F).wf = false ∧ (Instr.sfenceVma 0x73).wf = false ∧
    (Instr.csrWrite 0x180 { op := .rw, src := .reg 1, rd := 0 }).wf = false := by decide

/-- Vector memory: a masked whole-register form, three registers, a mask form of two fields, a fault-only-first store. -/
theorem wf_refuses_vectorMemory :
    (Instr.vectorLoad { mop := .whole, vm := false, nf := 0, ew := 0, rs1 := 1, vd := 0 }).wf = false ∧
    (Instr.vectorLoad { mop := .whole, vm := true, nf := 2, ew := 0, rs1 := 1, vd := 0 }).wf = false ∧
    (Instr.vectorLoad { mop := .mask, vm := true, nf := 1, ew := 0, rs1 := 1, vd := 0 }).wf = false ∧
    (Instr.vectorStore { mop := .ff, vm := true, nf := 0, ew := 0, rs1 := 1, vd := 0 }).wf = false := by decide

/-! Witnesses: steps, words and exceptions -/

theorem witness_StepRunsDecodedInstruction :
    (∃ u t, toHart { passTime { labWord 0x0F with schedule := [.hart 0] } with schedule := [] } 0 = some u ∧ takeIntr u = none ∧
      fetchWord u = .ok (0x0F#32, t) ∧ (gangLocs (setIr t 0x0F#32)).length ≤ 1 ∧ decode32 0x0F#32 = .instr (.fence 0x0F)) ∧
    (∃ u t, toRunning (passTime lab) = some u ∧ takeIntr u = none ∧ fetchWord u = .ok (0x13#32, t) ∧
      (gangLocs (setIr t 0x13#32)).length ≤ 1 ∧ decode32 0x13#32 = .base (.aluImm .add false 0 0 0)) ∧
    (∃ u t, toRunning (passTime (labWord 0)) = some u ∧ takeIntr u = none ∧ fetchWord u = .ok (0#32, t) ∧
      (gangLocs (setIr t 0#32)).length ≤ 1 ∧ decode32 0#32 = .reserved) :=
  ⟨⟨_, _, rfl, rfl, rfl, by decide, rfl⟩, ⟨_, _, rfl, rfl, rfl, by decide, rfl⟩, ⟨_, _, rfl, rfl, rfl, by decide, rfl⟩⟩

theorem witness_DecodeEncode : (Instr.bsend 10 11 12 13).wf = true ∧ encode (.bsend 10 11 12 13) = some 0x68C5950B#32 ∧
    decode32 0x68C5950B#32 = .instr (.bsend 10 11 12 13) := by decide

theorem witness_StepKeepsCanonicalForms : ∃ t, Memory.wf lab.mem = true ∧ risesFrom 0 lab.tiles = true ∧ risesFrom 0 lab.clusters = true ∧
    step lab = .next t := ⟨_, by decide, by decide, by decide, rfl⟩

theorem witness_ExceptionEntry : lab.h.mode ≠ .m ∧ bitAt (modC lab fun c => { c with medeleg := 0x8000000000000000 }).h.csr.medeleg 63 = true ∧
    bitAt lab.h.csr.medeleg 0 = false ∧ (inMode lab .m).h.mode = .m := by decide

/-- A target on a word and one off it, branches that are taken and that are not, and a hart with FS on, with FS off and with a reserved `frm`. -/
theorem witness_ScalarBaseResults :
    let s := wx (wx lab 10 (BitVec.allOnes 64)) 11 1
    (s.h.pc + (8#21).signExtend 64).toNat % 4 = 0 ∧ (s.h.pc + (2#21).signExtend 64).toNat % 4 ≠ 0 ∧
    ((rx s 0 + (4#12).signExtend 64) &&& 0xFFFFFFFFFFFFFFFE#64).toNat % 4 = 0 ∧ ((rx s 0 + (2#12).signExtend 64) &&& 0xFFFFFFFFFFFFFFFE#64).toNat % 4 ≠ 0 ∧
    rx s 10 = rx s 10 ∧ rx s 10 ≠ rx s 11 ∧ (rx s 10).toInt < (rx s 11).toInt ∧ (rx s 11).toNat ≤ (rx s 10).toNat ∧
    fld s.h.csr.mstatus 13 2 ≠ 0 ∧ fld (modC s fun c => { c with mstatus := 0 }).h.csr.mstatus 13 2 = 0 ∧ s.h.csr.frm.toNat = 0 ∧
    (modC s fun c => { c with frm := 5 }).h.csr.frm.toNat = 5 ∧ (rf s 1).toNat / 2 ^ 32 ≠ 2 ^ 32 - 1 := by decide

theorem witness_EnvironmentCallsAndReturns :
    (inMode lab .m).h.mode = .m ∧ (inMode lab .s).h.mode = .s ∧ bitAt (inMode lab .s).h.csr.mstatus 22 = false ∧
    bitAt lab.h.csr.mstatus 21 = false ∧ wakes lab lab.h = false ∧
    (let s := modC lab fun c => { c with mie := 0x10000, mip := 0x10000 }; wakes s s.h = true) := by decide

theorem witness_ScalarMemory :
    (∃ bytes t, loadScalar atEdge (rx atEdge 11 + (0#12).signExtend 64).toNat 8 = .ok (bytes, t)) ∧
    (∃ t, storeBytes atEdge (rx atEdge 11).toNat (leBytes 8 5) (rx atEdge 11) = .ok t) ∧
    (rx atEdge 11).toNat % AmoW.bytes .d = 0 ∧ inHole (rx atEdge 11).toNat = false ∧ needWhole atEdge (rx atEdge 11).toNat = .ok () ∧
    (modH atEdge fun h => { h with resv := some 0x010000001FF8 }).h.resv = some (capAddr atEdge (rx atEdge 11).toNat / 8 * 8) ∧
    atEdge.h.resv ≠ some (capAddr atEdge (rx atEdge 11).toNat / 8 * 8) ∧
    (∃ pas t bytes u, translateRange atEdge .store (rx atEdge 11).toNat 8 = .ok (pas, t) ∧ readPas t (myTile t) (myPid t) pas = some bytes ∧
      storeBytes (noteRead t (myPid t) (pas.filter fun p => (tget (tileOf t (myTile t)).l1d p).isNone)) (rx atEdge 11).toNat (leBytes 8 5)
        (rx atEdge 11) = .ok u) :=
  ⟨⟨_, _, rfl⟩, ⟨_, rfl⟩, by decide, by decide, rfl, by decide, by decide, ⟨_, _, _, _, rfl, rfl, rfl⟩⟩

theorem witness_SramAccesses :
    inTileAperture (rx atEdge 11).toNat = true ∧ (rx atEdge 11).toNat % 4096 + loadWidth .ld = 4096 ∧
    checkRights atEdge (rx atEdge 11).toNat 8 false (rx atEdge 11) = .ok () ∧
    (∀ k < loadWidth .ld, tget (tileOf atEdge (myTile atEdge)).l1d ((rx atEdge 11).toNat + k) = none) ∧
    fld atEdge.h.csr.mstatus 13 2 ≠ 0 ∧ Memory.wf atEdge.mem = true ∧ storeWidth .sd = 8 ∧
    checkRights atEdge (rx atEdge 11).toNat 8 true (rx atEdge 11) = .ok () ∧
    (List.replicate 254 ((0, 0) : Nat × Nat)).length < 255 ∧
    (let s := own lab 2 (buf .cluster 0x011000000000 4096)
     inClusterAperture 0x011000000000 = true ∧ checkRights s 0x011000000000 1 true 0 = .ok () ∧ storeWidth .sb = 1) :=
  ⟨by decide, by decide, rfl, by decide, by decide, by decide, rfl, rfl, by decide +kernel, by decide, rfl, rfl⟩

theorem witness_StoreFrame : ∃ pas u t, Memory.wf atEdge.mem = true ∧ risesFrom 0 atEdge.tiles = true ∧
    translateRange atEdge .store 0x010000001FF8 8 = .ok (pas, u) ∧ storeBytes atEdge 0x010000001FF8 (leBytes 8 5) 0 = .ok t ∧
    0x010000001FF7 ∉ pas ∧ (∀ p ∈ pas, isRemotePa p = false ∧ isPoolPa p = false) ∧
    (uniq ((tileOf atEdge (myTile atEdge)).l1d.map fun c => lineOf c.1)).length + (uniq (pas.map lineOf)).length ≤ 512 :=
  ⟨_, _, _, by decide, by decide, rfl, rfl, by decide, by decide, by decide⟩

/-! Witnesses: registers, range operations, waits and pages -/

theorem witness_CsrReadsAndWrites :
    let s := inMode lab .m
    (∃ old t, csrRead s 0x800 = some old ∧ csrWrites { op := .rw, src := .reg 11, rd := 10 } = true ∧ csrPut s 0x800 7 = .ok t) ∧
    (∃ old, csrRead s 0xC00 = some old ∧ csrWrites { op := .rs, src := .reg 0, rd := 10 } = false) ∧
    csrRead lab 0x300 = none ∧ lab.h.mode ≠ .m ∧ s.h.mode = .m ∧ (s.scrubs.get 7).ptr < 2 ^ 24 ∧ (s.scrubs.get 7).last < 2 ^ 24 ∧
    fld (0x9400000000000000#64 : Word) 58 6 = 37 ∧ fld (0x9800000000000000#64 : Word) 58 6 = 38 :=
  ⟨⟨_, _, rfl, by decide, rfl⟩, ⟨_, rfl, by decide⟩, by decide, by decide, by decide, by decide, by decide, by decide, by decide⟩

theorem witness_OwnRowRegisters :
    let s := inMode lab .m
    let c : CsrArg := { op := .rw, src := .reg 11, rd := 10 }
    csrWrites c = true ∧
    (∃ old, csrRead s 0x180 = some old ∧ fld (csrValue c.op old (csrSrc s c)) 60 4 ≠ 10) ∧
    (let s := wx s 11 0xA000000000000000#64; ∃ old, csrRead s 0x180 = some old ∧ fld (csrValue c.op old (csrSrc s c)) 60 4 = 10) ∧
    (∃ old, csrRead s 0x5C1 = some old) ∧ (∃ old, csrRead s 0x807 = some old) ∧
    (∃ old u, csrRead s 0x5C0 = some old ∧ emptyPartition s (myPid s) s.h.ctx = (u, true) ∧ markedTensors u (myPid s) s.h.ctx = []) ∧
    (let s := wx s 11 1; ∃ old, csrRead s 0x808 = some old ∧ csrValue c.op old (csrSrc s c) ≠ 0) ∧
    (∃ old, csrRead s 0x808 = some old ∧ csrValue c.op old (csrSrc s c) = 0) :=
  ⟨by decide, ⟨_, rfl, by decide⟩, ⟨_, rfl, by decide⟩, ⟨_, rfl⟩, ⟨_, rfl⟩, ⟨_, _, rfl, rfl, rfl⟩, ⟨_, rfl, by decide⟩, ⟨_, rfl, by decide⟩⟩
theorem witness_OwnRowRegisters_waits : (emptyPartition heldLab (myPid heldLab) heldLab.h.ctx).2 = false := by decide +kernel

theorem witness_RangeOperations :
    let s := wx (wx tileLab 11 0x010000001EFF#64) 12 130
    let len := fld (rx s 12) 0 63
    let base := (rx s 11).toNat
    let first := base / 128 * 128
    let lines := ((base + len - 1) / 128 * 128 - first) / 128 + 1
    let full (n : Nat) (t : State) : State := modH t fun h => { h with stOut := List.replicate n { va := 0, lines := [], hosts := [], drop := false } }
    let dirty (t : State) : State := updTile t 0 fun t => { t with l1d := [(0x010000001F00, 7)] }
    len ≠ 0 ∧ lines = 3 ∧ fld (rx s 0) 0 63 = 0 ∧
    (ifOk (cmoLines (cmoStores .inv 0) base lines first s) fun (pas, t) => (cmoAct .inv 0 false first (uniq (pas.map lineOf)) t).2) = true ∧
    (ifOk (cmoLines (cmoStores .clean 3) base lines first s) fun (pas, t) => (cmoAct .clean 3 false first (uniq (pas.map lineOf)) t).2) = true ∧
    (ifOk (cmoLines (cmoStores .clean 0) base lines first (dirty s)) fun (pas, t) => (cmoAct .clean 0 false first (uniq (pas.map lineOf)) (full 254 t)).2 &&
      !(cmoAct .clean 0 false first (uniq (pas.map lineOf)) (full 255 t)).2) = true ∧
    risesFrom 0 s.tiles = true ∧ (cmoHart .inv false first [first] s).2 = true := by decide +kernel

theorem witness_WaitsAndCounters :
    let n : WaitArg := { ld := 0, st := 0, cp := 63, mx := 7, dp := 7, sd := 7 }
    let s := modH lab fun h => { h with ldOut := 1 }
    (lab.h.ldOut ≤ n.ld.val ∧ lab.h.stOut.length ≤ n.st.val) ∧ ¬(n.ld = 7 ∨ s.h.ldOut ≤ n.ld.val) := by decide

/-- Stores that are counted: one with no line to perform, and one with a line of HOST memory, in no cache. -/
theorem witness_WaitsAndCounters_stores :
    let e (l : List Nat) : OutStore := { va := 0, lines := l, hosts := [], drop := false }
    let s (l : List Nat) : State := modH lab fun h => { h with stOut := [e l] }
    ((s []).h.stOut.head? = some (e []) ∧ (findHart (s []) 0).isSome = true) ∧
    (doAll (performLine false) [0x0010000000000000] (s [0x0010000000000000])).2 = true ∧ (doAll (performLine false) [0x5000] heldLab).2 = false ∧ lab.h.stOut = [] := by decide +kernel

/-- A page table of five levels in TABLE frames 0 to 4 that maps page 0 to frame 5, in context 0. -/
def pagedLab : State :=
  let f (t : FType) : Frame := { Frame.none with ftype := t }
  let pte (v : Word) : List Byte := leBytes 8 v.toNat
  { inMode lab .m with
    frames := [(0, f .table), (1, f .table), (2, f .table), (3, f .table), (4, f .table), (5, f .data), (6, f .free)]
    mem := Memory.putN (Memory.putN (Memory.putN (Memory.putN (Memory.putN lab.mem 0 (pte 0x401#64)) 0x1000 (pte 0x801#64))
      0x2000 (pte 0xC01#64)) 0x3000 (pte 0x1001#64)) 0x4000 (pte 0x14D7#64) }

theorem witness_Pages :
    let s := inMode lab .s
    let busy := modH s fun h => { h with ldOut := 1 }
    let arg : InvArg := { allAsids := false, allPages := false, asid := 0, page := 0 }
    let found (s : State) := s.migrations.find? fun m => m.ctx == 0 && m.va == 0 && m.new == 0x6000
    lab.h.mode = .u ∧ s.h.mode ≠ .u ∧ fld (rx s 0) 16 46 = 0 ∧ fld (rx (wx s 11 0x10000) 11) 16 46 ≠ 0 ∧ mmaPins s s.h.ctx arg = false ∧
    (∀ h ∈ harts s, h.ctx = s.h.ctx → h.ldOut = 0 ∧ h.stOut = []) ∧ (∃ h ∈ harts busy, h.ctx = busy.h.ctx ∧ (h.ldOut ≠ 0 ∨ h.stOut ≠ [])) ∧
    (let m := wx (inMode lab .m) 11 0x7FFFFFFFFFFFF000#64
     m.h.mode = .m ∧ bitAt (rx m 11) 63 = false ∧ fld (rx m 11) 0 12 = 0 ∧ 2 ^ 24 < fld (rx m 11) 12 24 + (fld (rx m 11) 36 24 + 1)) ∧
    (let m := wx (inMode lab .m) 11 0x7000000FFFFFF000#64
     m.h.mode = .m ∧ bitAt (rx m 11) 63 = false ∧ fld (rx m 11) 0 12 = 0 ∧ fld (rx m 11) 12 24 + (fld (rx m 11) 36 24 + 1) = 2 ^ 24 ∧
     (m.scrubs.get 7).act = false ∧ ({ m with scrubs := State.reset.scrubs }.scrubs.get 7).act = true) ∧
    (let s := State.reset
     Memory.wf s.mem = true ∧ (s.scrubs.get 0).act = true ∧ (s.scrubs.get 0).ptr < (s.scrubs.get 0).last ∧ s.stacksHeld.getLsbD 0 = false) ∧
    (let s := { lab with scrubs := lab.scrubs.set 7 { boot := false, world := none, act := true, ptr := 5, last := 5 } }
     (s.scrubs.get 7).act = true ∧ (s.scrubs.get 7).last ≤ (s.scrubs.get 7).ptr ∧ s.stacksHeld.getLsbD 7 = false) ∧
    ((frameOf pagedLab 0x4000).ftype = .table ∧ (frameOf pagedLab 0x4000).retired = false ∧ (frameOf pagedLab 0x5000).ftype ≠ .table) ∧
    (let s := entry { lab with frames := [(7, { Frame.none with tensor := 2 })] } 2 (buf .device 0 4096)
     (tgetD s.frames 7 Frame.none).tensor = 2 ∧ (capAt s 2).map (·.state) = some .owned) ∧
    pagedLab.larch = true ∧
    (ifSome (ctxOf pagedLab 0) fun c => ifOk (walk pagedLab (fun _ => true) 0 (ctxSatp c) 0) fun e =>
      leafAddr pagedLab (0 % 2 ^ 57) 4 (fld (ctxSatp c) 0 44 * 4096) == some 0x4000 && (found pagedLab).isNone && isDevicePa (e.ppn * 4096) &&
      0x6000 % (e.pages * 4096) == 0 && framesFree pagedLab 0x6000 e.pages) = true ∧
    (let s := after (.pageMigrate 0 0 0x6000) pagedLab
     (ifSome (ctxOf s 0) fun c => ifOk (walk s (fun _ => true) 0 (ctxSatp c) 0) fun e =>
      let old := e.ppn * 4096
      let cleaned := doAll (fun s k => cleanFrame s (old + 4096 * k) (0x6000 + 4096 * k)) (rangeFrom 0 e.pages) s
      leafAddr s (0 % 2 ^ 57) 4 (fld (ctxSatp c) 0 44 * 4096) == some 0x4000 && (found s).isSome && framesFree s 0x6000 e.pages &&
      !invBusy s 0 { allAsids := true, allPages := false, asid := 0, page := 0 } && cleaned.2 &&
      (doAll (fun s k => moveFrame s (old + 4096 * k) (0x6000 + 4096 * k)) (rangeFrom 0 e.pages) cleaned.1).2) = true) ∧
    (∀ l ∈ linesOf 0x5000 4096, findMarker pagedLab l (frameOf pagedLab 0x5000).tensor = none ∧ (findTag pagedLab l 0).isNone = true) := by decide +kernel

/-! Witnesses: buffers -/

/-- Two units of entry 3, SHARED with two outstanding, beside its pending WHOLE holding; their handles in x11 and x12. -/
def sharedLab : State :=
  wx (wx (held (own tileLab 3 { buf .tile 0x010000003000 256 with state := .shared, total := 2, outst := 2 }) 3 .share 2)
    11 (whole 3)) 12 (units 3 .share 2)
/-- A window on entry 3 with two units, drained; its handle in x11. -/
def drainedLab : State :=
  wx (own tileLab 3 { buf .tile 0x010000003000 256 with seq := 7, okind := .slice, owner := 5, drain := some (Drain.mk [] []) }) 11 (whole 3)

theorem witness_HandleCheck :
    let s := tileLab
    let st (c : CapState) : State := entry s 2 { buf .tile 0x010000001000 4096 with state := c }
    matching s.h.holdings (whole 4095) = none ∧
    (∃ g, matching s.h.holdings (whole 2) = some g ∧ g.kind = .whole ∧ g.susp = 0 ∧ hIndex (whole 2) ≠ 0 ∧ capWaits s 2 = false) ∧
    (∃ c, capAt s 2 = some c ∧ c.gen = hGen (whole 2) ∧ c.state = .owned) ∧
    (∀ k ∈ [CapState.free, .quarantined, .lent, .shared, .collecting, .moving], (capAt (st k) 2).map (·.state) = some k) ∧
    matching (held (entry s 3 { buf .tile 0x010000003000 256 with gen := 2 }) 3 .whole 0).h.holdings (whole 3) ≠ none := by decide +kernel

/-- A request on each path of BALLOC: its length in x11 and its attributes in x12. -/
theorem witness_Allocation :
    let fits (s : State) (len : Nat) (a : Word) (l : Level) : Bool :=
      layoutOk (fld a 8 4) len (fld a 24 24) && compOk s s.h.csr.compAlloc (myWorld s) (fld a 12 4) l
    let b (l : Level) (len : Nat) : NewBuf :=
      { level := l, layout := 0, comp := 0, lparam := 0, zero := false, length := len, ctx := 0 }
    let g : Holding := { device := 0, index := 9, gen := 1, kind := .share, units := 1, void := false, susp := 0 }
    let crowd := modH lab fun h => { h with holdings := List.replicate 4096 g }
    let taken := { lab with caps := [(4, buf .cluster 0x011000000000 (2 ^ 24))] }
    ((0x1000000000000#64 : Word) &&& 0xFFFF000000FE00F0#64 ≠ 0 ∧ allocLevel 15 = none ∧ allocLevel 0 = some .tile ∧
      Level.tile.largest < (Level.tile.largest + 1 + 255) / 256 * 256) ∧
    fits lab 256 0xF000 .tile = false ∧ fits lab 256 0 .tile = true ∧ freeIndex lab = some 2 ∧
    4096 ≤ crowd.h.holdings.length ∧ lab.h.holdings.length < 4096 ∧
    (storage lab (myTile lab) lab.h.run (b .tile 256)).isSome = true ∧ storage taken (myTile taken) taken.h.run (b .cluster 256) = none ∧
    capWaits lab 2 = false ∧ capWaits { lab with settled := false, ready := [] } 2 = true := by decide +kernel

/-- Every entry below the notice reserve taken. -/
theorem witness_Allocation_full :
    let s := { lab with caps := (rangeFrom 1 (noticeBase - 1)).map fun i => (i, buf .tile 0 256) }
    (layoutOk 0 256 0 && compOk s s.h.csr.compAlloc (myWorld s) 0 .tile) = true ∧ freeIndex s = none := by
  have full (lim n : Nat) : ∀ k, freeFrom lim ((rangeFrom k n).map fun i => (i, buf .tile 0 256)) k = if k + n ≤ lim then some (k + n) else none := by
    induction n with
    | zero => intro k; simp [rangeFrom, freeFrom]
    | succ n ih =>
      intro k
      rw [rangeFrom, List.map_cons, freeFrom, if_neg (Nat.lt_irrefl k), if_neg (Nat.lt_irrefl k), if_neg (by decide), ih, Nat.add_right_comm, Nat.add_assoc]
  refine ⟨by decide +kernel, ?_⟩
  show freeFrom _ _ 1 = none
  rw [full, if_neg (by decide)]

theorem witness_GivingUp :
    (∃ c, hKind (rx tileLab 10) = some .whole ∧ needOwned tileLab (rx tileLab 10) = .ok c) ∧
    (∃ g c, hKind (rx sharedLab 12) = some .share ∧ checkIn sharedLab sharedLab.h.holdings (rx sharedLab 12) = .ok (g, c) ∧
      c.state = .shared ∧ c.orph = false ∧ c.level ≠ .remote ∧ g.index = 3 ∧ hUnits (rx sharedLab 12) + myPins sharedLab 3 = g.units) ∧
    (let s := wx (held (entry lab noticeBase (buf .tile 0 0)) noticeBase .notice 0) 10 (units noticeBase .notice 0)
     ∃ g c, hKind (rx s 10) = some .notice ∧ checkIn s s.h.holdings (rx s 10) = .ok (g, c) ∧ g.index = hIndex (rx s 10)) ∧
    matching lab.h.holdings (rx lab 10) = none :=
  ⟨⟨_, by decide, rfl⟩, ⟨_, _, by decide, rfl, rfl, rfl, by decide, rfl, rfl⟩, ⟨_, _, by decide, rfl, rfl⟩, by decide⟩

theorem witness_Inspection :
    (∃ g c, checkHandle tileLab (rx tileLab 10) true = .ok (g, c) ∧ g.kind ≠ .notice) ∧
    (∃ g c, matching (tileLab.h.holdings ++ kernelHoldings tileLab tileLab.h.loc) (rx tileLab 10) = some g ∧ capAt tileLab g.index = some c) ∧
    matching (lab.h.holdings ++ kernelHoldings lab lab.h.loc) 0 = none :=
  ⟨⟨_, _, rfl, by decide⟩, ⟨_, _, rfl, rfl⟩, by decide⟩

theorem witness_Allocation_layout : ∃ c, needOwned tileLab (rx tileLab 10) = .ok c ∧ rx tileLab 0 &&& 0xFFFF000000FFFFF0#64 = 0 ∧
    layoutOk (fld (rx tileLab 0) 0 4) c.length (fld (rx tileLab 0) 24 24) = true := ⟨_, rfl, by decide, rfl⟩

theorem witness_SplittingAndJoining :
    (let s := wx tileLab 11 4095
     ∃ c d u, needOwned s (rx s 10) = .ok c ∧ rx s 11 ≠ 0 ∧ (rx s 11).toNat ≤ 4095 ∧ s.h.holdings.length < 4096 ∧
       release s (hIndex (rx s 10)) = .ok u ∧ needOwned u (rx s 10) = .ok d ∧ u.h.holdings.length < 4096) ∧
    (let s := sharedLab
     ∃ g k c d, checkIn s s.h.holdings (rx s 11) = .ok (g, c) ∧ g.kind = .whole ∧ c.state = .shared ∧
       checkIn s s.h.holdings (rx s 12) = .ok (k, d) ∧ k.kind = .share ∧ k.index = hIndex (rx s 11) ∧ k.gen = hGen (rx s 11) ∧
       hUnits (rx s 12) + myPins s 3 ≤ k.units ∧ c.outst - 0 ≠ 0 ∧ c.outst - hUnits (rx s 12) = 0) :=
  ⟨⟨_, _, _, rfl, by decide, by decide, by decide, rfl, rfl, by decide⟩,
    ⟨_, _, _, _, rfl, rfl, rfl, rfl, rfl, by decide, by decide, by decide, by decide, by decide⟩⟩

theorem witness_MovingAndWindows :
    let b : NewBuf := { level := .cluster, layout := 0, comp := 0, lparam := 0, zero := false, length := 4096, ctx := 0 }
    let g : Holding := { device := 0, index := 9, gen := 1, kind := .share, units := 1, void := false, susp := 0 }
    let lone (i : Nat) (st : CapState) (outst : Nat) (d : Option Drain) : State :=
      wx (own lab 3 { buf .tile 0x010000003000 256 with state := st, okind := .slice, owner := 5, outst := outst, drain := d }) 11 (whole i)
    let closing (st : CapState) (outst : Nat) (d : Option Drain) : Bool :=
      let s := lone 3 st outst d
      ifSome (matching s.h.holdings (rx s 11)) fun g => ifSome (capAt s 3) fun c => !c.drained && ifOk (checkHandle s (rx s 11) false) fun p => p == (g, c)
    (let s := wx tileLab 11 1
     ifOk (needOwned s (rx s 10)) fun c => c.length ≤ Level.cluster.largest && c.level == .tile && ifSome (storage s (myTile s) s.h.run b) fun base =>
       ifOk (release s 2) fun u => ifSome (bufBytes u 2 c (myPid s)) fun bytes =>
         (relocate (noteBuf u 2 c (myPid s)) 2 base .cluster s.h.ctx bytes).2) = true ∧
    (let s := entry tileLab 4 (buf .cluster 0x011000000000 (2 ^ 24))
     storage s (myTile s) s.h.run b = none) ∧
    (let s := own lab 2 (buf .device 0x100000 (2 ^ 40))
     ifOk (needOwned s (whole 2)) fun c => Level.tile.largest < c.length && Level.device.largest ≤ c.length && c.level == .device) = true ∧
    (let s := wx tileLab 11 4095
     ifOk (needOwned s (rx s 10)) fun c => (rx s 11).toNat == 4095 && s.h.holdings.length < 4096 && ifSome (windowHome s 2 c) fun _ =>
       ifOk (release s 2) fun u => ifSome (capAt u 2) fun _ => true) = true ∧
    (let s := modH tileLab fun h => { h with holdings := h.holdings ++ List.replicate 4095 g }
     ifOk (needOwned s (rx s 10)) fun c => 4096 ≤ s.h.holdings.length && (windowHome s 2 c).isSome) = true ∧
    (let s := own lab 2 (buf .host (2 ^ 52) 4096)
     ifOk (needOwned s (whole 2)) fun c => (windowHome s 2 c).isNone) = true ∧
    (∀ s ∈ [drainedLab, updCap drainedLab 3 fun c => { c with state := .quarantined }],
     (ifSome (matching s.h.holdings (rx s 11)) fun g => ifSome (capAt s 3) fun c => g.kind == .whole && g.gen == c.gen && c.drained) = true) ∧
    closing .collecting 0 none = true ∧ closing .collecting 1 none = true ∧ closing .collecting 0 (some (Drain.mk [.cluster 0] [])) = true ∧
    closing .owned 0 none = true := by
  decide +kernel

/-- The TILE buffer goes to the page that `pagedLab` maps, whose set in the line cache has no way in service; and a DEVICE buffer without
a page, which cannot be read. -/
theorem witness_MovingAndWindows_waits :
    let b : NewBuf := { level := .device, layout := 0, comp := 0, lparam := 0, zero := false, length := 256, ctx := 0 }
    (let s := own { pagedLab with ctxs := pagedLab.ctxs.map fun c => (c.1, { c.2 with pool := [(0, 4096)] }) } 2 (buf .tile 0x010000001000 256)
     let set := lineSet s (pidOf s 0x5000 0) 0x5000
     let s := updSlice s (homeSlice 0x5000) fun sl => { sl with retiredWays := rangeFrom (set * 16) 16 }
     ifOk (needOwned s (whole 2)) fun c => c.level == .tile && storage s (myTile s) s.h.run b == some 0 &&
       ifOk (release s 2) fun u => ifSome (bufBytes u 2 c (myPid s)) fun bytes =>
         !(relocate (noteBuf u 2 c (myPid s)) 2 0 .device s.h.ctx bytes).2) = true ∧
    (let s := own lab 2 (buf .device 0x5000 4096)
     ifOk (needOwned s (whole 2)) fun c => (storage s (myTile s) s.h.run { b with level := .tile }).isSome &&
       ifOk (release s 2) fun u => (bufBytes u 2 c (myPid s)).isNone) = true := by
  decide +kernel

/-- Buffers that have moved between stores of SRAM, one at the level asked for with a reservation in it, and one behind a link that is DOWN. -/
theorem witness_MovingAndWindows_more :
    (let s := modH tileLab fun h => { h with resv := some 0x010000001FF8 }
     let b : NewBuf := { level := .tile, layout := 0, comp := 0, lparam := 0, zero := false, length := 4096, ctx := 0 }
     (ifSome (capAt s 2) fun c => c.level == .tile && c.length ≤ Level.tile.largest && c.base ≤ 0x010000001FF8 && 0x010000001FF8 < c.base + c.length &&
       (bufBytes s 2 c 0).any (fun l => l.length == c.length) && c.length % 256 == 0 && Memory.wf s.mem) = true ∧
     (∀ a, 0x010000003000 ≤ a ∧ a < 0x010000003000 + 4096 → inTileAperture a = true ∨ inClusterAperture a = true) ∧
     (let p := own lab 2 (buf .pool (2 ^ 52 + 2 ^ 51) 4096)
      (ifOk (needOwned p (whole 2)) fun c => c.level == .pool && linkDead p c.base && (storage p (myTile p) p.h.run b).isSome) = true)) :=
  ⟨by decide +kernel, fun a h => .inl (by simp [inTileAperture]; omega), by decide +kernel⟩

theorem witness_Revocation :
    let s := inMode tileLab .s
    lab.h.mode = .u ∧ s.h.mode ≠ .u ∧ s.h.holdings.length < 4096 ∧ s.h.live = true ∧ hIndex (rx s 10) ≠ 0 ∧ hIndex (rx s 10) < noticeBase ∧
    (∃ c d, capAt s 2 = some c ∧ hDevice (rx s 10) = s.device ∧ c.state ≠ .free ∧ c.gen = hGen (rx s 10) ∧ c.ctx = s.h.ctx ∧
      c.indoubt = false ∧ capAt (dropSuspended s 2) 2 = some d ∧ d.state = .owned) :=
  ⟨by decide, by decide, by decide, by decide, by decide, by decide,
    ⟨_, _, rfl, by decide, by decide, by decide, rfl, rfl, rfl, rfl⟩⟩
/-- Private copies that are written back and that are not, and buffers that move, are lent, or are windows. -/
theorem witness_Revocation_waits :
    (cleanEverywhere (dropSuspended tileLab 2) 2).2 = true ∧ (capAt (cleanEverywhere (dropSuspended tileLab 2) 2).1 2).isSome = true ∧
    (let stuck := updSlice (updTile deviceLab 0 fun t => { t with l1d := [(0x5008, 7)] }) (homeSlice 0x5000) fun sl =>
       { sl with retiredWays := rangeFrom (lineSet deviceLab (pidOf deviceLab 0x5000 0) 0x5000 * 16) 16 }
     (cleanEverywhere stuck 2).2 = false) ∧
    (∀ st ∈ [CapState.moving, .arriving, .lent, .collecting], (capAt (dropSuspended (updCap tileLab 2 fun c => { c with state := st }) 2) 2).any (fun c =>
      c.state == st && !c.lendcb && c.drain == none) = true) := by decide +kernel

/-! Witnesses: sends -/

/-- A second hart, index 1 of the kernel, on tile 1. -/
def twoLab : State :=
  { tileLab with others := [{ tileLab.h with loc := 1, tile := some 1, lastTile := 1, holdings := [], x := Vector.replicate 32 0 }] }
/-- The same with a destination in x11: a hart by its number. -/
def sendLab (dest : Word) : State := wx twoLab 11 dest

/-- The same with the other hart's port full. -/
def fullLab : State :=
  let a : Arrival := { device := 0, index := 9, gen := 1, kind := .share, units := 1, void := false, scope := 2, tag := 0 }
  let full (h : Hart) : Hart := { h with ringCap := 0, port := List.replicate 16 a }
  { sendLab 1 with others := (sendLab 1).others.map full }

theorem witness_Sending :
    (let s := sendLab 1
     ownMove s s.h.loc == none && ifOk (sendable s (hartSender s (rx s 10)) (rx s 10)) fun (g, c) => ifOk (settleDeposits s g) fun s1 =>
       s1.h.sdOut < 255 && match sendChecked s1 (hartSender s1 (rx s 10)) g c (rx s 10) (rx s 11) 0 0 c.comp with
       | .gone _ _ => ifOk (release s1 g.index) fun s2 =>
         match sendChecked s2 (hartSender s2 (rx s 10)) g c (rx s 10) (rx s 11) 0 0 c.comp with | .gone _ _ => true | _ => false
       | _ => false) = true ∧
    (let s := sendLab 9
     ifOk (sendable s (hartSender s (rx s 10)) (rx s 10)) fun (g, c) => findHart s (fld (rx s 11) 0 32) == none &&
       findDest s c.world c.comp (rx s 11) == none &&
       match sendChecked s (hartSender s (rx s 10)) g c (rx s 10) (rx s 11) 0 0 c.comp with | .status _ => true | _ => false) = true ∧
    (let s := fullLab
     match findDest s 0 0 (rx s 11) with
     | some (.hart h) => copyStores (buf .tile 0x010000001000 4096) .whole 0 (.hart h) == none && !destRoom s .whole 2 1 (.hart h)
     | _ => false) = true := by decide +kernel

/-- Gate 1 from compartment 0 to 1 in world 0, to hart 1. -/
def gateLab : State := { wx twoLab 11 1 with gates := [(1, [word (2 ^ 18 + 63 * 2 ^ 12 + 1 * 8), word (2 ^ 40), 1])] }

/-- Each check of a gate, a destination without room, and a buffer that goes. -/
theorem witness_Gates :
    let s := gateLab
    let hv := rx s 10
    let other (a b c : Nat) : State := { s with gates := [(1, [word a, word b, word c])] }
    let goes (x : State) (c : Cap) (g : Holding) (d : List Word) : Bool := ifSome (findDest x c.world (fld (dw d 0) 3 3) (dw d 2)) fun dst =>
      (match dst with | .far _ _ => false | _ => true) && copyStores c .whole 0 dst == none && destRoom x .whole g.index g.gen dst &&
        destOwner dst == (.hart, 1)
    (ifOk (needOwned s hv) fun c => ownMove s s.h.loc == none && c.pass == none && s.h.sdOut < 255 &&
      ifOk (checkHandle s hv false) fun p => p.2 == c) = true ∧
    gateAt (wx s 11 1024) (rx (wx s 11 1024) 11) = none ∧
    (ifSome (gateAt (other (2 ^ 18 + 1) 0 1) 1) fun d => fld (dw d 0) 0 3 != 0) = true ∧
    (ifSome (capAt s 2) fun c =>
      (ifSome (gateAt (other (2 ^ 18 + 8) (2 ^ 40) 1) 1) fun d => fld (dw d 0) 0 3 == c.comp && fld (dw d 0) 6 6 == c.world &&
        !bitAt (dw d 0) (12 + c.level.code)) &&
      (ifSome (gateAt (other (2 ^ 18 + 63 * 2 ^ 12 + 8) 4095 1) 1) fun d => bitAt (dw d 0) (12 + c.level.code) && fld (dw d 1) 0 41 < c.length) &&
      (ifSome (gateAt (other (2 ^ 18 + 63 * 2 ^ 12 + 8) 4096 9) 1) fun d => c.length ≤ fld (dw d 1) 0 41 &&
        ifOk (checkHandle s hv false) fun (g, c) =>
          match sendChecked s (hartSender s hv) g c hv (dw d 2) (rx s 11) 0 1 with | .status _ => true | _ => false)) = true ∧
    (ifSome (gateAt s (rx s 11)) fun d => ifOk (checkHandle s hv false) fun (g, c) =>
      fld (dw d 0) 0 3 == c.comp && fld (dw d 0) 6 6 == c.world && bitAt (dw d 0) (12 + c.level.code) && c.length ≤ fld (dw d 1) 0 41 &&
      goes s c g d && ifOk (release s g.index) fun v =>
        goes (closePass (updCap v g.index fun k => { k with comp := fld (dw d 0) 3 3 }) g.index c.comp) c g d) = true := by
  decide +kernel

/-- An arrival of one unit of entry 9, SHARED. -/
def nineUnit : Arrival := { device := 0, index := 9, gen := 1, kind := .share, units := 1, void := false, scope := 2, tag := 5 }
def arrivalLab : State :=
  modH (entry lab 9 { buf .tile 0x010000009000 256 with state := .shared, total := 1, outst := 1 }) fun h => { h with port := [nineUnit] }
/-- After a plain send to hart 1, and after one that copies bytes. -/
def sentLab : State := after (.bsend 12 10 11 0) (sendLab 1)
def copiedLab : State := after (.bsendLocal 12 10 11 0) (sendLab 1)

theorem witness_Receiving :
    (ifSome (portTake arrivalLab.h) fun (a, _) => !discarded arrivalLab arrivalLab.h.holdings a && !holdingFull arrivalLab.h a.index a.kind) = true ∧
    (let g : Holding := { device := 0, index := 8, gen := 1, kind := .share, units := 1, void := false, susp := 0 }
     let s := modH arrivalLab fun h => { h with holdings := List.replicate 4096 g }
     ifSome (portTake s.h) fun (a, _) => !discarded s s.h.holdings a && holdingFull s.h a.index a.kind) = true ∧
    portTake lab.h = none ∧
    ((readySends sentLab)[0]?).isSome = true ∧
    (fld 0 52 4 = 0 ∧ lab.h.live = true ∧ lab.h.loc = fld 0 0 32 ∧ nineUnit.kind ≠ .deposit) ∧
    (∀ d ∈ [0, 9],
      let s := postNotice lab { dest := d, ntype := 1, detail := 0, scope := 0 }
      ifSome ((s.notices.filter (noticeReady s))[0]?) (fun n => (freeNotice s).isSome && agentNo n.dest == none && s.h.live &&
        (if d = 0 then n.dest == s.h.loc else (findHart s n.dest).isNone)) = true) ∧
    (ifSome (copyOf copiedLab 2) fun (n, d) => ifSome (capAt copiedLab 2) fun c => c.state != .free && d.arrival.index == 2 &&
      ifSome d.copy fun (base, l, x) => ifOk (reachBuf copiedLab c) fun v => v == copiedLab && senderPid v d.sender == 0 && ifSome (bufBytes copiedLab 2 c 0) fun bytes =>
        (relocate (noteBuf { copiedLab with sends := setAt copiedLab.sends n { d with ready := true } } 2 c 0) 2 base l x bytes).2) = true := by
  decide +kernel

/-! Witnesses: deposits -/

/-- A window of two units on a 4 KiB CLUSTER buffer, entry 2, and in x13 the address of its last doubleword. -/
def windowLab : State :=
  wx (after (.bopen 12 10 11) (wx (wx (own lab 2 (buf .cluster 0x011000000000 4096)) 10 (whole 2)) 11 2)) 13 0x011000000FF8#64
/-- After DSD to it, after the buffer's age limit, and after the packet. -/
def storedLab : State := after (.dsd 11 13 0) windowLab
def agedLab : State := { storedLab with cycle := storedLab.cycle + 100000 }
def packetLab : State := after (.ageLimitReached 0 0) agedLab
def answeredLab : State := after (.depositPacket 0) packetLab
/-- A rejection that waits for its hart. -/
def rejectedLab : State := { answeredLab with acks := [], rejections := answeredLab.acks.map fun r => { r with reason := 2 } }

/-- An element at the last doubleword of a window, whose returning form is answered, and one past its end. -/
theorem witness_Deposits :
    let s := windowLab
    let va := (rx s 13 + (0#12).signExtend 64).toNat
    (depositAt s va).isSome = true ∧ s.h.dpOut < 255 ∧ va % 8 = 0 ∧ (rx s 13 + (1#12).signExtend 64).toNat % 2 ≠ 0 ∧
    depositAt s (rx s 13 + (8#12).signExtend 64).toNat = none ∧ (rx s 13 + (8#12).signExtend 64).toNat % 8 = 0 ∧
    (ifSome (depositAt s va) fun (g, c) =>
      let home := lineHome s g.index c 0xFF8
      let placed := placeElem { s with h := { s.h with dpOut := s.h.dpOut + 1 } } (myCluster s) g.index g.gen s.device home
        { mult := 0, elems := 1, size := 3, returning := true, void := g.void, lost := false, op := 0, offset := 0xFF8, value := rx s 11, expect := 0,
          hart := s.h.loc, device := s.device, born := s.cycle }
      ifOk (awaitReply placed home) fun (u, r) => ifSome r fun a => a.reason == 0 && a.slot.hart == u.h.loc && u.h.live && a.slot.elems == 1) = true := by
  decide +kernel

/-- A packet that is performed, one that a slice without ways makes wait, an answer, a rejection and an aged buffer. -/
theorem witness_DepositPackets :
    (ifSome ((frontPackets packetLab)[0]?) fun p => ifOk (performSlots packetLab p p.slots) fun _ =>
      ifSome (capAt packetLab p.index) fun c => p.slots.all fun k => c.gen == p.gen && c.state == .collecting && p.world == some c.world && !k.void &&
        !k.lost && k.offset + sizeBytes k.size == c.length && c.seq + k.mult ≤ 0xFFFFFFFE && c.marked == [] && c.level == .cluster &&
        Memory.wf packetLab.mem && 0x010FFFFFFFFF < c.base &&
        c.length < { k with offset := k.offset + 1 }.offset + sizeBytes k.size && 0xFFFFFFFE < 0xFFFFFFFF + k.mult) = true ∧
    (let s := entry { pagedLab with frames := tput pagedLab.frames 5 { Frame.none with ftype := .data, tensor := 2 } } 2
       { buf .device 0 4096 with state := .collecting, okind := .slice, total := 1, outst := 1 }
     let set := lineSet s (pidOf s 0x5000 0) 0x5000
     let s := updSlice s (homeSlice 0x5000) fun sl => { sl with retiredWays := rangeFrom (set * 16) 16 }
     let s := { s with packets := packetLab.packets.map fun p => { p with slots := p.slots.map fun k => { k with offset := 0 } } }
     ifSome ((frontPackets s)[0]?) fun p => !ifOk (performSlots s p p.slots) fun _ => true) = true ∧
    (ifSome (answeredLab.acks[0]?) fun r => answeredLab.h.live && r.slot.hart == answeredLab.h.loc) = true ∧
    (ifSome (rejectedLab.rejections[0]?) fun r => rejectedLab.h.live && r.slot.hart == rejectedLab.h.loc &&
      ifOk (writeRecord { rejectedLab with rejections := removeAt rejectedLab.rejections 0 } rejectedLab.h r) fun t =>
        t.h.live && t.h.loc == rejectedLab.h.loc) = true ∧
    (ifSome ((clusterAt agedLab 0).bufs[0]?) fun b => aged agedLab b) = true := by decide +kernel

/-- Slots that are rejected, with an entry that makes them so. -/
theorem witness_DepositPackets_rejections :
    (ifSome ((frontPackets packetLab)[0]?) fun p => ifSome (capAt packetLab p.index) fun c => ifSome (p.slots[0]?) fun k =>
      !c.had 7 && c.had p.gen && c.state != .free && p.world == some c.world && some (c.world + 1) != some c.world &&
      { k with lost := true }.lost && { c with state := .quarantined }.state == .quarantined && { k with void := true }.void &&
      (let d := { c with gen := c.gen + 1, revoked := [c.gen] }; d.had p.gen && d.gen != p.gen)) = true ∧
    capAt packetLab 9 = none := by decide +kernel

/-- A drain of the window on entry 3 that has cluster 0 still to ask, or that waits for it only. -/
def drainLab (d : Drain) : State :=
  entry lab 3 { buf .tile 0x010000003000 256 with state := .collecting, seq := 7, okind := .slice, owner := 5, drain := some d }

theorem witness_FlushingAndDraining :
    (let s := after (.depositAck 0) answeredLab
     ifSome (depositAt s (rx s 13).toNat) fun (g, _) => !g.void &&
       (let u := flushWindow s s.h g.index g.gen; !unanswered u u.h.loc g.index g.gen)) = true ∧
    (let s := drainLab (Drain.mk [.cluster 0, .port 15] [])
     ifSome (capAt s 3) fun c => ifSome c.drain fun d => d.unasked.contains (.cluster 0) && d.unasked.contains (.port 15) && !c.closing) = true ∧
    (let s := voidCluster (held (drainLab (Drain.mk [.cluster 0] [])) 3 .deposit 1) 3 0
     s.h.tile.any (fun t => clusterOf t == 0) && s.h.holdings.any fun g => g.index == 3 && g.kind == .deposit) = true ∧
    (let s := drainLab (Drain.mk [] [.cluster 0])
     ifSome (capAt s 3) fun c => c.drain == some (Drain.mk [] [.cluster 0]) && !clusterBusy s 3 c.gen 0 && c.level == .tile && !c.orph) = true ∧
    (let s := updCap packetLab 2 fun c => { c with drain := some (Drain.mk [] [.cluster 0]) }
     ifSome (capAt s 2) fun c => clusterBusy s 2 c.gen 0) = true := by
  decide +kernel

/-! Witnesses: circular buffers -/

/-- Buffer 2 in x10 and, in x11, the geometry of 16 slots of 256 bytes that the hart fills (0) or empties (1). -/
def ringGeom (prod : Nat) : Word := word (prod * 2 ^ 48 + 16 * 2 ^ 32 + 2 * 2 ^ 16)
def ringLab (prod : Nat) : State := wx tileLab 11 (ringGeom prod)
def boundLab (prod : Nat) : State := wx (after (.cbcfg 0 10 11) (ringLab prod)) 12 16

theorem witness_CircularBuffers :
    (let s := ringLab 0
     (0 : Nat) < s.h.cbufs ∧ (modH s fun h => { h with cbufs := 15 }).h.cbufs ≤ (15 : CbN).val ∧ (cbAt s.h 0).bound = false ∧ rx s 0 = 0 ∧ rx s 10 ≠ 0 ∧
     (ifOk (bindable s (rx s 10)) fun c => c.level == .tile && (c.base - 0x010000000000) / 0x100000 == myTile s &&
       geomOk s.h 0 (rx s 10) (rx s 11) c.length && !geomOk s.h 0 (rx s 10) 1 c.length && ifOk (release s 2) fun u => !(cbAt u.h 0).bound) = true) ∧
    (let s := own lab 2 (buf .cluster 0x011000000000 4096)
     ifOk (bindable s (whole 2)) fun c => c.level == .cluster) = true ∧
    (let s := boundLab 0
     let b := cbAt s.h 0
     b.bound = true ∧ gProd b.geom = 0 ∧ b.filled + (rx s 12).toNat = gCount b.geom ∧ gCount b.geom < 17 ∧
       (rx s 12).toNat ≤ (cbAt (after (.cbacq 0 12) s).h 0).resv ∧ (cbAt (after (.cbacq 0 12) s).h 0).resv ≠ 0 ∧
       (capAt s (hIndex b.handle)).any (fun c => c.state == .lent && c.lends == 1) = true) ∧
    (let s := modH (boundLab 1) fun h => setCb h 0 { cbAt h 0 with pushed := 16 }
     let b := cbAt s.h 0
     b.bound = true ∧ gProd b.geom = 1 ∧ (rx s 12).toNat ≤ gCount b.geom ∧ (rx s 12).toNat ≤ b.filled ∧
       (rx s 12).toNat ≤ (cbAt (after (.cbacq 0 12) s).h 0).held) := by decide +kernel

/-! Witnesses: the matrix unit -/

/-- Four circular buffers on a 256 KiB TILE buffer: 0 and 1 hold images of an I8I8 MMA of K 32 without scales, 2 an accumulator image,
each with one slot filled; 3 takes an accumulator image. x10 has the handle of another TILE buffer, x11 that of a REMOTE one. -/
def matrixLab : State :=
  let s := entry lab 2 { buf .tile 0x010000020000 0x40000 with state := .lent, lendcb := true, lends := 4 }
  let s := own s 3 (buf .tile 0x010000010000 0x1000)
  let s := own s 4 (buf .remote (2 ^ 55 + 2 ^ 47) 0x4000)
  let ring (geom : Nat) (pushed : BitVec 32) : Cb := { Cb.unbound with bound := true, handle := whole 2, geom := word geom, pushed := pushed }
  let s := modH s fun h => setCb h 0 (ring (2 ^ 32 + 16 * 2 ^ 16) 1)
  let s := modH s fun h => setCb h 1 (ring (2 ^ 32 + 64 * 2 ^ 16 + 8) 1)
  let s := modH s fun h => setCb h 2 (ring (2 ^ 32 + 512 * 2 ^ 16 + 64) 1)
  let s := modH s fun h => setCb h 3 (ring (2 ^ 48 + 2 ^ 32 + 512 * 2 ^ 16 + 320) 0)
  wx (wx (modC s fun c => { c with mcfg := 0x20 }) 10 (whole 3)) 11 (whole 4)
/-- With an MMA suspended on accumulator 1. -/
def suspendedLab : State := modC matrixLab fun c => { c with mprog := 0x8000000000001000#64 }
/-- One queued command that has fired. -/
def firedLab (i : Instr) : State := after (.engineCommandFire 0 0) (after i matrixLab)
/-- The link to device 1 is up, and a direct MMA with B there runs. -/
def remoteLab : State :=
  let up (p : Port) : Port := { p with state := .up }
  match exec (.mmaI8i8 0 (.cb 0) (.handle 11) 0) (updPort matrixLab 0 up) with | .next t => t | _ => matrixLab

theorem witness_MmaIssue :
    (let s := matrixLab
     (runningDirect s.h).isNone && (ifOk (planMma s 8 0 (.cb 0) (.cb 1) 0) fun (c, t) => !c.direct && (t.h.cmds.filter (·.queued)).length < 32) &&
     (ifOk (planMma s 8 0 (.handle 10) (.cb 1) 0) fun (c, _) => c.direct && s.h.gang == none &&
       ifOk (startAll s.h.mode 8 0 (.handle 10) (.cb 1) 0 [s.h.loc] s) fun u => ifSome (switchTo u s.h.loc) fun v => (runningDirect v.h).isSome)) =
      true := by
  decide +kernel

/-- A hart that waits for the output of a queued store; a buffer lent to four circular buffers. -/
theorem witness_CircularBuffers_waits :
    (let s := wx (after (.mstacc 0 3) matrixLab) 12 1
     let b := cbAt s.h 3
     b.bound = true ∧ gProd b.geom = 1 ∧ (rx s 12).toNat ≤ gCount b.geom ∧ b.filled < (rx s 12).toNat ∧ starvedOn s s.h 3 = none) ∧
    (capAt matrixLab (hIndex (cbAt matrixLab.h 0).handle)).any (fun c => c.state == .lent && 1 < c.lends) = true := by decide +kernel

theorem witness_DrainPathIssue :
    (let s := matrixLab
     bitAt s.h.csr.mprog 63 = false ∧ (s.h.cmds.filter (·.queued)).length < 32 ∧ bitAt s.h.csr.mamaxv 63 = false ∧
     (ifOk (checkCb s 2 65536 false 0) fun _ => ifOk (checkCb s 3 65536 true 0) fun _ =>
       ifOk (checkCb s 3 (drainBytes .fp32) true (drainLayout .fp32)) fun _ => true) = true) ∧
    (let s := suspendedLab; bitAt s.h.csr.mprog 63 = true ∧ fld s.h.csr.mprog 12 1 = 1) ∧
    ((0x600 : Word) &&& 0x0000000000FF08C0#64 = 0 ∧ fld 0x600 8 3 ≠ 7 ∧ fld 0x600 12 3 ≠ 7 ∧ fld 0x700 8 3 = 7) := by decide +kernel

theorem witness_EngineCommands :
    (ifSome (cmdOf (after (.mzero 0) matrixLab) 0 0) fun (h, c) => !c.fired && c.gangOf == none && h.tile.isSome && mayFire h c) = true ∧
    (ifSome (cmdOf (modH (after (.mzero 0) matrixLab) fun h => { h with tile := none }) 0 0) fun (h, c) => !c.fired && h.tile == none) = true ∧
    ((ifSome (cmdOf (firedLab (.mzero 0)) 0 0) fun (h, c) => c.fired && !c.susp && !c.isCopy && mayEnd (h, c)) &&
     (ifSome (cmdOf (firedLab (.mldacc 0 2)) 0 0) fun (h, c) => c.fired && !c.susp && mayEnd (h, c)) &&
     (ifSome (cmdOf (firedLab (.mstacc 0 3)) 0 0) fun (h, c) => c.fired && !c.susp && mayEnd (h, c)) &&
     (ifSome (cmdOf (firedLab (.mdrain 0 .fp32 .rne 3 none)) 0 0) fun (h, c) => c.fired && !c.susp && mayEnd (h, c) && c.done != 64 &&
       !drainPosted (firedLab (.mdrain 0 .fp32 .rne 3 none)) h.loc && match c.op with | .mdrain d => !bitAt d.mamaxv 63 | _ => false) &&
     (ifSome (cmdOf (firedLab (.mmaI8i8 0 (.cb 0) (.cb 1) 0)) 0 0) fun (h, c) => c.fired && !c.susp && mayEnd (h, c) && c.gangOf == none &&
       ifSome c.mma? fun k => (mmaFails (firedLab (.mmaI8i8 0 (.cb 0) (.cb 1) 0)) [(h, c)]).isNone &&
         (remoteB (firedLab (.mmaI8i8 0 (.cb 0) (.cb 1) 0)) k).isNone)) = true ∧
    (ifSome (remoteMma remoteLab 0) fun (ms, c, _, _) => (match ms.head? with | some l => l.2.done | none => 0) ≤ c.blocks - 1 &&
      (match ms.head? with | some l => l.2.done | none => 0) < c.blocks && remoteLab.h.loc == 0) = true ∧
    (remoteLab.h.live = true ∧ remoteLab.h.gang = none ∧ remoteLab.h.cmds.any (fun e => ifSome e.mma? fun c => 0 < c.blocks) = true) := by
  decide +kernel

/-! Witnesses: copies -/

/-- A record of 16 one-byte elements in entry 2, whose address is in x12; destination and source, entries 3 and 4, in x10 and x11. -/
def copyLab : State :=
  let s := own (own tileLab 3 (buf .tile 0x010000003000 256)) 4 (buf .tile 0x010000004000 256)
  let put (m : List Host.Cell) (n : Nat) (v : Word) : List Host.Cell := Memory.putN m (0x010000001000 + 8 * n) (leBytes 8 v.toNat)
  let s := { s with mem := put (put (put s.mem 0 1) 8 16) 9 0x100000001 }
  wx (wx (wx s 10 (whole 3)) 11 (whole 4)) 12 0x010000001000#64

theorem witness_CopyIssue :
    let s := copyLab
    (ifOk (readHeld s (rx s 12).toNat 160) fun (r, t) =>
      let c := parseShape r
      let args := sideArgs t .copy c (rx s 10) (rx s 11) ++ otherArgs t .copy c
      shapeOk .copy (rx s 12).toNat r c && blkOk t .copy c (rx s 10) (rx s 11) && !shapeOk .red (rx s 12).toNat r c &&
      (args.all fun a => ifOk (borrow t a.hv a.share) fun _ => true) &&
      sameBufOk .copy c (rx s 10) (rx s 11) && (args.all fun a => match a.layout with | some l => (capOf t a.hv).layout == l | none => true) &&
      (args.all fun a => ifSome a.bytes fun l => (bounds l).2 < a.limit) && (ifOk (sideCb t c true (rx s 10)) fun _ => true) &&
      (ifOk (sideCb t c false (rx s 11)) fun _ => true) && (args.all fun a => (argPages t a).length ≤ 65536) &&
      ifOk (probeArgs t args) fun (_, u) => cpCount u.h < 64 && (u.h.cmds.filter (·.queued)).length < 32 &&
        ifOk (lendAll u (uniq ((args.filter fun a => hKind a.hv == some .whole).map fun a => hIndex a.hv))) fun _ => true) = true := by
  decide +kernel

theorem witness_CopyProgress :
    let s := after (.copy 13 10 11 12) copyLab
    let e := after (.copySegment 0 0) s
    let ended (st : Nat) (u : State) (h : Hart) (k : EngCmd) (c : CopyCmd) : Bool :=
      c.ended && (let r := settleRemote u h k { c with status := st }; (putRecord r.1 h k r.2).2)
    (ifSome (copyCmd s 0 0) fun (h, k, c) => k.fired && !c.ended && h.tile.isSome && (outsideStatus s h k c false 0).isNone && !hbmAble s h k c &&
      (copyRun h false (segmentLen c) s k c).done && c.pos < c.shape.total && ifOk (copyPos s { h := h, k := k, c := c, hbm := false } c c.pos) fun _ => true)
      = true ∧
    (ifSome (copyCmd e 0 0) fun (h, k, c) => !k.queued && c.shape.total ≤ c.pos && ended 0 e h k c && ended 1 e h k c) = true := by decide +kernel

/-- A copy whose record goes to a DEVICE buffer, entry 5, whose page it pins and reaches with no page table, and of which the line cache can take no line. -/
def stuckLab : State :=
  let s := own (after (.copy 13 10 11 12) copyLab) 5 (buf .device 0x5000 4096)
  let s := { s with frames := tput s.frames 5 { Frame.none with ftype := .data, tensor := 5 } }
  let s := updSlice s (homeSlice 0x5000) fun sl => { sl with retiredWays := rangeFrom 0 131072 }
  let put (k : EngCmd) : EngCmd := match k.op with
    | .copy c => { k with op := .copy { c with shape := { c.shape with crec := true, ring := whole 5 }, satp := 0 }, pages := [(5, 1)] }
    | _ => k
  modH s fun h => { h with cmds := h.cmds.map put }
theorem witness_CopyProgress_waits :
    (ifSome (copyCmd stuckLab 0 0) fun (h, k, c) => let r := settleRemote stuckLab h k { c with ended := true }
      !(putRecord r.1 h k r.2).2) = true := by decide +kernel

/-- A last position of each kind, in bounds; and a row whose index entry, at byte 1,032 of entry 2, takes it out of bounds. -/
theorem witness_CopyProgress_positions :
    let s := after (.copy 13 10 11 12) { copyLab with mem := Memory.putN copyLab.mem 0x010000001408 (leBytes 8 0xFFFFFFFF) }
    let fits (hv : Word) (l : List Nat) : Bool := ifSome (capAt s (hIndex hv)) fun b =>
      b.level == .tile && b.state != .quarantined && l.all fun k => inTileAperture (b.base + k)
    let premises (c : CopyCmd) (p x : Nat) : Bool :=
      let o := copyOffs c p x
      c.shape.scb == 0 && c.shape.dcb == 0 && fits c.dst (elemOffs c.shape.dlay c.shape.ed o.2.toNat) &&
        (c.kind == .fill || fits c.src (elemOffs c.shape.slay c.shape.es o.1.toNat))
    (ifSome (copyCmd s 0 0) fun (_, _, c) => Memory.wf s.mem && ([CopyKind.copy, .fill, .cmp].all fun k => premises { c with kind := k } 15 0) &&
      premises { c with kind := .red, shape := { c.shape with esize := 2 } } 15 0 &&
      ([CopyKind.gath, .scat].all fun k =>
        let sh := { c.shape with ndim := 2, ext := [4, 4, 0, 0, 0, 0], sstr := [1, 4, 0, 0, 0, 0], dstr := [1, 4, 0, 0, 0, 0], ixh := whole 2, ioff := 1024 }
        let c := { c with kind := k, shape := sh }
        let list (p : Nat) : List Nat := rangeFrom (sh.ioff + 4 * (p / 4)) 4
        let x (p : Nat) : Nat := leNat ((list p).map fun k => Memory.get s.mem (0x010000001000 + k))
        fits sh.ixh (list 7) && fits sh.ixh (list 8) && premises c 7 (x 7) && rowOk s c 1 (x 7) && !rowOk s c 2 (x 8))) = true := by decide +kernel

theorem witness_ReducedElements : (redFmt 4).value 0x7FC00001 = .nan ∧ (redFmt 6).value 0x7C01 = .nan ∧ (redFmt 5).value 0 ≠ .nan := by decide +kernel

/-! Witnesses: vectors -/

/-- SEW 32, LMUL 1, `vl` elements. -/
def vectorLab (vl : Nat) : State := modC tileLab fun c => { c with vill := false, vtype := 0x10, vl := vl }

/-- Settings that are supported and not, an AVL in each range, and a legal word of each shape, with what its elements get. -/
theorem witness_VectorArithmetic :
    let s := vectorLab 4
    let c := vcfg s
    let off := modC s fun c => { c with mstatus := 0 }
    (fld s.h.csr.mstatus 9 2 ≠ 0 ∧ fld off.h.csr.mstatus 9 2 = 0 ∧ vtypeOk 0x10 = true ∧ vtypeOk 4 = false ∧ s.h.csr.vill = false ∧
      vlmaxOf 0x10 = vlmaxOf s.h.csr.vtype.toNat ∧ vlmaxOf 0 ≠ vlmaxOf s.h.csr.vtype.toNat ∧ vlmaxOf 0x10 = 16) ∧
    ((31 : Reg).val + 1 ≤ 32 ∧ c.vl ≤ 1 * 64 / 4 ∧ c.vstart < c.vl ∧ { c with vstart := 4 }.vl ≤ { c with vstart := 4 }.vstart ∧ c.vl ≤ 512 ∧
      active s true 3 = true ∧ active s false 3 = false) ∧
    (c.sew = 32 ∧ c.lm = 0 ∧ s.h.csr.vstart = 0 ∧ rmOfCode s.h.csr.frm.toNat = some .rne ∧ vFmt c.sew = some .fp32 ∧
      fld s.h.csr.mstatus 13 2 ≠ 0) ∧
    (let g (r : Reg) (eew : Nat) (em : Int) : VGroup := { r := r, eew := eew, em := em }
     groupsOk false false (.group (g 1 32 0)) [g 2 32 0, g 3 32 0] = true ∧ groupsOk true false (.mask 1) [g 2 32 0] = true ∧
      groupsOk false false (.group (g 2 64 1)) [g 4 32 0, g 5 32 0] = true ∧ groupsOk false false (.group (g 1 32 0)) [g 2 64 1, g 4 32 0] = true ∧
      groupsOk false false (.group (g 1 32 0)) [g 2 16 (-1)] = true ∧ groupsOk false true (.group (g 1 32 0)) [g 2 32 0, g 3 32 0] = true ∧
      groupsOk false false (.scalar 1) [g 2 32 0, g 3 32 0] = true) := by decide +kernel

/-- The operation of each shape has a value for every element. -/
theorem witness_VectorArithmetic_ops :
    (∃ r : Nat → ERes, ∀ i, vInt .vadd 32 0 i 1 0 = some (r i)) ∧ (∃ r : Nat → Bool, ∀ i, vCmp .vmseq 32 i 1 0 = some (r i)) ∧
    (vWideA .vwaddu = false ∧ vWideD .vwaddu = false ∧ ∃ r : Nat → Nat, ∀ i, vWide .vwaddu 32 i 1 0 = some (r i)) ∧
    (∃ r : Nat → ERes, ∀ i, vNarrow .vnsrl 32 0 i 1 = some (r i)) ∧ vExt .vsext2 = some (2, true) ∧
    (∃ r : Nat → Bool, ∀ i, vLogic .vmand (i == 0) true = some (r i)) ∧ (∃ v : Nat → Nat → Nat, ∀ p q, vRed .vredsum 32 p q = some (v p q)) ∧
    (∃ r : Nat → Coded, ∀ i, vFp .vfadd .fp32 .rne i 1 0 = some (r i)) ∧ (∃ r : Nat → Coded, ∀ i, vFpUnary .vfsqrt .fp32 .rne 32 i = some (r i)) ∧
    (∃ r : Nat → Bool × FFlags, ∀ i, vFpCmp .vmfeq .fp32 i 1 = some (r i)) :=
  ⟨⟨_, fun _ => rfl⟩, ⟨_, fun _ => rfl⟩, ⟨rfl, rfl, _, fun _ => rfl⟩, ⟨_, fun _ => rfl⟩, rfl, ⟨_, fun _ => rfl⟩, ⟨_, fun _ _ => rfl⟩,
    ⟨_, fun _ => rfl⟩, ⟨_, fun _ => rfl⟩, ⟨_, fun _ => rfl⟩⟩

theorem witness_VectorArithmetic_dot :
    let s := vectorLab 128
    fld s.h.csr.mstatus 13 2 ≠ 0 ∧ fld s.h.csr.mstatus 9 2 ≠ 0 ∧ s.h.csr.vill = false ∧ s.h.csr.vstart = 0 ∧ s.h.csr.vl % 8 = 0 ∧
    s.h.csr.vl ≤ 128 ∧ 64 < s.h.csr.vl ∧ (vectorLab 7).h.csr.vl % 8 ≠ 0 ∧ lab.h.csr.vill = true := by decide +kernel

theorem witness_VectorConversions :
    let s := wx (wx (vectorLab 64) 11 0x7FFF) 12 2
    fld s.h.csr.mstatus 9 2 ≠ 0 ∧ fld s.h.csr.mstatus 13 2 ≠ 0 ∧ s.h.csr.vstart = 0 ∧ s.h.csr.vill = false ∧ s.h.csr.vl % 8 = 0 ∧ s.h.csr.vl ≤ 64 ∧
    groupFits 28 64 32 = true ∧ groupFits 31 64 8 = true ∧ (targetFmt (fld s.h.csr.vbscfg 4 3)).isSome = true ∧
    fld (rx s 11) 0 16 = 0x7FFF ∧ fld (rx s 12) 0 16 = 2 := by decide +kernel

/-- Unit-stride words at the end of the page, the first of them in bounds and the fifth not. -/
def unitWords : VMem := { mop := .unit, vm := true, nf := 0, ew := 2, rs1 := 11, vd := 1 }

theorem witness_VectorMemory :
    let trapsAt (n : Nat) {α : Type} (r : Except VStop α) : Bool := match r with
      | .error p => p.elem == n && (match p.exc with | .trap _ _ => true | _ => false)
      | .ok _ => false
    (let s := wx (vectorLab 4) 11 0x010000001FF0#64
     (ifOk (resolve s unitWords true) fun a => s.h.csr.vstart < a.evl && !meetsLent s unitWords a (accessElems s a) && s.h.ldOut < 255 &&
       ifOk (runElems (fun t i => loadFields t unitWords a s i) (accessElems s a) s) fun _ => true) &&
     (ifOk (resolve s unitWords false) fun a => s.h.stOut.length < 255 && accessElems s a != [] && !meetsLent s unitWords a (accessElems s a) &&
       ifOk (runElems (fun t i => storeFields t unitWords a 0 i) (accessElems s a) s) fun _ => true) &&
     Memory.wf s.mem && risesFrom 0 s.tiles) = true ∧
    (let s := wx (vectorLab 5) 11 0x010000001FF0#64
     (ifOk (resolve s unitWords true) fun a => trapsAt 4 (runElems (fun t i => loadFields t unitWords a s i) (accessElems s a) s) &&
       (accessElems s a).head? == some 0) &&
     (let s := wx s 11 0x010000002000#64
      ifOk (resolve s unitWords true) fun a => trapsAt 0 (runElems (fun t i => loadFields t unitWords a s i) (accessElems s a) s)) &&
     (let s := wx (inMode (vectorLab 4) .m) 11 0x5000
      ifOk (resolve s unitWords false) fun a => (accessElems s a).all fun i => !storesSlow s unitWords a i) &&
     (ifOk (resolve s unitWords false) fun a => trapsAt 4 (runElems (fun t i => storeFields t unitWords a 0 i) (accessElems s a) s))) = true ∧
    (let s := vectorLab 0
     ifOk (resolve s unitWords true) fun a => a.evl ≤ s.h.csr.vstart && accessElems s a == []) = true ∧
    (let s := wx (vectorLab 4) 11 0x010000001FF0#64
     ifOk (resolve s unitWords false) fun a =>
       let va := elemAddr s unitWords a 3 0
       a.nf == 1 && inTileAperture va && va % 4096 + a.w ≤ 4096 && (tileOf s (myTile s)).l1d == [] && va + a.w == 0x010000002000 &&
       (ifOk (checkElem s va a.w false) fun _ => true) && (ifOk (checkElem s va a.w true) fun _ => true) &&
       (ifOk (storeFields s unitWords a 0 3) fun _ => true) && ifOk (translateRange s .store va a.w) fun p => p.1.all fun b =>
         !isRemotePa b && !isPoolPa b && b != 0) = true := by decide +kernel

/-! Witnesses: event accumulators -/

/-- Accumulator 0 of cluster 0 bound to profile 0, threshold 100. -/
def boundAcc : Acc := { Acc.unbound with bound := true }
def aspenLab : State :=
  updAspen sharedLab 0 fun a => { a with accs := [(0, boundAcc)], profiles := [(0, { Profile.start with thr := 100 })] }
/-- A record of an all-zero profile in entry 2 or, with `act` 1, of a fan-out over a unit of entry 3; its address in x13. -/
def recordLab (act : Nat) : State :=
  let s := wx aspenLab 13 0x010000001000#64
  if act = 1 then
    { s with mem := Memory.putN (Memory.putN s.mem 0x010000001008 (leBytes 8 (2 ^ 50))) 0x010000001010 (leBytes 8 (units 3 .share 1).toNat) }
  else s
/-- A fire of profile 0 that waits for its action, beside an event that is due and one that is on its way. -/
def firesLab : State :=
  let f : Fire := { acc := 0, prof := 0, record := 5, tick := 0, world := 0, cnt := 1 }
  let e : Event := { cluster := 0, acc := 0, weight := 1, delay := 0, world := 0, poster := none, home := none, replyTo := none }
  let busy (a : Aspen) : Aspen :=
    { a with boundary := some 10, fires := [f], fireQ := [(5, 0)], wheel := [{ due := 0, acc := 0, weight := 1, world := 0 }] }
  let up (p : Port) : Port := { p with state := .up, worldMap := [(3, 0)] }
  updPort { updAspen aspenLab 0 busy with events := [e], cycle := 10 } 15 up

theorem witness_EventInstructions :
    (ifOk (readHeld (recordLab 0) (rx (recordLab 0) 13).toNat 64) fun (r, t) => profileOk (rx (recordLab 0) 13).toNat r && (Machine.profileOf t r).act == 0 &&
      ((aspenAt t 0).accs.all fun x => x.2.world == myWorld t) && (t.h.cmds.filter (·.queued)).length < 32 &&
      ((aspenAt t 0).fires.all fun f => f.prof != 0) && (returnProfileUnit t 0 0 (profAt (aspenAt t 0) 0)).isSome) = true ∧
    (ifOk (readHeld (recordLab 1) (rx (recordLab 1) 13).toNat 64) fun (r, t) => profileOk (rx (recordLab 1) 13).toNat r && (Machine.profileOf t r).act == 1 &&
      ifOk (fanUnit t (Machine.profileOf t r).arg) fun _ => true) = true ∧
    (let s := modHoldings (recordLab 1) fun l => l.filter fun g => g.kind != .share
     ifOk (readHeld s (rx s 13).toNat 64) fun (r, t) => profileOk (rx s 13).toNat r && (Machine.profileOf t r).act == 1 &&
       match fanUnit t (Machine.profileOf t r).arg with | .error (.trap _ _) => true | _ => false) = true ∧
    (let s := updAspen (recordLab 0) 0 fun a => { a with accs := [(0, { boundAcc with world := 1 })] }
     ifOk (readHeld s (rx s 13).toNat 64) fun (r, t) => profileOk (rx s 13).toNat r &&
       (aspenAt t (myCluster s)).accs.any fun x => x.2.bound && x.2.prof == 0 && x.2.world != myWorld t) = true ∧
    (let s := wx (recordLab 0) 13 0x010000001001#64
     ifOk (readHeld s (rx s 13).toNat 64) fun (r, _) => !profileOk (rx s 13).toNat r) = true ∧
    (let s := wx aspenLab 13 0xFFFF
     rx s 13 &&& 0xFFFF0000FFFF0000#64 = 0 ∧ (rx s 0).toNat < 32 ∧ fld (rx s 13) 0 16 + (fld (rx s 13) 32 16 + 1) = 65536 ∧
     fld (0x10000FFFF#64) 0 16 + (fld (0x10000FFFF#64) 32 16 + 1) = 65537 ∧
     ∀ x ∈ (aspenAt s (myCluster s)).accs, x.2.world = myWorld s) ∧
    ((modH lab fun h => { h with evWait := some (15, none) }).h.evWait = some (15, none) ∧
     (modH lab fun h => { h with evWait := some (15, some 1) }).h.evWait = some (15, some 1)) ∧
    (let s := wx aspenLab 13 0x0400000000000000#64
     s.h.evWait = none ∧ fld (rx s 13) 48 16 ≠ 0 ∧ (let v := rx s 0; fld v 48 16 = 0 ∧ fld v 16 2 = 0 ∧ fld v 32 16 ≤ 1023 ∧ fld v 24 8 = s.device) ∧
     clusterWaits s 0 = false ∧ clusterReady s 0 = true ∧ clusterReady s 1 = false ∧ clusterWaits s 1 = false ∧ eventsOut s 0 = false ∧
     (aspenAt s 0).wheel.length < 65536 ∧ (arriveEvent s 0 0 1 (myWorld s) ((aspenAt s 0).tick + 1023) false).isSome = true) ∧
    (let v : Word := 0x01000000
     fld v 48 16 = 0 ∧ fld v 16 2 = 0 ∧ fld v 32 16 ≤ 1023 ∧ fld v 24 8 ≠ lab.device ∧ (portAt lab (routePort lab 1)).carries = false ∧
     (portAt (updPort lab (routePort lab 1) fun p => { p with state := .up }) (routePort lab 1)).carries = true) ∧
    ((popFire firesLab).isSome = true ∧ popFire lab = none) ∧
    (let s := wx (wx aspenLab 13 0x0400000000000000#64) 14 0xFFFF000000000000#64
     signed 16 (fld (rx s 13) 48 16) = 1024 ∧ signed 16 (fld (0x0401000000000000#64) 48 16) = 1025 ∧ (aspenAt s 0).period = 0 ∧
     signed 16 (fld (rx s 14) 48 16) = -1 ∧ (ifOk (ownAcc s (rx s 14)) fun _ => ifOk (accField s 0x300000000#64) fun _ => true) = true ∧
     (match accField s 0x400000000#64 with | .error (.trap _ _) => true | _ => false) = true) := by decide +kernel

theorem witness_DeliveryAndEvaluation :
    let a := aspenAt aspenLab 0
    let x := accAt a 0
    let p := profAt a x.prof
    x.retired = false ∧ x.bound = true ∧ x.world = 0 ∧ x.refr = 0 ∧ p.eager = false ∧ p.agel = 0 ∧ satTo 32 (leakOf p x.state + x.sum) < p.thr ∧
    x.fired = false ∧ 0 < { x with refr := 1 }.refr := by decide +kernel

theorem witness_AspenEvents :
    let s := firesLab
    let a := aspenAt s 0
    a.boundary = some 10 ∧ 10 ≤ s.cycle ∧ { s with cycle := 9 }.cycle < 10 ∧
    (ifSome ((arrivable s)[0]?) fun e => !clusterWaits s e.cluster && clusterReady s e.cluster &&
      (arriveEvent { s with events := s.events.erase e } e.cluster e.acc e.weight e.world ((aspenAt s e.cluster).tick + e.delay) e.replyTo.isNone).isSome) = true ∧
    (let s := { s with events := s.events.map fun e => { e with cluster := 1 } }
     ifSome ((arrivable s)[0]?) fun e => !clusterWaits s e.cluster && !clusterReady s e.cluster) = true ∧
    ((dueNow a)[0]?).isSome = true ∧
    (∃ f r, a.fires = f :: r ∧ (fireAct (updAspen s 0 fun a => { a with fires := r }) 0 f).isSome = true ∧ (profAt a f.prof).act = 0) ∧
    risesFrom 0 s.clusters = true ∧ 0 < a.wheel.length ∧
    (portAt s 15).carries = true ∧ tget (portAt s 15).worldMap 3 = some 0 ∧ (0#32).toNat / 2 ^ 24 = s.device ∧ (0#32).toNat / 2 ^ 16 % 4 = 0 := by
  refine ⟨by decide +kernel, by decide +kernel, by decide +kernel, by decide +kernel, by decide +kernel, by decide +kernel,
    ⟨_, _, rfl, ?_, ?_⟩, ?_⟩ <;> decide +kernel

/-! Witnesses: queues and kernels -/

/-- Queue 5 of world 0, FIFO (0) or priority (1), mapped, with room for 16, and its number in x13. -/
def fifo : Queue := { queueOf { qkind := 0, win := 0, cap := 4, ctx := 0, tmpl := 0 } 0 with mapped := true }
def queueLab (q : Queue) : State := wx { lab with queues := [(5, q)] } 13 5
def elem5 : QElem := { pos := 0, payload := 7, key := 3, cap := none }
def full : Queue := { fifo with elems := List.replicate 16 elem5 }

theorem witness_QueueInstructions :
    (let s := queueLab fifo
     (rx s 13).toNat < 65536 ∧ queueAt s 5 = some fifo ∧ fifo.world = myWorld s ∧ fifo.qkind ≠ 2 ∧ s.h.loc ∉ fifo.granted ∧
     queueWaits s 5 = false ∧ (queueAt (grantPush (goOn s 5) 5) 5 = some fifo) ∧ (pushWord s 5 fifo elem5).isSome = true ∧
     queueRoomy s 5 fifo = true ∧ fifo.pushers = [] ∧ fifo.poppers = [] ∧ fifo.elems = [] ∧ fifo.served = [] ∧ queueAt s 6 = none) ∧
    (let s := queueLab full
     queueAt (grantPush (goOn s 5) 5) 5 = some full ∧ queueRoomy s 5 full = false ∧ pushWord s 5 full elem5 = none ∧ s.h.timedOut = false ∧
       (modH s fun h => { h with timedOut := true }).h.timedOut = true ∧ (∀ e ∈ full.served, e.1 ≠ s.h.loc)) ∧
    (ifSome (chooseElem (queueLab full) full).1 fun (_, e) => e.cap == none) = true ∧
    (0 ∈ { fifo with granted := [0] }.granted ∧ { fifo with mapped := false }.mapped = false ∧ queueWaits { lab with ready := [] } 5 = true) ∧
    { fifo with world := 1 }.world ≠ myWorld lab := by decide +kernel

/-- A priority queue of window 1: whatever the free choice, the element of least key. -/
def least1 : Queue := { fifo with qkind := 1, win := 1, elems := [elem5] }
theorem witness_QueueInstructions_priority : ∃ k e, (chooseElem (queueLab least1) least1).1 = some (k, e) ∧ e.cap = none := by
  have h : ∀ n, Config.minkeyChoice n % min least1.win least1.elems.length = 0 := fun n => Nat.mod_one _
  refine ⟨0, elem5, ?_, rfl⟩
  unfold chooseElem
  rw [if_pos (by decide)]
  simp only [draw, h]
  decide +kernel

theorem witness_QueueEvents :
    (ifSome (ctxOf lab 0) fun c => lab.larch && c.life == .installed && tmplOk lab 0 (queueOf { qkind := 1, win := 64, cap := 16, ctx := 0, tmpl := 0 } c.world) &&
      (lab.kernels.all fun k => k.2.queue != 65535) && lab.kernels.any fun k => { k.2 with queue := 5, state := .queued }.state == .queued) = true ∧
    (∀ p ∈ (queueLab fifo).queues, p.2.mapped = true ∨ p.2.since = none) ∧
    ((queueLab fifo).cycle / 4096 ≤ (queueLab fifo).rotations ∧ (queueLab fifo).rotations < { queueLab fifo with cycle := 4096 }.cycle / 4096) ∧
    (let s := { queueLab { full with pushers := [(0, elem5)] } with cycle := 65536 }; sleptOut s s.h = true ∧ s.h.live = true) ∧
    (full.elems[15]? = some elem5 ∧ elem5.cap = none ∧ full.pushers = []) := by decide +kernel

/-- A launch queue, and in x14 the address of a descriptor of one hart with two SHARED code units of entry 3; x15 is 0. -/
def launchQ : Queue := { queueOf { qkind := 2, win := 0, cap := 4, ctx := 0, tmpl := 0 } 0 with mapped := true }
def launchLab : State :=
  let put (m : List Host.Cell) (n : Nat) (v : Word) : List Host.Cell := Memory.putN m (0x010000001000 + 8 * n) (leBytes 8 v.toNat)
  let s := { sharedLab with queues := [(5, launchQ)], usedSlots := 1 }
  wx { s with mem := put (put (put s.mem 0 (units 3 .share 1)) 2 (BitVec.allOnes 64)) 4 0x500000000#64 } 14 0x010000001000#64

/-- The descriptor is the template of the queue. -/
def templateQ : Queue := { launchQ with tmpl := whole 2 }
def launchedLab : State := after (.klaunch 16 14 0) launchLab
/-- The child has ended. -/
def joinLab : State :=
  { launchedLab with kernels := launchedLab.kernels.map fun k => if k.1 = 1 then (1, { k.2 with state := .done, reported := true }) else k }

theorem witness_KernelInstructions :
    (let s := launchLab
     ifOk (readHeld s (rx s 14).toNat 64) fun (r, t) =>
       let d := descOf r
       (rx s 14).toNat % 8 == 0 && !capWaits t (hIndex (dw d 0)) && launchable t (hartLaunch t 16) d && !launchable t (hartLaunch t 16) (d.set 2 0) &&
       (match launchCheck t (hartLaunch t 16) (rx s 14) (d.set 4 0x600000000) 0 0 with | .error (.trap _ _) => true | _ => false) &&
       !launchWaits t (rx s 14) d && launchWaits { t with settled := false, ready := [] } (rx s 14) (d.set 1 (dw d 1 + 0x0400000000000000)) &&
       ifOk (launchCheck t (hartLaunch t 16) (rx s 14) d 0 0) fun (e, own) => ifSome (queueAt e (dLq d)) fun q =>
         let g := grantPush (goOn e (dLq d)) (dLq d)
         noteDecls t 0 d == t && q.mapped && !queueWaits e (dLq d) && ifSome (queueAt g (dLq d)) fun p =>
           !queueRefuses g p && queueRoomy g (dLq d) p && (nextSlot g).isSome && g.h.sdOut + own.length ≤ 255 && ifOk (releaseAll g own) fun _ => true)
      = true ∧
    (let s := { launchLab with queues := [(5, templateQ)] }
     queueRoomy s 5 templateQ = true ∧ templateQ.qkind = 2 ∧ queueRefuses s templateQ = false ∧ (nextSlot s).isSome = true ∧
       (template s templateQ).isSome = true) ∧
    nextSlot { launchLab with usedSlots := 4096 } = none ∧ joinable lab (rx lab 0) = none ∧
    (ifSome (joinable launchedLab (rx launchedLab 16)) fun (_, k) => !k.reported) = true ∧
    (ifSome (joinable joinLab (rx joinLab 16)) fun (_, k) => k.reported) = true ∧
    (bitAt lab.h.csr.mprog 63 = false ∧ cpCount lab.h = 0 ∧ mxCount lab.h = 0 ∧ lab.h.dpOut = 0 ∧ lab.h.sdOut = 0 ∧
      (modH lab fun h => { h with dpOut := 1 }).h.dpOut ≠ 0) := by decide +kernel

/-- A hart that is pre-empted, and a kernel of hart 0 that has ended or faulted. -/
def preemptedLab : State := { twoLab with others := twoLab.others.map leaveTile, ready := [(0, 3), (32, 1), (34, 0xFFFFFFFF), (35, 0xFFFFFFFF), (36, 0xFFFFFFFF)] }
def exitingLab : State := { lab with kernels := lab.kernels.map fun k => (k.1, { k.2 with state := .exiting, ended := 1 }) }
def interruptLab : State := inMode (modC lab fun c => { c with mie := 0x10000, mip := 0x10000, mstatus := c.mstatus ||| 8 }) .u

theorem witness_Scheduling :
    (ifSome (queueAt launchedLab 5) fun q => q.mapped &&
      let placed (s : State) := ((waitingKernels s 5).foldl (fun (r : State × Bool) k => let (t, d) := tryPlace r.1 k; (t, r.2 && d)) (s, true)).2
      placed { launchedLab with ready := [(0, 0xFFFF), (32, 1), (36, 0xFFFFFFFF)] } && !placed { launchedLab with ready := [(0, 1), (32, 1), (34, 0xFFFFFFFF), (35, 0xFFFFFFFF), (36, 0xFFFFFFFF)] }) = true ∧
    (tget lab.kernels 0).isSome = true ∧
    (ifSome (tget exitingLab.kernels 0) fun k => k.state == .exiting && !k.reported && !kernelSends exitingLab 0 && !reclaimBusy exitingLab 0 &&
      (returnArgs exitingLab 0 k).isSome) = true ∧
    kernelSends sentLab 0 = true ∧
    (ifSome (findHart twoLab 1) fun h =>
      let hs := (companions twoLab h).filter (·.tile.isSome)
      let u := hs.foldl flushHart twoLab
      hs != [] && (hs.all fun m => !midInstruction twoLab m && match findHart u m.loc with | some o => countsClear o | none => true) &&
      ifSome (suspendDirect hs u) fun w => (emptyTiles (hs.map Hart.place) w).2) = true ∧
    countsClear (modH lab fun h => { h with ldOut := 1 }).h = false ∧
    (let s := preemptedLab
     ifSome (findHart s 1) fun h => ifSome (tget s.kernels (slotOf 1)) fun k => h.tile == none && k.running && !outranked s (slotOf 1) k &&
       (unitsAgain s k.desc ((dieOrder k.homeDie).filter fun d => k.dieChans.isEmpty || k.dieChans.any fun n => n / 64 == d) (1, 1)
         (unitsOfHarts (dGang k.desc) ((companions s h).filter (·.tile.isNone))) []).isSome) = true ∧
    (interruptLab.h.live = true ∧ interruptLab.h.tile.isSome = true ∧
      (ifSome (switchTo interruptLab (gangLead interruptLab)) fun u => (takeIntr u).isSome && (gangHarts u u.h).all fun h => !h.mid) = true) ∧
    (savedHarts preemptedLab = [1] ∧ savedHarts lab = [] ∧ { preemptedLab with saveEcc := some 1 }.saveEcc = some 1 ∧
      (abortCopies preemptedLab (endsWith preemptedLab 1)).2 = true) := by
  decide +kernel
/-- The record of a copy of a pre-empted hart that finds no place. -/
theorem witness_Scheduling_waits :
    let s := { stuckLab with others := [{ leaveTile stuckLab.h with loc := 1 }] }
    savedHarts s = [1] ∧ (abortCopies s (endsWith s 1)).2 = false := by decide +kernel

/-- A CLUSTER buffer, whole, in x10, for a hart in S-mode that has saved before, with an image of group 0 in it. -/
def imageLab : State :=
  let s := inMode (wx (own lab 2 (buf .cluster 0x011000000000 0x1000)) 10 (whole 2)) .s
  let put (m : List Host.Cell) (n : Nat) (v : Nat) : List Host.Cell := Memory.putN m (0x011000000000 + 8 * n) (leBytes 8 v)
  let m := put (put (put (put s.mem 0 1) 3 (2 ^ 32)) 4 (imageLength false [0] [])) 33 77
  modH { s with mem := m } fun h => { h with saveCount := 1 }

theorem witness_ContextImages :
    lab.h.mode = .u ∧ bitAt (modC imageLab fun c => { c with mstatus := c.mstatus ||| 0x100 }).h.csr.mstatus 8 = true ∧
    (let s := wx imageLab 11 1
     let d := saveHead s true
     s.h.mode ≠ .u ∧ bitAt s.h.csr.mstatus 8 = false ∧ rx s 11 ≠ 0 ∧ s.h.saveCount ≠ 0 ∧
     (ifOk (needOwned s (rx s 10)) fun c => c.layout == 0 && c.level == .cluster && d.ilen ≤ c.length && (ifOk (waitIdle s) fun _ => true) &&
       ifOk (imageRange s .store c.base d.ilen) fun (pas, p) =>
         let r := savedBytes d (modH p (startSave d))
         (putImage r.2 2 pas r.1).2) = true) ∧
    (let s := wx tileLab 11 0
     ifOk (needOwned s (rx s 10)) fun c => c.level == .tile && (c.base - 0x010000000000) / 0x100000 == myTile s && c.length < (saveHead s false).ilen)
      = true ∧
    (let s := imageLab
     ifOk (loadable s (rx s 10)) fun c => c.layout == 0 && 256 ≤ c.length && ifOk (imageRead s (rx s 10) c 0 256) fun (hb, t) =>
       ifSome (parseHead hb) fun d => d.ilen ≤ c.length && imageLength d.pact d.groups d.banks ≤ d.ilen &&
         ifOk (imageOkFor t (rx s 10) c d) fun (body, u) => (ifOk (waitIdle u) fun _ => true) && ifOk (foldRes (applyGroup d body) d.groups u) fun _ => true)
      = true ∧
    (let s := { imageLab with mem := [] }
     ifOk (loadable s (rx s 10)) fun c => ifOk (imageRead s (rx s 10) c 0 256) fun (hb, _) => (parseHead hb).isNone) = true := by decide +kernel

/-! Witnesses: groups, barriers and synchronisation variables -/

/-- Two harts of a co-resident kernel with gangs of two, on tiles 0 and 1. -/
def coreLab : State :=
  let k := bootKernel 0
  { twoLab with
    ready := [(0, 3), (32, 1), (34, 0xFFFFFFFF), (35, 0xFFFFFFFF), (36, 0xFFFFFFFF)]
    kernels := [(0, { k with desc := k.desc.set 1 (word (2 ^ 58 + 2 ^ 56 + 2 ^ 32)), dieChans := [0] })] }
/-- Hart 1 has arrived at GFUSE with mask 3. -/
def fusedLab : State :=
  let f (h : Hart) : Hart := { h with fuse := some 3 }
  { coreLab with others := coreLab.others.map f }
def gangLab : State := after (.gfuse 5 13) (wx fusedLab 13 3)

theorem witness_GroupsAndGangs :
    (let s := coreLab
     ((rx s 0).toNat < 2 ^ 32 ∧ fld (rx s 0) 8 12 = 0 ∧ fld (rx s 0) 20 12 = slotOf s.h.loc) ∧ fld 0x100 8 12 ≠ 0 ∧
     s.h.live = true ∧ (tget s.kernels 0).isSome = true ∧ 255 ∉ s.h.groups ∧ coResident s = true ∧ coResident lab = false ∧
     maskOk s 0 = false ∧ gangLab.h.gang.isSome = true ∧ bitAt gangLab.h.csr.mprog 63 = false ∧ gangMma gangLab = false) ∧
    (let s := fusedLab
     let t := { s with h := { s.h with fuse := some 3 } }
     let ts := namedTiles (myCluster s) 3
     s.h.gang = none ∧ maskOk s 3 = true ∧ (∀ k ∈ s.h.fuse, k < 2 ^ 16) ∧ fuseClash s 3 = [] ∧ (∀ k ∈ ts, fuseTile s k = true) ∧
     (ts.all fun k => ifSome (hartOn t k) fun h => h.fuse == some 3) = true) ∧
    (let s := coreLab
     fuseClash s 3 = [] ∧ (∀ k ∈ namedTiles (myCluster s) 3, fuseTile s k = true) ∧ (ifSome (hartOn s 1) fun h => h.fuse != some 3) = true) ∧
    (let s := { coreLab with others := coreLab.others.map fun h => { h with fuse := some 2 } }
     fuseClash s 3 ≠ [] ∧ coResident s = true ∧ s.h.gang = none ∧ maskOk s 3 = true ∧ s.h.fuse = none) ∧
    (∃ k ∈ namedTiles (myCluster coreLab) 3, fuseTile { coreLab with others := [] } k = false) := by
  decide +kernel

/-- Channel 0 of die 0 bound to group 0 of that kernel, whose two harts are its members. -/
def chan0 : Chan := { Chan.start with state := .idle, slot := 0, group := 0 }
def barLab : State :=
  let g (h : Hart) : Hart := { h with groups := [0] }
  let s := { coreLab with chans := [(0, chan0)], others := coreLab.others.map g, kernels := coreLab.kernels.map fun k => (k.1, { k.2 with groups := [(0, 2)] }) }
  modH s g
/-- After this hart's arrival, and after the other's. -/
def arrivedLab : State := after (.barr 0 0) barLab
def allArrived : State := arriveChan arrivedLab 0 1 false
def doneLab : State := after (.phaseComplete 0) allArrived
/-- A link-class channel for devices 0 and 1. -/
def linkChanLab : State := { barLab with chans := [(2048, { chan0 with ctx := some 0, devices := [0, 1] })] }

theorem witness_Barriers :
    (ifOk (barChan barLab (rx barLab 0)) fun (k, c) => barLab.h.groups.contains c.group && (tget barLab.h.barRecs k).isNone && c.state == .idle &&
      barLab.h.barAt == none) = true ∧
    (let s := modH barLab fun h => { h with groups := [] }
     ifOk (barChan s (rx s 0)) fun (_, c) => !s.h.groups.contains c.group) = true ∧
    (ifOk (barChan arrivedLab 0) fun (k, _) => ifSome (tget arrivedLab.h.barRecs k) fun r => !r.done) = true ∧
    (let s := putChan barLab 0 { chan0 with state := .open, counted := [1] }
     ifOk (barChan s 0) fun (_, c) => s.h.groups.contains c.group && c.state == .open && !c.counted.contains s.h.loc) = true ∧
    (ifOk (barChan doneLab 0) fun (k, _) => ifSome (tget doneLab.h.barRecs k) fun r => r.done) = true ∧
    (∀ why ∈ [BarStall.unbound, .broken], (modH barLab fun h => { h with barAt := some (0, why) }).h.barAt = some (0, why)) ∧ chanNo (rx barLab 0) = some 0 ∧
    ((members barLab 0 0).filter (· != 0) ≠ [] ∧ 0 ∈ members barLab 0 0) ∧
    (barLab.larch = true ∧ (ctxOf barLab 0).isSome = true) ∧
    ((chanAt allArrived 0).state = .open ∧ (chanAt allArrived 0).counted = [] ∧ isLinkChan 0 = false ∧ allArrived.h.live = true ∧
      (tget allArrived.h.barRecs 0).map (·.phase) = some (chanAt allArrived 0).phase) ∧
    (let c := { chanAt linkChanLab 2048 with state := .open, localDone := true, doneDevices := [1] }
     isLinkChan 2048 = true ∧ c.counted = [] ∧ ∀ d ∈ c.peers linkChanLab.device, d ∈ c.doneDevices) ∧
    (let s := inMode { barLab with chans := [] } .s
     let b : Word := word (3 * 2 ^ 32)
     s.h.mode ≠ .u ∧ fld b 32 4 < 9 ∧ chanNo 0 = some 0 ∧ bitAt b 63 = false ∧ fld b 36 27 = 0 ∧ fld b 8 12 = 0 ∧ barScope 0 (fld b 32 4) = true ∧
     reservedFor s 0 0 s.h.ctx = true ∧ (chanAt s 0).state = .unbound ∧
     (ifSome (tget s.kernels (fld b 20 12)) fun n => n.running && dCores n.desc && n.ctx == s.h.ctx) = true) ∧
    (let s := inMode barLab .s
     let b : Word := word (2 ^ 63)
     bitAt b 63 = true ∧ fld b 0 63 = 0 ∧ (chanAt s 0).state ≠ .unbound ∧ reservedFor s 0 (chanAt s 0).slot s.h.ctx = true ∧
     (ifSome (tget s.kernels (chanAt s 0).slot) fun n => n.running && dCores n.desc && n.ctx == s.h.ctx) = true) ∧
    barLab.h.mode = .u ∧
    (let s := updPort linkChanLab (routePort linkChanLab 1) fun p => { p with worldMap := [(0, 0)] }
     let c := chanAt s 2048
     let mapped := tget (portAt s (routePort s 1)).worldMap 0
     (1#8).toNat ∈ c.devices ∧ (1#8).toNat ≠ s.device ∧ c.state = .idle ∧ mapped = c.ctx.map (worldOf s) ∧ mapped.isSome = true ∧
       tget (portAt s (routePort s 1)).worldMap 1 = none ∧ c.phase + 1 ≠ c.phase) ∧
    (ctxOf lab 0).isSome = true := by decide +kernel

/-- Variables 0 to 255 of world 0, and 256 to 511 of world 1. -/
def varLab : State := { lab with varWorld := [(0, 0), (1, 1)] }
def post (var : Nat) : SvPost := { hart := 0, var := var, op := 0, operand := 1, expect := 0, world := 0, drain := false }

theorem witness_SyncVariables :
    (let s := varLab
     svCheck s 255 = .ok 255 ∧ svWaiting s 255 = false ∧ varOwner s 256 ≠ some (myWorld s) ∧ 2 ^ 24 ≤ (0x1000000#64 : Word).toNat ∧
     sampled s 255 (rx s 0) = none ∧
     (rx s 0).toInt ≤ (varAt s 255).value.toInt ∧ (varAt s 255).value.toInt < (rx (wx s 11 1) 11).toInt) ∧
    (svWaiting { varLab with svPosts := [post 255] } 255 = true ∧
     sampled (modH varLab fun h => { h with svAt := some (255, 3, some 4) }) 255 3 = some 4 ∧
     (modH varLab fun h => { h with svAt := some (255, 3, none) }).h.svAt = some (255, 3, none)) ∧
    (let s := { varLab with svPosts := [post 255] }
     (ifSome ((performable s)[0]?) fun p => !(varAt s p.var).retired && varOwner s p.var == some p.world) = true) ∧
    (let s := { varLab with svPosts := [post 256] }
     (ifSome ((performable s)[0]?) fun p => varOwner s p.var != some p.world) = true) ∧
    (let s := { varLab with vars := [(255, { Var.start with retired := true })] }
     255 < 2 ^ 24 ∧ varOwner s 255 = some (myWorld s) ∧ unsettled s 36 (8 + varDie 255) = false ∧ (varAt s 255).retired = true) ∧
    lab.larch = true ∧ (ctxOf lab 0).isSome = true ∧ (0xFFFF00 % 256 = 0 ∧ 0xFFFF00 + 256 * 1 ≤ 2 ^ 24) :=
  ⟨⟨rfl, by decide +kernel⟩, by decide +kernel⟩


/-! Witnesses: the line cache -/

/-- A line that has a place and one whose set has no way in service. -/
theorem witness_CacheEvents :
    let stuck (s : State) : State := updSlice s (homeSlice 0x5000) fun sl =>
      { sl with retiredWays := rangeFrom (lineSet s (pidOf s 0x5000 0) 0x5000 * 16) 16 }
    let dirty := updTile deviceLab 0 fun t => { t with l1d := [(0x5008, 7)] }
    (let s := deviceLab
     (tensorOf s 0x5000).1 ≠ 0 ∧ (fillLine s 0x5000 0).2 = true ∧ (fillLine (stuck s) 0x5000 0).2 = false ∧ findTag s 0x5000 0 = none ∧
       (memLine s 0x5000).any (fun b => b.length == 128) = true ∧ risesFrom 0 (sliceAt s (homeSlice 0x5000)).tags = true ∧ 0x5000 % 128 = 0) ∧
    (let bad := setMeta deviceLab 0x5000 { metaOf deviceLab 0x5000 with bad := true }
     memLine bad 0x5000 = none ∧ (fillLine bad 0x5000 0).2 = true ∧ (capAt bad (tensorOf bad 0x5000).1).any (fun c => c.state == .owned) = true ∧
       (updCap bad 2 fun c => { c with state := .collecting }).caps.any (fun c => c.2.state == .collecting) = true) ∧
    ((tensorOf lab 0x5000).1 = 0 ∧ isRemotePa 0x5000 = false) ∧
    ((cleanL1 dirty 0 (fun a => lineOf a == lineOf 0x5000)).2 = true ∧ (cleanL1 (stuck dirty) 0 (fun a => lineOf a == lineOf 0x5000)).2 = false ∧
      risesFrom 0 dirty.tiles = true) ∧
    isDevicePa 0x5000 = true := by decide +kernel

/-- Passes at a line that can be read, at one of a page that is not there, at one that cannot be read, and at their end. -/
theorem witness_CacheEvents_passes :
    (ifSome (capAt (passLab 32) 2) fun c => ifSome c.pass fun p => c.length / 128 ≤ p.ptr && p.held == [] && !p.thenClose) = true ∧
    (let s := passLab 31
     (ifSome (capAt s 2) fun c => ifSome c.pass fun p => p.ptr < c.length / 128 && ifSome (tensorLinePa s 2 p.ptr) fun a =>
       (memLine s a).isSome && Memory.wf s.mem && risesFrom 0 (sliceAt s (homeSlice a)).tags &&
         (memLine (setMeta s a { metaOf s a with bad := true }) a).isNone) = true ∧
     tensorLinePa { s with frames := [] } 2 31 = none) := by decide +kernel

/-- Errors in an entry with a dirty and with a clean line, and in a way with a tag that might be dirty, with one that is not, and without one. -/
theorem witness_CacheEvents_errors :
    (ifSome (lineTag dirtyLab 0x5000) fun g => g.dirty && !isRemotePa 0x5000 && risesFrom 0 (sliceAt dirtyLab (homeSlice 0x5000)).tags &&
      (capAt dirtyLab (tensorOf dirtyLab (lineOf 0x5000)).1).any fun c => c.state == .owned) = true ∧
    (ifSome (lineTag (updSlice dirtyLab (homeSlice 0x5000) fun sl => { sl with tags := sl.tags.map fun t => (t.1, { t.2 with dirty := false }) }) 0x5000)
      fun g => !g.dirty) = true ∧ lineTag deviceLab 0x5000 = none ∧
    (let n := homeSlice 0x5000
     (sliceAt dirtyLab n).tags.map (·.1) = [160] ∧ 160 / 16 < 8192 ∧
       (ifSome (tget (sliceAt dirtyLab n).tags 160) fun g => mightBeDirty (sliceAt dirtyLab n) g) = true ∧
       (let t := (fillLine deviceLab 0x5000 0).1
        (sliceAt t n).tags.all (fun g => !mightBeDirty (sliceAt t n) g.2) = true) ∧
       (ifSome (capAt dirtyLab 2) fun c => c.level == .device && (ctxsOfSet dirtyLab n 10).contains c.ctx) = true) := by decide +kernel

/-! Witnesses: hosts -/

/-- Host agent 0 of context 0, whose link is up, with rings of 16 entries, one holding, and a command of four doublewords in its ring. -/
def mbLab (l : List Holding) (c : Cap) (d0 d1 d2 d3 : Nat) : State :=
  let a : Agent := { Agent.start with
    ctx := some 0, enabled := true, sqbase := 0x10000, sqsize := 16, sqtail := 1, cqbase := 0x20000, cqsize := 16, holdings := l }
  let s := updPort (entry lab 2 c) 16 fun p => { p with state := .up }
  { s with agents := [(0, a)], mem := Memory.putN s.mem (hostPa 0 0x10000) (leBytes 8 d0 ++ leBytes 8 d1 ++ leBytes 8 d2 ++ leBytes 8 d3) }
def agentUnits (k : HKind) (n : Nat) : Holding := { device := 0, index := 2, gen := 1, kind := k, units := n, void := false, susp := 0 }
/-- A host buffer that the agent holds whole; and one whose four units it holds too, of which JOIN takes all. -/
def hostBuf : Cap := { buf .host (2 ^ 52) 4096 with okind := .hostAgent }
def mbWhole (op d1 d2 d3 : Nat) : State := mbLab [agentUnits .whole 0] hostBuf op d1 d2 d3
def mbJoins : State :=
  mbLab [agentUnits .whole 0, agentUnits .share 4] { hostBuf with state := .shared, total := 4, outst := 4 } 7 (whole 2).toNat
    (units 2 .share 4).toNat 0

def isDone : MbDone → Bool
  | .done _ _ _ _ => true
  | .wait _ => false

theorem witness_Mailbox :
    ((mbWhole 5 (whole 2).toNat 0 0).larch = true ∧ cmdWaits (mbWhole 5 0 0 0) 0 = true ∧ fld (cmdWord (mbWhole 5 0 0 0) 0 0) 0 8 = 5) ∧
    (isDone (mbLaunchBody 0 (mbWhole 1 0 0 3)) = true ∧ isDone (mbPublishBody 0 (mbWhole 2 0x40000 4096 3)) = true ∧
      isDone (mbUnpublishBody 0 (mbWhole 3 (whole 2).toNat 0 0)) = true ∧ isDone (mbSendBody 0 (mbWhole 4 (whole 2).toNat 0 0)) = true ∧
      isDone (mbFreeBody 0 (mbWhole 5 (whole 2).toNat 0 0)) = true ∧ isDone (mbSplitBody 0 (mbWhole 6 (whole 2).toNat 4 0)) = true ∧
      isDone (mbJoinBody 0 mbJoins) = true) ∧
    (let s := updCap (mbWhole 5 (whole 2).toNat 0 0) 2 fun c => { c with state := .lent, lends := 1 }
     isDone (mbFreeBody 0 s) = false) ∧
    ((agentAt (mbWhole 0 0 0 0) 0).ctx = some 0 ∧ (agentAt (mbWhole 0 0 0 0) 0).enabled = true ∧ (agentAt lab 0).ctx = none) ∧
    (let s := mbWhole 5 (whole 2).toNat 0 0
     ifOk (freeIn s (agentAt s 0).holdings (cmdWord s 0 1) (agentPins s 0 2)) fun _ => true) = true ∧
    (ifOk (splitIn (mbWhole 6 (whole 2).toNat 4 0) (agentAt (mbWhole 6 (whole 2).toNat 4 0) 0).holdings (cmdWord (mbWhole 6 (whole 2).toNat 4 0) 0 1) (cmdWord (mbWhole 6 (whole 2).toNat 4 0) 0 2)) fun (_, _, v) => !isStatus v) = true ∧
    (ifOk (joinIn mbJoins (agentAt mbJoins 0).holdings (cmdWord mbJoins 0 1) (cmdWord mbJoins 0 2) (agentPins mbJoins 0 2))
      fun (_, _, v) => !isStatus v) = true ∧
    (let s := mbWhole 2 0x40000 4096 3
     let base := (cmdWord s 0 1).toNat
     let len := (cmdWord s 0 2).toNat
     base % 4096 = 0 ∧ len % 4096 = 0 ∧ 4096 ≤ len ∧ len ≤ 2 ^ 40 ∧ base + len ≤ 2 ^ 51 ∧ cmdWord s 0 3 = 3 ∧ (agentAt s 0).ctx = some 0 ∧
      (ifSome (ctxOf s 0) fun c => c.cceil.getLsbD 0) = true ∧
      clear (publications s ++ poolRegions s) (hostPa 0 base) (hostPa 0 base + len) = true ∧ (ifSome (freeIndex s) fun i => !capWaits s i) = true ∧
      (agentAt s 0).holdings.length < 4096) := by decide +kernel

/-- Rings that take no tail: the link of the agent is down, or they are not enabled. -/
theorem witness_Mailbox_rings :
    hostUp (mbWhole 0 0 0 0) 0 = true ∧ hostUp lab 0 = false ∧ (agentAt lab 0).enabled = false ∧
    { mbWhole 0 0 0 0 with larch := false }.larch = false := by decide +kernel

/-- A DEVICE buffer that agent 0 holds whole, over a link that is up. -/
def hostLab : State :=
  { updPort deviceLab 16 fun p => { p with state := .up } with agents := [(0, { Agent.start with ctx := some 0, holdings := [agentUnits .whole 0] })] }

theorem witness_HostAccesses :
    (portAt lab 16).carries = false ∧ (portAt hostLab 16).carries = true ∧ hostLab.tripped = false ∧ { hostLab with tripped := true }.tripped = true ∧
    (let keep (page : Nat) : Bool := page * 4096 + 4096 ≤ hostPa 0 0x5000 || hostPa 0 0x5000 + 4096 ≤ page * 4096
     let touching (page : Nat) : State := modH hostLab fun h => { h with stOut := [{ va := 0, lines := [], hosts := [page], drop := false }] }
     (∀ h ∈ harts (touching 5), h.ldOut = 0 ∧ ∀ e ∈ h.stOut, ∀ page ∈ e.hosts, keep page = true) ∧
     (∃ h ∈ harts (touching (hostPa 0 0x5000 / 4096)), h.ldOut ≠ 0 ∨ ∃ e ∈ h.stOut, ∃ page ∈ e.hosts, keep page = false)) ∧
    (rangeFrom 0x5FFF 2).all (hostMay hostLab 0 false) = false ∧ (rangeFrom 0x6000 2).all (hostMay hostLab 0 true) = false ∧
    (let s := hostLab
     let pas := rangeFrom 0x5FFE 2
     pas.all (hostMay s 0 false) = true ∧ pas.all (hostMay s 0 true) = true ∧ hostWaits s pas = false ∧ (homeBytes s 0 pas).isSome = true ∧
       (writeHome s 0 (pas.zip [1, 2])).2 = true) ∧
    (let s := { hostLab with settled := false, ready := [] }
     let pas := rangeFrom 0x5FFE 2
     pas.all (hostMay s 0 false) = true ∧ hostWaits s pas = true) ∧
    (0x8000 ≤ 0x8000 ∧ 0x7FFC % 8 ≠ 0 ∧ [(0#8 : Byte)].length ≠ 8) ∧ hostLab.larch = true ∧ (tget hostLab.agents 0).isSome = true := by decide +kernel

/-! Witnesses: other devices -/

/-- Peer port 3 carries, its world 0 is this device's, and device 7 lies behind it. -/
def peerLab (s : State) : State :=
  { s with
    ports := tput s.ports 3 { portAt s 3 with state := .up, lanes := 4, worldMap := [(0, 0)] }
    routes := tput s.routes 7 3#8 }
/-- A reference to a buffer of device 7, whole, for hart 0 here. -/
def request : MoveReq :=
  { port := 3, src := 7, world := 0, audit := 5, index := 9, gen := 1, kind := 0, units := 0, ref := true, length := 4096, layout := 0, lparam := 0,
    comp := 0, dest := 0, tag := 0, scope := 6, expAddr := 0, collecting := false, home := false }
/-- The move of the whole buffer, entry 2, in its steps. -/
def moveRec (sending ref indoubt : Bool) (steps : BitVec 5) : Move :=
  { sending := sending, port := 3, peer := 7, audit := 5, index := 2, gen := 1, kind := .whole, units := 0, void := false, ref := ref, sender := 0,
    dest := 0, tag := 0, scope := 6, steps := steps, got := 0, exportBase := none, gate := none, indoubt := indoubt, answer := none, told := true,
    closed := false, length := 4096 }
def moving (m : Move) : State := { peerLab deviceLab with moves := [(1, m)] }
/-- Entry 2 exported to device 7. -/
def exportLab : State :=
  { updCap (peerLab lab) 2 id with
    caps := tput lab.caps 2 { buf .tile 0x010000001000 4096 with okind := .link }
    exports := [{ base := 0, len := 4096, index := 2, gen := 1, device := 7, world := 0, units := 1 }] }

theorem witness_MovesBetweenDevices :
    ((portAt (peerLab lab) 3).carries = true ∧ (ifOk (takeRequest (peerLab lab) request) fun _ => true) = true ∧
      (ifOk (takeRequest (peerLab lab) { request with world := 1 }) fun _ => true) = false) ∧
    (let s := moving (moveRec true true false 1)
     ifSome (moveAt s 1 true) fun m => m.linked s && !m.steps.getLsbD 1 && refusalStatus (status 4 0) && !gateBusy s m) = true ∧
    (let s := moving (moveRec true true false 15)
     ifSome (moveAt s 1 true) fun m => m.linked s && m.steps.getLsbD 3) = true ∧
    (let s := { peerLab tileLab with moves := [(1, moveRec false false false 3)] }
     ifSome (moveAt s 1 false) fun m => m.linked s && !m.ref && 4094 + 2 ≤ m.length && !m.steps.getLsbD 2 && ifSome (capAt s m.index) fun c =>
       ifSome (bufPas s m.index c 4094 2) fun pas => (writeHome s 0 (pas.zip [1, 2])).2) = true ∧
    (let s := moving (moveRec false true false 7)
     ifSome (moveAt s 1 false) fun m => m.linked s && m.steps.getLsbD 2 && m.kind == .whole && m.entryLives s) = true ∧
    (let m := { moveRec true true true 1 with gate := some 0 }
     let s := { peerLab (passLab 0) with moves := [(1, m)] }
     s.larch = true ∧ gateBusy s m = true ∧
       (ifSome (moveAt { s with moves := [(1, { m with indoubt := false })] } 1 true) fun m => m.linked s && !m.steps.getLsbD 1 && gateBusy s m) = true ∧
       (tget s.moves 1) = some m ∧ m.indoubt = true ∧ m.closed = false ∧ m.sending = true) ∧ { lab with larch := false }.larch = false ∧
    (let s := moving (moveRec true true true 15)
     s.larch = true ∧ (ifSome (tget s.moves 1) fun m => m.indoubt && !m.closed && !gateBusy s m) = true) ∧
    (match exportPas exportLab 3 1 0 8 false with | .error _ => true | _ => false) = true ∧
    (match exportPas exportLab 3 0 4095 2 true with | .error _ => true | _ => false) = true ∧
    (ifOk (exportPas exportLab 3 0 4094 2 false) fun pas => !hostWaits exportLab pas && (homeBytes exportLab 0 pas).isSome) = true ∧
    (ifOk (exportPas exportLab 3 0 4094 2 true) fun pas => !hostWaits exportLab pas && (writeHome exportLab 0 (pas.zip [1, 2])).2) = true ∧
    (let s := peerLab lab
     7 ≠ s.device ∧ (portAt s 3).carries = true ∧ (tgetD s.routes 7 0#8).getLsbD 7 = false ∧ relayUsed (portAt s (routePort s 7)) + 524288 ≤ 524288) := by
  decide +kernel

/-- A line of an exported DEVICE buffer that cannot be read. -/
theorem witness_MovesBetweenDevices_ecc :
    let s := updCap (peerLab deviceLab) 2 fun c => { c with okind := .link, base := 0 }
    let f : Frame := { Frame.none with ftype := .data, tensor := 2 }
    let s := { s with
      frames := tput pagedLab.frames 5 f, mem := pagedLab.mem, exports := [{ base := 0, len := 4096, index := 2, gen := 1, device := 7, world := 0, units := 1 }] }
    let s := setMeta s 0x5000 { metaOf s 0x5000 with bad := true }
    (ifOk (exportPas s 3 0 0 2 false) fun pas => !hostWaits s pas && (homeBytes s 0 pas).isNone) = true := by decide +kernel

/-- Peer port 3 and host port 0 in a state. -/
def linkLab (st : LinkState) (k : Option (BitVec 256 × BitVec 256)) (rx : BitVec 64) : State :=
  let p := { portAt lab 3 with state := st, key := k, rx := rx, tx := rx, lanes := if st == .down then 0 else 4 }
  { lab with ports := [(3, p), (16, p)], ready := tput lab.ready 37 0x8#32, tested := tput lab.tested 37 0x8#32 }

theorem witness_LinkStates :
    (let s := linkLab .down none 0
     (portAt s 3).state = .down ∧ s.larch = true ∧ unsettled s 37 3 = false ∧ isReady s 37 3 = true) ∧
    ((portAt (linkLab .training none 0) 3).state = .training ∧ (linkLab .training none 0).yew = true ∧ (portAt (linkLab .training (some (1, 2)) 0) 3).key.isSome = true ∧
      (portAt (linkLab .retrain none 0) 16).state = .retrain ∧ (portAt (linkLab .training none 0) 16).key = none ∧
      (portAt (linkLab .training none 0) 16).state = .training) ∧
    (let k := portAt (linkLab .up (some (1, 2)) 9) 3
     k.key.isSome = true ∧ k.carries = true ∧ k.state ≠ .keyed ∧ k.rx = 9 ∧ k.rx ≠ 8 ∧ k.tx ≠ 0 ∧ 4 ≤ fullLanes 3) ∧
    (let k := portAt (linkLab .keyed (some (1, 2)) 0) 3
     k.key.isSome = true ∧ k.state = .keyed ∧ k.rx = 0) ∧
    (portAt (linkLab .degraded (some (1, 2)) 9) 3).state = .degraded := by decide +kernel

/-! Witnesses: the package -/

theorem witness_FirmwareActions :
    (ctxOf lab 5 = none ∧ lab.larch = true ∧ lab.yew = true ∧ { lab with larch := false, yew := false }.larch = false) ∧
    (let l := ctxsOfWorld lab 0
     drainBusy (drainCtxs lab 0 l) l = true ∧ drainBusy (drainCtxs lab 9 (ctxsOfWorld lab 9)) (ctxsOfWorld lab 9) = false ∧
       (abortCopies lab (((harts lab).filter fun h => l.contains h.ctx).map (·.loc))).2 = true) ∧
    (let e := emptyWorld (drainCtxs lab 0 [0]) 0 [0]
     scrubBusy e 0 = false ∧ (ifSome (ctxOf e 0) fun _ => true) = true) ∧
    (let v := { lab with frames := [(5, { Frame.none with ftype := .data, world := 9 }), (6, { Frame.none with ftype := .data, world := 9 })] }
     drainBusy (drainCtxs v 9 (ctxsOfWorld v 9)) (ctxsOfWorld v 9) = false ∧ (worldFrames v 9).filter (fun f => f / 2 ^ 24 == 0) = [5, 6] ∧
       (v.scrubs.get 0).act = false ∧ scrubBusy (emptyWorld v 9 []) 9 = true) ∧
    gateOk lab { dw0 := 8, dw1 := 0, dest := 0, dw3 := 0, endorsed := true } = true ∧
    (tget { lab with gates := [(3, [8, 0, 0, 0])] }.gates 3).isSome = true ∧
    (ifSome (ctxOf lab 0) fun c => c.life == .installed && decide (c.regions.length < 4)) = true ∧
    ((agentAt lab 0).holdings = [] ∧ (agentAt lab 0).arrivals = [] ∧ (agentAt lab 0).reports = []) ∧
    (let base := 2 ^ 53
     let len := 4096
     base % 4096 = 0 ∧ len % 4096 = 0 ∧ len ≠ 0 ∧ isPoolPa base = true ∧ isPoolPa (base + len - 1) = true ∧
       clear (publications lab) base (base + len) = true) ∧
    (∀ n, BwUnit.hbm 0 ≠ .ctx n) := by
  refine ⟨?_, ?_, ?_, ?_, ?_, ?_, ?_, ?_, ?_, fun n h => BwUnit.noConfusion h⟩ <;> decide +kernel

theorem witness_DeviceEvents :
    (let f : FnBit := ⟨36, 24⟩
     isFunction f = true ∧ isSettled State.reset 36 24 = false) ∧
    (isReady lab 0 0 = true ∧ (0 : Nat) ≠ 37) ∧ (isReady (linkLab .up none 0) 37 3 = true ∧ (linkLab .up none 0).larch = true) ∧
    (lab.tripped = false ∧ lab.larch = true ∧ lab.yew = true ∧ { lab with larch := false }.larch = false ∧
      { lab with deviceFixed := false }.deviceFixed = false) ∧
    (let t := (storedOn lab 0).foldl contain lab
     ifSome (hartOn t 0) fun h => (abortCopies t (endsWith t h.loc)).2) = true ∧ hartOn ((storedOn lab 1).foldl contain lab) 1 = none := by
  refine ⟨?_, ?_, ?_, ?_, ?_, ?_⟩ <;> decide +kernel
/-! Words: the match of each row of spec/opcode_table.json with operands in its fields (R33 to R43) -/

theorem test_words_buffers :
    decode32 0x00C5850B#32 = .instr (.balloc 10 11 12) ∧
    decode32 0x0205800B#32 = .instr (.bfree 11) ∧
    decode32 0x04C5850B#32 = .instr (.bsplit 10 11 12) ∧
    decode32 0x06C5850B#32 = .instr (.bjoin 10 11 12) ∧
    decode32 0x0805850B#32 = .instr (.bbase 10 11) ∧
    decode32 0x0A05850B#32 = .instr (.blen 10 11) ∧
    decode32 0x0C05850B#32 = .instr (.bprobe 10 11) ∧
    decode32 0x0EC5850B#32 = .instr (.blayout 10 11 12) ∧
    decode32 0x10C5850B#32 = .instr (.bmove 10 11 12) ∧
    decode32 0x12C5850B#32 = .instr (.bopen 10 11 12) ∧
    decode32 0x14C5850B#32 = .instr (.bclose 10 11 12) ∧
    decode32 0x16C5850B#32 = .instr (.bgate 10 11 12) ∧
    decode32 0x1800050B#32 = .instr (.brecv 10) ∧
    decode32 0x1A00050B#32 = .instr (.brecvNb 10) ∧
    decode32 0x1E05850B#32 = .instr (.brevoke 10 11) ∧
    decode32 0x68C5950B#32 = .instr (.bsend 10 11 12 13) ∧
    decode32 0x6AC5950B#32 = .instr (.bsendLocal 10 11 12 13) ∧
    decode32 0x6CC5950B#32 = .instr (.bsendRef 10 11 12 13) ∧
    decode32 0x8AC5A28B#32 = .instr (.dsb 12 11 0x8A5#12) ∧
    decode32 0x8AC5B28B#32 = .instr (.dsh 12 11 0x8A5#12) ∧
    decode32 0x8AC5C28B#32 = .instr (.dsw 12 11 0x8A5#12) ∧
    decode32 0x8AC5D28B#32 = .instr (.dsd 12 11 0x8A5#12) ∧
    decode32 0x8AC5E28B#32 = .instr (.dsn 12 11 0x8A5#12) ∧
    decode32 0x00C5F50B#32 = .instr (.daAddW 10 11 12) ∧
    decode32 0x02C5F50B#32 = .instr (.daMinW 10 11 12) ∧
    decode32 0x04C5F50B#32 = .instr (.daMaxW 10 11 12) ∧
    decode32 0x06C5F50B#32 = .instr (.daMinuW 10 11 12) ∧
    decode32 0x08C5F50B#32 = .instr (.daMaxuW 10 11 12) ∧
    decode32 0x0AC5F50B#32 = .instr (.daAndW 10 11 12) ∧
    decode32 0x0CC5F50B#32 = .instr (.daOrW 10 11 12) ∧
    decode32 0x0EC5F50B#32 = .instr (.daXorW 10 11 12) ∧
    decode32 0x10C5F50B#32 = .instr (.daXchgW 10 11 12) ∧
    decode32 0x12C5F50B#32 = .instr (.daCasW 10 11 12) ∧
    decode32 0x14C5F50B#32 = .instr (.daFaddW 10 11 12) ∧
    decode32 0x40C5F50B#32 = .instr (.daAddD 10 11 12) ∧
    decode32 0x42C5F50B#32 = .instr (.daMinD 10 11 12) ∧
    decode32 0x44C5F50B#32 = .instr (.daMaxD 10 11 12) ∧
    decode32 0x46C5F50B#32 = .instr (.daMinuD 10 11 12) ∧
    decode32 0x48C5F50B#32 = .instr (.daMaxuD 10 11 12) ∧
    decode32 0x4AC5F50B#32 = .instr (.daAndD 10 11 12) ∧
    decode32 0x4CC5F50B#32 = .instr (.daOrD 10 11 12) ∧
    decode32 0x4EC5F50B#32 = .instr (.daXorD 10 11 12) ∧
    decode32 0x50C5F50B#32 = .instr (.daXchgD 10 11 12) ∧
    decode32 0x52C5F50B#32 = .instr (.daCasD 10 11 12) ∧
    decode32 0x8005F50B#32 = .instr (.dflush 10 11) := by decide

theorem test_words_arithmetic :
    decode32 0x192880AB#32 = .instr (.mmaF4f4 1 (.cb 1) (.cb 2) 3) ∧
    decode32 0x192881AB#32 = .instr (.mmaF4e4 1 (.cb 1) (.cb 2) 3) ∧
    decode32 0x192882AB#32 = .instr (.mmaE4e4 1 (.cb 1) (.cb 2) 3) ∧
    decode32 0x192883AB#32 = .instr (.mmaE4e5 1 (.cb 1) (.cb 2) 3) ∧
    decode32 0x192884AB#32 = .instr (.mmaE5e4 1 (.cb 1) (.cb 2) 3) ∧
    decode32 0x192885AB#32 = .instr (.mmaE5e5 1 (.cb 1) (.cb 2) 3) ∧
    decode32 0x192886AB#32 = .instr (.mmaBfbf 1 (.cb 1) (.cb 2) 3) ∧
    decode32 0x192887AB#32 = .instr (.mmaHfhf 1 (.cb 1) (.cb 2) 3) ∧
    decode32 0x192888AB#32 = .instr (.mmaI8i8 1 (.cb 1) (.cb 2) 3) ∧
    decode32 0x192889AB#32 = .instr (.mmaI8i4 1 (.cb 1) (.cb 2) 3) ∧
    decode32 0x19288AAB#32 = .instr (.mmaBpi8 1 (.cb 1) (.cb 2) 3) ∧
    decode32 0x19288BAB#32 = .instr (.mmaBpbp 1 (.cb 1) (.cb 2) 3) ∧
    decode32 0x000010AB#32 = .instr (.mzero 1) ∧
    decode32 0x0205902B#32 = .instr (.mcfg 11) ∧
    decode32 0x040890AB#32 = .instr (.mldacc 1 1) ∧
    decode32 0x060890AB#32 = .instr (.mstacc 1 1) ∧
    decode32 0x4738A0AB#32 = .instr (.mdrain 1 .fp16 .rup 1 (some 3)) ∧
    decode32 0x6862412B#32 = .instr (.vdotbFp4 2 4 6 13) ∧
    decode32 0x6A62412B#32 = .instr (.vdotbE4m3 2 4 6 13) ∧
    decode32 0x6C62412B#32 = .instr (.vdotbE5m2 2 4 6 13) ∧
    decode32 0x6E62412B#32 = .instr (.vdotbInt8 2 4 6 13) ∧
    decode32 0x2062512B#32 = .instr (.vcvtn .e4m3 .rne 2 4 6) ∧
    decode32 0x2062612B#32 = .instr (.vcvtw .e4m3 2 4 6) ∧
    decode32 0x0002712B#32 = .instr (.vbscale .e8m0 2 4) ∧
    decode32 0x0234712B#32 = .instr (.vplnPack 2 8 3) ∧
    decode32 0x0434712B#32 = .instr (.vplnGet 2 8 3) ∧
    decode32 0x0605F12B#32 = .instr (.vrng 2 11) ∧
    decode32 0x0805F12B#32 = .instr (.vamax 2 11) := by decide

theorem test_words_engines :
    decode32 0x00C5895B#32 = .instr (.cbcfg 2 11 12) ∧
    decode32 0x0205895B#32 = .instr (.cbacq 2 11) ∧
    decode32 0x0405895B#32 = .instr (.cbrel 2 11) ∧
    decode32 0x0A09055B#32 = .instr (.cbqry 10 2) ∧
    decode32 0x68C5955B#32 = .instr (.copy 10 11 12 13) ∧
    decode32 0x6AC5955B#32 = .instr (.red 10 11 12 13) ∧
    decode32 0x6CC5955B#32 = .instr (.gath 10 11 12 13) ∧
    decode32 0x6EC5955B#32 = .instr (.scat 10 11 12 13) ∧
    decode32 0x68C5A55B#32 = .instr (.fill 10 11 12 13) ∧
    decode32 0x6AC5A55B#32 = .instr (.cmp 10 11 12 13) ∧
    decode32 0x0005B2DB#32 = .instr (.ecfg 5 11) ∧
    decode32 0x02C5B05B#32 = .instr (.ebind 11 12) ∧
    decode32 0x04C5B55B#32 = .instr (.epost 10 11 12) ∧
    decode32 0x0600355B#32 = .instr (.erecv 10) ∧
    decode32 0x0800355B#32 = .instr (.erecvNb 10) ∧
    decode32 0x0A05B05B#32 = .instr (.etick 11) ∧
    decode32 0x0C05B55B#32 = .instr (.erd 10 11) ∧
    decode32 0x0EC5B05B#32 = .instr (.ewr 11 12) ∧
    decode32 0x68C5C55B#32 = .instr (.qpush 10 11 12 13) ∧
    decode32 0x6AC5C55B#32 = .instr (.qpushW 10 11 12 13) ∧
    decode32 0x0005D55B#32 = .instr (.qpop 10 11) ∧
    decode32 0x0205D55B#32 = .instr (.qpopNb 10 11) ∧
    decode32 0x10C5D55B#32 = .instr (.klaunch 10 11 12) ∧
    decode32 0x1205D55B#32 = .instr (.kjoin 10 11) ∧
    decode32 0x1400505B#32 = .instr (.kexit) := by decide

theorem test_words_groups :
    decode32 0x0005857B#32 = .instr (.gjoin 10 11) ∧
    decode32 0x0205807B#32 = .instr (.gleave 11) ∧
    decode32 0x0405857B#32 = .instr (.gsize 10 11) ∧
    decode32 0x0605857B#32 = .instr (.gfuse 10 11) ∧
    decode32 0x0800007B#32 = .instr (.gsplit) ∧
    decode32 0x0A00057B#32 = .instr (.grank 10) ∧
    decode32 0x00C5907B#32 = .instr (.barr 11 12) ∧
    decode32 0x0205957B#32 = .instr (.barw 10 11) ∧
    decode32 0x0405957B#32 = .instr (.bart 10 11) ∧
    decode32 0x06C5907B#32 = .instr (.barc 11 12) ∧
    decode32 0x00C5A57B#32 = .instr (.svAdd 10 11 12) ∧
    decode32 0x02C5A57B#32 = .instr (.svMin 10 11 12) ∧
    decode32 0x04C5A57B#32 = .instr (.svMax 10 11 12) ∧
    decode32 0x06C5A57B#32 = .instr (.svMinu 10 11 12) ∧
    decode32 0x08C5A57B#32 = .instr (.svMaxu 10 11 12) ∧
    decode32 0x0AC5A57B#32 = .instr (.svAnd 10 11 12) ∧
    decode32 0x0CC5A57B#32 = .instr (.svOr 10 11 12) ∧
    decode32 0x0EC5A57B#32 = .instr (.svXchg 10 11 12) ∧
    decode32 0x10C5A57B#32 = .instr (.svCas 10 11 12) ∧
    decode32 0x12C5A57B#32 = .instr (.svMaxrst 10 11 12) ∧
    decode32 0x14C5A57B#32 = .instr (.svWaitge 10 11 12) ∧
    decode32 0x00C5C07B#32 = .instr (.cmoCleanHart 11 12) ∧
    decode32 0x02C5C07B#32 = .instr (.cmoCleanCluster 11 12) ∧
    decode32 0x04C5C07B#32 = .instr (.cmoCleanLcache 11 12) ∧
    decode32 0x06C5C07B#32 = .instr (.cmoCleanAll 11 12) ∧
    decode32 0x08C5C07B#32 = .instr (.cmoCleanRemote 11 12) ∧
    decode32 0x20C5C07B#32 = .instr (.cmoInvHart 11 12) ∧
    decode32 0x22C5C07B#32 = .instr (.cmoInvCluster 11 12) ∧
    decode32 0x24C5C07B#32 = .instr (.cmoInvLcache 11 12) ∧
    decode32 0x26C5C07B#32 = .instr (.cmoInvAll 11 12) ∧
    decode32 0x28C5C07B#32 = .instr (.cmoInvRemote 11 12) ∧
    decode32 0x40C5C07B#32 = .instr (.cmoClinvHart 11 12) ∧
    decode32 0x42C5C07B#32 = .instr (.cmoClinvCluster 11 12) ∧
    decode32 0x44C5C07B#32 = .instr (.cmoClinvLcache 11 12) ∧
    decode32 0x46C5C07B#32 = .instr (.cmoClinvAll 11 12) ∧
    decode32 0x48C5C07B#32 = .instr (.cmoClinvRemote 11 12) ∧
    decode32 0x00C5D07B#32 = .instr (.invpg 11 12) ∧
    decode32 0x02C5D07B#32 = .instr (.ctxsave 11 12) ∧
    decode32 0x0405D07B#32 = .instr (.ctxload 11) ∧
    decode32 0x0605D07B#32 = .instr (.scrub 11) ∧
    decode32 0x86C6F17B#32 = .instr (.wait { ld := 1, st := 2, cp := 33, mx := 5, dp := 4, sd := 3 }) := by decide

/-! One step, or one operation: the results are those of the spec's worked examples and rules -/

/-- R218: the block {12, -5, 0.7, 3, 0, -0.3, 1.1, 9} in v8, vl 8: VBSCALE.E8M0 writes 0x80. -/
def blockLab : State :=
  let v8 : BitVec 512 := BitVec.ofNat 512 (leNat ((([0x41400000, 0xC0A00000, 0x3F333333, 0x40400000, 0, 0xBE99999A, 0x3F8CCCCD, 0x41100000] : List Nat).map
    fun c => leBytes 4 c).flatten))
  modH lab fun h => { h with v := h.v.set 8 v8, csr := { h.csr with vill := false, vtype := 0xD0, vl := 8 } }
def scaledLab : State := after (.vbscale .e8m0 3 8) blockLab
theorem test_vbscale : ((scaledLab.h.v.get 3).toNat % 256, scaledLab.h.pc) = (0x80, lab.h.pc + 4) := by decide +kernel
/-- VCVTN.FP4.RNE of it: bytes 0xC7, 0x31, 0x80, 0x61, and NX and UF. -/
theorem test_vcvtn : let t := after (.vcvtn .fp4 .rne 1 8 3) scaledLab; ((t.h.v.get 1).toNat % 2 ^ 32, t.h.csr.fflags) = (0x618031C7, 3#5) := by
  decide +kernel
/-- VCVTW.FP4 with the same scale: 12, -4, 1, 3, +0, -0, 1, 8. -/
theorem test_vcvtw :
    let t := after (.vcvtw .fp4 4 1 3) (after (.vcvtn .fp4 .rne 1 8 3) scaledLab)
    (rangeFrom 0 8).map (fun k => (t.h.v.get 4).toNat / 2 ^ (32 * k) % 2 ^ 32) =
      [0x41400000, 0xC0800000, 0x3F800000, 0x40400000, 0, 0x80000000, 0x3F800000, 0x41000000] := by decide +kernel

/-- R58: element 0b10110110 is -128 with 2 planes, -80 with 4, -74 with 8. -/
theorem test_planes :
    [2, 4, 8].map (fun n => planeCode (packPlanes [0xB6#8] 8) n 0) = [0x80, 0xB0, 0xB6] := by decide +kernel
/-- R69: the first word of hart 0 under seed 0 at position (0, 0). -/
theorem test_philox : (philox 0 0 0 0 0).head? = some 0x6627E8D5 := by decide +kernel
/-- R67: 1.25 under that word goes to 1.0, and to 1.5 from r = 0x8000 on. -/
theorem test_stochastic :
    (NarrowFmt.fp4.cvt (Rnd.sr.mode 0x6627E8D5#32) false (FFmt.fp32.value 0x3FA00000), NarrowFmt.fp4.cvt (Rnd.sr.mode 0x80000000#32) false
      (FFmt.fp32.value 0x3FA00000), NarrowFmt.fp4.cvt (Rnd.sr.mode 0x7FFF0000#32) false (FFmt.fp32.value 0x3FA00000)) =
      ((2, { FFlags.none with nx := true }), (3, { FFlags.none with nx := true }), (2, { FFlags.none with nx := true })) := by decide +kernel
/-- R62: the sum 2^24 + 1 rounds to 2^24, and so does 2^24 + 1 added to it. -/
theorem test_sums : ({ PCell.zero with sum := { m := 2 ^ 24 + 2, e := 0 } } : PCell).finish 0x3F800000 0 = 0x4B800001 ∧
    ({ PCell.zero with sum := { m := 2 ^ 24 + 1, e := 0 } } : PCell).finish 0x3F800000 0 = 0x4B800000 ∧
    accumulate 0x4B800000 0x3F800000 = 0x4B800000 := by decide +kernel
/-- R62: eight products 6 × 6 under two scales 2^-127 and the tensor scale 2^127. -/
theorem test_scales :
    let six := NarrowFmt.fp4.value 7
    let sc := scaleProduct (scaleValue false 0) (scaleValue false 0)
    ((List.replicate 8 ()).foldl (fun (p : PCell) _ => p.addTerm sc six six) PCell.zero).finish 0x7F000000 0 = 0x04100000 := by decide +kernel

/-- R87, R89: BSPLIT of entry 2 into 3 units, then BJOIN of one: PARTIAL, 2 outstanding; of all: the WHOLE handle. -/
def splitLab : State := wx (after (.bsplit 12 10 11) (wx tileLab 11 3)) 11 (units 2 .share 1)
theorem test_bsplit : rx splitLab 12 = 0x0000000200011003#64 := by decide +kernel
theorem test_bjoin :
    rx (after (.bjoin 13 10 11) splitLab) 13 = 0x202#64 ∧ rx (after (.bjoin 13 10 12) splitLab) 13 = 0x0000000200010000#64 := by decide +kernel
/-- R18: TILE offset 0x100 of tile 5 of cluster 35. -/
theorem test_tileBase : tileBase (35 * 16 + 5) + 0x100 = 0x010023500100 := by decide
/-- R97, R91: after BSEND of a buffer the sender's store raises OWNERSHIP with its address. -/
theorem test_store_after_send :
    let s := after (.bsend 12 10 11 0) (sendLab 1)
    let t := after (.scalarStore .sd 13 14 0) (wx s 14 0x010000001040#64)
    (rx s 12, t.h.mode, t.h.csr.mcause, t.h.csr.mtval, t.mem == s.mem) = (0, .m, 24, 0x010000001040#64, true) := by decide +kernel
/-- R290: SV.CAS answers with the old value and writes only on a match; SV.ADD in turn. -/
theorem test_variable :
    let s := wx (wx varLab 11 0) 12 7
    let t := after (.svCas 10 11 12) (wx s 10 0)
    let u := after (.svAdd 13 11 12) t
    (rx t 10, (varAt t 0).value, rx u 13, (varAt u 0).value) = (0, 7, 7, 14) := by decide +kernel
/-- R331 to R334: the lengths of the full and of the incremental image of the example. -/
theorem test_imageLength :
    imageLength false (rangeFrom 0 14) (rangeFrom 0 4) = 144128 ∧ imageLength false [0, 2, 13] [1] = 5632 := by decide +kernel
/-- R325: ECALL from U-mode goes to M-mode with cause 8, the pc saved and the handler's address in the pc. -/
theorem test_ecall :
    let s := modC lab fun c => { c with mtvec := 0x8000 }
    (match execBase .ecall s with | .next t => (t.h.mode, t.h.csr.mcause, t.h.csr.mepc == s.h.pc, t.h.pc) | _ => (.u, 0, false, 0)) =
      (.m, 8, true, 0x8000) := by decide +kernel
/-- R192: a plane code of 7 raises ENGINE with the operand, and the other value is written. -/
theorem test_mcfg :
    (after (.mcfg 11) (wx lab 11 0x23)).h.csr.mcfg = 0x23 ∧ (after (.mcfg 11) (wx lab 11 0x23)).h.mode = .u ∧
    (let t := after (.mcfg 11) (wx lab 11 0x700); t.h.mode = .m ∧ t.h.csr.mcause = 28 ∧ t.h.csr.mtval = 0x700 ∧ t.h.csr.mcfg = 0) := by decide +kernel

/-! Witnesses: statements whose premises are single comparisons -/

theorem witness_RetirementAndRegisters : (5 : Reg) ≠ 0 ∧ (5 : Reg) ≠ 31 := by decide
/-- A slot of each size and of each operation. -/
theorem witness_DepositedValues :
    ([0, 3, 4, 5].all fun z => [0x10, 0, 1, 2, 3, 4, 5, 6, 7, 8, 9].all fun o =>
      let k : Slot := { mult := 1, elems := 1, size := z, returning := false, void := false, lost := false, op := o, offset := 0, value := 1,
                        expect := 0, hart := 0, device := 0, born := 0 }
      k.size == z && k.op == o) = true := by decide

/-! Further clauses -/

theorem witness_WaitsAndCounters_stall :
    let s := modH lab fun h => { h with ldOut := 1 }
    ¬ s.h.ldOut ≤ 0 ∧ allUnfired s.h true = true ∧ cpCount s.h ≤ 0 ∧ mxCount s.h ≤ 0 := by decide

theorem witness_Inspection_more :
    (let s := tileLab
     (ifSome (matching (s.h.holdings ++ kernelHoldings s s.h.loc) (rx s 10)) fun g => ifSome (capAt s g.index) fun c =>
       c.layout < 16 && c.comp < 8 && g.units < 4096 && c.outst < 4096) = true) := by decide +kernel
theorem witness_Allocation_layout_more :
    (let s := tileLab
     (ifOk (needOwned s (rx s 10)) fun c => layoutOk 6 c.length 0 == false && (16 : Word) &&& 0xFFFF000000FFFFF0#64 != 0) = true) ∧
    (let s := updCap tileLab 2 fun c => { c with state := .lent, lends := 1 }
     (ifOk (checkIn s s.h.holdings (rx s 10)) fun (g, c) => g.kind == .whole && c.state == .lent && !c.lendcb) = true ∧
     (ifOk (needOwned s (rx s 10)) fun _ => true) = false) ∧
    (let s := updCap tileLab 2 fun c => { c with state := .shared }
     (ifOk (checkIn s s.h.holdings (rx s 10)) fun (g, c) => g.kind == .whole && c.state == .shared) = true) := by decide +kernel

/-- A returning form whose payload is lost; a packet for a slice that is held in reset; a peer's packets with the number that is expected and with
another; NaN for FADD. -/
theorem witness_Deposits_more :
    ({ windowLab with payloadLost := [0] }.payloadLost.contains windowLab.h.loc) = true ∧
    (let s := { packetLab with ready := [(0, 1), (32, 1), (36, 0xFFFFFFFF)] }
     ifSome ((frontPackets s)[0]?) fun p => ifSome (capAt s p.index) fun c => p.slots.all fun k =>
       c.level == .cluster && sliceHeld s (lineHome s p.index c k.offset) && !(ifOk (performSlots s p p.slots) fun _ => true)) = true ∧
    (let s := { packetLab with packets := packetLab.packets.map fun p => { p with fromPort := some 3, device := 1, num := 5 } }
     (ifSome s.packets.head? fun p => let t := { s with expected := [(p.peerSeries, 5)] }
       expectedNow t p && (frontPackets t).contains p && !expectedNow { s with expected := [(p.peerSeries, 4)] } p && !expectedNow s p)) = true ∧
    FFmt.fp32.value 0x7FC00000 = .nan ∧ FFmt.fp32.value 0x3F800000 ≠ .nan := by decide +kernel

theorem witness_FlushingAndDraining_more :
    (let s := updPort (drainLab (Drain.mk [.port 3] [])) 3 fun p => { p with state := .up }
     (portAt s 3).carries = true ∧ capAt s 9 = none ∧ (portAt (drainLab (Drain.mk [.port 3] [])) 3).carries = false) ∧
    (let s := drainLab (Drain.mk [] [.cluster 0])
     (ifSome (capAt s 3) fun c => (windowHome s 3 c).isSome && !(windowHome s 3 c).any (sliceHeld s) &&
       (windowHome s 3 c).any (sliceHeld { s with ready := [] }) && !clusterBusy s 3 c.gen 0) = true) ∧
    depositAt lab (rx lab 13).toNat = none ∧
    (ifSome (depositAt storedLab (rx storedLab 13).toNat) fun (g, _) =>
      let u := flushWindow storedLab storedLab.h g.index g.gen
      unanswered u u.h.loc g.index g.gen) = true := by decide +kernel

theorem witness_GroupsAndGangs_dissolved :
    (ifSome (tget coreLab.kernels 0) fun k => (tget k.groups 7).isNone) = true := by decide +kernel
end Sys2Proof.Tests
end

section
/-! PROOF. What a slice makes of the bytes of a deposit element (R138, R139): one equation for each size of element and each operation, and the
NaN rule of the sum (R54). -/

namespace Sys2Proof.Machine

/-! Sums with a NaN (R54) -/

theorem addV_nan_left (f : FFmt) (rm : RM) (snan : Bool) (b : FV) : f.addV rm snan .nan b = quietNan f snan := rfl

theorem addV_nan_right (f : FFmt) (rm : RM) (snan : Bool) (a : FV) : f.addV rm snan a .nan = quietNan f snan := by
  cases a <;> rfl

/-- A NaN operand gives the canonical NaN, whatever its sign and payload. -/
theorem add_of_nan {f : FFmt} (rm : RM) {a b : Nat} (h : f.value a = .nan ∨ f.value b = .nan) : (f.add rm a b).1 = f.nanCode := by
  unfold FFmt.add
  obtain ha | hb := h
  · rw [ha, addV_nan_left, quietNan]
  · rw [hb, addV_nan_right, quietNan]

theorem fp32_nanCode : FFmt.fp32.nanCode = 0x7FC00000 := by decide

/-! Operations of DA.op and the store (R138, R139) -/

section
variable (w old v e : Nat)

theorem depValue_store : depValue opStore w old v e = v := rfl
theorem depValue_add : depValue 0 w old v e = (old + v) % 2 ^ w := rfl
theorem depValue_minu : depValue 3 w old v e = min old v := rfl
theorem depValue_maxu : depValue 4 w old v e = max old v := rfl
theorem depValue_and : depValue 5 w old v e = old &&& v := rfl
theorem depValue_or : depValue 6 w old v e = old ||| v := rfl
theorem depValue_xor : depValue 7 w old v e = old ^^^ v := rfl
theorem depValue_xchg : depValue 8 w old v e = v := rfl
theorem depValue_cas : depValue 9 w old v e = if old = e then v else old := rfl
theorem depValue_fadd : depValue 10 w old v e = (FFmt.fp32.add .rne old v).1 := rfl

theorem depValue_min : depValue 1 w old v e = if signed w old < signed w v then old else v := by simp [depValue]
theorem depValue_max : depValue 2 w old v e = if signed w old < signed w v then v else old := by simp [depValue]

theorem signed_depValue_min : signed w (depValue 1 w old v e) = min (signed w old) (signed w v) := by
  rw [depValue_min]
  split
  case isTrue hlt => omega
  case isFalse hge => omega

theorem signed_depValue_max : signed w (depValue 2 w old v e) = max (signed w old) (signed w v) := by
  rw [depValue_max]
  split
  case isTrue hlt => omega
  case isFalse hge => omega

theorem depValue_fadd_of_nan (h : FFmt.fp32.value old = .nan ∨ FFmt.fp32.value v = .nan) : depValue 10 w old v e = 0x7FC00000 := by
  rw [depValue_fadd, add_of_nan .rne h, fp32_nanCode]

end

/-! Elements by their size -/

section
variable {k : Slot} (old : Nat)

theorem elemValue_lowNibble (h : k.size = 4) : elemValue k old = old / 16 * 16 + k.value.toNat % 16 := by
  simp [elemValue, sizeBytes, h]

theorem elemValue_highNibble (h : k.size = 5) : elemValue k old = old % 16 + k.value.toNat % 16 * 16 := by
  simp [elemValue, sizeBytes, h]

theorem elemValue_wholeBytes (h : k.size < 4) :
    elemValue k old = depValue k.op (8 * sizeBytes k.size) old (k.value.toNat % 2 ^ (8 * sizeBytes k.size))
      (k.expect.toNat % 2 ^ (8 * sizeBytes k.size)) := by
  rw [elemValue, if_neg (by omega), if_neg (by omega)]

end

/-- Settles O30, by the size of the element and then by its operation. -/
theorem depositedValues : Obligations.DepositedValues := by
  intro k old n v
  refine ⟨elemValue_lowNibble old, elemValue_highNibble old, fun hsize => ?_⟩
  rw [elemValue_wholeBytes old hsize]
  generalize k.op = op
  refine ⟨?store, ?add, ?minu, ?maxu, ?min, ?max, ?and, ?or, ?xor, ?xchg, ?cas, ?fadd⟩ <;> rintro rfl
  case store => exact depValue_store ..
  case add => exact depValue_add ..
  case minu => exact depValue_minu ..
  case maxu => exact depValue_maxu ..
  case min => exact signed_depValue_min ..
  case max => exact signed_depValue_max ..
  case and => exact depValue_and ..
  case or => exact depValue_or ..
  case xor => exact depValue_xor ..
  case xchg => exact depValue_xchg ..
  case cas => exact depValue_cas ..
  case fadd => exact ⟨depValue_fadd .., depValue_fadd_of_nan _ _ _ _⟩

end Sys2Proof.Machine
end
